-- ==== Sys2Proof/Word.lean ====
section
/-!
DEFINITION. The word types of the ISD740 (spec/02_instruction_word.md R14, R22; spec/00_scope.md R5).
-/
namespace Sys2Proof

/-- One byte. -/
abbrev Byte := BitVec 8

/-- A 64-bit word: a general register of E, a register of L, S or the umpire, a generic address (R16, R54). -/
abbrev Word := BitVec 64

/-- A 128-bit vector register or queue entry (R22, R24). -/
abbrev V128 := BitVec 128

/-- A 40-bit accumulator element, as a raw code (R161, R162). -/
abbrev Acc40 := BitVec 40

/-- A Norom instruction word (R14). -/
abbrev NWord := BitVec 96

end Sys2Proof
end

