-- ==== Sys2Proof/Syntax.lean ====
section
/-!
DEFINITION. The abstract syntax of the ISD740's steps (spec/02_instruction_word.md R14 to R33,
spec/11_access_strands_queues.md R187 to R193, spec/95_what_each_step_holds.md).
-/
namespace Sys2Proof

/-- The fields of a Norom word below OP and FN, raw: MOD, D, A, B, the guard G and the hints H (R14).
Kinds are read at execution, since an illegal kind in an unused field is ignored (R20, R28). -/
structure Norom where
  mod : BitVec 6
  d : BitVec 16
  a : BitVec 16
  b : BitVec 16
  g : BitVec 8
  h : BitVec 20
  deriving DecidableEq, Repr

/-- The three strands of a core (R40). -/
inductive Strand where
  | e | l | s
  deriving DecidableEq, Repr

/-- Whose turn it is: a strand of a core, the umpire of a court, or the floor and the host. -/
inductive Agent where
  | strand (core : Nat) (k : Strand)
  | umpire (court : Nat)
  | floor
  deriving DecidableEq, Repr

/-- How an RV64 instruction stood in its store: four bytes, or the 16-bit parcel of the C extension (R187, R306). -/
inductive RvLen where
  | four
  | two (parcel : BitVec 16)
  deriving DecidableEq, Repr

/-- The register-register operations of RV64I, M, Zba and Zbb (R187). -/
inductive RvAlu where
  | add | sub | sll | slt | sltu | xor | srl | sra | or | and
  | mul | mulh | mulhsu | mulhu | div | divu | rem | remu
  | sh1add | sh2add | sh3add
  | andn | orn | xnor | max | maxu | min | minu | rol | ror
  deriving DecidableEq, Repr

/-- The 32-bit (W) register-register operations and the .uw forms of Zba (R187). -/
inductive RvAluW where
  | addw | subw | sllw | srlw | sraw
  | mulw | divw | divuw | remw | remuw
  | adduw | sh1adduw | sh2adduw | sh3adduw
  | rolw | rorw
  deriving DecidableEq, Repr

/-- The register-immediate operations with a 12-bit immediate. -/
inductive RvAluI where
  | addi | slti | sltiu | xori | ori | andi
  deriving DecidableEq, Repr

/-- The shifts and rotations by a 6-bit amount. -/
inductive RvShI where
  | slli | srli | srai | rori | slliuw
  deriving DecidableEq, Repr

/-- The 32-bit shifts and rotations by a 5-bit amount. -/
inductive RvShIW where
  | slliw | srliw | sraiw | roriw
  deriving DecidableEq, Repr

/-- The one-operand operations of Zbb. -/
inductive RvUn where
  | clz | ctz | cpop | sextb | sexth | zexth | orcb | rev8 | clzw | ctzw | cpopw
  deriving DecidableEq, Repr

/-- The branch conditions of RV64I. -/
inductive RvCond where
  | eq | ne | lt | ge | ltu | geu
  deriving DecidableEq, Repr

/-- The ordinary instructions of L, S and the umpire, and the two outcomes of a fetch that is none. -/
inductive RvInt where
  | lui (imm : BitVec 20) (rd : BitVec 5)
  | auipc (imm : BitVec 20) (rd : BitVec 5)
  /-- Offset in units of two bytes, [20:1] of the byte offset. -/
  | jal (off : BitVec 20) (rd : BitVec 5)
  | jalr (imm : BitVec 12) (rs1 rd : BitVec 5)
  /-- Offset in units of two bytes, [12:1] of the byte offset. -/
  | branch (c : RvCond) (off : BitVec 12) (rs2 rs1 : BitVec 5)
  | alu (op : RvAlu) (rs2 rs1 rd : BitVec 5)
  | aluW (op : RvAluW) (rs2 rs1 rd : BitVec 5)
  | aluI (op : RvAluI) (imm : BitVec 12) (rs1 rd : BitVec 5)
  | addiw (imm : BitVec 12) (rs1 rd : BitVec 5)
  | shI (op : RvShI) (sh : BitVec 6) (rs1 rd : BitVec 5)
  | shIW (op : RvShIW) (sh : BitVec 5) (rs1 rd : BitVec 5)
  | un (op : RvUn) (rs1 rd : BitVec 5)
  /-- A word that is no instruction of any RV64 strand: the illegal-instruction exception (R187, R190, R192). -/
  | illegal (w : BitVec 32)
  /-- A fetch at or beyond the image length: FETCH_LIMIT (R206). -/
  | outOfImage
  deriving DecidableEq, Repr

/-- The standard loads and stores (R189). -/
inductive RvMem where
  | lb (imm : BitVec 12) (rs1 rd : BitVec 5)
  | lh (imm : BitVec 12) (rs1 rd : BitVec 5)
  | lw (imm : BitVec 12) (rs1 rd : BitVec 5)
  | ld (imm : BitVec 12) (rs1 rd : BitVec 5)
  | lbu (imm : BitVec 12) (rs1 rd : BitVec 5)
  | lhu (imm : BitVec 12) (rs1 rd : BitVec 5)
  | lwu (imm : BitVec 12) (rs1 rd : BitVec 5)
  | sb (imm : BitVec 12) (rs2 rs1 : BitVec 5)
  | sh (imm : BitVec 12) (rs2 rs1 : BitVec 5)
  | sw (imm : BitVec 12) (rs2 rs1 : BitVec 5)
  | sd (imm : BitVec 12) (rs2 rs1 : BitVec 5)
  deriving DecidableEq, Repr

/-- The Zicsr operations (R188). -/
inductive RvCsrOp where
  | csrrw | csrrs | csrrc | csrrwi | csrrsi | csrrci
  deriving DecidableEq, Repr

/-- The atomic memory operations of the umpire's A extension (R297). -/
inductive RvAmo where
  | swap | add | xor | and | or | min | max | minu | maxu
  deriving DecidableEq, Repr

/-- What an atomic of the bus does with the bytes it finds: an operation with its operand, or a compare and swap. -/
inductive BusAtomic where
  | amo (op : RvAmo)
  | cas (expected : List Byte)
  deriving DecidableEq, Repr

/-- An access that reaches the part over PCIe, CXL or Dolvia: a read of n bytes, a write of bytes, or an atomic with an
operand as long as what it acts on (R225, R231). -/
inductive BusAccess where
  | read (n : Nat)
  | write (bytes : List Byte)
  | atomic (op : BusAtomic) (operand : List Byte)
  deriving DecidableEq, Repr

/-- Where a register write of the host lands: a VF's BAR0, or the PF's (R355, R356). -/
inductive RegTarget where
  | vf (v : Nat)
  | pf
  deriving DecidableEq, Repr

/-- One request on the rally token (R338). -/
structure RallyReq where
  pkg : Nat
  wanted : Nat
  served : Nat
  ctx : Nat
  deriving DecidableEq, Repr

/-- One package's summary on the rally token (R338). -/
structure RallySum where
  pkg : Nat
  free : Nat
  ready : Nat
  lowClass : Nat
  deriving DecidableEq, Repr

/-- The rally token (R338): its laps, the valid summaries and the requests. -/
structure RallyToken where
  lap : Nat
  sums : List RallySum
  reqs : List RallyReq
  deriving DecidableEq, Repr

/-- A Dolvia flit (R364). The payload is its 104 bytes. -/
structure Flit where
  kind : Byte
  flags : Byte
  seq : BitVec 16
  ack : BitVec 16
  credits : BitVec 16
  dst : Byte
  src : Byte
  e2e : BitVec 32
  payload : List Byte
  crc : Word
  deriving DecidableEq, Repr

/-- A storage structure of one core or stack, by its code of R352. -/
structure ErrUnit where
  code : Nat
  inst : Nat
  deriving DecidableEq, Repr

/-- The tables of the floor (R346, R348). -/
inductive FloorTable where
  | distributor | dependence | sparks | handles | dugout | gate | barriers
  deriving DecidableEq, Repr

/-- Where an uncorrectable error lies (R348, R181). -/
inductive ErrSite where
  | line (phys : Nat)
  | pool (core : Nat) (space : Strand) (scratch : Bool) (off : Nat)
  | canvas (core off : Nat)
  | vreg (core n : Nat)
  | tile (core tile granule : Nat)
  | eReg (core n : Nat)
  | eCsr (core n : Nat)
  | rvReg (core : Nat) (k : Strand) (n : Nat)
  | store (core : Nat) (k : Strand) (index : Nat)
  /-- A word of an umpire's instruction store, by its byte address, and a register of an umpire (R346). -/
  | umpireStore (court pc : Nat)
  | umpireReg (court n : Nat)
  /-- A transfer held at a core's port, by its place (R319, R346). -/
  | heldTransfer (core place : Nat)
  | queueEntry (core id place : Nat)
  | floorTable (ctx : Nat) (index : Nat)
  | floorUnknown (table : FloorTable) (index : Nat)
  | pageTable (phys : Nat)
  | savedImage (disp : Nat)
  | gang (core tile : Nat)
  deriving DecidableEq, Repr

/-- Hardware that a logic check withdraws (R349). -/
inductive Hardware where
  | core (n : Nat)
  | row (court row : Nat)
  | die (court : Nat)
  deriving DecidableEq, Repr

/-- How a task leaves the cores of a thief (R339): TDONE on all of them, an abort with its cause and xinfo and whether a
REPLAY is awaited, or a failure with its cause. -/
inductive TaskEnd where
  | done
  | aborted (cause : Byte) (info : Word) (hold : Bool)
  | failed (cause : Byte)
  deriving DecidableEq, Repr

/-- What comes to this package from a core of another (R53): the sender's package, core, context and dispatch, the last
where this package has cores of it too, the time of sending, and the destination word. -/
structure FarSend where
  pkg : Nat
  core : Nat
  ctx : Nat
  disp : Option Nat
  sent : Nat
  dst : Word
  deriving DecidableEq, Repr

/-- What an event acts on: the argument that the state holds while the event is performed. -/
inductive EvArg where
  /-- No argument. -/
  | none
  /-- A core index, court · 256 + row · 16 + column. -/
  | core (n : Nat)
  /-- A core and one of its load queues, lq0 when false. -/
  | coreQueue (n : Nat) (q : Bool)
  /-- A dispatch of the distributor. -/
  | disp (d : Nat)
  /-- A dispatch and one of its cores. -/
  | dispCore (d n : Nat)
  /-- A card, a message, a transfer or a stalled bus access, by its serial. -/
  | item (id : Nat)
  /-- A waiting strand or umpire. -/
  | agent (a : Agent)
  /-- A court. -/
  | court (c : Nat)
  /-- A context. -/
  | ctx (c : Nat)
  /-- A handle table entry of a context. -/
  | handle (c index : Nat)
  /-- A barrier of a dispatch: its register or id, and its unit. -/
  | barrier (d id unit : Nat)
  /-- A dugout entry, by its index. -/
  | entry (n : Nat)
  /-- A tier move, and whether its transfer ended with an error. -/
  | move (n : Nat) (failed : Bool)
  /-- A virtual function. -/
  | vf (v : Nat)
  /-- A virtual function and a value written to one of its registers. -/
  | vfVal (v : Nat) (val : Word)
  /-- A command of a virtual function, by its serial in the queue. -/
  | cmd (v slot : Nat)
  /-- A host access at an offset of a virtual function's HDM window. -/
  | host (v off : Nat) (acc : BusAccess)
  /-- A peer access to a virtual address of a context. -/
  | peer (pkg ctx va : Nat) (acc : BusAccess)
  /-- A write of a register of a function. -/
  | reg (target : RegTarget) (off : Nat) (val : Word)
  /-- The 2,336 bytes of the rally token (R338). -/
  | token (bytes : List Byte)
  /-- A flit on a link. -/
  | flit (link : Nat) (f : Flit)
  /-- A link. -/
  | link (n : Nat)
  /-- A package of the domain. -/
  | pkg (n : Nat)
  /-- Whether a package can be reached past the links of this one (R364). -/
  | path (pkg : Nat) (up : Bool)
  /-- A message, or a transfer with its slot, number and data, from a core of another package (R53). -/
  | message (f : FarSend) (payload : V128)
  | transfer (f : FarSend) (slot seq : Nat) (data : List Byte)
  /-- A storage structure whose error was corrected. -/
  | unit (u : ErrUnit)
  /-- The place of an uncorrectable error. -/
  | site (e : ErrSite)
  /-- Hardware that a logic check withdraws. -/
  | hardware (h : Hardware)
  /-- A frame whose zeroing has ended, by its physical address. -/
  | frame (phys : Nat)
  /-- A virtual function that the PF enables or disables. -/
  | enable (v : Nat) (on : Bool)
  /-- A stolen task's handle and card that reach this package, and the class the task then has (R339). -/
  | steal (home : Nat) (handle card : Word) (ctx cls : Nat)
  /-- What a thief sends of a task shipped from here (R339). -/
  | stealEnd (ctx : Nat) (handle : Word) (how : TaskEnd)
  /-- A handle of another package, which slots here name, has become VALUE, or FAILED with a cause (R126). -/
  | settled (ctx : Nat) (handle : Word) (cause : Option Byte)
  /-- Package power as it is measured, in watts (R368). -/
  | watts (n : Nat)
  deriving DecidableEq, Repr

/-- Every step of the part: one constructor per row of the opcode table, instructions with operands first.
A Norom instruction carries its whole word's fields and an RV64 instruction its decoded fields. A step of an
engine, the distributor, the park controller, the firmware, the host or the fabric carries nothing here: what
it acts on stands in the state's argument (EvArg), as the strand that runs an instruction stands there too. -/
inductive Instr where
  /-- NOP (R30). Advances pc by one with no other effect. -/
  | nop (w : Norom)
  /-- HINT_WORD (R31). A word with OP 0xF0 to 0xFF executes as a no-op without reading its guard or faulting. -/
  | hintWord (op : BitVec 8) (fn : BitVec 6) (w : Norom)
  /-- ADD (R64). Writes the 64-bit wrapped sum of A and B to D. -/
  | add (w : Norom)
  /-- ADDSS (R64). Writes the signed saturating sum of A and B to D. -/
  | addss (w : Norom)
  /-- ADDUS (R64). Writes the unsigned saturating sum of A and B to D. -/
  | addus (w : Norom)
  /-- SUB (R64). Writes the 64-bit wrapped difference of A and B to D. -/
  | sub (w : Norom)
  /-- SUBSS (R64). Writes the signed saturating difference of A and B to D. -/
  | subss (w : Norom)
  /-- SUBUS (R64). Writes the unsigned difference of A and B, clamped at zero, to D. -/
  | subus (w : Norom)
  /-- MUL (R64). Writes the low 64 bits of the product of A and B to D. -/
  | mul (w : Norom)
  /-- MULHS (R64). Writes the high 64 bits of the signed product of A and B to D. -/
  | mulhs (w : Norom)
  /-- MULHU (R64). Writes the high 64 bits of the unsigned product of A and B to D. -/
  | mulhu (w : Norom)
  /-- DIVS (R64). Writes the signed quotient of A by B to D, with the fixed results for zero and overflow. -/
  | divs (w : Norom)
  /-- DIVU (R64). Writes the unsigned quotient of A by B to D, all ones for a zero divisor. -/
  | divu (w : Norom)
  /-- REMS (R64). Writes the signed remainder of A by B to D. -/
  | rems (w : Norom)
  /-- REMU (R64). Writes the unsigned remainder of A by B to D. -/
  | remu (w : Norom)
  /-- AND (R65). Writes the bitwise AND of A and B to D. -/
  | and (w : Norom)
  /-- OR (R65). Writes the bitwise OR of A and B to D. -/
  | or (w : Norom)
  /-- XOR (R65). Writes the bitwise exclusive OR of A and B to D. -/
  | xor (w : Norom)
  /-- ANDN (R65). Writes A AND NOT B to D. -/
  | andn (w : Norom)
  /-- SHL (R65). Shifts A left by B mod 64 into D. -/
  | shl (w : Norom)
  /-- SHR (R65). Shifts A right logically by B mod 64 into D. -/
  | shr (w : Norom)
  /-- SAR (R65). Shifts A right arithmetically by B mod 64 into D. -/
  | sar (w : Norom)
  /-- ROL (R65). Rotates A left by B mod 64 into D. -/
  | rol (w : Norom)
  /-- SEQ (R65). Writes 1 to D if A equals B, else 0. -/
  | seq (w : Norom)
  /-- SNE (R65). Writes 1 to D if A differs from B, else 0. -/
  | sne (w : Norom)
  /-- SLT (R65). Writes 1 to D if A is less than B as signed, else 0. -/
  | slt (w : Norom)
  /-- SLE (R65). Writes 1 to D if A is at most B as signed, else 0. -/
  | sle (w : Norom)
  /-- SLTU (R65). Writes 1 to D if A is less than B as unsigned, else 0. -/
  | sltu (w : Norom)
  /-- SLEU (R65). Writes 1 to D if A is at most B as unsigned, else 0. -/
  | sleu (w : Norom)
  /-- MIN (R65). Writes the signed lesser of A and B to D. -/
  | min (w : Norom)
  /-- MAX (R65). Writes the signed greater of A and B to D. -/
  | max (w : Norom)
  /-- MINU (R65). Writes the unsigned lesser of A and B to D. -/
  | minu (w : Norom)
  /-- MAXU (R65). Writes the unsigned greater of A and B to D. -/
  | maxu (w : Norom)
  /-- CLZ (R66). Writes the count of leading zero bits of A to D. -/
  | clz (w : Norom)
  /-- CTZ (R66). Writes the count of trailing zero bits of A to D. -/
  | ctz (w : Norom)
  /-- POPC (R66). Writes the number of set bits of A to D. -/
  | popc (w : Norom)
  /-- BREV (R66). Writes A with its bit order reversed to D. -/
  | brev (w : Norom)
  /-- BSWAP (R66). Writes A with its byte order reversed to D. -/
  | bswap (w : Norom)
  /-- BFX (R67). Extracts the bit field of A named by B into D. -/
  | bfx (w : Norom)
  /-- BFI (R67). Inserts A into the bit field of D named by B. -/
  | bfi (w : Norom)
  /-- SEXT (R68). Sign-extends the low n bits of A into D. -/
  | sext (w : Norom)
  /-- ZEXT (R68). Zero-extends the low n bits of A into D. -/
  | zext (w : Norom)
  /-- MOV (R69). Copies A to D, popping or pushing queues as the operands name. -/
  | mov (w : Norom)
  /-- LI (R70). Writes the sign-extended 32-bit immediate to D. -/
  | li (w : Norom)
  /-- LIH (R70). Replaces the high 32 bits of D with the 32-bit immediate. -/
  | lih (w : Norom)
  /-- BEQ (R71). Branches by the raw offset when A equals B. -/
  | beq (w : Norom)
  /-- BNE (R71). Branches by the raw offset when A differs from B. -/
  | bne (w : Norom)
  /-- BLT (R71). Branches when A is less than B as signed. -/
  | blt (w : Norom)
  /-- BGE (R71). Branches when A is at least B as signed. -/
  | bge (w : Norom)
  /-- BLTU (R71). Branches when A is less than B as unsigned. -/
  | bltu (w : Norom)
  /-- BGEU (R71). Branches when A is at least B as unsigned. -/
  | bgeu (w : Norom)
  /-- JMP (R72). Transfers control to the absolute index A:B. -/
  | jmp (w : Norom)
  /-- JMPR (R72). Transfers control to the index held in register A. -/
  | jmpr (w : Norom)
  /-- CALL (R72). Writes pc + 1 to lk and transfers to the absolute index A:B. -/
  | call (w : Norom)
  /-- CALLR (R72). Writes pc + 1 to lk and transfers to the index held in register A. -/
  | callr (w : Norom)
  /-- RET (R72). Transfers control to the index held in lk. -/
  | ret (w : Norom)
  /-- HALT (R73). Stops the E strand. -/
  | halt (w : Norom)
  /-- TRAP (R74). Raises cause TRAP with xinfo set to the operand. -/
  | trap (w : Norom)
  /-- WAIT (R75). Waits until a requested queue, inbox or engine condition holds and writes the mask of those holding. -/
  | wait (w : Norom)
  /-- ERET (R91). Returns from a handler to xpc and clears the active bit. -/
  | eret (w : Norom)
  /-- LDB (R77). Loads one byte, sign-extended, into D. -/
  | ldb (w : Norom)
  /-- LDBU (R77). Loads one byte, zero-extended, into D. -/
  | ldbu (w : Norom)
  /-- LDH (R77). Loads two bytes, sign-extended, into D. -/
  | ldh (w : Norom)
  /-- LDHU (R77). Loads two bytes, zero-extended, into D. -/
  | ldhu (w : Norom)
  /-- LDW (R77). Loads four bytes, sign-extended, into D. -/
  | ldw (w : Norom)
  /-- LDWU (R77). Loads four bytes, zero-extended, into D. -/
  | ldwu (w : Norom)
  /-- LDD (R77). Loads eight bytes into D. -/
  | ldd (w : Norom)
  /-- STB (R78). Stores the low byte of D. -/
  | stb (w : Norom)
  /-- STH (R78). Stores the low two bytes of D. -/
  | sth (w : Norom)
  /-- STW (R78). Stores the low four bytes of D. -/
  | stw (w : Norom)
  /-- STD (R78). Stores the eight bytes of D. -/
  | std (w : Norom)
  /-- VLD (R79). Loads 16 aligned bytes into a vector register or queue. -/
  | vld (w : Norom)
  /-- VST (R79). Stores 16 bytes from a vector register or queue to an aligned address. -/
  | vst (w : Norom)
  /-- BBINIT (R83). Initialises an own-scratchpad byte barrier with pending and rearm n and phase 0. -/
  | bbinit (w : Norom)
  /-- BBEXP (R84). Raises the pending count of the current phase of a byte barrier. -/
  | bbexp (w : Norom)
  /-- BBARR (R85). Arrives n bytes on a byte barrier as a release at COURT scope. -/
  | bbarr (w : Norom)
  /-- BBWAIT (R86). Waits until a byte barrier's phase differs from p, then acquires. -/
  | bbwait (w : Norom)
  /-- BBTEST (R86). Writes 1 if a byte barrier's phase differs from p, else 0, without waiting. -/
  | bbtest (w : Norom)
  /-- CSRR (R87). Reads a control register of E into D. -/
  | csrr (w : Norom)
  /-- CSRW (R87). Writes a control register of E and returns its old value. -/
  | csrw (w : Norom)
  /-- CSRS (R87). Sets bits of a control register of E and returns its old value. -/
  | csrs (w : Norom)
  /-- CSRC (R87). Clears bits of a control register of E and returns its old value. -/
  | csrc (w : Norom)
  /-- FLAGS (R92). Writes the sticky flags word to D. -/
  | flags (w : Norom)
  /-- FLAGC (R92). Clears the selected sticky flags, clearing oobf with oob. -/
  | flagc (w : Norom)
  /-- TIME (R93). Writes the package time base to D. -/
  | time (w : Norom)
  /-- VADD (R98). Adds lanes of A and B by the element type. -/
  | vadd (w : Norom)
  /-- VADDS (R98). Adds lanes of A and B with saturation. -/
  | vadds (w : Norom)
  /-- VSUB (R98). Subtracts lanes of B from A. -/
  | vsub (w : Norom)
  /-- VSUBS (R98). Subtracts lanes of B from A with saturation. -/
  | vsubs (w : Norom)
  /-- VMUL (R98). Multiplies lanes of A and B. -/
  | vmul (w : Norom)
  /-- VMULH (R98). Writes the high half of the integer lane products. -/
  | vmulh (w : Norom)
  /-- VFMA (R99). Adds the lane products of A and B to D with one rounding. -/
  | vfma (w : Norom)
  /-- VFMS (R99). Subtracts the lane products of A and B from D with one rounding. -/
  | vfms (w : Norom)
  /-- VMIN (R98). Writes the lesser of each lane pair. -/
  | vmin (w : Norom)
  /-- VMAX (R98). Writes the greater of each lane pair. -/
  | vmax (w : Norom)
  /-- VABS (R98). Writes the absolute value of each lane of A. -/
  | vabs (w : Norom)
  /-- VNEG (R98). Writes the negation of each lane of A. -/
  | vneg (w : Norom)
  /-- VAND (R100). Writes the 128-bit AND of A and B. -/
  | vand (w : Norom)
  /-- VOR (R100). Writes the 128-bit OR of A and B. -/
  | vor (w : Norom)
  /-- VXOR (R100). Writes the 128-bit exclusive OR of A and B. -/
  | vxor (w : Norom)
  /-- VANDN (R100). Writes the 128-bit A AND NOT B. -/
  | vandn (w : Norom)
  /-- VSHL (R101). Shifts each lane left by its count. -/
  | vshl (w : Norom)
  /-- VSHR (R101). Shifts each lane right logically by its count. -/
  | vshr (w : Norom)
  /-- VSAR (R101). Shifts each lane right arithmetically by its count. -/
  | vsar (w : Norom)
  /-- VCEQ (R102). Sets each lane to all ones where A equals B. -/
  | vceq (w : Norom)
  /-- VCNE (R102). Sets each lane to all ones where A differs from B. -/
  | vcne (w : Norom)
  /-- VCLT (R102). Sets each lane to all ones where A is less than B. -/
  | vclt (w : Norom)
  /-- VCLE (R102). Sets each lane to all ones where A is at most B. -/
  | vcle (w : Norom)
  /-- VBLEND (R103). Selects each lane from A or B by the top bit of the old D lane. -/
  | vblend (w : Norom)
  /-- VCVT (R105). Converts one part of the lanes of A between element types under the given rounding mode. -/
  | vcvt (dst : BitVec 6) (w : Norom)
  /-- VQMX (R107). Quantises 32 f32 values to an MX block and writes its E8M0 scale. -/
  | vqmx (w : Norom)
  /-- VDQMX (R108). Expands an MX block with its scale to 32 f32 values. -/
  | vdqmx (w : Norom)
  /-- VRSUM (R109). Reduces the lanes of A by pairwise addition. -/
  | vrsum (w : Norom)
  /-- VRMAX (R109). Reduces the lanes of A by pairwise maximum. -/
  | vrmax (w : Norom)
  /-- VRMIN (R109). Reduces the lanes of A by pairwise minimum. -/
  | vrmin (w : Norom)
  /-- VSCAN (R110). Writes the inclusive prefix sums of the lanes of A with a carry-in. -/
  | vscan (w : Norom)
  /-- VSCANM (R110). Writes the inclusive prefix maxima of the lanes of A with a carry-in. -/
  | vscanm (w : Norom)
  /-- VPERM (R111). Permutes the bytes of A by the byte indices in B. -/
  | vperm (w : Norom)
  /-- VSHUF (R112). Picks each lane from A or the old D by the lane indices in B. -/
  | vshuf (w : Norom)
  /-- VBCAST (R113). Broadcasts lane 0 of A, or a scalar, to every lane. -/
  | vbcast (w : Norom)
  /-- VEXT (R113). Extracts one lane of A into a general register or queue. -/
  | vext (w : Norom)
  /-- VINS (R113). Inserts a scalar into one lane of D. -/
  | vins (w : Norom)
  /-- VDOT4 (R115). Adds four-way byte dot products into each 32-bit lane of D. -/
  | vdot4 (w : Norom)
  /-- VPOPM (R104). Collects the top bit of each lane into a mask word. -/
  | vpopm (w : Norom)
  /-- VMOV (R114). Copies 128 bits between vector registers and queues. -/
  | vmov (w : Norom)
  /-- VEXP2 (R116). Writes the correctly rounded 2^x of each lane. -/
  | vexp2 (w : Norom)
  /-- VLOG2 (R116). Writes the correctly rounded log2 x of each lane. -/
  | vlog2 (w : Norom)
  /-- VRCP (R116). Writes the correctly rounded reciprocal of each lane. -/
  | vrcp (w : Norom)
  /-- VRSQRT (R116). Writes the correctly rounded reciprocal square root of each lane. -/
  | vrsqrt (w : Norom)
  /-- VSQRT (R116). Writes the correctly rounded square root of each lane. -/
  | vsqrt (w : Norom)
  /-- VTANH (R117). Writes tanh of each lane by the fixed rounding sequence. -/
  | vtanh (w : Norom)
  /-- VSIGM (R117). Writes the sigmoid of each lane by the fixed rounding sequence. -/
  | vsigm (w : Norom)
  /-- VSILU (R117). Writes SiLU of each lane by the fixed rounding sequence. -/
  | vsilu (w : Norom)
  /-- VGELU (R117). Writes the tanh-form GELU of each lane by the fixed rounding sequence. -/
  | vgelu (w : Norom)
  /-- VSIN (R116). Writes the correctly rounded sine of each lane. -/
  | vsin (w : Norom)
  /-- VCOS (R116). Writes the correctly rounded cosine of each lane. -/
  | vcos (w : Norom)
  /-- VEXP (R116). Writes the correctly rounded e^x of each lane. -/
  | vexp (w : Norom)
  /-- VDIV (R118). Writes the correctly rounded quotient of each lane pair. -/
  | vdiv (w : Norom)
  /-- SUSP (R135). Makes a suspended pure handle from a task card, taking references on its argument handles. -/
  | susp (w : Norom)
  /-- TASK (R136). Submits an effect task with edges derived from its footprint and renamed CELL versions. -/
  | task (w : Norom)
  /-- FORCE (R137). Demands a handle, waits until it is VALUE or FAILED, and returns its tile base. -/
  | force (w : Norom)
  /-- SPARK (R138). Queues a spark for a suspended handle at class 7. -/
  | spark (w : Norom)
  /-- DROP (R139). Lowers a handle's reference count, freeing it when the count reaches zero. -/
  | drop (w : Norom)
  /-- HDUP (R139). Raises a handle's reference count by one. -/
  | hdup (w : Norom)
  /-- HMAKE (R140). Binds a described tile as a VALUE handle, or as a CELL with .cell. -/
  | hmake (w : Norom)
  /-- HSTAT (R12). Writes a handle's state code without waiting. -/
  | hstat (w : Norom)
  /-- TDONE (R141). Waits for the core's L, S and engines to drain, then marks its part of the task done and releases. -/
  | tdone (w : Norom)
  /-- MCFG (R144). Queues a tile configuration command to the matrix engine. -/
  | mcfg (w : Norom)
  /-- EPCFG (R177). Reads an epilogue block with its bias and scale words and queues it to the matrix engine. -/
  | epcfg (w : Norom)
  /-- CVLD (R145). Queues a copy of rows into the core's canvas. -/
  | cvld (w : Norom)
  /-- MWLD (R146). Queues a latch of weights and format from the canvas. -/
  | mwld (w : Norom)
  /-- MSTR (R147). Queues a stream of activation rows through the array into a tile. -/
  | mstr (w : Norom)
  /-- SCRUM (R175). Queues a gang stream whose rows the leader sends to every member of a row unit. -/
  | scrum (w : Norom)
  /-- MZERO (R172). Queues a command that zeroes a tile and clears its poisoned mark. -/
  | mzero (w : Norom)
  /-- MDRN (R148). Queues a drain of a tile through the epilogue into scratchpad rows. -/
  | mdrn (w : Norom)
  /-- ACCRD (R179). Waits for earlier matrix commands, then reads one tile row into 22 vector registers. -/
  | accrd (w : Norom)
  /-- ACCWR (R179). Waits for earlier matrix commands, then writes one tile row from 22 vector registers. -/
  | accwr (w : Norom)
  /-- AADD (R233). Atomically adds the operand to memory and returns the old value. -/
  | aadd (w : Norom)
  /-- AMIN (R233). Atomically stores the signed lesser value and returns the old value. -/
  | amin (w : Norom)
  /-- AMAX (R233). Atomically stores the signed greater value and returns the old value. -/
  | amax (w : Norom)
  /-- AMINU (R233). Atomically stores the unsigned lesser value and returns the old value. -/
  | aminu (w : Norom)
  /-- AMAXU (R233). Atomically stores the unsigned greater value and returns the old value. -/
  | amaxu (w : Norom)
  /-- AAND (R233). Atomically ANDs the operand into memory and returns the old value. -/
  | aand (w : Norom)
  /-- AOR (R233). Atomically ORs the operand into memory and returns the old value. -/
  | aor (w : Norom)
  /-- AXOR (R233). Atomically exclusive-ORs the operand into memory and returns the old value. -/
  | axor (w : Norom)
  /-- AXCHG (R233). Atomically exchanges memory with the operand and returns the old value. -/
  | axchg (w : Norom)
  /-- ACAS (R236). Atomically writes the new value if memory equals D's expected value and returns the old value. -/
  | acas (w : Norom)
  /-- FENCE (R237). Returns a token naming the kinds and scope of the strand's earlier accesses to be waited on. -/
  | fence (w : Norom)
  /-- FWAIT (R238). Waits until the accesses covered by a fence token have performed at its scope. -/
  | fwait (w : Norom)
  /-- FTEST (R238). Writes 1 if a fence token's condition holds, else 0, without waiting. -/
  | ftest (w : Norom)
  /-- HBSET (R240). Configures a huddle barrier register, or checks it against its configuration. -/
  | hbset (w : Norom)
  /-- HBARR (R241). Arrives on the unit's huddle barrier, flipping its phase when the count is reached. -/
  | hbarr (w : Norom)
  /-- HBWAIT (R242). Waits until the unit's huddle barrier phase differs from b, then acquires. -/
  | hbwait (w : Norom)
  /-- GBARR (R316). Waits for the core's earlier XSENDs to be delivered, then arrives on a global barrier. -/
  | gbarr (w : Norom)
  /-- GBWAIT (R303). Waits until a global barrier's phase differs from b, then acquires. -/
  | gbwait (w : Norom)
  /-- CPY (R245). Queues a contiguous copy card to the private copy engine. -/
  | cpy (w : Norom)
  /-- CPYS (R245). Queues a strided copy card to the private copy engine. -/
  | cpys (w : Norom)
  /-- CPYG (R245). Queues a gather copy card to the private copy engine. -/
  | cpyg (w : Norom)
  /-- CPYX (R245). Queues a scatter copy card to the private copy engine. -/
  | cpyx (w : Norom)
  /-- BCOPY (R249). Submits a bulk card to the floor's bulk copy engines, taking a dependence entry. -/
  | bcopy (w : Norom)
  /-- XPOST (R318). Opens an exchange window and writes any transfers the port holds for it. -/
  | xpost (w : Norom)
  /-- XSEND (R319). Reads source bytes and sends an exchange transfer to a destination core. -/
  | xsend (w : Norom)
  /-- XCLOSE (R320). Waits for the window's expected transfers, a mismatch or the watchdog, then closes and counts. -/
  | xclose (w : Norom)
  /-- KVAPP (R286). Appends one token's K and V rows to a layer group, mapping a frame if needed. -/
  | kvapp (w : Norom)
  /-- ATTN (R288). Checks an attention card and sends per-page work to the stack attention engines. -/
  | attn (w : Norom)
  /-- ACOMB (R261). Combines attention triples into one output vector in E. -/
  | acomb (w : Norom)
  /-- PARK (R295). Registers a dugout entry for a window, arming its mailbox and starting its timers. -/
  | park (w : Norom)
  /-- WAKE (R294). Wakes a PARKED dugout entry named by its live id. -/
  | wake (w : Norom)
  /-- MSG (R252). Sends a 16-byte message to a core and generation. -/
  | msg (w : Norom)
  /-- MSG_RECV (R253). Waits for and pops the oldest inbox message into a vector register. -/
  | msgRecv (w : Norom)
  /-- QSTAT (R254). Writes the state of a queue without waiting. -/
  | qstat (w : Norom)
  /-- BOFLUSH (R255). Empties the selected outcome queues. -/
  | boflush (w : Norom)
  /-- LQ_VPUSH (R194). Reads 16 own-scratchpad bytes and pushes them to a load queue. -/
  | lqVpush (rs2 rs1 rd : BitVec 5)
  /-- LQ_GPUSH (R194). Reserves a load queue entry and later fills it from a global read. -/
  | lqGpush (rs2 rs1 rd : BitVec 5)
  /-- LQ_SPUSH (R194). Pushes a zero-extended register value to a load queue. -/
  | lqSpush (rs2 rs1 rd : BitVec 5)
  /-- SQ_VPOP (R195). Pops a store queue entry and writes it to an own or remote scratchpad address. -/
  | sqVpop (rs2 rs1 rd : BitVec 5)
  /-- SQ_GPOP (R195). Pops a store queue entry and writes it to a global address. -/
  | sqGpop (rs2 rs1 rd : BitVec 5)
  /-- SQ_XPOP (R195). Pops a store queue entry into a register. -/
  | sqXpop (rs2 rs1 rd : BitVec 5)
  /-- BO_POP (R196). Pops a branch outcome from bol on L or bos on S. -/
  | boPop (rs2 rs1 rd : BitVec 5)
  /-- BO_PUSH (R196). Pushes a branch outcome from L to boi. -/
  | boPush (rs2 rs1 rd : BitVec 5)
  /-- Q_STAT (R197). Writes the state of one of the strand's queues without waiting. -/
  | qStat (rs2 rs1 rd : BitVec 5)
  /-- CP_ISSUE (R198). Queues a job card to the private copy engine from L or S. -/
  | cpIssue (rs2 rs1 rd : BitVec 5)
  /-- BB_ARR (R199). Arrives n bytes on a byte barrier from L or S. -/
  | bbArr (rs2 rs1 rd : BitVec 5)
  /-- BB_WAIT (R199). Waits from L or S until a byte barrier's phase differs from rs2[0]. -/
  | bbWait (rs2 rs1 rd : BitVec 5)
  /-- GQ_POP (R299). Waits for the gate record of the expected token id and copies it to the umpire's scratchpad. -/
  | gqPop (rs2 rs1 rd : BitVec 5)
  /-- RT_CLAIM (R301). Places, evicts or refuses a share on the capacity board in one step. -/
  | rtClaim (rs2 rs1 rd : BitVec 5)
  /-- RT_EMIT (R302). Appends a routing record to the route list, or counts a dropped share. -/
  | rtEmit (rs2 rs1 rd : BitVec 5)
  /-- EBREAK (R190). Raises TRAP with xinfo 0. -/
  | ebreak (len : RvLen)
  /-- RV_LOAD_STORE (R189). A standard load or store of L, S or the umpire accesses a generic address under its page's rules. -/
  | rvLoadStore (len : RvLen) (op : RvMem)
  /-- RV_FENCE (R189). Waits until the strand's earlier accesses have performed at DOMAIN scope. -/
  | rvFence (imm : BitVec 12) (rs1 rd : BitVec 5)
  /-- RV_CSR_ACCESS (R188). Reads a control register of L, S or the umpire, raising illegal-instruction on any write. -/
  | rvCsrAccess (op : RvCsrOp) (csr : BitVec 12) (rs1 rd : BitVec 5)
  /-- UMPIRE_AMO (R297). An umpire AMO performs one unmarked indivisible read-modify-write. -/
  | umpireAmo (op : RvAmo) (wide aq rl : Bool) (rs2 rs1 rd : BitVec 5)
  /-- UMPIRE_LR (R297). An umpire LR performs a plain load without a reservation. -/
  | umpireLr (wide aq rl : Bool) (rs1 rd : BitVec 5)
  /-- UMPIRE_SC (R297). An umpire SC performs a plain store and writes 0 to rd. -/
  | umpireSc (wide aq rl : Bool) (rs2 rs1 rd : BitVec 5)
  /-- RV64_INTEGER_INSTRUCTION (R187). L, S or the umpire executes an ordinary RV64I, M, Zba, Zbb (or, on the umpire, A or C) instruction, such as an ALU operation, branch or jump, or meets an illegal or out-of-image word. -/
  | rv64IntegerInstruction (len : RvLen) (op : RvInt)
  /-- ILLEGAL_OPCODE_WORD (R32). E fetches a word with an unassigned OP or FN and faults with ILLEGAL_OPCODE whatever its guard. -/
  | illegalOpcodeWord (op : BitVec 8) (fn : BitVec 6) (w : Norom)
  /-- ENGINE_MCFG (R144). The matrix engine waits for earlier commands, puts the configuration in force and zeroes every tile. -/
  | engineMcfg
  /-- ENGINE_EPCFG (R148). The matrix engine puts an epilogue block in force for later drains. -/
  | engineEpcfg
  /-- ENGINE_CVLD (R145). The matrix engine copies the card's rows into the canvas and arrives on the barrier. -/
  | engineCvld
  /-- ENGINE_MWLD (R146). The matrix engine latches weights, format and scales from the canvas and arrives on the barrier. -/
  | engineMwld
  /-- ENGINE_MSTR (R147). The matrix engine streams activation rows and accumulates products into the tile. -/
  | engineMstr
  /-- SCRUM_MEETING (R176). When every gang member's SCRUM is at its queue head, all start the stream together or all take the deferred fault. -/
  | scrumMeeting
  /-- ENGINE_MZERO (R172). The matrix engine zeroes a tile and clears its poisoned mark. -/
  | engineMzero
  /-- ENGINE_MDRN (R148). The matrix engine drains a tile through the epilogue to scratchpad and arrives on the barrier. -/
  | engineMdrn
  /-- COPY_CARD_PERFORM (R247). The private copy engine copies a card's rows and arrives on its barrier. -/
  | copyCardPerform
  /-- BULK_CARD_PERFORM (R251). Once its predecessors complete, a bulk card copies or zero-fills its segments, arrives and frees its entry. -/
  | bulkCardPerform
  /-- TRANSFER_ARRIVE (R319). A transfer reaching a core's port is written into its window, held, discarded or dropped. -/
  | transferArrive
  /-- ATTN_PERFORM (R287). The stack attention engines form each page's triples and arrive on the barrier when all are written. -/
  | attnPerform
  /-- MSG_DELIVER (R53). A message reaching its target is delivered to the inbox if the generation runs, else dropped and counted. -/
  | msgDeliver
  /-- GPUSH_READ_ARRIVE (R194). The global read of an LQ.GPUSH completes and fills its reserved entry, or faults in L. -/
  | gpushReadArrive
  /-- ECALL (R190). Halts the strand, raises TRAP, or raises ILLEGAL_OPCODE according to a7. -/
  | ecall
  /-- BLOCKING_WAIT_END (R62). A strand waiting on a queue, barrier, handle, page or engine resumes once its condition holds after a cycle's commit. -/
  | blockingWaitEnd
  /-- DISPATCH_LOAD (R204). The distributor sends a dispatch's code into a core's instruction stores in order. -/
  | dispatchLoad
  /-- START_MESSAGE (R205). The start message arrives after all code and E, L and S begin with their start state. -/
  | startMessage
  /-- CORE_RETIRE (R51). Once strands stopped, cards completed and stores performed, the core retires and a last retirement completes the launch. -/
  | coreRetire
  /-- COURT_REPORT (R324). Every 256 ns each court reports its free resources to the distributor. -/
  | courtReport
  /-- PLACE_DISPATCH (R325). The distributor places the head of the lowest waiting class by first fit, or pre-empts lower-class work. -/
  | placeDispatch
  /-- PREEMPT_REQUEST (R329). The cores of a unit are asked to stop, E draining to a point or a wait. -/
  | preemptRequest
  /-- PREEMPT_WINDOW (R329). After 16,384 instructions or 23 µs of drain, E stops at the next boundary with a full entry. -/
  | preemptWindow
  /-- PREEMPT_SAVE (R329). Once every core of the unit has drained, the cores' images are saved and the cores released. -/
  | preemptSave
  /-- RESUME_DISPATCH (R336). A pre-empted dispatch is reloaded, restored and resumed at a position of the same shape. -/
  | resumeDispatch
  /-- PREEMPT_OVERRUN (R331). E reaching 65,536 instructions without a point ends the dispatch. -/
  | preemptOverrun
  /-- ENERGY_EXHAUSTED (R327). A dispatch's energy counter reaching zero raises its class by one and refills it. -/
  | energyExhausted
  /-- TASK_DISPATCH (R126). A READY handle is claimed by a local dispatch and becomes RUNNING. -/
  | taskDispatch
  /-- ARENA_ALLOCATION (R129). A waiting arena allocation for a handle becoming READY completes or fails with ARENA_FULL. -/
  | arenaAllocation
  /-- SPARK_TAKE (R138). With a core free and no READY task waiting, the oldest live spark demands its handle. -/
  | sparkTake
  /-- HUDDLE_BARRIER_TIMEOUT (R243). A huddle barrier's watchdog elapses and raises BARRIER_TIMEOUT, tearing down the dispatch. -/
  | huddleBarrierTimeout
  /-- GLOBAL_BARRIER_TIMEOUT (R317). A global barrier's watchdog elapses and raises BARRIER_TIMEOUT, tearing down the dispatch. -/
  | globalBarrierTimeout
  /-- EXCHANGE_WATCHDOG (R320). The exchange watchdog elapses and XCLOSE faults with EXCHANGE_TIMEOUT. -/
  | exchangeWatchdog
  /-- MESSAGE_LIFETIME (R52). A message or transfer undelivered 1 ms after sending is dropped and counted. -/
  | messageLifetime
  /-- STALL_REPORT (R345). A resident dispatch making no progress for 1 s posts one progress event. -/
  | stallReport
  /-- KVAPP_FRAME_WAIT_REPORT (R284). A KVAPP frame wait longer than 100 µs is reported once. -/
  | kvappFrameWaitReport
  /-- DEMOTION_TIMER (R290). tcxl or tflash elapses and the parked window's pages begin moving down a tier. -/
  | demotionTimer
  /-- PAGE_MOVE_COMPLETE (R263). A tier move's copy completes and the page takes its new tier. -/
  | pageMoveComplete
  /-- MAILBOX_WAKE (R263). A write performed on an armed mailbox wakes its dugout entry and starts promotion. -/
  | mailboxWake
  /-- STAGE_RESIDENT (R291). A promotion stage becomes resident, dispatching the resume card at stage 1 and freeing the entry at the last. -/
  | stageResident
  /-- FAULT_BATCH_POST (R280). A package posts its held fault records when it holds 64 or 4 µs after the oldest. -/
  | faultBatchPost
  /-- RALLY_TOKEN_HOP (R339). The rally token reaches a package, which updates its summary and requests or serves steals. -/
  | rallyTokenHop
  /-- RALLY_TOKEN_REGEN (R338). With no token for 2.048 ms the lowest live package makes a new one. -/
  | rallyTokenRegen
  /-- HOST_ACCESS (R357). A host access to a VF's HDM window reaches the context's virtual address under R231. -/
  | hostAccess
  /-- PEER_ACCESS (R231). A peer access over Dolvia reaches device memory at DOMAIN scope. -/
  | peerAccess
  /-- CTX_CREATE (R362). Makes a context with empty tables in every package. -/
  | ctxCreate
  /-- CTX_DESTROY (R360). Tears down every dispatch of a context and frees all its resources. -/
  | ctxDestroy
  /-- MAP (R360). Allocates zeroed HBM frames and writes valid leaves. -/
  | map
  /-- UNMAP (R277). Shoots down and removes the leaves of a range and frees their frames. -/
  | unmap
  /-- SETATTR (R228). Changes the consistency type of the frames behind a range under traffic. -/
  | setattr
  /-- RECYCLE (R222). Clears the written bits of STREAM pages and advances their stream generation. -/
  | recycle
  /-- LAUNCH (R360). Submits a launch record, optionally with an umpire image or routing block. -/
  | launch
  /-- REPLAY (R282). Clears merge sets, retries pending accesses and releases held tasks. -/
  | replay
  /-- SEQ_CREATE (R360). Writes a sequence window entry, its directory and invalid leaves. -/
  | seqCreate
  /-- SEQ_FREE (R291). Frees a sequence window, ending any dugout entry without a resume. -/
  | seqFree
  /-- PARK_POLICY (R363). Assigns the VF's CXL and flash tiers. -/
  | parkPolicy
  /-- WAKE_CMD (R294). The host wakes a dugout entry by its id. -/
  | wakeCmd
  /-- DOMAIN_JOIN (R364). Sets the package index, domain size and route table. -/
  | domainJoin
  /-- ATTEST (R365). Writes a signed attestation report over a nonce. -/
  | attest
  /-- SET_ENERGY (R360). Sets the context's default energy budget and returns the old one. -/
  | setEnergy
  /-- QUERY_COURT_REPORTS (R360). QUERY selector 1 writes the latest court reports. -/
  | queryCourtReports
  /-- QUERY_COUNTS (R360). QUERY selector 2 writes dropped-message, dropped-share, fault and task counts. -/
  | queryCounts
  /-- QUERY_ERROR_COUNTS (R360). QUERY selector 3 writes the error counts. -/
  | queryErrorCounts
  /-- QUERY_HANDLE_ENTRY (R360). QUERY selector 4 writes a handle table entry as it stands. -/
  | queryHandleEntry
  /-- QUERY_STREAM_GENERATION (R360). QUERY selector 5 writes a page's stream generation. -/
  | queryStreamGeneration
  /-- QUERY_DUGOUT_ENTRY (R360). QUERY selector 6 writes a dugout entry. -/
  | queryDugoutEntry
  /-- QUERY_NVME_REGION (R360). QUERY selector 7 writes the region reserved for the NVMe queues. -/
  | queryNvmeRegion
  /-- QUERY_ARENA (R360). QUERY selector 8 writes the arena base and size on each package. -/
  | queryArena
  /-- CMDTAIL_WRITE (R355). The host advances the command queue tail, making new commands available. -/
  | cmdtailWrite
  /-- CPLHEAD_WRITE (R355). The host frees completion entries, letting held completions post. -/
  | cplheadWrite
  /-- STAT_WRITE (R355). Writing 1 to an overflow bit of STAT clears it. -/
  | statWrite
  /-- REGISTER_WRITE (R355). A write to a VF or PF register with no behaviour of its own stores its value. -/
  | registerWrite
  /-- FUNCTION_LEVEL_RESET (R367). Destroys a VF's contexts and resets its registers. -/
  | functionLevelReset
  /-- COLD_RESET (R367). A cold reset or PERST# brings the part up through its ordered steps. -/
  | coldReset
  /-- POWER_SAMPLE (R368). Every 10 µs package power is measured and the core clock lowered or restored. -/
  | powerSample
  /-- FLIT_RECEIVE (R364). A Dolvia flit is checked, delivered in end-to-end order, or replay is requested. -/
  | flitReceive
  /-- LINK_RETRAIN (R364). After 8 failed replays in a row a link retrains and its traffic moves. -/
  | linkRetrain
  /-- PACKAGE_LOST (R364). A package unreachable for 10 ms leaves the domain and split contexts are lost. -/
  | packageLost
  /-- CORRECTED_ERROR (R346). A correctable error is corrected, written back and counted. -/
  | correctedError
  /-- CORRECTED_ERROR_THRESHOLD (R352). More than 64 corrected errors in a second posts one event of kind 4. -/
  | correctedErrorThreshold
  /-- SCRUB_PASS (R346). Background scrub reads and corrects memory rows and SRAM units periodically. -/
  | scrubPass
  /-- UNCORRECTABLE_ERROR (R348). An uncorrectable error poisons data, faults its reader, or ends a context. -/
  | uncorrectableError
  /-- HARDWARE_WITHDRAWN (R349). A logic check failure withdraws a core, row or die until reset. -/
  | hardwareWithdrawn
  /-- STRAIGHT_LINE_FETCH_LIMIT (R19). E, running straight on, fetches at index ilim and faults with FETCH_LIMIT with xpc and xinfo holding ilim. -/
  | straightLineFetchLimit
  /-- MAP_ZEROING_DONE (R360). Zeroing of a frame that a MAP without zero-fill allocated finishes, letting stalled accesses to it perform. -/
  | mapZeroingDone
  /-- FLTHEAD_WRITE (R280). The host advances a fault queue's head, freeing room so that records held while the ring was full can be posted. -/
  | fltheadWrite
  /-- VF_ENABLE (R356). A virtual function is enabled or disabled under SR-IOV; on enabling, the firmware reads and keeps its keys and the VF's STAT.ready is set. -/
  | vfEnable
  /-- STEAL_SHIPMENT_ARRIVAL (R339). A shipped handle and card address reach the requesting package, which queues the stolen task for dispatch at its class. -/
  | stealShipmentArrival
  deriving DecidableEq, Repr

end Sys2Proof
end

