-- ==== Sys2Proof/WellFormed.lean ====
section
/-!
DEFINITION. Which terms of the syntax stand for words of the part (spec/02_instruction_word.md R31 to R33).
-/
namespace Sys2Proof

/-- How many FN values each assigned OP has; they always start at 0 (R33). VCVT's OP 0x2A has the eighteen
destination types. -/
def fnCounts : List (Nat × Nat) :=
  [(0x00, 1),
   (0x01, 3),
   (0x02, 3),
   (0x03, 3),
   (0x04, 4),
   (0x05, 4),
   (0x06, 4),
   (0x07, 6),
   (0x08, 4),
   (0x09, 5),
   (0x0A, 2),
   (0x0B, 2),
   (0x0C, 1),
   (0x0D, 2),
   (0x10, 6),
   (0x11, 2),
   (0x12, 2),
   (0x13, 1),
   (0x14, 1),
   (0x15, 1),
   (0x16, 1),
   (0x20, 2),
   (0x21, 2),
   (0x22, 2),
   (0x23, 2),
   (0x24, 2),
   (0x25, 2),
   (0x26, 4),
   (0x27, 3),
   (0x28, 4),
   (0x29, 1),
   (0x2A, 18),
   (0x2B, 2),
   (0x2C, 3),
   (0x2D, 2),
   (0x2E, 2),
   (0x2F, 3),
   (0x30, 1),
   (0x31, 1),
   (0x32, 1),
   (0x40, 12),
   (0x41, 1),
   (0x50, 7),
   (0x51, 4),
   (0x52, 1),
   (0x53, 1),
   (0x54, 9),
   (0x55, 1),
   (0x60, 3),
   (0x61, 5),
   (0x62, 3),
   (0x63, 2),
   (0x70, 4),
   (0x71, 3),
   (0x72, 1),
   (0x80, 2),
   (0x81, 1),
   (0x82, 1),
   (0x83, 2),
   (0x85, 1),
   (0x86, 1),
   (0x87, 2),
   (0x90, 2),
   (0x91, 1),
   (0x92, 1),
   (0x93, 3),
   (0x94, 1),
   (0x96, 1),
   (0xA0, 1),
   (0xA1, 1),
   (0xA2, 1),
   (0xA3, 2),
   (0xB0, 1),
   (0xB1, 1),
   (0xB2, 1),
   (0xC0, 4),
   (0xC1, 1),
   (0xC2, 2),
   (0xC3, 1)]

/-- The number of assigned FN values under an OP; 0 when the OP has no row (R32, R33). -/
def fnCount (op : Nat) : Nat :=
  match fnCounts.find? (fun r => r.1 = op) with
  | some r => r.2
  | none => 0

/-- OP and FN form an assigned instruction (step 3 of R28). -/
def opAssigned (op : BitVec 8) (fn : BitVec 6) : Bool := fn.toNat < fnCount op.toNat

/-- OP lies in the hint region (R31). -/
def opHint (op : BitVec 8) : Bool := 0xF0 ≤ op.toNat

/-- Well-formed: the term is what some word, or some step of the part, stands for.
A conversion names a type code below acc40, the two forms of MSG keep MOD[0], a hint word's OP is a hint,
an unassigned word's OP and FN are not assigned, and a 16-bit parcel has low bits other than 11. -/
def Instr.wf : Instr → Bool
  | .vcvt dst _ => dst.toNat < 0x12
  | .msg w => !w.mod.getLsbD 0
  | .msgRecv w => w.mod.getLsbD 0
  | .hintWord op _ _ => opHint op
  | .illegalOpcodeWord op fn _ => !opHint op && !opAssigned op fn
  | .rv64IntegerInstruction (.two p) _ => p.extractLsb' 0 2 ≠ 3#2
  | .rvLoadStore (.two p) _ => p.extractLsb' 0 2 ≠ 3#2
  | .ebreak (.two p) => p.extractLsb' 0 2 ≠ 3#2
  | _ => true

end Sys2Proof
end

