-- ==== Sys2Proof/Decode.lean ====
section
/-!
DEFINITION. Decoding and encoding: the 96-bit Norom word (spec/02_instruction_word.md R14 to R33), the 32-bit
RV64 words of L, S and the umpire, and the 16-bit parcels of the umpire (spec/11_access_strands_queues.md R187
to R193, spec/18_umpire_supersteps_exchange.md R306, R314). The encodings of RV64IMAC, Zba, Zbb and Zicsr are
those of the RISC-V manual that R187 names (PRESUMED, log entry 1).
-/
namespace Sys2Proof

/-! ## The Norom word -/

/-- The fields of a Norom word below OP and FN (R14). -/
def noromFields (w : NWord) : Norom where
  mod := w.extractLsb' 76 6
  d := w.extractLsb' 60 16
  a := w.extractLsb' 44 16
  b := w.extractLsb' 28 16
  g := w.extractLsb' 20 8
  h := w.extractLsb' 0 20

/-- The Norom word of OP, FN and the other fields (R14). -/
def noromWord (op : BitVec 8) (fn : BitVec 6) (w : Norom) : NWord :=
  op ++ (fn ++ (w.mod ++ (w.d ++ (w.a ++ (w.b ++ (w.g ++ w.h))))))

/-- Rows of the opcode map (R33), part 1. -/
def opMap1 : List (BitVec 8 × BitVec 6 × (Norom → Instr)) := [
  (0x00, 0x00, .nop),
  (0x01, 0x00, .add),
  (0x01, 0x01, .addss),
  (0x01, 0x02, .addus),
  (0x02, 0x00, .sub),
  (0x02, 0x01, .subss),
  (0x02, 0x02, .subus),
  (0x03, 0x00, .mul),
  (0x03, 0x01, .mulhs),
  (0x03, 0x02, .mulhu),
  (0x04, 0x00, .divs),
  (0x04, 0x01, .divu),
  (0x04, 0x02, .rems),
  (0x04, 0x03, .remu),
  (0x05, 0x00, .and),
  (0x05, 0x01, .or),
  (0x05, 0x02, .xor),
  (0x05, 0x03, .andn),
  (0x06, 0x00, .shl),
  (0x06, 0x01, .shr),
  (0x06, 0x02, .sar),
  (0x06, 0x03, .rol),
  (0x07, 0x00, .seq),
  (0x07, 0x01, .sne)]

/-- Rows of the opcode map (R33), part 2. -/
def opMap2 : List (BitVec 8 × BitVec 6 × (Norom → Instr)) := [
  (0x07, 0x02, .slt),
  (0x07, 0x03, .sle),
  (0x07, 0x04, .sltu),
  (0x07, 0x05, .sleu),
  (0x08, 0x00, .min),
  (0x08, 0x01, .max),
  (0x08, 0x02, .minu),
  (0x08, 0x03, .maxu),
  (0x09, 0x00, .clz),
  (0x09, 0x01, .ctz),
  (0x09, 0x02, .popc),
  (0x09, 0x03, .brev),
  (0x09, 0x04, .bswap),
  (0x0A, 0x00, .bfx),
  (0x0A, 0x01, .bfi),
  (0x0B, 0x00, .sext),
  (0x0B, 0x01, .zext),
  (0x0C, 0x00, .mov),
  (0x0D, 0x00, .li),
  (0x0D, 0x01, .lih),
  (0x10, 0x00, .beq),
  (0x10, 0x01, .bne),
  (0x10, 0x02, .blt),
  (0x10, 0x03, .bge)]

/-- Rows of the opcode map (R33), part 3. -/
def opMap3 : List (BitVec 8 × BitVec 6 × (Norom → Instr)) := [
  (0x10, 0x04, .bltu),
  (0x10, 0x05, .bgeu),
  (0x11, 0x00, .jmp),
  (0x11, 0x01, .jmpr),
  (0x12, 0x00, .call),
  (0x12, 0x01, .callr),
  (0x13, 0x00, .ret),
  (0x14, 0x00, .halt),
  (0x15, 0x00, .trap),
  (0x16, 0x00, .wait),
  (0x20, 0x00, .vadd),
  (0x20, 0x01, .vadds),
  (0x21, 0x00, .vsub),
  (0x21, 0x01, .vsubs),
  (0x22, 0x00, .vmul),
  (0x22, 0x01, .vmulh),
  (0x23, 0x00, .vfma),
  (0x23, 0x01, .vfms),
  (0x24, 0x00, .vmin),
  (0x24, 0x01, .vmax),
  (0x25, 0x00, .vabs),
  (0x25, 0x01, .vneg),
  (0x26, 0x00, .vand),
  (0x26, 0x01, .vor)]

/-- Rows of the opcode map (R33), part 4. -/
def opMap4 : List (BitVec 8 × BitVec 6 × (Norom → Instr)) := [
  (0x26, 0x02, .vxor),
  (0x26, 0x03, .vandn),
  (0x27, 0x00, .vshl),
  (0x27, 0x01, .vshr),
  (0x27, 0x02, .vsar),
  (0x28, 0x00, .vceq),
  (0x28, 0x01, .vcne),
  (0x28, 0x02, .vclt),
  (0x28, 0x03, .vcle),
  (0x29, 0x00, .vblend),
  (0x2B, 0x00, .vqmx),
  (0x2B, 0x01, .vdqmx),
  (0x2C, 0x00, .vrsum),
  (0x2C, 0x01, .vrmax),
  (0x2C, 0x02, .vrmin),
  (0x2D, 0x00, .vscan),
  (0x2D, 0x01, .vscanm),
  (0x2E, 0x00, .vperm),
  (0x2E, 0x01, .vshuf),
  (0x2F, 0x00, .vbcast),
  (0x2F, 0x01, .vext),
  (0x2F, 0x02, .vins),
  (0x30, 0x00, .vdot4),
  (0x31, 0x00, .vpopm)]

/-- Rows of the opcode map (R33), part 5. -/
def opMap5 : List (BitVec 8 × BitVec 6 × (Norom → Instr)) := [
  (0x32, 0x00, .vmov),
  (0x40, 0x00, .vexp2),
  (0x40, 0x01, .vlog2),
  (0x40, 0x02, .vrcp),
  (0x40, 0x03, .vrsqrt),
  (0x40, 0x04, .vsqrt),
  (0x40, 0x05, .vtanh),
  (0x40, 0x06, .vsigm),
  (0x40, 0x07, .vsilu),
  (0x40, 0x08, .vgelu),
  (0x40, 0x09, .vsin),
  (0x40, 0x0A, .vcos),
  (0x40, 0x0B, .vexp),
  (0x41, 0x00, .vdiv),
  (0x50, 0x00, .ldb),
  (0x50, 0x01, .ldbu),
  (0x50, 0x02, .ldh),
  (0x50, 0x03, .ldhu),
  (0x50, 0x04, .ldw),
  (0x50, 0x05, .ldwu),
  (0x50, 0x06, .ldd),
  (0x51, 0x00, .stb),
  (0x51, 0x01, .sth),
  (0x51, 0x02, .stw)]

/-- Rows of the opcode map (R33), part 6. -/
def opMap6 : List (BitVec 8 × BitVec 6 × (Norom → Instr)) := [
  (0x51, 0x03, .std),
  (0x52, 0x00, .vld),
  (0x53, 0x00, .vst),
  (0x54, 0x00, .aadd),
  (0x54, 0x01, .amin),
  (0x54, 0x02, .amax),
  (0x54, 0x03, .aminu),
  (0x54, 0x04, .amaxu),
  (0x54, 0x05, .aand),
  (0x54, 0x06, .aor),
  (0x54, 0x07, .axor),
  (0x54, 0x08, .axchg),
  (0x55, 0x00, .acas),
  (0x60, 0x00, .fence),
  (0x60, 0x01, .fwait),
  (0x60, 0x02, .ftest),
  (0x61, 0x00, .bbinit),
  (0x61, 0x01, .bbexp),
  (0x61, 0x02, .bbarr),
  (0x61, 0x03, .bbwait),
  (0x61, 0x04, .bbtest),
  (0x62, 0x00, .hbset),
  (0x62, 0x01, .hbarr),
  (0x62, 0x02, .hbwait)]

/-- Rows of the opcode map (R33), part 7. -/
def opMap7 : List (BitVec 8 × BitVec 6 × (Norom → Instr)) := [
  (0x63, 0x00, .gbarr),
  (0x63, 0x01, .gbwait),
  (0x70, 0x00, .cpy),
  (0x70, 0x01, .cpys),
  (0x70, 0x02, .cpyg),
  (0x70, 0x03, .cpyx),
  (0x71, 0x00, .xpost),
  (0x71, 0x01, .xsend),
  (0x71, 0x02, .xclose),
  (0x72, 0x00, .bcopy),
  (0x80, 0x00, .mcfg),
  (0x80, 0x01, .epcfg),
  (0x81, 0x00, .cvld),
  (0x82, 0x00, .mwld),
  (0x83, 0x00, .mstr),
  (0x83, 0x01, .scrum),
  (0x85, 0x00, .mzero),
  (0x86, 0x00, .mdrn),
  (0x87, 0x00, .accrd),
  (0x87, 0x01, .accwr),
  (0x90, 0x00, .susp),
  (0x90, 0x01, .task),
  (0x91, 0x00, .force),
  (0x92, 0x00, .spark)]

/-- Rows of the opcode map (R33), part 8. -/
def opMap8 : List (BitVec 8 × BitVec 6 × (Norom → Instr)) := [
  (0x93, 0x00, .drop),
  (0x93, 0x01, .hdup),
  (0x93, 0x02, .hmake),
  (0x94, 0x00, .hstat),
  (0x96, 0x00, .tdone),
  (0xA0, 0x00, .kvapp),
  (0xA1, 0x00, .attn),
  (0xA2, 0x00, .acomb),
  (0xA3, 0x00, .park),
  (0xA3, 0x01, .wake),
  (0xB0, 0x00, fun w => if w.mod.getLsbD 0 then .msgRecv w else .msg w),
  (0xB1, 0x00, .qstat),
  (0xB2, 0x00, .boflush),
  (0xC0, 0x00, .csrr),
  (0xC0, 0x01, .csrw),
  (0xC0, 0x02, .csrs),
  (0xC0, 0x03, .csrc),
  (0xC1, 0x00, .eret),
  (0xC2, 0x00, .flags),
  (0xC2, 0x01, .flagc),
  (0xC3, 0x00, .time)]

/-- The opcode map of R33, but for OP 0x2A, whose FN is a type. MSG has two readings by MOD[0] (R252, R253). -/
def opMap : List (BitVec 8 × BitVec 6 × (Norom → Instr)) :=
  opMap1 ++ opMap2 ++ opMap3 ++ opMap4 ++ opMap5 ++ opMap6 ++ opMap7 ++ opMap8

/-- Steps 2 and 3 of R28: a hint word, an unassigned encoding, or an assigned instruction. -/
def decodeFields (op : BitVec 8) (fn : BitVec 6) (w : Norom) : Instr :=
  if opHint op then .hintWord op fn w
  else if op = 0x2A then
    if fn.toNat < 0x12 then .vcvt fn w else .illegalOpcodeWord op fn w
  else match opMap.find? (fun r => r.1 == op && r.2.1 == fn) with
    | some r => r.2.2 w
    | none => .illegalOpcodeWord op fn w

/-- The instruction that a 96-bit word stands for; total, and an unassigned word is named as such (R32). -/
def decodeNorom (w : NWord) : Instr :=
  decodeFields (w.extractLsb' 88 8) (w.extractLsb' 82 6) (noromFields w)

/-! ## RV64 words -/

/-- An R-type word (R192 and the RISC-V manual). -/
def rvR (f7 : BitVec 7) (rs2 rs1 : BitVec 5) (f3 : BitVec 3) (rd : BitVec 5) (opc : BitVec 7) : BitVec 32 :=
  f7 ++ (rs2 ++ (rs1 ++ (f3 ++ (rd ++ opc))))

/-- An I-type word. -/
def rvI (imm : BitVec 12) (rs1 : BitVec 5) (f3 : BitVec 3) (rd : BitVec 5) (opc : BitVec 7) : BitVec 32 :=
  imm ++ (rs1 ++ (f3 ++ (rd ++ opc)))

/-- An S-type word. -/
def rvS (imm : BitVec 12) (rs2 rs1 : BitVec 5) (f3 : BitVec 3) (opc : BitVec 7) : BitVec 32 :=
  imm.extractLsb' 5 7 ++ (rs2 ++ (rs1 ++ (f3 ++ (imm.extractLsb' 0 5 ++ opc))))

/-- A U-type word. -/
def rvU (imm : BitVec 20) (rd : BitVec 5) (opc : BitVec 7) : BitVec 32 := imm ++ (rd ++ opc)

/-- The rd field of a B-type word: offset bits [4:1] and [11]. -/
def bLow (off : BitVec 12) : BitVec 5 := off.extractLsb' 0 4 ++ off.extractLsb' 10 1

/-- The funct7 field of a B-type word: offset bits [12] and [10:5]. -/
def bHigh (off : BitVec 12) : BitVec 7 := off.extractLsb' 11 1 ++ off.extractLsb' 4 6

/-- The offset that the two fields of a B-type word hold. -/
def bJoin (hi : BitVec 7) (lo : BitVec 5) : BitVec 12 :=
  hi.extractLsb' 6 1 ++ (lo.extractLsb' 0 1 ++ (hi.extractLsb' 0 6 ++ lo.extractLsb' 1 4))

/-- The immediate field of a J-type word: offset bits [20], [10:1], [11], [19:12]. -/
def jSplit (off : BitVec 20) : BitVec 20 :=
  off.extractLsb' 19 1 ++ (off.extractLsb' 0 10 ++ (off.extractLsb' 10 1 ++ off.extractLsb' 11 8))

/-- The offset that the immediate field of a J-type word holds. -/
def jJoin (f : BitVec 20) : BitVec 20 :=
  f.extractLsb' 19 1 ++ (f.extractLsb' 0 8 ++ (f.extractLsb' 8 1 ++ f.extractLsb' 9 10))

/-- funct7 and funct3 of the register-register operations. -/
def aluCode : RvAlu → BitVec 7 × BitVec 3
  | .add => (0x00, 0) | .sub => (0x20, 0) | .sll => (0x00, 1) | .slt => (0x00, 2) | .sltu => (0x00, 3)
  | .xor => (0x00, 4) | .srl => (0x00, 5) | .sra => (0x20, 5) | .or => (0x00, 6) | .and => (0x00, 7)
  | .mul => (0x01, 0) | .mulh => (0x01, 1) | .mulhsu => (0x01, 2) | .mulhu => (0x01, 3)
  | .div => (0x01, 4) | .divu => (0x01, 5) | .rem => (0x01, 6) | .remu => (0x01, 7)
  | .sh1add => (0x10, 2) | .sh2add => (0x10, 4) | .sh3add => (0x10, 6)
  | .andn => (0x20, 7) | .orn => (0x20, 6) | .xnor => (0x20, 4)
  | .max => (0x05, 6) | .maxu => (0x05, 7) | .min => (0x05, 4) | .minu => (0x05, 5)
  | .rol => (0x30, 1) | .ror => (0x30, 5)

/-- Every register-register operation. -/
def aluAll : List RvAlu :=
  [.add, .sub, .sll, .slt, .sltu, .xor, .srl, .sra, .or, .and, .mul, .mulh, .mulhsu, .mulhu, .div, .divu, .rem,
   .remu, .sh1add, .sh2add, .sh3add, .andn, .orn, .xnor, .max, .maxu, .min, .minu, .rol, .ror]

/-- funct7 and funct3 of the 32-bit register-register operations. -/
def aluWCode : RvAluW → BitVec 7 × BitVec 3
  | .addw => (0x00, 0) | .subw => (0x20, 0) | .sllw => (0x00, 1) | .srlw => (0x00, 5) | .sraw => (0x20, 5)
  | .mulw => (0x01, 0) | .divw => (0x01, 4) | .divuw => (0x01, 5) | .remw => (0x01, 6) | .remuw => (0x01, 7)
  | .adduw => (0x04, 0) | .sh1adduw => (0x10, 2) | .sh2adduw => (0x10, 4) | .sh3adduw => (0x10, 6)
  | .rolw => (0x30, 1) | .rorw => (0x30, 5)

/-- Every 32-bit register-register operation. -/
def aluWAll : List RvAluW :=
  [.addw, .subw, .sllw, .srlw, .sraw, .mulw, .divw, .divuw, .remw, .remuw, .adduw, .sh1adduw, .sh2adduw,
   .sh3adduw, .rolw, .rorw]

/-- funct3 of the immediate operations. -/
def aluICode : RvAluI → BitVec 3
  | .addi => 0 | .slti => 2 | .sltiu => 3 | .xori => 4 | .ori => 6 | .andi => 7

/-- Every immediate operation. -/
def aluIAll : List RvAluI := [.addi, .slti, .sltiu, .xori, .ori, .andi]

/-- Bits [31:26], funct3 and opcode of the shifts by a 6-bit amount. -/
def shICode : RvShI → BitVec 6 × BitVec 3 × BitVec 7
  | .slli => (0x00, 1, 0x13) | .srli => (0x00, 5, 0x13) | .srai => (0x10, 5, 0x13) | .rori => (0x18, 5, 0x13)
  | .slliuw => (0x02, 1, 0x1B)

/-- Every shift by a 6-bit amount. -/
def shIAll : List RvShI := [.slli, .srli, .srai, .rori, .slliuw]

/-- funct7 and funct3 of the 32-bit shifts by a 5-bit amount. -/
def shIWCode : RvShIW → BitVec 7 × BitVec 3
  | .slliw => (0x00, 1) | .srliw => (0x00, 5) | .sraiw => (0x20, 5) | .roriw => (0x30, 5)

/-- Every 32-bit shift by a 5-bit amount. -/
def shIWAll : List RvShIW := [.slliw, .srliw, .sraiw, .roriw]

/-- Bits [31:20], funct3 and opcode of the one-operand operations. -/
def unCode : RvUn → BitVec 12 × BitVec 3 × BitVec 7
  | .clz => (0x600, 1, 0x13) | .ctz => (0x601, 1, 0x13) | .cpop => (0x602, 1, 0x13)
  | .sextb => (0x604, 1, 0x13) | .sexth => (0x605, 1, 0x13) | .zexth => (0x080, 4, 0x3B)
  | .orcb => (0x287, 5, 0x13) | .rev8 => (0x6B8, 5, 0x13)
  | .clzw => (0x600, 1, 0x1B) | .ctzw => (0x601, 1, 0x1B) | .cpopw => (0x602, 1, 0x1B)

/-- Every one-operand operation. -/
def unAll : List RvUn := [.clz, .ctz, .cpop, .sextb, .sexth, .zexth, .orcb, .rev8, .clzw, .ctzw, .cpopw]

/-- funct3 of the branches. -/
def condCode : RvCond → BitVec 3
  | .eq => 0 | .ne => 1 | .lt => 4 | .ge => 5 | .ltu => 6 | .geu => 7

/-- Every branch condition. -/
def condAll : List RvCond := [.eq, .ne, .lt, .ge, .ltu, .geu]

/-- funct3 of the control register operations. -/
def csrCode : RvCsrOp → BitVec 3
  | .csrrw => 1 | .csrrs => 2 | .csrrc => 3 | .csrrwi => 5 | .csrrsi => 6 | .csrrci => 7

/-- Every control register operation. -/
def csrAll : List RvCsrOp := [.csrrw, .csrrs, .csrrc, .csrrwi, .csrrsi, .csrrci]

/-- funct5 of the atomic memory operations. -/
def amoCode : RvAmo → BitVec 5
  | .add => 0x00 | .swap => 0x01 | .xor => 0x04 | .or => 0x08 | .and => 0x0C
  | .min => 0x10 | .max => 0x14 | .minu => 0x18 | .maxu => 0x1C

/-- Every atomic memory operation. -/
def amoAll : List RvAmo := [.add, .swap, .xor, .or, .and, .min, .max, .minu, .maxu]

/-- funct3 and funct7 of the queue extension (R193), with the constructor each names. -/
def queueMap : List (BitVec 3 × BitVec 7 × (BitVec 5 → BitVec 5 → BitVec 5 → Instr)) :=
  [(0, 0, .lqVpush), (0, 1, .lqGpush), (0, 2, .lqSpush), (0, 3, .sqVpop), (0, 4, .sqGpop), (0, 5, .sqXpop),
   (0, 6, .boPop), (0, 7, .boPush), (0, 8, .qStat), (1, 0, .cpIssue), (1, 1, .bbArr), (1, 2, .bbWait),
   (2, 0, .gqPop), (2, 1, .rtClaim), (2, 2, .rtEmit)]

/-- The fields of a 32-bit RV64 word. -/
structure RvFields where
  f7 : BitVec 7
  rs2 : BitVec 5
  rs1 : BitVec 5
  f3 : BitVec 3
  rd : BitVec 5
  opc : BitVec 7
  imm : BitVec 12

/-- Every field of a 32-bit word, cut once. -/
def rvFields (w : BitVec 32) : RvFields where
  f7 := w.extractLsb' 25 7
  rs2 := w.extractLsb' 20 5
  rs1 := w.extractLsb' 15 5
  f3 := w.extractLsb' 12 3
  rd := w.extractLsb' 7 5
  opc := w.extractLsb' 0 7
  imm := w.extractLsb' 20 12

/-- The loads by funct3. -/
def decodeLoad (f : RvFields) : Option RvMem :=
  match f.f3.toNat with
  | 0 => some (.lb f.imm f.rs1 f.rd)
  | 1 => some (.lh f.imm f.rs1 f.rd)
  | 2 => some (.lw f.imm f.rs1 f.rd)
  | 3 => some (.ld f.imm f.rs1 f.rd)
  | 4 => some (.lbu f.imm f.rs1 f.rd)
  | 5 => some (.lhu f.imm f.rs1 f.rd)
  | 6 => some (.lwu f.imm f.rs1 f.rd)
  | _ => none

/-- The stores by funct3. -/
def decodeStore (f : RvFields) : Option RvMem :=
  let imm : BitVec 12 := f.f7 ++ f.rd
  match f.f3.toNat with
  | 0 => some (.sb imm f.rs2 f.rs1)
  | 1 => some (.sh imm f.rs2 f.rs1)
  | 2 => some (.sw imm f.rs2 f.rs1)
  | 3 => some (.sd imm f.rs2 f.rs1)
  | _ => none

/-- The operations under OP-IMM and OP-IMM-32: one-operand operations, shifts, then the 12-bit immediates. -/
def decodeImm (f : RvFields) : Option RvInt :=
  match unAll.find? (fun u => unCode u == (f.imm, f.f3, f.opc)) with
  | some u => some (.un u f.rs1 f.rd)
  | none =>
  match shIAll.find? (fun o => shICode o == (f.imm.extractLsb' 6 6, f.f3, f.opc)) with
  | some o => some (.shI o (f.imm.extractLsb' 0 6) f.rs1 f.rd)
  | none =>
  if f.opc = 0x1B then
    match shIWAll.find? (fun o => shIWCode o == (f.f7, f.f3)) with
    | some o => some (.shIW o f.rs2 f.rs1 f.rd)
    | none => if f.f3 = 0 then some (.addiw f.imm f.rs1 f.rd) else none
  else
    match aluIAll.find? (fun o => aluICode o == f.f3) with
    | some o => some (.aluI o f.imm f.rs1 f.rd)
    | none => none

/-- The operations under OP-32; the zero extension of a half word is the one one-operand form there. -/
def decodeOp32 (f : RvFields) : Option RvInt :=
  match aluWAll.find? (fun o => aluWCode o == (f.f7, f.f3)) with
  | some o => some (.aluW o f.rs2 f.rs1 f.rd)
  | none => if unCode .zexth == (f.imm, f.f3, f.opc) then some (.un .zexth f.rs1 f.rd) else none

/-- The A extension of the umpire (R306, R297). -/
def decodeAmo (f : RvFields) : Option Instr :=
  if f.f3 = 2 ∨ f.f3 = 3 then
    let wide := f.f3 == 3
    let aq := f.f7.getLsbD 1
    let rl := f.f7.getLsbD 0
    let f5 := f.f7.extractLsb' 2 5
    if f5 = 0x02 then (if f.rs2 = 0 then some (.umpireLr wide aq rl f.rs1 f.rd) else none)
    else if f5 = 0x03 then some (.umpireSc wide aq rl f.rs2 f.rs1 f.rd)
    else match amoAll.find? (fun o => amoCode o == f5) with
      | some o => some (.umpireAmo o wide aq rl f.rs2 f.rs1 f.rd)
      | none => none
  else none

/-- SYSTEM: ECALL, EBREAK and the control register reads; every other word is illegal (R188, R190). -/
def decodeSystem (w : BitVec 32) (f : RvFields) : Option Instr :=
  if w = 0x00000073 then some .ecall
  else if w = 0x00100073 then some (.ebreak .four)
  else match csrAll.find? (fun o => csrCode o == f.f3) with
    | some o => some (.rvCsrAccess o f.imm f.rs1 f.rd)
    | none => none

/-- An ordinary instruction of four bytes. -/
def rvInt (o : Option RvInt) : Option Instr := o.map (.rv64IntegerInstruction .four)

/-- A 32-bit word, or none where no RV64 strand has the instruction. -/
def decodeRv? (w : BitVec 32) : Option Instr :=
  let f := rvFields w
  if f.opc = 0x37 then rvInt (some (.lui (w.extractLsb' 12 20) f.rd))
  else if f.opc = 0x17 then rvInt (some (.auipc (w.extractLsb' 12 20) f.rd))
  else if f.opc = 0x6F then rvInt (some (.jal (jJoin (w.extractLsb' 12 20)) f.rd))
  else if f.opc = 0x67 then (if f.f3 = 0 then rvInt (some (.jalr f.imm f.rs1 f.rd)) else none)
  else if f.opc = 0x63 then
    rvInt ((condAll.find? (fun c => condCode c == f.f3)).map fun c => .branch c (bJoin f.f7 f.rd) f.rs2 f.rs1)
  else if f.opc = 0x03 then (decodeLoad f).map (.rvLoadStore .four)
  else if f.opc = 0x23 then (decodeStore f).map (.rvLoadStore .four)
  else if f.opc = 0x13 ∨ f.opc = 0x1B then rvInt (decodeImm f)
  else if f.opc = 0x33 then
    rvInt ((aluAll.find? (fun o => aluCode o == (f.f7, f.f3))).map fun o => .alu o f.rs2 f.rs1 f.rd)
  else if f.opc = 0x3B then rvInt (decodeOp32 f)
  else if f.opc = 0x0F then (if f.f3 = 0 then some (.rvFence f.imm f.rs1 f.rd) else none)
  else if f.opc = 0x73 then decodeSystem w f
  else if f.opc = 0x2F then decodeAmo f
  else if f.opc = 0x0B then
    (queueMap.find? (fun r => r.1 == f.f3 && r.2.1 == f.f7)).map fun r => r.2.2 f.rs2 f.rs1 f.rd
  else none

/-- A 32-bit word, total: a word no strand has is the illegal instruction of that word (R191, R192). -/
def decodeRv (w : BitVec 32) : Instr :=
  (decodeRv? w).getD (.rv64IntegerInstruction .four (.illegal w))

/-! ## The 16-bit parcels of the umpire -/

/-- A compact register field, x8 to x15. -/
def cReg (p : BitVec 16) (lo : Nat) : BitVec 5 := 1#2 ++ p.extractLsb' lo 3

/-- The 6-bit immediate of the CI format. -/
def cImm6 (p : BitVec 16) : BitVec 6 := p.extractLsb' 12 1 ++ p.extractLsb' 2 5

/-- The offset of C.J, in units of two bytes: bits [11:1]. -/
def cJOff (p : BitVec 16) : BitVec 11 :=
  p.extractLsb' 12 1 ++ (p.extractLsb' 8 1 ++ (p.extractLsb' 9 2 ++ (p.extractLsb' 6 1 ++
    (p.extractLsb' 7 1 ++ (p.extractLsb' 2 1 ++ (p.extractLsb' 11 1 ++ p.extractLsb' 3 3))))))

/-- The offset of C.BEQZ and C.BNEZ, in units of two bytes: bits [8:1]. -/
def cBOff (p : BitVec 16) : BitVec 8 :=
  p.extractLsb' 12 1 ++ (p.extractLsb' 5 2 ++ (p.extractLsb' 2 1 ++ (p.extractLsb' 10 2 ++ p.extractLsb' 3 2)))

/-- Quadrant 0: stack-pointer addition and the compact loads and stores. -/
def decodeC0 (p : BitVec 16) : Option (RvInt ⊕ RvMem) :=
  let rd := cReg p 2
  let rs1 := cReg p 7
  let offW : BitVec 12 := (p.extractLsb' 5 1 ++ (p.extractLsb' 10 3 ++ (p.extractLsb' 6 1 ++ 0#2))).setWidth 12
  let offD : BitVec 12 := (p.extractLsb' 5 2 ++ (p.extractLsb' 10 3 ++ 0#3)).setWidth 12
  let spn : BitVec 12 := (p.extractLsb' 7 4 ++ (p.extractLsb' 11 2 ++ (p.extractLsb' 5 1 ++
    (p.extractLsb' 6 1 ++ 0#2)))).setWidth 12
  match (p.extractLsb' 13 3).toNat with
  | 0 => if spn = 0 then none else some (.inl (.aluI .addi spn 2 rd))
  | 2 => some (.inr (.lw offW rs1 rd))
  | 3 => some (.inr (.ld offD rs1 rd))
  | 6 => some (.inr (.sw offW rd rs1))
  | 7 => some (.inr (.sd offD rd rs1))
  | _ => none

/-- The arithmetic group of quadrant 1. -/
def decodeC1Alu (p : BitVec 16) : Option RvInt :=
  let rd := cReg p 7
  let rs2 := cReg p 2
  let sh : BitVec 6 := cImm6 p
  match (p.extractLsb' 10 2).toNat with
  | 0 => some (.shI .srli sh rd rd)
  | 1 => some (.shI .srai sh rd rd)
  | 2 => some (.aluI .andi (sh.signExtend 12) rd rd)
  | _ =>
    match (p.extractLsb' 12 1).toNat, (p.extractLsb' 5 2).toNat with
    | 0, 0 => some (.alu .sub rs2 rd rd)
    | 0, 1 => some (.alu .xor rs2 rd rd)
    | 0, 2 => some (.alu .or rs2 rd rd)
    | 0, _ => some (.alu .and rs2 rd rd)
    | _, 0 => some (.aluW .subw rs2 rd rd)
    | _, 1 => some (.aluW .addw rs2 rd rd)
    | _, _ => none

/-- Quadrant 1: immediates, jumps and branches. -/
def decodeC1 (p : BitVec 16) : Option RvInt :=
  let rd : BitVec 5 := p.extractLsb' 7 5
  let imm : BitVec 12 := (cImm6 p).signExtend 12
  let sp16 : BitVec 12 := (p.extractLsb' 12 1 ++ (p.extractLsb' 3 2 ++ (p.extractLsb' 5 1 ++
    (p.extractLsb' 2 1 ++ (p.extractLsb' 6 1 ++ 0#4))))).signExtend 12
  match (p.extractLsb' 13 3).toNat with
  | 0 => some (.aluI .addi imm rd rd)
  | 1 => if rd = 0 then none else some (.addiw imm rd rd)
  | 2 => some (.aluI .addi imm 0 rd)
  | 3 =>
    if cImm6 p = 0 then none
    else if rd = 2 then some (.aluI .addi sp16 2 2)
    else some (.lui ((cImm6 p).signExtend 20) rd)
  | 4 => decodeC1Alu p
  | 5 => some (.jal ((cJOff p).signExtend 20) 0)
  | 6 => some (.branch .eq ((cBOff p).signExtend 12) 0 (cReg p 7))
  | _ => some (.branch .ne ((cBOff p).signExtend 12) 0 (cReg p 7))

/-- Quadrant 2: stack-pointer loads and stores, register jumps and moves. C.EBREAK is left to the caller. -/
def decodeC2 (p : BitVec 16) : Option (RvInt ⊕ RvMem) :=
  let rd : BitVec 5 := p.extractLsb' 7 5
  let rs2 : BitVec 5 := p.extractLsb' 2 5
  let lwsp : BitVec 12 := (p.extractLsb' 2 2 ++ (p.extractLsb' 12 1 ++ (p.extractLsb' 4 3 ++ 0#2))).setWidth 12
  let ldsp : BitVec 12 := (p.extractLsb' 2 3 ++ (p.extractLsb' 12 1 ++ (p.extractLsb' 5 2 ++ 0#3))).setWidth 12
  let swsp : BitVec 12 := (p.extractLsb' 7 2 ++ (p.extractLsb' 9 4 ++ 0#2)).setWidth 12
  let sdsp : BitVec 12 := (p.extractLsb' 7 3 ++ (p.extractLsb' 10 3 ++ 0#3)).setWidth 12
  match (p.extractLsb' 13 3).toNat with
  | 0 => some (.inl (.shI .slli (cImm6 p) rd rd))
  | 2 => if rd = 0 then none else some (.inr (.lw lwsp 2 rd))
  | 3 => if rd = 0 then none else some (.inr (.ld ldsp 2 rd))
  | 4 =>
    if p.getLsbD 12 then
      if rs2 = 0 then some (.inl (.jalr 0 rd 1)) else some (.inl (.alu .add rs2 rd rd))
    else if rs2 = 0 then (if rd = 0 then none else some (.inl (.jalr 0 rd 0)))
    else some (.inl (.alu .add rs2 0 rd))
  | 6 => some (.inr (.sw swsp rs2 2))
  | 7 => some (.inr (.sd sdsp rs2 2))
  | _ => none

/-- What a compact instruction expands to, keeping its parcel. -/
def cWrap (p : BitVec 16) : Option (RvInt ⊕ RvMem) → Instr
  | some (.inl i) => .rv64IntegerInstruction (.two p) i
  | some (.inr m) => .rvLoadStore (.two p) m
  | none => .rv64IntegerInstruction (.two p) (.illegal (p.setWidth 32))

/-- A 16-bit parcel of the C extension for RV64 without F and D (R306). -/
def decodeRvc (p : BitVec 16) : Instr :=
  match (p.extractLsb' 0 2).toNat with
  | 0 => cWrap p (decodeC0 p)
  | 1 => cWrap p ((decodeC1 p).map .inl)
  | _ => if p = 0x9002 then .ebreak (.two p) else cWrap p (decodeC2 p)

/-- The parcel or word that starts with these 32 bits: a 16-bit encoding when bits [1:0] are not 11. -/
def decodeRvParcel (w : BitVec 32) : Instr :=
  if w.extractLsb' 0 2 = 3#2 then decodeRv w else decodeRvc (w.setWidth 16)

/-! ## Bytes -/

/-- The little-endian integer of some bytes, the first lowest (R5). -/
def leNat : List Byte → Nat
  | [] => 0
  | b :: t => b.toNat + 256 * leNat t

/-- The n bytes of an integer, lowest first (R5). -/
def leBytes : Nat → Nat → List Byte
  | 0, _ => []
  | n + 1, v => BitVec.ofNat 8 v :: leBytes n (v / 256)

/-- Why bytes hold no instruction: the list is shorter than the instruction that it starts. -/
inductive DecodeError where
  | truncated
  deriving DecidableEq, Repr

/-- The two instruction sets: E's, and that of L, S and the umpire. -/
inductive Isa where
  | norom | rv64
  deriving DecidableEq, Repr

/-- The instruction at the front of some bytes, with the bytes after it (R14, R15, R187). -/
def decodeBytes (isa : Isa) (bs : List Byte) : Except DecodeError (Instr × List Byte) :=
  match isa with
  | .norom =>
    if bs.length < 12 then .error .truncated
    else .ok (decodeNorom (BitVec.ofNat 96 (leNat (bs.take 12))), bs.drop 12)
  | .rv64 =>
    if bs.length < 2 then .error .truncated
    else if (leNat (bs.take 2)) % 4 ≠ 3 then .ok (decodeRvc (BitVec.ofNat 16 (leNat (bs.take 2))), bs.drop 2)
    else if bs.length < 4 then .error .truncated
    else .ok (decodeRv (BitVec.ofNat 32 (leNat (bs.take 4))), bs.drop 4)

/-- The instruction of a table row's bits: 96 bits are a Norom word, 32 bits an RV64 word, 16 a parcel. -/
def decodeTableWord (nbits w : Nat) : Option Instr :=
  if 32 < nbits then
    match decodeBytes .norom (leBytes 12 w) with
    | .ok (i, _) => some i
    | .error _ => none
  else if nbits = 0 then none
  else
    match decodeBytes .rv64 (leBytes 4 w) with
    | .ok (i, _) => some i
    | .error _ => none

/-! ## The encoder -/

/-- OP, FN and fields of a Norom instruction; none for a step that has no Norom word (R33). -/
def noromCode : Instr → Option (BitVec 8 × BitVec 6 × Norom)
  | .nop w => some (0x00, 0x00, w)
  | .add w => some (0x01, 0x00, w)
  | .addss w => some (0x01, 0x01, w)
  | .addus w => some (0x01, 0x02, w)
  | .sub w => some (0x02, 0x00, w)
  | .subss w => some (0x02, 0x01, w)
  | .subus w => some (0x02, 0x02, w)
  | .mul w => some (0x03, 0x00, w)
  | .mulhs w => some (0x03, 0x01, w)
  | .mulhu w => some (0x03, 0x02, w)
  | .divs w => some (0x04, 0x00, w)
  | .divu w => some (0x04, 0x01, w)
  | .rems w => some (0x04, 0x02, w)
  | .remu w => some (0x04, 0x03, w)
  | .and w => some (0x05, 0x00, w)
  | .or w => some (0x05, 0x01, w)
  | .xor w => some (0x05, 0x02, w)
  | .andn w => some (0x05, 0x03, w)
  | .shl w => some (0x06, 0x00, w)
  | .shr w => some (0x06, 0x01, w)
  | .sar w => some (0x06, 0x02, w)
  | .rol w => some (0x06, 0x03, w)
  | .seq w => some (0x07, 0x00, w)
  | .sne w => some (0x07, 0x01, w)
  | .slt w => some (0x07, 0x02, w)
  | .sle w => some (0x07, 0x03, w)
  | .sltu w => some (0x07, 0x04, w)
  | .sleu w => some (0x07, 0x05, w)
  | .min w => some (0x08, 0x00, w)
  | .max w => some (0x08, 0x01, w)
  | .minu w => some (0x08, 0x02, w)
  | .maxu w => some (0x08, 0x03, w)
  | .clz w => some (0x09, 0x00, w)
  | .ctz w => some (0x09, 0x01, w)
  | .popc w => some (0x09, 0x02, w)
  | .brev w => some (0x09, 0x03, w)
  | .bswap w => some (0x09, 0x04, w)
  | .bfx w => some (0x0A, 0x00, w)
  | .bfi w => some (0x0A, 0x01, w)
  | .sext w => some (0x0B, 0x00, w)
  | .zext w => some (0x0B, 0x01, w)
  | .mov w => some (0x0C, 0x00, w)
  | .li w => some (0x0D, 0x00, w)
  | .lih w => some (0x0D, 0x01, w)
  | .beq w => some (0x10, 0x00, w)
  | .bne w => some (0x10, 0x01, w)
  | .blt w => some (0x10, 0x02, w)
  | .bge w => some (0x10, 0x03, w)
  | .bltu w => some (0x10, 0x04, w)
  | .bgeu w => some (0x10, 0x05, w)
  | .jmp w => some (0x11, 0x00, w)
  | .jmpr w => some (0x11, 0x01, w)
  | .call w => some (0x12, 0x00, w)
  | .callr w => some (0x12, 0x01, w)
  | .ret w => some (0x13, 0x00, w)
  | .halt w => some (0x14, 0x00, w)
  | .trap w => some (0x15, 0x00, w)
  | .wait w => some (0x16, 0x00, w)
  | .vadd w => some (0x20, 0x00, w)
  | .vadds w => some (0x20, 0x01, w)
  | .vsub w => some (0x21, 0x00, w)
  | .vsubs w => some (0x21, 0x01, w)
  | .vmul w => some (0x22, 0x00, w)
  | .vmulh w => some (0x22, 0x01, w)
  | .vfma w => some (0x23, 0x00, w)
  | .vfms w => some (0x23, 0x01, w)
  | .vmin w => some (0x24, 0x00, w)
  | .vmax w => some (0x24, 0x01, w)
  | .vabs w => some (0x25, 0x00, w)
  | .vneg w => some (0x25, 0x01, w)
  | .vand w => some (0x26, 0x00, w)
  | .vor w => some (0x26, 0x01, w)
  | .vxor w => some (0x26, 0x02, w)
  | .vandn w => some (0x26, 0x03, w)
  | .vshl w => some (0x27, 0x00, w)
  | .vshr w => some (0x27, 0x01, w)
  | .vsar w => some (0x27, 0x02, w)
  | .vceq w => some (0x28, 0x00, w)
  | .vcne w => some (0x28, 0x01, w)
  | .vclt w => some (0x28, 0x02, w)
  | .vcle w => some (0x28, 0x03, w)
  | .vblend w => some (0x29, 0x00, w)
  | .vqmx w => some (0x2B, 0x00, w)
  | .vdqmx w => some (0x2B, 0x01, w)
  | .vrsum w => some (0x2C, 0x00, w)
  | .vrmax w => some (0x2C, 0x01, w)
  | .vrmin w => some (0x2C, 0x02, w)
  | .vscan w => some (0x2D, 0x00, w)
  | .vscanm w => some (0x2D, 0x01, w)
  | .vperm w => some (0x2E, 0x00, w)
  | .vshuf w => some (0x2E, 0x01, w)
  | .vbcast w => some (0x2F, 0x00, w)
  | .vext w => some (0x2F, 0x01, w)
  | .vins w => some (0x2F, 0x02, w)
  | .vdot4 w => some (0x30, 0x00, w)
  | .vpopm w => some (0x31, 0x00, w)
  | .vmov w => some (0x32, 0x00, w)
  | .vexp2 w => some (0x40, 0x00, w)
  | .vlog2 w => some (0x40, 0x01, w)
  | .vrcp w => some (0x40, 0x02, w)
  | .vrsqrt w => some (0x40, 0x03, w)
  | .vsqrt w => some (0x40, 0x04, w)
  | .vtanh w => some (0x40, 0x05, w)
  | .vsigm w => some (0x40, 0x06, w)
  | .vsilu w => some (0x40, 0x07, w)
  | .vgelu w => some (0x40, 0x08, w)
  | .vsin w => some (0x40, 0x09, w)
  | .vcos w => some (0x40, 0x0A, w)
  | .vexp w => some (0x40, 0x0B, w)
  | .vdiv w => some (0x41, 0x00, w)
  | .ldb w => some (0x50, 0x00, w)
  | .ldbu w => some (0x50, 0x01, w)
  | .ldh w => some (0x50, 0x02, w)
  | .ldhu w => some (0x50, 0x03, w)
  | .ldw w => some (0x50, 0x04, w)
  | .ldwu w => some (0x50, 0x05, w)
  | .ldd w => some (0x50, 0x06, w)
  | .stb w => some (0x51, 0x00, w)
  | .sth w => some (0x51, 0x01, w)
  | .stw w => some (0x51, 0x02, w)
  | .std w => some (0x51, 0x03, w)
  | .vld w => some (0x52, 0x00, w)
  | .vst w => some (0x53, 0x00, w)
  | .aadd w => some (0x54, 0x00, w)
  | .amin w => some (0x54, 0x01, w)
  | .amax w => some (0x54, 0x02, w)
  | .aminu w => some (0x54, 0x03, w)
  | .amaxu w => some (0x54, 0x04, w)
  | .aand w => some (0x54, 0x05, w)
  | .aor w => some (0x54, 0x06, w)
  | .axor w => some (0x54, 0x07, w)
  | .axchg w => some (0x54, 0x08, w)
  | .acas w => some (0x55, 0x00, w)
  | .fence w => some (0x60, 0x00, w)
  | .fwait w => some (0x60, 0x01, w)
  | .ftest w => some (0x60, 0x02, w)
  | .bbinit w => some (0x61, 0x00, w)
  | .bbexp w => some (0x61, 0x01, w)
  | .bbarr w => some (0x61, 0x02, w)
  | .bbwait w => some (0x61, 0x03, w)
  | .bbtest w => some (0x61, 0x04, w)
  | .hbset w => some (0x62, 0x00, w)
  | .hbarr w => some (0x62, 0x01, w)
  | .hbwait w => some (0x62, 0x02, w)
  | .gbarr w => some (0x63, 0x00, w)
  | .gbwait w => some (0x63, 0x01, w)
  | .cpy w => some (0x70, 0x00, w)
  | .cpys w => some (0x70, 0x01, w)
  | .cpyg w => some (0x70, 0x02, w)
  | .cpyx w => some (0x70, 0x03, w)
  | .xpost w => some (0x71, 0x00, w)
  | .xsend w => some (0x71, 0x01, w)
  | .xclose w => some (0x71, 0x02, w)
  | .bcopy w => some (0x72, 0x00, w)
  | .mcfg w => some (0x80, 0x00, w)
  | .epcfg w => some (0x80, 0x01, w)
  | .cvld w => some (0x81, 0x00, w)
  | .mwld w => some (0x82, 0x00, w)
  | .mstr w => some (0x83, 0x00, w)
  | .scrum w => some (0x83, 0x01, w)
  | .mzero w => some (0x85, 0x00, w)
  | .mdrn w => some (0x86, 0x00, w)
  | .accrd w => some (0x87, 0x00, w)
  | .accwr w => some (0x87, 0x01, w)
  | .susp w => some (0x90, 0x00, w)
  | .task w => some (0x90, 0x01, w)
  | .force w => some (0x91, 0x00, w)
  | .spark w => some (0x92, 0x00, w)
  | .drop w => some (0x93, 0x00, w)
  | .hdup w => some (0x93, 0x01, w)
  | .hmake w => some (0x93, 0x02, w)
  | .hstat w => some (0x94, 0x00, w)
  | .tdone w => some (0x96, 0x00, w)
  | .kvapp w => some (0xA0, 0x00, w)
  | .attn w => some (0xA1, 0x00, w)
  | .acomb w => some (0xA2, 0x00, w)
  | .park w => some (0xA3, 0x00, w)
  | .wake w => some (0xA3, 0x01, w)
  | .msg w => some (0xB0, 0x00, w)
  | .msgRecv w => some (0xB0, 0x00, w)
  | .qstat w => some (0xB1, 0x00, w)
  | .boflush w => some (0xB2, 0x00, w)
  | .csrr w => some (0xC0, 0x00, w)
  | .csrw w => some (0xC0, 0x01, w)
  | .csrs w => some (0xC0, 0x02, w)
  | .csrc w => some (0xC0, 0x03, w)
  | .eret w => some (0xC1, 0x00, w)
  | .flags w => some (0xC2, 0x00, w)
  | .flagc w => some (0xC2, 0x01, w)
  | .time w => some (0xC3, 0x00, w)
  | .vcvt dst w => some (0x2A, dst, w)
  | .hintWord op fn w => some (op, fn, w)
  | .illegalOpcodeWord op fn w => some (op, fn, w)
  | _ => none

/-- The word of an ordinary four-byte RV64 instruction; none for the two fetch outcomes. -/
def encodeInt : RvInt → Option (BitVec 32)
  | .lui imm rd => some (rvU imm rd 0x37)
  | .auipc imm rd => some (rvU imm rd 0x17)
  | .jal off rd => some (rvU (jSplit off) rd 0x6F)
  | .jalr imm rs1 rd => some (rvI imm rs1 0 rd 0x67)
  | .branch c off rs2 rs1 => some (rvR (bHigh off) rs2 rs1 (condCode c) (bLow off) 0x63)
  | .alu op rs2 rs1 rd => some (rvR (aluCode op).1 rs2 rs1 (aluCode op).2 rd 0x33)
  | .aluW op rs2 rs1 rd => some (rvR (aluWCode op).1 rs2 rs1 (aluWCode op).2 rd 0x3B)
  | .aluI op imm rs1 rd => some (rvI imm rs1 (aluICode op) rd 0x13)
  | .addiw imm rs1 rd => some (rvI imm rs1 0 rd 0x1B)
  | .shI op sh rs1 rd => some (rvI ((shICode op).1 ++ sh) rs1 (shICode op).2.1 rd (shICode op).2.2)
  | .shIW op sh rs1 rd => some (rvR (shIWCode op).1 sh rs1 (shIWCode op).2 rd 0x1B)
  | .un op rs1 rd => some (rvI (unCode op).1 rs1 (unCode op).2.1 rd (unCode op).2.2)
  | .illegal _ => none
  | .outOfImage => none

/-- The word of a standard load or store. -/
def encodeMem : RvMem → BitVec 32
  | .lb imm rs1 rd => rvI imm rs1 0 rd 0x03
  | .lh imm rs1 rd => rvI imm rs1 1 rd 0x03
  | .lw imm rs1 rd => rvI imm rs1 2 rd 0x03
  | .ld imm rs1 rd => rvI imm rs1 3 rd 0x03
  | .lbu imm rs1 rd => rvI imm rs1 4 rd 0x03
  | .lhu imm rs1 rd => rvI imm rs1 5 rd 0x03
  | .lwu imm rs1 rd => rvI imm rs1 6 rd 0x03
  | .sb imm rs2 rs1 => rvS imm rs2 rs1 0 0x23
  | .sh imm rs2 rs1 => rvS imm rs2 rs1 1 0x23
  | .sw imm rs2 rs1 => rvS imm rs2 rs1 2 0x23
  | .sd imm rs2 rs1 => rvS imm rs2 rs1 3 0x23

/-- funct7 of an A-extension word. -/
def amoF7 (f5 : BitVec 5) (aq rl : Bool) : BitVec 7 := f5 ++ (BitVec.ofBool aq ++ BitVec.ofBool rl)

/-- funct3 of an A-extension word. -/
def amoF3 (wide : Bool) : BitVec 3 := if wide then 3 else 2

/-- The 32-bit word of an RV64 instruction; none for a step that has none. -/
def encodeRv : Instr → Option (BitVec 32)
  | .rv64IntegerInstruction .four i => encodeInt i
  | .rvLoadStore .four m => some (encodeMem m)
  | .ecall => some 0x00000073
  | .ebreak .four => some 0x00100073
  | .rvFence imm rs1 rd => some (rvI imm rs1 0 rd 0x0F)
  | .rvCsrAccess op csr rs1 rd => some (rvI csr rs1 (csrCode op) rd 0x73)
  | .umpireAmo op wide aq rl rs2 rs1 rd => some (rvR (amoF7 (amoCode op) aq rl) rs2 rs1 (amoF3 wide) rd 0x2F)
  | .umpireLr wide aq rl rs1 rd => some (rvR (amoF7 0x02 aq rl) 0 rs1 (amoF3 wide) rd 0x2F)
  | .umpireSc wide aq rl rs2 rs1 rd => some (rvR (amoF7 0x03 aq rl) rs2 rs1 (amoF3 wide) rd 0x2F)
  | .lqVpush rs2 rs1 rd => some (rvR 0 rs2 rs1 0 rd 0x0B)
  | .lqGpush rs2 rs1 rd => some (rvR 1 rs2 rs1 0 rd 0x0B)
  | .lqSpush rs2 rs1 rd => some (rvR 2 rs2 rs1 0 rd 0x0B)
  | .sqVpop rs2 rs1 rd => some (rvR 3 rs2 rs1 0 rd 0x0B)
  | .sqGpop rs2 rs1 rd => some (rvR 4 rs2 rs1 0 rd 0x0B)
  | .sqXpop rs2 rs1 rd => some (rvR 5 rs2 rs1 0 rd 0x0B)
  | .boPop rs2 rs1 rd => some (rvR 6 rs2 rs1 0 rd 0x0B)
  | .boPush rs2 rs1 rd => some (rvR 7 rs2 rs1 0 rd 0x0B)
  | .qStat rs2 rs1 rd => some (rvR 8 rs2 rs1 0 rd 0x0B)
  | .cpIssue rs2 rs1 rd => some (rvR 0 rs2 rs1 1 rd 0x0B)
  | .bbArr rs2 rs1 rd => some (rvR 1 rs2 rs1 1 rd 0x0B)
  | .bbWait rs2 rs1 rd => some (rvR 2 rs2 rs1 1 rd 0x0B)
  | .gqPop rs2 rs1 rd => some (rvR 0 rs2 rs1 2 rd 0x0B)
  | .rtClaim rs2 rs1 rd => some (rvR 1 rs2 rs1 2 rd 0x0B)
  | .rtEmit rs2 rs1 rd => some (rvR 2 rs2 rs1 2 rd 0x0B)
  | _ => none

/-- The words of an instruction: its Norom word, or its RV64 word; none for a step with no word. -/
def encode (i : Instr) : Option (Isa × List Byte) :=
  match noromCode i with
  | some (op, fn, w) => some (.norom, leBytes 12 (noromWord op fn w).toNat)
  | none => (encodeRv i).map fun w => (.rv64, leBytes 4 w.toNat)

end Sys2Proof
end

