-- ==== Sys2Proof/Machine/Bits.lean ====
section
/-!
DEFINITION. Bit fields, extensions, byte order and the exact integer operations behind the scalar unit
(spec/00_scope.md R5, R6; spec/04_scalar_control_plain_memory.md R64 to R68).
-/
namespace Sys2Proof.Machine

open Sys2Proof

/-- Clamps an exact integer to bounds. -/
def clampInt (lo hi x : Int) : Int := max lo (min hi x)

/-- Whether every one of the low n bits that p names, from bit i up, holds; bits are counted down from n. -/
def countBits (p : Nat → Bool) : Nat → Nat
  | 0 => 0
  | n + 1 => (if p n then 1 else 0) + countBits p n

/-- The number of set bits of x (R66). -/
def popCount {w : Nat} (x : BitVec w) : Nat := countBits (fun i => x.getLsbD i) w

/-- Zero bits of x above its highest set bit, looking at bits n - 1 down to 0 (R66). -/
def leadZeros {w : Nat} (x : BitVec w) : Nat → Nat
  | 0 => 0
  | n + 1 => if x.getLsbD n then 0 else 1 + leadZeros x n

/-- Zero bits of x below its lowest set bit, looking at n bits from bit i up (R66). -/
def trailZeros {w : Nat} (x : BitVec w) (i : Nat) : Nat → Nat
  | 0 => 0
  | n + 1 => if x.getLsbD i then 0 else 1 + trailZeros x (i + 1) n

/-- The integer whose bit i is p i, for i below n. -/
def bitsNat (p : Nat → Bool) : Nat → Nat
  | 0 => 0
  | n + 1 => (if p n then 2 ^ n else 0) + bitsNat p n

/-- Bit i becomes bit w - 1 - i (R66). -/
def revBits {w : Nat} (x : BitVec w) : BitVec w := BitVec.ofNat w (bitsNat (fun i => x.getLsbD (w - 1 - i)) w)

/-- The n bytes of x in the opposite order (R66). -/
def revBytes (n : Nat) {w : Nat} (x : BitVec w) : BitVec w :=
  BitVec.ofNat w (leNat (leBytes n x.toNat).reverse)

/-- The low n bits of x read as a two's-complement integer (R6, R68). -/
def sextNat (n x : Nat) : Int :=
  let y := x % 2 ^ n
  if 2 * y < 2 ^ n then (y : Int) else (y : Int) - 2 ^ n

/-- A word from the low n bits of x, sign-extended (R77). -/
def sextWord (n x : Nat) : Word := BitVec.ofInt 64 (sextNat n x)

/-- Bit n of a number. -/
def natBit (x n : Nat) : Bool := x / 2 ^ n % 2 = 1

/-- Bits [hi:lo] of a number (R5). -/
def natBits (x hi lo : Nat) : Nat := x / 2 ^ lo % 2 ^ (hi + 1 - lo)

/-- Rounds x up to a multiple of n. -/
def roundUp (x n : Nat) : Nat := (x + n - 1) / n * n

/-- The least integer at or above x / n. -/
def ceilDiv (x n : Nat) : Nat := (x + n - 1) / n

/-- Byte i of a list of bytes, zero beyond its end. -/
def byteAt (bs : List Byte) (i : Nat) : Byte := (bs[i]?).getD 0

/-- The little-endian integer of n bytes from offset off (R5). -/
def fieldAt (bs : List Byte) (off n : Nat) : Nat := leNat ((bs.drop off).take n)

/-- A 64-bit field at a byte offset. -/
def wordAt (bs : List Byte) (off : Nat) : Word := BitVec.ofNat 64 (fieldAt bs off 8)

/-- Inserts a number in a rising list without repeats. -/
def insertNat (x : Nat) : List Nat → List Nat
  | [] => [x]
  | y :: ys => if x < y then x :: y :: ys else if x = y then y :: ys else y :: insertNat x ys

/-- Sums the elements of a list of numbers. -/
def sumNat (l : List Nat) : Nat := l.foldl (· + ·) 0

end Sys2Proof.Machine
end

