-- ==== Sys2Proof/Machine/Number.lean ====
section
/-!
DEFINITION. Number formats: every element type bit by bit, rounding, flushing, the decimal-marker format and the
exact arithmetic that float instructions round once (spec/08_number_formats.md R151 to R166;
spec/05_vector_special_functions.md R96, R97, R106, R116, R118).
-/
namespace Sys2Proof.Machine

open Sys2Proof

/-! ## Exact magnitudes -/

/-- A non-negative exact value n / d, with d positive. -/
structure Mag where
  n : Nat
  d : Nat
  deriving DecidableEq, Repr

/-- An integer as a magnitude. -/
def Mag.ofNat (n : Nat) : Mag := ⟨n, 1⟩

/-- m · 2^e. -/
def Mag.scale (m : Nat) (e : Int) : Mag := if 0 ≤ e then ⟨m * 2 ^ e.toNat, 1⟩ else ⟨m, 2 ^ (-e).toNat⟩

/-- x · 2^e. -/
def Mag.shift (x : Mag) (e : Int) : Mag :=
  if 0 ≤ e then ⟨x.n * 2 ^ e.toNat, x.d⟩ else ⟨x.n, x.d * 2 ^ (-e).toNat⟩

/-- Sum. -/
def Mag.add (x y : Mag) : Mag := ⟨x.n * y.d + y.n * x.d, x.d * y.d⟩

/-- x - y, where y ≤ x. -/
def Mag.sub (x y : Mag) : Mag := ⟨x.n * y.d - y.n * x.d, x.d * y.d⟩

/-- Product. -/
def Mag.mul (x y : Mag) : Mag := ⟨x.n * y.n, x.d * y.d⟩

/-- Quotient by a non-zero magnitude. -/
def Mag.div (x y : Mag) : Mag := ⟨x.n * y.d, x.d * y.n⟩

/-- x < y. -/
def Mag.lt (x y : Mag) : Bool := x.n * y.d < y.n * x.d

/-- x ≤ y. -/
def Mag.le (x y : Mag) : Bool := x.n * y.d ≤ y.n * x.d

/-- floor(log2 x) of a non-zero magnitude. -/
def Mag.log2 (x : Mag) : Int :=
  let e : Int := (Nat.log2 x.n : Int) - (Nat.log2 x.d : Int)
  if Mag.le (Mag.scale 1 e) x then e else e - 1

/-! ## Float values -/

/-- A float value: NaN, an infinity, or a signed finite magnitude; zero keeps its sign (R152). -/
inductive FVal where
  | nan
  | inf (neg : Bool)
  | fin (neg : Bool) (m : Mag)
  deriving DecidableEq, Repr

/-- +0. -/
def FVal.zero : FVal := .fin false ⟨0, 1⟩

/-- 1. -/
def FVal.one : FVal := .fin false ⟨1, 1⟩

/-- A signed magnitude given as an integer numerator. -/
def FVal.ofInt (x : Int) : FVal := .fin (decide (x < 0)) ⟨x.natAbs, 1⟩

/-- Sign flipped. -/
def FVal.neg : FVal → FVal
  | .nan => .nan
  | .inf s => .inf (!s)
  | .fin s m => .fin (!s) m

/-- Sign cleared. -/
def FVal.abs : FVal → FVal
  | .nan => .nan
  | .inf _ => .inf false
  | .fin _ m => .fin false m

/-- The exact sum; an exact zero sum of opposite signs is +0, and (-0) + (-0) is -0 (R96). -/
def FVal.add : FVal → FVal → FVal
  | .nan, _ => .nan
  | _, .nan => .nan
  | .inf s, .inf t => if s = t then .inf s else .nan
  | .inf s, .fin _ _ => .inf s
  | .fin _ _, .inf t => .inf t
  | .fin s x, .fin t y =>
    if s = t then .fin s (x.add y)
    else if Mag.lt y x then .fin s (x.sub y)
    else if Mag.lt x y then .fin t (y.sub x)
    else .fin false ⟨0, 1⟩

/-- The exact difference. -/
def FVal.sub (x y : FVal) : FVal := x.add y.neg

/-- The exact product; an infinity times zero is NaN (R96). -/
def FVal.mul : FVal → FVal → FVal
  | .nan, _ => .nan
  | _, .nan => .nan
  | .inf s, .inf t => .inf (s != t)
  | .inf s, .fin t y => if y.n = 0 then .nan else .inf (s != t)
  | .fin s x, .inf t => if x.n = 0 then .nan else .inf (s != t)
  | .fin s x, .fin t y => .fin (s != t) (x.mul y)

/-- The exact quotient with the special cases of R118. -/
def FVal.div : FVal → FVal → FVal
  | .nan, _ => .nan
  | _, .nan => .nan
  | .inf _, .inf _ => .nan
  | .inf s, .fin t _ => .inf (s != t)
  | .fin s _, .inf t => .fin (s != t) ⟨0, 1⟩
  | .fin s x, .fin t y =>
    if y.n = 0 then (if x.n = 0 then .nan else .inf (s != t)) else .fin (s != t) (x.div y)

/-- The order of the values with -0 below +0; false when either is NaN (R98). -/
def FVal.ltZ : FVal → FVal → Bool
  | .nan, _ => false
  | _, .nan => false
  | .inf s, .inf t => s && !t
  | .inf s, .fin _ _ => s
  | .fin _ _, .inf t => !t
  | .fin s x, .fin t y =>
    match s, t with
    | true, false => true
    | false, true => false
    | false, false => Mag.lt x y
    | true, true => Mag.lt y x

/-- a < b as numbers, with -0 equal to +0; false when either is NaN (R102). -/
def FVal.lt (a b : FVal) : Bool :=
  match a, b with
  | .fin _ x, .fin _ y => if x.n = 0 && y.n = 0 then false else FVal.ltZ a b
  | _, _ => FVal.ltZ a b

/-- a = b as numbers, with -0 equal to +0; false when either is NaN (R102). -/
def FVal.eqv (a b : FVal) : Bool :=
  match a, b with
  | .nan, _ => false
  | _, .nan => false
  | _, _ => !(FVal.lt a b) && !(FVal.lt b a)

/-- Whether a value is NaN. -/
def FVal.isNan : FVal → Bool
  | .nan => true
  | _ => false

/-- Lesser, NaN when either is NaN, with -0 below +0 (R98). -/
def FVal.min (a b : FVal) : FVal :=
  if a.isNan || b.isNan then .nan else if FVal.ltZ b a then b else a

/-- Greater, NaN when either is NaN, with -0 below +0 (R98). -/
def FVal.max (a b : FVal) : FVal :=
  if a.isNan || b.isNan then .nan else if FVal.ltZ a b then b else a

/-! ## Formats -/

/-- A binary float format (R152, R153): exponent and fraction widths, bias, whether it has an infinity, its
largest finite magnitude code, and its canonical NaN, if it has NaN codes (R96). -/
structure FFmt where
  e : Nat
  m : Nat
  b : Nat
  inf : Bool
  top : Nat
  nan : Option Nat
  deriving DecidableEq, Repr

/-- Bits of a format. -/
def FFmt.width (f : FFmt) : Nat := 1 + f.e + f.m

def fmtF32 : FFmt := ⟨8, 23, 127, true, 0x7F7FFFFF, some 0x7FC00000⟩
def fmtBf16 : FFmt := ⟨8, 7, 127, true, 0x7F7F, some 0x7FC0⟩
def fmtF16 : FFmt := ⟨5, 10, 15, true, 0x7BFF, some 0x7E00⟩
def fmtE5m2 : FFmt := ⟨5, 2, 15, true, 0x7B, some 0x7E⟩
def fmtE4m3 : FFmt := ⟨4, 3, 7, false, 0x7E, some 0x7F⟩
def fmtE3m2 : FFmt := ⟨3, 2, 3, false, 0x1F, none⟩
def fmtE2m3 : FFmt := ⟨2, 3, 1, false, 0x1F, none⟩
def fmtE2m1 : FFmt := ⟨2, 1, 1, false, 0x7, none⟩

/-- The float class of the accumulator format (R161). -/
def fmtAcc : FFmt := ⟨9, 30, 255, true, 0x7FBFFFFFFF, some 0x7FE0000000⟩

/-- The magnitude code of an infinity: the exponent field all ones. -/
def FFmt.infCode (f : FFmt) : Nat := (2 ^ f.e - 1) * 2 ^ f.m

/-- The value of a code (R152, R153). -/
def FFmt.decode (f : FFmt) (c : Nat) : FVal :=
  let neg := natBit c (f.e + f.m)
  let mag := c % 2 ^ (f.e + f.m)
  if f.top < mag then (if f.inf && mag == f.infCode then .inf neg else .nan)
  else
    let ef := mag / 2 ^ f.m
    let fr := mag % 2 ^ f.m
    if ef = 0 then .fin neg (Mag.scale fr (1 - (f.b : Int) - (f.m : Int)))
    else .fin neg (Mag.scale (2 ^ f.m + fr) ((ef : Int) - (f.b : Int) - (f.m : Int)))

/-- How an inexact value chooses between its two neighbours (R106, R166). -/
inductive RMode where
  | rne
  | rz
  /-- Stochastic, with the 32-bit draw of the lane. -/
  | sr (u : Nat)
  deriving DecidableEq, Repr

/-- Whether the magnitude q + r / dv, with 0 < r < dv, goes up to q + 1 (R154, R106, R166). A stochastic choice
between lo < hi is made on the signed value. -/
def roundsUp (mode : RMode) (neg : Bool) (q r dv : Nat) : Bool :=
  match mode with
  | .rne => dv < 2 * r || (2 * r == dv && q % 2 == 1)
  | .rz => false
  | .sr u => if neg then !(u < (dv - r) * 2 ^ 32 / dv) else u < r * 2 ^ 32 / dv

/-- The magnitude code nearest to x by the mode, not yet limited to the format's range (R154). -/
def FFmt.roundMag (f : FFmt) (mode : RMode) (neg : Bool) (x : Mag) : Nat :=
  if x.n = 0 then 0
  else
    let eMin : Int := 1 - (f.b : Int)
    let e := max x.log2 eMin
    let y := x.shift ((f.m : Int) - e)
    let q := y.n / y.d
    let r := y.n % y.d
    let q' := if r ≠ 0 && roundsUp mode neg q r y.d then q + 1 else q
    (e - eMin).toNat * 2 ^ f.m + q'

/-- A code of the format from its sign and magnitude code. -/
def FFmt.pack (f : FFmt) (neg : Bool) (mag : Nat) : Nat := (if neg then 2 ^ (f.e + f.m) else 0) + mag

/-- The canonical NaN, or +0 in a type without NaN (R96). -/
def FFmt.nanCode (f : FFmt) : Nat := f.nan.getD 0

/-- Rounds an exact value into the format once (R154, and step 4 of R96): a finite value beyond the range gives an
infinity when the type has one, saturation is off and the mode is not toward zero, else the largest finite. -/
def FFmt.encode (f : FFmt) (mode : RMode) (sat : Bool) (v : FVal) : Nat :=
  match v with
  | .nan => f.nanCode
  | .inf s => f.pack s (if f.inf then f.infCode else f.top)
  | .fin s x =>
    let c := f.roundMag mode s x
    if f.top < c then f.pack s (if f.inf && !sat && mode ≠ .rz then f.infCode else f.top) else f.pack s c

/-- Replaces a subnormal code by the zero of its sign (R163). -/
def FFmt.flush (f : FFmt) (on : Bool) (c : Nat) : Nat :=
  let mag := c % 2 ^ (f.e + f.m)
  if on && mag ≠ 0 && mag / 2 ^ f.m == 0 then c - mag else c

/-! ## DM8 -/

/-- The length of the run of bits equal to r from bit i - 1 of P downwards. -/
def dm8Run (p : Nat) (r : Bool) : Nat → Nat
  | 0 => 0
  | i + 1 => if natBit p i = r then 1 + dm8Run p r i else 0

/-- The exact decimal magnitude of a payload (R158). -/
def dm8Mag (p : Nat) : Mag :=
  if p = 0 then ⟨0, 1⟩
  else
    let r := natBit p 6
    let m := dm8Run p r 7
    let w := 6 - m
    let fr := p % 2 ^ w
    let v : Mag := ⟨2 ^ w + 9 * fr, 2 ^ w⟩
    if r then ⟨v.n * 10 ^ (m - 1), v.d⟩ else ⟨v.n, v.d * 10 ^ m⟩

/-- The binary image of a payload: its decimal value rounded to 14 significant bits (R159). -/
def dm8Image (p : Nat) : Mag :=
  let x := dm8Mag p
  if x.n = 0 then x
  else
    let e := x.log2
    let y := x.shift (13 - e)
    let q := y.n / y.d
    let r := y.n % y.d
    let q' := if r ≠ 0 && roundsUp .rne false q r y.d then q + 1 else q
    Mag.scale q' (e - 13)

/-- The value with which a DM8 code enters arithmetic (R159). -/
def dm8Decode (c : Nat) : FVal :=
  let p := c % 128
  let neg := natBit c 7
  if p = 0 then (if neg then .nan else .zero) else .fin neg (dm8Image p)

/-- The greatest payload, at most n, whose value does not exceed x. -/
def dm8Below (x : Mag) : Nat → Nat
  | 0 => 0
  | n + 1 => if Mag.le (dm8Mag (n + 1)) x then n + 1 else dm8Below x n

/-- Conversion to DM8, against the exact decimal values (R160, R166). -/
def dm8Encode (mode : RMode) (v : FVal) : Nat :=
  match v with
  | .nan => 0x80
  | .inf s => if s then 0xFF else 0x7F
  | .fin s x =>
    if Mag.lt (Mag.ofNat 1000000) x then (if s then 0xFF else 0x7F)
    else
      let p := dm8Below x 127
      let lo := dm8Mag p
      let q :=
        if Mag.le x lo then p
        else
          let gap := (dm8Mag (p + 1)).sub lo
          let part := (x.sub lo).div gap
          if roundsUp mode s p part.n part.d then p + 1 else p
      if q = 0 then 0 else (if s then 128 else 0) + q

/-! ## Element types -/

/-- What an element type code of R22 names. -/
inductive Ty where
  | int (signed : Bool) (w : Nat)
  | flt (f : FFmt)
  | dm8
  | acc
  | none
  deriving DecidableEq, Repr

/-- The type of a code (R22). -/
def tyOf (c : BitVec 5) : Ty :=
  match c.toNat with
  | 0x00 => .int true 8
  | 0x01 => .int false 8
  | 0x02 => .int true 16
  | 0x03 => .int false 16
  | 0x04 => .int true 32
  | 0x05 => .int false 32
  | 0x06 => .int true 64
  | 0x07 => .int false 64
  | 0x08 => .int true 4
  | 0x09 => .flt fmtF16
  | 0x0A => .flt fmtBf16
  | 0x0B => .flt fmtF32
  | 0x0C => .flt fmtE4m3
  | 0x0D => .flt fmtE5m2
  | 0x0E => .dm8
  | 0x0F => .flt fmtE2m1
  | 0x10 => .flt fmtE2m3
  | 0x11 => .flt fmtE3m2
  | 0x12 => .acc
  | _ => .none

/-- Bits of an element (R22). -/
def Ty.width : Ty → Nat
  | .int _ w => w
  | .flt f => f.width
  | .dm8 => 8
  | .acc => 40
  | .none => 8

/-- Lanes of a 128-bit register (R22). -/
def Ty.lanes (t : Ty) : Nat := 128 / t.width

/-- Bytes of a row of n elements, each granule packed as in R23 and the row rounded up to 16 bytes. -/
def Ty.rowBytes (t : Ty) (n : Nat) : Nat := 16 * ceilDiv n t.lanes

/-- The flush bits of fpm for a type: input, result (R163). -/
def Ty.flushBits (t : Ty) (fpm : Byte) : Bool × Bool :=
  match t with
  | .flt f =>
    if f = fmtF32 then (fpm.getLsbD 4, fpm.getLsbD 5)
    else if f = fmtF16 ∨ f = fmtBf16 then (fpm.getLsbD 2, fpm.getLsbD 3)
    else (fpm.getLsbD 0, fpm.getLsbD 1)
  | .acc => (fpm.getLsbD 6, fpm.getLsbD 7)
  | _ => (false, false)

/-- The least and greatest value of an integer type (R151). -/
def intRange (signed : Bool) (w : Nat) : Int × Int :=
  if signed then (-(2 ^ (w - 1)), 2 ^ (w - 1) - 1) else (0, 2 ^ w - 1)

/-- The integer that w bits stand for (R151). -/
def intDecode (signed : Bool) (w c : Nat) : Int := if signed then sextNat w c else ((c % 2 ^ w : Nat) : Int)

/-- The w bits of an exact integer, wrapped (R97). -/
def intWrap (w : Nat) (x : Int) : Nat := (x % (2 ^ w : Int)).toNat

/-- The w bits of an exact integer, clamped to the type's range (R97). -/
def intClamp (signed : Bool) (w : Nat) (x : Int) : Nat :=
  intWrap w (clampInt (intRange signed w).1 (intRange signed w).2 x)

/-- An integer lane result: wrapped, or clamped under the saturate bit (R97). -/
def intResult (signed : Bool) (w : Nat) (sat : Bool) (x : Int) : Nat :=
  if sat then intClamp signed w x else intWrap w x

/-- The value of an element as a float operand, flushed by the input bit of its class (R96, R106). An integer
enters exactly. -/
def Ty.value (t : Ty) (fpm : Byte) (c : Nat) : FVal :=
  match t with
  | .int s w => .ofInt (intDecode s w c)
  | .flt f => f.decode (f.flush (t.flushBits fpm).1 c)
  | .dm8 => dm8Decode c
  | .acc => fmtAcc.decode (fmtAcc.flush (fpm.getLsbD 6) c)
  | .none => .nan

/-- Rounds a magnitude to an integer by the mode. -/
def roundInt (mode : RMode) (neg : Bool) (x : Mag) : Int :=
  let q := x.n / x.d
  let r := x.n % x.d
  let q' := if r ≠ 0 && roundsUp mode neg q r x.d then q + 1 else q
  if neg then -(q' : Int) else (q' : Int)

/-- Rounds a value into a type and flushes the result (R96 steps 3 to 6, R106). Integers clamp. -/
def Ty.encode (t : Ty) (fpm : Byte) (mode : RMode) (sat : Bool) (v : FVal) : Nat :=
  match t with
  | .int s w =>
    match v with
    | .nan => 0
    | .inf neg => intClamp s w (if neg then (intRange s w).1 else (intRange s w).2)
    | .fin neg m => intClamp s w (roundInt mode neg m)
  | .flt f => f.flush (t.flushBits fpm).2 (f.encode mode sat v)
  | .dm8 => dm8Encode mode v
  | .acc => fmtAcc.encode mode false v
  | .none => 0

/-- round_rne into f32, with no flush and no saturation. -/
def rndF32 (v : FVal) : BitVec 32 := BitVec.ofNat 32 (fmtF32.encode .rne false v)

/-- The value of an f32 code, unflushed. -/
def valF32 (c : BitVec 32) : FVal := fmtF32.decode c.toNat

/-- f32 arithmetic on codes, each result rounded once. -/
def f32Add (a b : BitVec 32) : BitVec 32 := rndF32 ((valF32 a).add (valF32 b))
def f32Mul (a b : BitVec 32) : BitVec 32 := rndF32 ((valF32 a).mul (valF32 b))

/-- round_acc40 of the float class (R161). -/
def rndAcc (v : FVal) : Nat := fmtAcc.encode .rne false v

/-! ## Stochastic rounding -/

/-- The mixing function of R165. -/
def mix64 (z : Word) : Word :=
  let z1 := (z ^^^ (z >>> 30)) * 0xBF58476D1CE4E5B9
  let z2 := (z1 ^^^ (z1 >>> 27)) * 0x94D049BB133111EB
  z2 ^^^ (z2 >>> 31)

/-- The draw u of destination lane di (R165). -/
def srDraw (seed pos icount : Word) (di : Nat) : Nat :=
  let gold : Word := 0x9E3779B97F4A7C15
  let k := mix64 (seed + gold * (1 + pos))
  let x := mix64 (k ^^^ icount)
  (mix64 (x + gold * (1 + BitVec.ofNat 64 di))).toNat / 2 ^ 32

/-! ## Correctly rounded functions

Square roots keep an exact sticky part. The transcendental functions are formed in fixed point with an error
far below the spacing of any result (log entry 9). -/

/-- Newton steps for the integer square root. -/
def isqrtLoop (x : Nat) : Nat → Nat → Nat
  | 0, r => r
  | k + 1, r => let r' := (r + x / r) / 2; if r ≤ r' then r else isqrtLoop x k r'

/-- floor(√x). -/
def isqrt (x : Nat) : Nat := if x = 0 then 0 else isqrtLoop x 400 (2 ^ (Nat.log2 x / 2 + 1))

/-- A magnitude that no rounding tells apart from √x: exact, or with a sticky part 2^-101 below its last bit. -/
def Mag.sqrt (x : Mag) : Mag :=
  let e := x.log2 / 2
  let y := x.shift (2 * (100 - e))
  let q := y.n / y.d
  let s := isqrt q
  if s * s * y.d = y.n then Mag.scale s (e - 100) else Mag.scale (2 * s + 1) (e - 101)

/-- Fraction bits of the fixed-point arithmetic below. -/
def fixBits : Nat := 400

/-- One, in units of 2^-fixBits. -/
def fixOne : Nat := 1 <<< 400

/-- One, in the units of the two constants below. -/
def fixWide : Nat := 1 <<< 640

/-- The ratio of those units. -/
def fixDrop : Nat := 1 <<< 240

/-- π · 2^640, truncated. -/
def piBits : Nat := 0x3243f6a8885a308d313198a2e03707344a4093822299f31d0082efa98ec4e6c89452821e638d01377be5466cf34e90c6cc0ac29b7c97c50dd3f84d5b5b54709179216d5d98979fb1bd1310ba698dfb5ac

/-- ln 2 · 2^640, truncated. -/
def ln2Bits : Nat := 0xb17217f7d1cf79abc9e3b39803f2f6af40f343267298b62d8a0d175b8baafa2be7b876206debac98559552fb4afa1b10ed2eae35c138214427573b291169b8253e96ca16224ae8c51acbda11317c387e

/-- The Taylor series of e^r for |r| ≤ 1, r in units of 2^-fixBits, from term k on. -/
def expSeries (r : Int) : Nat → Nat → Int → Int
  | 0, _, _ => 0
  | n + 1, k, t => t + expSeries r n (k + 1) (t * r / Int.ofNat (fixOne * (k + 1)))

/-- e^r · 2^fixBits for |r| ≤ 1. -/
def expFix (r : Int) : Int := expSeries r 90 0 (Int.ofNat fixOne)

/-- A signed magnitude in units of 2^-fixBits, rounded down in magnitude. -/
def toFix (neg : Bool) (x : Mag) : Int :=
  let q : Int := Int.ofNat (x.n * fixOne / x.d)
  if neg then -q else q

/-- 2^k · f / 2^fixBits. -/
def fromFix (f : Nat) (k : Int) : Mag := Mag.scale f (k - (fixBits : Int))

/-- e^x for a finite x. Beyond every format's range it is a value that overflows, or rounds to zero. -/
def expMag (neg : Bool) (x : Mag) : Mag :=
  if x.n = 0 then ⟨1, 1⟩
  else if Mag.lt (Mag.ofNat 400) x then (if neg then Mag.scale 1 (-600) else Mag.scale 1 600)
  else
    let f := toFix neg x
    let ln2 : Int := Int.ofNat (ln2Bits / fixDrop)
    let k := (2 * f + ln2) / (2 * ln2)
    fromFix (expFix (f - k * ln2)).toNat k

/-- 2^x for a finite x; exact when x is an integer. -/
def exp2Mag (neg : Bool) (x : Mag) : Mag :=
  if Mag.lt (Mag.ofNat 600) x then (if neg then Mag.scale 1 (-600) else Mag.scale 1 600)
  else if x.n % x.d = 0 then Mag.scale 1 (if neg then -((x.n / x.d : Nat) : Int) else ((x.n / x.d : Nat) : Int))
  else
    let f := toFix neg x
    let one : Int := (Int.ofNat fixOne)
    let k := (2 * f + one) / (2 * one)
    let ln2 : Int := Int.ofNat (ln2Bits / fixDrop)
    fromFix (expFix ((f - k * one) * ln2 / one)).toNat k

/-- The series of 2·atanh(z), z² in z2, from term z^(2i+1) / (2i+1) on. -/
def atanhSeries (z2 : Nat) : Nat → Nat → Nat → Nat
  | 0, _, _ => 0
  | n + 1, i, t => 2 * t / (2 * i + 1) + atanhSeries z2 n (i + 1) (t * z2 / fixOne)

/-- log2 of a non-zero magnitude as a signed value; exact at powers of two. -/
def log2Val (x : Mag) : FVal :=
  let e := x.log2
  let y := x.shift (-e)
  if y.n = y.d then .ofInt e
  else
    let z := (y.n - y.d) * fixOne / (y.n + y.d)
    let ln := atanhSeries (z * z / fixOne) 140 0 z
    let l2 := ln * fixWide / ln2Bits
    let v : Int := e * (Int.ofNat fixOne) + (l2 : Int)
    .fin (decide (v < 0)) ⟨v.natAbs, fixOne⟩

/-- The alternating series of sine or cosine from term k on, with r² in r2. -/
def trigSeries (r2 : Nat) : Nat → Nat → Int → Int
  | 0, _, _ => 0
  | n + 1, k, t => t + trigSeries r2 n (k + 2)
      (-(t * (r2 : Int) / Int.ofNat (fixOne * ((k + 1) * (k + 2)))))

/-- The multiple of π/2 nearest to x. -/
def quadrant (x : Mag) : Nat := (2 * (x.n * fixWide / x.d) + piBits / 2) / (2 * (piBits / 2))

/-- What x leaves over after k multiples of π/2, in units of 2^-fixBits. -/
def piRest (x : Mag) (k : Nat) : Int :=
  (Int.ofNat (x.n * fixWide / x.d) - Int.ofNat (k * (piBits / 2))) / Int.ofNat fixDrop

/-- The sine or cosine of r, by quadrant. -/
def trigOf (quad : Nat) (r : Int) : Int :=
  let r2 := r.natAbs * r.natAbs / fixOne
  if quad = 0 then trigSeries r2 60 1 r
  else if quad = 1 then trigSeries r2 60 0 (Int.ofNat fixOne)
  else if quad = 2 then -(trigSeries r2 60 1 r)
  else -(trigSeries r2 60 0 (Int.ofNat fixOne))

/-- A signed value in units of 2^-fixBits. -/
def ofFix (v : Int) : FVal := .fin (decide (v < 0)) ⟨v.natAbs, fixOne⟩

/-- sin x (or cos x) of a finite non-zero x of any size, reduced by multiples of π/2. -/
def sinCosVal (cosine neg : Bool) (x : Mag) : FVal :=
  let k := quadrant x
  let v := trigOf ((k + if cosine then 1 else 0) % 4) (piRest x k)
  ofFix (if neg && !cosine then -v else v)

end Sys2Proof.Machine
end

