-- ==== Sys2Proof/Config.lean ====
section
/-!
DEFINITION. What is fixed for every part, and the free values: constants without a body, for what the manual
leaves open (spec/00_scope.md R1, R2; notes/assumptions).
-/
namespace Sys2Proof.Config

/-- Courts of the package (R1). -/
def courts : Nat := 4

/-- Cores of one court (R1). -/
def coresPerCourt : Nat := 256

/-- Cores of the package (R1). -/
def cores : Nat := 1024

/-- Instructions an E store holds (R1, R15). -/
def eStoreSize : Nat := 4096

/-- Bytes an L or S store holds (R1, R35). -/
def rvStoreSize : Nat := 16384

/-- Bytes an umpire store holds (R306). -/
def umpireStoreSize : Nat := 65536

/-- Bytes of a core's canvas (R142). -/
def canvasSize : Nat := 0x100000

/-- Bytes of the umpire's scratchpad (R306). -/
def umpireScratch : Nat := 0x40000

/-- HBM stacks (R1). -/
def hbmStacks : Nat := 8

/-- Stack attention engines of one stack (R1). -/
def saesPerStack : Nat := 16

/-- Bulk copy engines of the floor (R1). -/
def bulkEngines : Nat := 24

/-- Bytes of one HBM stack (R354). -/
def stackBytes : Nat := 64000000000

/-- Entries of the package's dependence table (R132). -/
def depEntries : Nat := 4096

/-- Entries of a context's spark queue (R138). -/
def sparkEntries : Nat := 1024

/-- Units the gate queue of a court holds (R308). -/
def gateUnits : Nat := 4096

/-- Units kept free for the expected record (R308). -/
def gateReserve : Nat := 67

/-- Bytes of the slot of one core image (R333). -/
def imageSlot : Nat := 2304 * 1024

/-- Nominal core clock in MHz (R2). -/
def clockMHz : Nat := 1300

/-! ## Free values: nothing constrains them (log entries 3 to 8) -/

/-- Which free entry of a handle table an operation takes (R119). -/
opaque freeHandleIndex : Nat → Nat

/-- The generation a handle entry carries at its first use (R119). -/
opaque freeHandleGen : Nat → Nat

/-- Which free dugout entry PARK takes (R263). -/
opaque freeDugoutIndex : Nat → Nat

/-- The generation a dugout entry's id carries at its first use (R263). -/
opaque freeDugoutGen : Nat → Nat

/-- Where in a context's arena an allocation lies (R129). -/
opaque freeArenaPlace : Nat → Nat

/-- The base the firmware chooses for a context's arena (R129). -/
opaque freeArenaBase : Nat → Nat

/-- Which HBM stack the firmware takes for a page whose stack MAP leaves open (R360). -/
opaque freeStack : Nat → Nat

/-- The id the firmware gives a context (R360). -/
opaque freeContextId : Nat → Nat

/-- Flits that a link may send before it must be given credits, at least one (R364; log entry 85). -/
opaque linkCreditsMore : Nat
def linkCredits : Nat := linkCreditsMore + 1

/-- Kind, flags and payload of a flit that the part makes: 106 bytes (R364). -/
opaque freeFlit : Nat → Nat

/-- The kind of a flit that asks for a replay (R364; log entry 85). -/
opaque replayKind : BitVec 8

/-- What the engine of another package answers to an operation on one of its handles (R119). -/
opaque freeRemote : Nat → Nat

/-- The descriptor of a handle of another package, by its word and the draws so far (R10, R133). -/
opaque freeRemoteTile : Nat → Nat → Nat

/-- The depth of a handle of another package, by its context and its word (R127). -/
opaque freeRemoteDepth : Nat → Nat → Nat

/-- The bytes that a slot naming a handle of another package adds to U, by the handle's word and the draws so far
(R129). -/
opaque freeRemoteBytes : Nat → Nat → Nat

/-- Nanoseconds that pass between two rounds of turns (R93, R167). -/
opaque freeElapsed : Nat → Nat

/-- The order in which the turns of a round come, and which of them stay out (R62, R201). -/
opaque freeOrder : Nat → Nat

/-- Whether a read or write of the flash tier fails: it does where the value is odd (R290, R292). -/
opaque freeFlashError : Nat → Nat

/-- Microjoules the meter charges (R327). -/
opaque freeCharge : Nat → Nat

/-- The instruction word that the ROM routing program was at (R313, R341). -/
opaque freeRomWord : Nat → Nat

/-- Bytes of the ROM routing program (R306). -/
opaque freeRomLength : Nat → Nat

/-- The xinfo of the POISON of a transfer held at a port, which has no endpoint id (R319, R348). -/
opaque freePortInfo : Nat → Nat

/-- The data pointer of an NVMe command: 16 bytes that name the page's frame as the controller reaches it (R363). -/
opaque freeDataPointer : Nat → Nat

/-- The 16 LBAs of a page in the flash tier, among those that are free (R363). -/
opaque freeLba : Nat → Nat

/-- Cores that a function may hold in another package, by the function and the package (R356; log entry 94). -/
opaque freeShare : Nat → Nat → Nat

/-- The head of the list of waiters that a handle table entry shows (R120). -/
opaque freeWaiters : Nat → Nat

/-! ## Constants of one part, which the manual names and does not give (R365, R366) -/

/-- The part's serial number. Log entry 7. -/
opaque serialNumber : BitVec 128

/-- SHAKE256 digest of the ROM image. -/
opaque romDigest : BitVec 512

/-- SHAKE256 digest of the fuse configuration. -/
opaque fuseDigest : BitVec 512

/-- The identity public key, 1,793 bytes, lowest byte first. -/
opaque identityKey : Nat

/-- The Falcon-1024 signature of a digest under the identity key, with the signer's fresh salt: 1,280 bytes. -/
opaque identitySign : BitVec 512 → Nat → Nat

/-- Base and size of the floor-reserved region for the NVMe queues (R360). -/
opaque nvmeRegion : BitVec 64 × BitVec 64

/-- Whether the namespace that an NVMe block names has LBAs of 4,096 bytes with no metadata (R363). -/
opaque nvmeFormatOk : List (BitVec 8) → Bool

/-- Whether a Falcon-1024 signature of a digest verifies under a public key. Log entry 7. -/
opaque falconVerify : List Byte → BitVec 512 → List Byte → Bool

end Sys2Proof.Config
end

