-- ==== Sys2Proof/Machine/Tab.lean ====
section
/-!
DEFINITION. Tables by number: a list of (key, value) pairs in one canonical form, keys strictly rising and no
entry equal to what an unlisted key reads as. Register files, memories, tiles and every table of records use it.
-/
namespace Sys2Proof.Machine

/-- A table by number. -/
abbrev Tab (α : Type) := List (Nat × α)

/-- The value of a key; an unlisted key reads as dflt. -/
def Tab.get {α : Type} (dflt : α) : Tab α → Nat → α
  | [], _ => dflt
  | (k', v) :: t, k => if k = k' then v else Tab.get dflt t k

/-- The value of a key, or none. -/
def Tab.find {α : Type} : Tab α → Nat → Option α
  | [], _ => none
  | (k', v) :: t, k => if k = k' then some v else Tab.find t k

/-- Lists a value under a key, in key order. -/
def Tab.put {α : Type} : Tab α → Nat → α → Tab α
  | [], k, v => [(k, v)]
  | (k', v') :: t, k, v =>
    if k < k' then (k, v) :: (k', v') :: t
    else if k = k' then (k, v) :: t
    else (k', v') :: Tab.put t k v

/-- Removes a key. -/
def Tab.del {α : Type} : Tab α → Nat → Tab α
  | [], _ => []
  | (k', v') :: t, k => if k = k' then Tab.del t k else (k', v') :: Tab.del t k

/-- Writes a value, keeping no entry that an unlisted key would read as. -/
def Tab.set {α : Type} [DecidableEq α] (dflt : α) (t : Tab α) (k : Nat) (v : α) : Tab α :=
  if v = dflt then Tab.del t k else Tab.put t k v

/-- Every listed key is above b, and they rise. -/
def Tab.risesFrom {α : Type} : Nat → Tab α → Bool
  | _, [] => true
  | b, (k, _) :: t => b ≤ k && Tab.risesFrom (k + 1) t

/-- The canonical form. -/
def Tab.wf {α : Type} [DecidableEq α] (dflt : α) (t : Tab α) : Bool :=
  Tab.risesFrom 0 t && t.all (fun p => p.2 ≠ dflt)

/-- Changes the value under a key, if it is listed. -/
def Tab.modify {α : Type} (t : Tab α) (k : Nat) (f : α → α) : Tab α :=
  t.map fun p => if p.1 = k then (p.1, f p.2) else p

/-- Keeps the entries whose keys lie outside [lo, lo + n). -/
def Tab.clearRange {α : Type} (t : Tab α) (lo n : Nat) : Tab α :=
  t.filter fun p => !(decide (lo ≤ p.1) && decide (p.1 < lo + n))

/-- The entries of consecutive keys from k on that differ from what an unlisted key reads as. -/
def Tab.run {α : Type} [DecidableEq α] (dflt : α) : Nat → List α → Tab α
  | _, [] => []
  | k, v :: vs => if v = dflt then Tab.run dflt (k + 1) vs else (k, v) :: Tab.run dflt (k + 1) vs

/-- Replaces the values of consecutive keys from lo on. -/
def Tab.splice {α : Type} [DecidableEq α] (dflt : α) (t : Tab α) (lo : Nat) (vs : List α) : Tab α :=
  t.filter (fun p => decide (p.1 < lo)) ++ Tab.run dflt lo vs ++ t.filter (fun p => decide (lo + vs.length ≤ p.1))

/-- The values of n consecutive keys from lo on. -/
def Tab.slice {α : Type} (dflt : α) (t : Tab α) (lo n : Nat) : List α := (List.range n).map fun i => t.get dflt (lo + i)

/-- The k-th of the numbers below n that the rising list live does not hold. -/
def Tab.nthFree (live : List Nat) (k : Nat) : Nat :=
  live.foldl (fun acc u => if u ≤ acc then acc + 1 else acc) k

end Sys2Proof.Machine
end

