-- ==== Sys2Proof/Machine/State.lean ====
section
/-!
DEFINITION. The state of one ISD740 package, as plain data, and its state after reset. INVENTORY.md lists every
field with the rule that names it. Fields marked MODEL are the model's own (log entry 2).
-/
namespace Sys2Proof.Machine

open Sys2Proof

/-! ## Strands -/

/-- What a waiting strand waits for (R25, R62, R75, R81 and the rule of each instruction). -/
inductive Wait where
  /-- Entries or room of the instruction's queues (R25). -/
  | queues
  /-- The conditions of WAIT's mask (R75). -/
  | conditions (mask : Word)
  /-- The phase of a byte barrier to differ from p (R61). -/
  | barrier (b : Word) (p : Bool)
  /-- The phase of a huddle register to differ from p (R242). -/
  | huddle (reg : Nat) (p : Bool)
  /-- The phase of a global barrier to differ from p (R303). -/
  | globalBarrier (id : Nat) (p : Bool)
  /-- A page: a type change, zeroing or a page in transit (R81). -/
  | page (va : Word)
  /-- An unwritten granule of a STREAM page, which a read waits for (R219). -/
  | granule (va : Word)
  /-- REPLAY, after a translation fault of a restartable launch (R281). -/
  | replay (va : Word)
  /-- Room in the matrix engine queue (R143). -/
  | matrixRoom
  /-- Every matrix command to complete (R179). -/
  | matrixIdle
  /-- Room in the private copy engine queue (R198, R245). -/
  | copyRoom
  /-- Fewer than eight incomplete bulk cards (R249). -/
  | bulkRoom
  /-- A free entry of the dependence table (R132, R251). -/
  | depRoom
  /-- Fewer than four incomplete attention cards (R260). -/
  | attnRoom
  /-- Fewer than four undelivered messages (R252). -/
  | messageRoom
  /-- A message in the inbox (R253). -/
  | inbox
  /-- A handle to become VALUE or FAILED (R137). -/
  | handle (h : Word)
  /-- The producer of a CELL's version, current when the FORCE began: the CELL, the version's base, the producer
  (R133, R137). -/
  | version (h : Word) (base : Nat) (producer : Word)
  /-- Room in the arena for a fresh version (R129, R136). -/
  | arena
  /-- The drain that TDONE waits for (R141). -/
  | drain
  /-- The condition of a fence token (R238). -/
  | fence (token : Word)
  /-- An exchange window's count, or a mismatch (R320). -/
  | window (seq : Nat)
  /-- Fewer than sixteen undelivered transfers (R304). -/
  | sendRoom
  /-- Every earlier transfer to be delivered (R316). -/
  | sends
  /-- A free HBM frame (R284), and whether the wait has been reported. -/
  | frame (reported : Bool)
  /-- A layer group's promotion (R286). -/
  | promotion
  /-- Room in the gate queue (R308). -/
  | gateRoom
  /-- The expected gate record (R299). -/
  | record
  deriving DecidableEq, Repr

/-- Whether a strand runs (R51, R62). A wait keeps whether it has been released (R61) and when it began. -/
inductive Run where
  | stopped
  | running
  | waiting (w : Wait) (released : Bool) (since : Nat)
  deriving DecidableEq, Repr

/-- A FENCE: its serial, and the first card serial that it does not cover (R230, R237). -/
structure Fence where
  serial : Nat
  mark : Nat
  deriving DecidableEq, Repr

/-- A fault an engine has met, kept for E's next instruction (R180). -/
structure Deferred where
  cause : Byte
  info : Word
  deriving DecidableEq, Repr

/-- Strand E (R49, R88, R165, R237, R331). -/
structure EStrand where
  run : Run
  pc : BitVec 13
  g : Tab Word
  v : Tab V128
  xvec : BitVec 12
  xcause : BitVec 9
  xinfo : Word
  xpc : BitVec 13
  fpm : Byte
  seed : Word
  icount : Word
  serial : Nat
  fences : List Fence
  sincePoint : Nat
  deferred : List Deferred
  deriving DecidableEq, Repr

/-- Strand L or S, or the umpire's hart (R50, R187, R297). -/
structure RvStrand where
  run : Run
  pc : Word
  x : Tab Word
  /-- An entry of sq that S has popped and whose store is pending (R195). -/
  held : Option V128
  deriving DecidableEq, Repr

/-! ## Queues -/

/-- An entry of a load queue: data, or a reserved entry whose read is outstanding (R194). -/
inductive LqEntry where
  | data (v : V128)
  /-- A reserved entry whose read has performed and whose data has not arrived. -/
  | arriving (v : V128)
  /-- A reserved entry whose read has not performed, with the serial of its push. -/
  | reserved (addr pc : Word) (id : Nat)
  /-- A reserved entry whose read is pending until REPLAY (R194, R281). -/
  | pending (addr pc : Word) (id : Nat)
  deriving DecidableEq, Repr

/-- The queues of a core (R200). Each list holds its oldest entry first. The four incoming neighbour queues
stand with the core that pops them. -/
structure Queues where
  lq0 : List LqEntry
  lq1 : List LqEntry
  sq : List V128
  bol : List Word
  bos : List Word
  boi : List Word
  inN : List V128
  inE : List V128
  inS : List V128
  inW : List V128
  inbox : List V128
  deriving DecidableEq, Repr

/-! ## The matrix engine -/

/-- A tile configuration (R144): K, and for each of eight tiles its rows and whether its class is integer. -/
structure TileCfg where
  k : Nat
  rows : List Nat
  ints : List Bool
  deriving DecidableEq, Repr

/-- An epilogue block in force, with the bias and scale words that its issue read (R148, R177). -/
structure Epilogue where
  bias : Option (List (BitVec 32))
  scale : Option (List (BitVec 32))
  tscale : BitVec 32
  act : Nat
  otype : BitVec 5
  mx : Bool
  clo : BitVec 32
  chi : BitVec 32
  deriving DecidableEq, Repr

/-- A command of the matrix engine queue with what its issue sampled (R143, R164). -/
inductive MxOp where
  | mcfg (c : TileCfg)
  | epcfg (e : Epilogue)
  | cvld (src : Word) (coff rows rbytes sstride cstride : Nat) (bar : Word)
  | mwld (coff cstride n soff k : Nat) (fmt : BitVec 5) (bar : Word)
  | mstr (tile : Nat) (addr : Word) (stride : Nat) (fmt : BitVec 5) (fpm : Byte)
  | scrum (tile : Nat) (addr gang : Word) (stride level : Nat) (fmt : BitVec 5) (fpm : Byte)
  | mzero (tile : Nat)
  | mdrn (tile : Nat) (addr bar : Word) (fpm : Byte)
  deriving DecidableEq, Repr

/-- A queued command and its card serial. -/
structure MxCmd where
  stamp : Nat
  op : MxOp
  /-- Pieces done, the test of its entry first (R180). -/
  done : Nat
  /-- The granule that its read waits for, past translation (R219). -/
  unread : Option Word
  /-- Stalled at a translation fault until REPLAY (R180). -/
  stalled : Bool
  deriving DecidableEq, Repr

/-- The matrix engine of a core (R168). The fields cfgI, fmtI and epI are the state in force for the checks at
issue (R171); cfg, fmt, ep and the rest are the engine's own. -/
structure Matrix where
  cfgI : Option TileCfg
  fmtI : Option (BitVec 5)
  epI : Option Epilogue
  cfg : Option TileCfg
  fmt : Option (BitVec 5)
  ep : Option Epilogue
  /-- Latched weight codes, w[k][n] at 64·k + n. -/
  weights : Tab (BitVec 32)
  /-- Latched block scales, block i of column n at 64·i + n. -/
  wscales : Tab Byte
  /-- Weight rows that the last MWLD latched (R173). -/
  latched : Nat
  /-- Tile elements, element (m, n) of tile t at 8192·t + 64·m + n. -/
  tiles : Tab Acc40
  poisoned : BitVec 8
  queue : List MxCmd
  canvas : Tab Byte
  deriving DecidableEq, Repr

/-! ## Copy, exchange, messages -/

/-- A job card of the private copy engine (R246), with the strand that queued it. -/
structure CopyCmd where
  stamp : Nat
  issuer : Strand
  op : Nat
  src : Word
  dst : Word
  bar : Word
  idx : Word
  rows : Nat
  rbytes : Nat
  sstride : Nat
  dstride : Nat
  scope : Nat
  /-- The list element of the row in progress (R247). -/
  ix : Nat
  /-- The pieces already performed before a stall (R247, R248). -/
  done : Nat
  /-- The granule that its read waits for, past translation (R219). -/
  unread : Option Word
  stalled : Bool
  deriving DecidableEq, Repr

/-- A transfer in the fabric or held at a port (R304, R319). -/
structure Transfer where
  id : Nat
  src : Nat
  dst : Word
  slot : Nat
  seq : Nat
  data : List Byte
  sent : Nat
  ctx : Nat
  /-- The sending dispatch; none for one that has no core in this package. -/
  disp : Option Nat
  /-- The sender's package, where that is another. -/
  away : Option Nat
  /-- Held at a port with an uncorrectable error (R346). -/
  bad : Bool
  deriving DecidableEq, Repr

/-- An open exchange window (R304). -/
structure XWindow where
  seq : Nat
  base : Word
  slotBytes : Nat
  slots : Nat
  expected : Nat
  written : List Nat
  mismatch : Bool
  deriving DecidableEq, Repr

/-- A message in the fabric (R252). -/
structure Message where
  id : Nat
  src : Nat
  dst : Word
  payload : V128
  sent : Nat
  ctx : Nat
  /-- The sending dispatch; none for one that has no core in this package. -/
  disp : Option Nat
  /-- The sender's package, where that is another. -/
  away : Option Nat
  deriving DecidableEq, Repr

/-- One segment of a bulk card (R250). -/
structure Segment where
  src : Nat
  dst : Nat
  len : Nat
  deriving DecidableEq, Repr

/-- An incomplete bulk card (R249 to R251). -/
structure BulkCard where
  id : Nat
  core : Nat
  disp : Nat
  bar : Word
  scope : Nat
  zero : Bool
  segs : List Segment
  preds : List Nat
  /-- Pieces of 16 bytes already written. -/
  done : Nat
  /-- The granule that its read waits for, past translation (R219). -/
  unread : Option Word
  stalled : Bool
  deriving DecidableEq, Repr

/-- An incomplete attention card (R259), with the query rows and the shape of its group (R256) read at issue. -/
structure AttnCard where
  id : Nat
  core : Nat
  disp : Nat
  win : Nat
  group : Nat
  kvtype : Nat
  heads : Nat
  dh : Nat
  /-- Tokens of a page. -/
  tpp : Nat
  qh : Nat
  scale : BitVec 32
  qrows : List Byte
  tfirst : Nat
  tcount : Nat
  tri : Word
  bar : Word
  /-- Numbers of the triples already written: no triple depends on another (R287). -/
  done : List Nat
  /-- Numbers of the triples whose SAE stalls until REPLAY (R288). -/
  stalled : List Nat
  /-- The granules that its SAEs' reads wait for, past translation (R219). -/
  unread : List Word
  deriving DecidableEq, Repr

/-! ## Cores -/

/-- Which storage of a core a poisoned granule lies in (R347). -/
inductive Space where
  | scratch | stackE | stackL | stackS | canvas | vregs | tiles
  deriving DecidableEq, Repr

/-- Poison marks of a core (R347, R348): 16-byte granules, registers, store words, queue entries. -/
structure PoisonMarks where
  granules : List (Space × Nat)
  eRegs : List Nat
  rvRegs : List (Strand × Nat)
  words : List (Strand × Nat)
  /-- Endpoint id (16 the inbox, 17 the matrix engine queue, 18 the copy engine queue) and place in the queue. -/
  entries : List (Nat × Nat)
  deriving DecidableEq, Repr

/-- The pool of a core as partitioned (R47, R48, R54), and oobf (R55). -/
structure Pool where
  scratch : Tab Byte
  stackE : Tab Byte
  stackL : Tab Byte
  stackS : Tab Byte
  oobf : Word
  /-- The 4 KiB granules of the pool and the canvas that have been written since the dispatch started (R168, R334):
  4096 times the number of their space, and their number in it. -/
  dirty : List Nat
  deriving DecidableEq, Repr

/-- The instruction stores of a core and its image lengths (R1, R15, R188, R204). -/
structure Stores where
  e : Tab NWord
  l : Tab Byte
  s : Tab Byte
  ilim : Nat
  llen : Nat
  slen : Nat
  deriving DecidableEq, Repr

/-- A side-table entry (R36). -/
structure SideEntry where
  index : Nat
  spad : BitVec 32
  gmask : Word
  vfirst : Nat
  vcount : Nat
  amask : Byte
  deriving DecidableEq, Repr

/-- How far a core has come in stopping for pre-emption (R329). -/
inductive Drain where
  | none
  /-- E drains: instructions executed since the request, and when it came. -/
  | draining (count since : Nat)
  /-- E has stopped, at a point of the side table or with a full entry. -/
  | stopped (point : Option SideEntry)
  deriving DecidableEq, Repr

/-- One core (R40, R49). -/
structure Core where
  disp : Option Nat
  /-- The generation its cores carry on the fabric (R52, R336). -/
  gen : BitVec 20
  /-- The position word and level positions of its home view (R49, R45, R337). -/
  pos : BitVec 32
  lvl : Word
  part : BitVec 28
  e : EStrand
  l : RvStrand
  s : RvStrand
  stores : Stores
  pool : Pool
  q : Queues
  mx : Matrix
  copy : List CopyCmd
  windows : List XWindow
  held : List Transfer
  drain : Drain
  poison : PoisonMarks
  /-- Loaded by the distributor and awaiting its start message (R204, R205). -/
  loaded : Bool
  /-- Executed TDONE in this dispatch (R141). -/
  tdone : Bool
  /-- When a strand or engine of the core last completed something (R345). -/
  progress : Nat
  deriving DecidableEq, Repr

/-! ## Courts -/

/-- What the umpire of a court does (R297, R306, R307). -/
inductive UmpireMode where
  /-- The ROM routing program with no launch to serve. -/
  | idle
  /-- An umpire image runs. -/
  | image
  /-- The ROM routing program serves a launch, with its routing block. -/
  | rom (block : Word)
  /-- Its image has halted; pushes are accepted and discarded. -/
  | halted
  deriving DecidableEq, Repr

/-- A gate record that a core has pushed completely (R298). -/
structure GateRecord where
  token : Nat
  units : List V128
  deriving DecidableEq, Repr

/-- A record that a core of the launch is pushing, by the core's level positions (R308): the units still to come, and
those that it holds. -/
structure GatePart where
  lvl : Word
  token : Nat
  need : Nat
  units : List V128
  deriving DecidableEq, Repr

/-- The gate queue of a court (R298, R299, R308). -/
structure Gate where
  expected : Nat
  records : List GateRecord
  parts : List GatePart
  deriving DecidableEq, Repr

/-- A share that the ROM program has placed: token, share, weight (R309, R313). -/
structure RomToken where
  token : Nat
  logits : List (BitVec 32)
  weights : List (BitVec 32)
  tried : List Nat
  deriving DecidableEq, Repr

/-- The umpire of a court (R306). -/
structure Umpire where
  hart : RvStrand
  scratch : Tab Byte
  store : Tab Byte
  ilen : Nat
  mode : UmpireMode
  disp : Option Nat
  gen : BitVec 20
  ctx : Nat
  tokens : List RomToken
  evictions : Nat
  refusals : Nat
  drops : Nat
  /-- Store words of 4 bytes, by number, and registers with an uncorrectable error (R346, R348). -/
  badWords : List Nat
  badRegs : List Nat
  deriving DecidableEq, Repr

/-- The report of a court (R324). -/
structure Report where
  free : BitVec 256
  drain : BitVec 256
  flags : Byte
  rows : Nat
  tiles : Nat
  pool : Nat
  deriving DecidableEq, Repr

/-- One court (R1). -/
structure Court where
  umpire : Umpire
  gate : Gate
  report : Report
  deriving DecidableEq, Repr

/-! ## Dispatches -/

/-- A level of a launch (R43). -/
structure Level where
  ex : Nat
  ey : Nat
  coRes : Bool
  scope : Nat
  kind : Nat
  deriving DecidableEq, Repr

/-- Where a dispatch came from (R325, R326). -/
inductive Origin where
  /-- A host LAUNCH: its command's slot, its record, the umpire word and its meaning: 0 none, 1 an image, 2 a routing
  block. -/
  | launch (slot : Nat) (record : Word) (umpire : Word) (umode : Nat)
  /-- A READY handle. -/
  | task (h : Word)
  /-- A dugout entry's resume card. -/
  | resume (entry : Nat) (card : Word)
  /-- A task shipped from another package (R339). -/
  | stolen (home : Nat) (h card : Word)
  deriving DecidableEq, Repr

/-- How far a dispatch has come: nothing placed; cores reserved; loaded. -/
inductive Phase where
  | queued | placed | running
  deriving DecidableEq, Repr

/-- One core of a dispatch: its home-view index, where it now lies, its level positions and whether it retired. One
that is saved or retired lies on no core of the part, and stood names the core on which it last lay. -/
structure DCore where
  home : Nat
  cur : Nat
  stood : Nat
  lvl : Word
  retired : Bool
  tdone : Bool
  started : Bool
  /-- Saved, and given the position cur for its resumption. -/
  back : Bool
  deriving DecidableEq, Repr

/-- A huddle barrier: the unit of a register's level, with its phase, arrivals and first arrival time (R239 to R244). -/
structure HBarrier where
  reg : Nat
  unit : Nat
  phase : Bool
  arrived : List Nat
  since : Option Nat
  deriving DecidableEq, Repr

/-- A global barrier of a unit (R315 to R317). -/
structure GBarrier where
  id : Nat
  unit : Nat
  phase : Bool
  arrived : List Nat
  since : Option Nat
  deriving DecidableEq, Repr

/-- A dispatch (R41, R52, R124, R325 to R337). -/
structure Dispatch where
  origin : Origin
  phase : Phase
  vf : Nat
  ctx : Nat
  /-- Submission position within its class queue (R325). -/
  order : Nat
  /-- The package that placed it first, its origin with gen (R223, R337). -/
  pkg : Nat
  gen : BitVec 20
  curGen : BitVec 20
  eimg : Word
  limg : Word
  simg : Word
  part : BitVec 28
  levels : List Level
  args : Word
  save : Word
  budget : Nat
  energy : Nat
  cls : Nat
  restartable : Bool
  cores : List DCore
  side : List SideEntry
  umpire : Option Nat
  hregs : Tab Word
  hbars : List HBarrier
  gbars : List GBarrier
  /-- The xinfo of every POISON that aborted the task since it became READY from DEMANDED (R342). -/
  poisonSeen : List Word
  /-- When it began to count towards a stall report, and when the last was posted (R345). -/
  progress : Nat
  told : Option Nat
  /-- The row, court · 16 + row, that a failed gang was on (R181). -/
  avoid : Option Nat
  /-- Of each unit of a launch that spreads over packages, how many of its pieces, each of which lies in one package, this
  package places (R44, R325); none where it places all. -/
  share : Option Nat
  /-- Where its table lies in its context's default save area (R333). -/
  table : Option Nat
  deriving DecidableEq, Repr

/-- A core's image saved at pre-emption (R334). The stores are loaded again at resumption. -/
structure Image where
  disp : Nat
  rank : Nat
  core : Core
  point : Option SideEntry
  attn : List AttnCard
  /-- Arrivals of bulk cards recorded with the image (R329). -/
  arrivals : List (Word × Nat)
  /-- Blocks that its coded stream decodes to (R335). -/
  blocks : Nat
  /-- An uncorrectable error lies in it (R348). -/
  bad : Bool
  deriving DecidableEq, Repr

/-! ## The demand engine -/

/-- The eight states of a handle (R121). -/
inductive HState where
  | empty | suspended | demanded | ready | running | value | failed | cell
  deriving DecidableEq, Repr

/-- A tile descriptor (R8). -/
structure Tile where
  base : Nat
  rows : Nat
  cols : Nat
  stride : Nat
  type : BitVec 5
  deriving DecidableEq, Repr

/-- A version of a CELL: its tile, the task that produces it, whether the arena owns it, and the cause its producer
failed with, 0 while it has not (R133). -/
structure Version where
  tile : Tile
  producer : Option Word
  owned : Bool
  cause : Byte
  deriving DecidableEq, Repr

/-- A footprint entry of an effect task, resolved at submission (R123, R132, R133). -/
structure FootEntry where
  used : Bool
  write : Bool
  /-- The handle that a named entry names. -/
  named : Option Word
  addr : Nat
  len : Nat
  tile : Tile
  deriving DecidableEq, Repr

/-- A handle table entry (R120), with what the engine keeps for its card. -/
structure Handle where
  gen : BitVec 20
  state : HState
  sparked : Bool
  effect : Bool
  owned : Bool
  neverStolen : Bool
  depth : Nat
  refs : Nat
  cause : Byte
  cls : Nat
  pending : Nat
  /-- Handles of other packages that its slots name and that are not VALUE yet, once for each slot (R127). -/
  awaits : List Word
  tile : Tile
  card : Word
  chain : Word
  /-- The argument handles of the card (R9). -/
  slots : List Word
  /-- The result shape that the card gives. -/
  rows : Nat
  cols : Nat
  type : BitVec 5
  /-- The versions of a CELL, the current one first (R133). -/
  versions : List Version
  foot : List FootEntry
  preds : List Word
  /-- The argument record of a READY or RUNNING task (R124). -/
  record : Nat
  /-- Held for REPLAY after an abort (R281). -/
  held : Bool
  /-- First claimed (R126). -/
  claimed : Bool
  /-- The xinfo of every POISON that aborted it since it became READY from DEMANDED (R342). -/
  poisonSeen : List Word
  deriving DecidableEq, Repr

/-- A merge key of the fault queue: page, reason and read-or-write kind (R280). -/
structure MergeKey where
  page : Nat
  reason : Nat
  write : Bool
  deriving DecidableEq, Repr

/-- A context (R119, R129, R138, R360, R362). -/
structure Context where
  vf : Nat
  lost : Bool
  /-- Physical address of the level-0 table (R266). -/
  root : Nat
  arenaBase : Nat
  /-- The bases of its arenas on the other packages, each with its package (R129). -/
  awayArenas : List (Nat × Nat)
  arena : Nat
  lh : Nat
  hw : Nat
  hquota : Nat
  dquota : Nat
  cores : Nat
  energy : Nat
  gbwd : Nat
  xwd : Nat
  /-- Bytes and physical base of its default save area (R333). -/
  saveArea : Nat
  saveBase : Nat
  dmsg : Bool
  dshare : Bool
  dmsgCount : Nat
  dshareCount : Nat
  faultCount : Nat
  tcount : Nat
  handles : Tab Handle
  /-- Generations of freed entries (R119). -/
  hgens : Tab (BitVec 20)
  sparks : List Word
  /-- Live allocations of the arena: base and bytes (R129). -/
  allocs : List (Nat × Nat)
  /-- Arena-owned versions that no CELL holds any more and a task still does (R133). -/
  orphans : List Version
  merged : List MergeKey
  deriving DecidableEq, Repr

/-! ## Frames, windows and the dugout -/

/-- The owner of a PRIV page: the dispatch's origin and the core's level positions (R223). -/
structure Owner where
  pkg : Nat
  gen : BitVec 20
  lvl : Word
  deriving DecidableEq, Repr

/-- A physical page, kept with its frame (R217, R222, R227, R360). -/
structure Frame where
  bits : Nat
  ct : BitVec 2
  ctx : Nat
  owner : Option Owner
  written : List Nat
  sgen : BitVec 16
  zeroing : Bool
  deriving DecidableEq, Repr

/-- A page that has left HBM: its leaf entry, its bytes and what travels with it (R263, R347). -/
structure OutPage where
  ctx : Nat
  va : Nat
  leaf : Nat
  stack : Nat
  tier : BitVec 2
  data : Tab Byte
  frame : Frame
  poison : List Nat
  /-- Its first LBA, in the flash tier (R363). -/
  lba : Nat
  deriving DecidableEq, Repr

/-- A tier move in progress (R263): its dugout entry, page, leaf entry, source and target tier. -/
structure Move where
  id : Nat
  entry : Nat
  ctx : Nat
  va : Nat
  leaf : Nat
  source : BitVec 2
  target : BitVec 2
  retries : Nat
  /-- The first LBA of the page in the flash tier, for a move from or to it, and the id of the NVMe command that
  performs it, once that is queued (R363). -/
  lba : Nat
  cmd : Option Nat
  deriving DecidableEq, Repr

/-- An NVMe command whose move has been dropped and whose completion has not been taken (R363): its number among the
floor's items, its function and its command id. -/
structure LooseCmd where
  id : Nat
  vf : Nat
  cid : Nat
  deriving DecidableEq, Repr

/-- The state of a dugout entry (R291). -/
inductive DugState where
  | parked
  | promoting (stage : Nat)
  deriving DecidableEq, Repr

/-- A dugout entry (R262, R263, R290, R291). -/
structure DugEntry where
  gen : BitVec 20
  state : DugState
  ctx : Nat
  win : Nat
  rcard : Word
  rargs : Word
  mbox : Nat
  tcxl : Nat
  tflash : Nat
  order : Nat
  cls : Nat
  parkedAt : Nat
  /-- Demotions begun: to CXL memory, to flash. -/
  cxlBegun : Bool
  flashBegun : Bool
  /-- MODEL: a demotion that waits for reads past translation to perform: its tier, and the address it lies below. -/
  due : Option (BitVec 2 × Nat)
  /-- Reported once: a move not made, a stall (R275, R290). -/
  moveReported : Bool
  stallReported : Bool
  deriving DecidableEq, Repr

/-- A sequence window (R271): base and declared groups. -/
structure Window where
  ctx : Nat
  base : Nat
  groups : Nat
  dir : Nat
  deriving DecidableEq, Repr

/-! ## The host's side -/

/-- A command the device has read and not yet completed (R358, R359). -/
structure Command where
  slot : Nat
  op : Byte
  fence : Bool
  tag : BitVec 32
  ctx : Nat
  p0 : Word
  p1 : Word
  p2 : Word
  p3 : Word
  /-- A LAUNCH that has been submitted and waits for its dispatch. -/
  submitted : Bool
  deriving DecidableEq, Repr

/-- A completion (R358). -/
structure Completion where
  tag : BitVec 32
  status : Byte
  value : Word
  deriving DecidableEq, Repr

/-- A fault record (R279). -/
structure FaultRec where
  va : Nat
  task : Word
  time : Word
  ctx : Nat
  vf : Nat
  access : Byte
  reason : Byte
  deriving DecidableEq, Repr

/-- The registers of a VF's BAR0 (R355). -/
structure VfRegs where
  stat : BitVec 3
  cmdBase : Word
  cmdTail : BitVec 16
  cmdHead : BitVec 16
  cplBase : Word
  cplTail : BitVec 16
  cplHead : BitVec 16
  fltBase : Word
  fltTail : BitVec 16
  fltHead : BitVec 16
  evBase : Word
  evTail : BitVec 16
  evHead : BitVec 16
  intMask : BitVec 4
  winCtx : BitVec 32
  winVa : Word
  deriving DecidableEq, Repr

/-- The PF's block for a VF (R356). -/
structure PfBlock where
  hbm : Word
  cxl : Word
  cores : BitVec 16
  sign : Bool
  keys : BitVec 4
  keytab : Word
  deriving DecidableEq, Repr

/-- A virtual function; number 64 stands for the PF's own command queue (log entry 20). -/
structure Vf where
  regs : VfRegs
  pf : PfBlock
  enabled : Bool
  /-- The kernel keys kept by the firmware (R356). -/
  keys : List (List Byte)
  commands : List Command
  nextSlot : Nat
  /-- Completions held while the queue is full (R355), and the phase bit of the ring (R358). -/
  heldCpl : List Completion
  cplPhase : Bool
  /-- Fault records produced and not yet posted, and when the oldest was (R280). -/
  faults : List FaultRec
  /-- Event records counted and dropped (R350). -/
  evDropped : Nat
  /-- Interrupts raised: command, completion, fault, event queue. -/
  irqs : List Nat
  cxlOff : Nat
  cxlBytes : Nat
  nvme : List Byte
  flashLbas : Nat
  /-- The NVMe submission queue, in the floor-reserved region, its next entry, and that of the completion queue
  (R363). -/
  nvmeSq : Tab Byte
  nvmeTail : Nat
  nvmeHead : Nat
  /-- Ids of its destroyed contexts (R361). -/
  gone : List Nat
  deriving DecidableEq, Repr

/-- Counters of one structure of one core or stack (R352). -/
structure ErrCount where
  unit : ErrUnit
  corrected : Nat
  uncorrected : Nat
  /-- When the latest corrections were, newest first, and when kind 4 was last posted. -/
  recent : List Nat
  lastPost : Option Nat
  deriving DecidableEq, Repr

/-- A Dolvia link (R364). -/
structure Link where
  up : Bool
  nextSeq : BitVec 16
  failed : Nat
  replayAsked : Option (BitVec 16)
  /-- The number of the next flit it sends, the flits it keeps for replay, oldest first, and how many it has sent for
  which no credit has come back. -/
  sendSeq : BitVec 16
  kept : List Flit
  spent : Nat
  /-- Flits taken since the link last returned credits. -/
  owed : Nat
  deriving DecidableEq, Repr

/-- A task shipped to a thief (R339). -/
structure Shipped where
  pkg : Nat
  ctx : Nat
  handle : Word
  card : Word
  cls : Nat
  deriving DecidableEq, Repr

/-- How a task stolen from another package has left the cores here, as it is sent to its home (R339). -/
structure Notice where
  home : Nat
  ctx : Nat
  handle : Word
  how : TaskEnd
  deriving DecidableEq, Repr

/-- The domain and the links (R338, R339, R364). -/
structure Domain where
  joined : Bool
  index : Nat
  size : Nat
  routes : List (BitVec 18)
  live : List Nat
  /-- Packages that cannot be reached past the links, and those that no path reaches, each with the time since when
  (R364). -/
  cut : List Nat
  unreached : List (Nat × Nat)
  links : Tab Link
  /-- Next end-to-end number expected of each source, and flits ahead of it. -/
  e2e : Tab Nat
  ahead : List Flit
  delivered : List Flit
  /-- Next end-to-end number of a flit to each destination, and the flits put on the links with the link of each. -/
  e2eOut : Tab Nat
  sent : List (Nat × Flit)
  /-- Flits that wait for a link with credits, oldest first. -/
  waiting : List Flit
  /-- The bytes of the token as this package last sent it, and the package that it went to (R338). -/
  token : Option (List Byte)
  tokenTo : Nat
  tokenSeen : Nat
  requested : Bool
  /-- Tasks shipped to thieves and not yet back (R339), and what was sent to the homes of stolen ones. -/
  shipped : List Shipped
  notices : List Notice
  deriving DecidableEq, Repr

/-- The floor die: distributor, demand engine, engines, park controller (R1). -/
structure Floor where
  dispatches : Tab Dispatch
  nextDisp : Nat
  nextGen : BitVec 20
  contexts : Tab Context
  bulk : List BulkCard
  attn : List AttnCard
  messages : List Message
  transfers : List Transfer
  /-- Serial of the next card, message, transfer or move. -/
  nextItem : Nat
  frames : Tab Frame
  /-- Poisoned 64-byte lines of HBM and CXL memory, and poisoned page table entries (R347, R348). -/
  lines : List Nat
  ptes : List Nat
  /-- Next free byte of floor-reserved memory (R354). -/
  reserved : Nat
  windows : List Window
  dugout : Tab DugEntry
  dgens : Tab (BitVec 20)
  moves : List Move
  /-- Commands of the flash tier whose moves were dropped (R277, R291, R363). -/
  loose : List LooseCmd
  out : List OutPage
  images : List Image
  /-- Cores reserved by the distributor (R324), cores kept for a head whose victims leave (R325), and withdrawn
  cores and dies (R349). -/
  taken : List Nat
  wanted : List (Nat × List Nat)
  /-- Cores let go since the latest report of their court (R324). -/
  released : List Nat
  withdrawnCores : List Nat
  withdrawnDies : List Nat
  errors : List ErrCount
  /-- Writes to doorbells of the NVMe controllers: bus address and value (R363). -/
  doorbells : List (Word × Nat)
  deriving DecidableEq, Repr

/-- One turn: a strand's or an umpire's next instruction, or an event with its argument. -/
inductive Turn where
  | agent (a : Agent)
  | event (i : Instr) (arg : EvArg)
  deriving DecidableEq, Repr

/-- A bus access that stalls for a moment (R231): its serial, whether a peer made it and which, or which function, and
where it goes. -/
structure Stalled where
  id : Nat
  peer : Bool
  src : Nat
  ctx : Nat
  va : Nat
  acc : BusAccess
  /-- The bytes that its earlier parts have returned (R226). -/
  got : List Byte
  deriving DecidableEq, Repr

/-- The package. -/
structure State where
  /-- The package time base in nanoseconds (R93). -/
  time : Word
  /-- The core clock in MHz (R368). -/
  clock : Nat
  /-- Samples of package power in watts over the last millisecond, newest first (R368). -/
  power : List Nat
  /-- HBM, CXL and floor-reserved memory, by physical address (R354). -/
  mem : Tab Byte
  /-- Host memory, by host physical address (R355). -/
  hostMem : Tab Byte
  cores : Tab Core
  courts : Tab Court
  floor : Floor
  domain : Domain
  vfs : Tab Vf
  /-- What the last bus read returned (R231). -/
  busData : List Byte
  /-- Accesses of the host and of peers that stall, in arrival order (R231, R232). -/
  stalled : List Stalled
  /-- MODEL: the dispatches that faults have ended, aborted or restarted in this round (R344). -/
  ended : List Nat
  /-- MODEL: free values drawn so far. -/
  draws : Nat
  /-- MODEL: whose turn it is. -/
  cur : Agent
  /-- MODEL: what the event being performed acts on. -/
  arg : EvArg
  /-- MODEL: the turns to come. -/
  agenda : List Turn
  deriving DecidableEq, Repr

/-! ## Stops of the model -/

/-- Why a step ends with no next state. -/
inductive Fault where
  /-- Raised by step when a turn names a core or a court that the part does not have (R1). Safe: no hardware
  has such an agent. -/
  | noSuchAgent
  deriving DecidableEq, Repr

/-- Why an instruction has no meaning. -/
inductive Refusal where
  /-- Raised by an arm of exec that has no meaning yet. Safe: nothing can be proved of it. -/
  | notModelled (mnemonic : String)
  deriving DecidableEq, Repr

/-! ## After reset -/

/-- E before any dispatch: stopped, every register at its start value (R49). -/
def EStrand.reset : EStrand where
  run := .stopped
  pc := 0
  g := []
  v := []
  xvec := 0
  xcause := 0
  xinfo := 0
  xpc := 0
  fpm := 0
  seed := 0
  icount := 0
  serial := 1
  fences := []
  sincePoint := 0
  deferred := []

/-- A hart before any dispatch. -/
def RvStrand.reset : RvStrand where
  run := .stopped
  pc := 0
  x := []
  held := none

/-- Every queue empty (R200). -/
def Queues.reset : Queues where
  lq0 := []
  lq1 := []
  sq := []
  bol := []
  bos := []
  boi := []
  inN := []
  inE := []
  inS := []
  inW := []
  inbox := []

/-- The engine's state at dispatch start (R168). -/
def Matrix.reset : Matrix where
  cfgI := none
  fmtI := none
  epI := none
  cfg := none
  fmt := none
  ep := none
  weights := []
  wscales := []
  latched := 0
  tiles := []
  poisoned := 0
  queue := []
  canvas := []

/-- A core that holds no dispatch, its storage zero (R49, R142, R367). Log entry 18. -/
def Core.reset : Core where
  disp := none
  gen := 0
  pos := 0
  lvl := 0
  part := 0
  e := .reset
  l := .reset
  s := .reset
  stores := { e := [], l := [], s := [], ilim := 0, llen := 0, slen := 0 }
  pool := { scratch := [], stackE := [], stackL := [], stackS := [], oobf := 0, dirty := [] }
  q := .reset
  mx := .reset
  copy := []
  windows := []
  held := []
  drain := .none
  poison := { granules := [], eRegs := [], rvRegs := [], words := [], entries := [] }
  loaded := false
  tdone := false
  progress := 0

/-- An umpire with no launch to serve (R307). -/
def Umpire.reset : Umpire where
  hart := .reset
  scratch := []
  store := []
  ilen := 0
  mode := .idle
  disp := none
  gen := 0
  ctx := 0
  tokens := []
  evictions := 0
  refusals := 0
  drops := 0
  badWords := []
  badRegs := []

/-- The gate queue empty and expecting token 0 (R297). -/
def Gate.reset : Gate where
  expected := 0
  records := []
  parts := []

/-- A court with no report yet made. -/
def Court.reset : Court where
  umpire := .reset
  gate := .reset
  report := { free := 0, drain := 0, flags := 0, rows := 0, tiles := 0, pool := 0 }

/-- The registers of a VF at reset (R355). -/
def VfRegs.reset : VfRegs where
  stat := 0
  cmdBase := 0
  cmdTail := 0
  cmdHead := 0
  cplBase := 0
  cplTail := 0
  cplHead := 0
  fltBase := 0
  fltTail := 0
  fltHead := 0
  evBase := 0
  evTail := 0
  evHead := 0
  intMask := 0xF
  winCtx := 0
  winVa := 0

/-- The PF's block at reset (R356). -/
def PfBlock.reset : PfBlock where
  hbm := 0
  cxl := 0
  cores := 0
  sign := false
  keys := 0
  keytab := 0

/-- A virtual function at reset, not enabled. -/
def Vf.reset : Vf where
  regs := .reset
  pf := .reset
  enabled := false
  keys := []
  commands := []
  nextSlot := 0
  heldCpl := []
  cplPhase := true
  faults := []
  evDropped := 0
  irqs := [0, 0, 0, 0]
  cxlOff := 0
  cxlBytes := 0
  nvme := []
  flashLbas := 0
  nvmeSq := []
  nvmeTail := 0
  nvmeHead := 0
  gone := []

/-- The floor with nothing dispatched and no context. Log entry 18. -/
def Floor.reset : Floor where
  dispatches := []
  nextDisp := 0
  nextGen := 1
  contexts := []
  bulk := []
  attn := []
  messages := []
  transfers := []
  nextItem := 0
  frames := []
  lines := []
  ptes := []
  reserved := 0
  windows := []
  dugout := []
  dgens := []
  moves := []
  loose := []
  out := []
  images := []
  taken := []
  wanted := []
  released := []
  withdrawnCores := []
  withdrawnDies := []
  errors := []
  doorbells := []

/-- A package that has not joined a domain is alone in it (R119). -/
def Domain.reset : Domain where
  joined := false
  index := 0
  size := 1
  routes := []
  live := [0]
  cut := []
  unreached := []
  links := []
  e2e := []
  ahead := []
  delivered := []
  e2eOut := []
  sent := []
  waiting := []
  token := none
  tokenTo := 0
  tokenSeen := 0
  requested := false
  shipped := []
  notices := []

/-- The package right after the six steps of a cold reset (R367), when it waits for DOMAIN_JOIN: no context, no
dispatch, every queue empty, and nothing listed in memory. -/
def State.reset : State where
  time := 0
  clock := Config.clockMHz
  power := []
  mem := []
  hostMem := []
  cores := []
  courts := []
  floor := .reset
  domain := .reset
  vfs := []
  busData := []
  stalled := []
  ended := []
  draws := 0
  cur := .floor
  arg := .none
  agenda := []

end Sys2Proof.Machine
end

