-- ==== Sys2Proof/Machine/Basic.lean ====
section
/-!
DEFINITION. The step monad, access to cores, courts, dispatches and contexts, free draws, and the records the part
posts in host memory (spec/20_faults_errors.md R341, R350; spec/15_translation_paging.md R279, R280;
spec/21_host_fabric_firmware.md R355, R358).
-/
namespace Sys2Proof.Machine

open Sys2Proof

/-! ## Causes (R341) -/

def cIllegalOpcode : Byte := 0x01
def cIllegalOperand : Byte := 0x02
def cFetchLimit : Byte := 0x03
def cMisaligned : Byte := 0x04
def cTranslation : Byte := 0x05
def cPrivForeign : Byte := 0x06
def cWriteTwice : Byte := 0x07
def cStreamAtomic : Byte := 0x08
def cAliasConflict : Byte := 0x09
def cFormatMismatch : Byte := 0x0A
def cBadAperture : Byte := 0x0B
def cSelfDependence : Byte := 0x0C
def cDemandDepth : Byte := 0x0D
def cArenaFull : Byte := 0x0E
def cBarrierTimeout : Byte := 0x0F
def cHuddleOutside : Byte := 0x10
def cGangAbort : Byte := 0x11
def cExchangeTimeout : Byte := 0x12
def cExchangeCount : Byte := 0x13
def cTrap : Byte := 0x14
def cPoison : Byte := 0x15
def cSeqOverrun : Byte := 0x16
def cHandleStale : Byte := 0x17
def cEvalFailed : Byte := 0x18
def cBarrierOverflow : Byte := 0x19
def cPreemptOverrun : Byte := 0x1A
def cContextLost : Byte := 0x1B

/-! ## Stops -/

/-- What a failing translation leaves for its fault record (R278, R279): the address, the reason and level, the
access code, and whether an engine issued the access. -/
structure TrFault where
  va : Nat
  reason : Nat
  level : Nat
  access : Nat
  engine : Bool
  deriving DecidableEq, Repr

/-- A fault: its cause, its xinfo, and its record if a translation failed. -/
structure Flt where
  cause : Byte
  info : Word
  tr : Option TrFault
  deriving DecidableEq, Repr

/-- Why an instruction does not complete in this step: it faults, or it waits. -/
inductive Stop where
  | flt (f : Flt)
  | wait (w : Wait)
  deriving DecidableEq, Repr

/-- A step in the making. A stop drops every effect made so far (R25, R28). -/
abbrev M (α : Type) := StateT State (Except Stop) α

/-- Ends the step with a stop. -/
def stop {α : Type} (x : Stop) : M α := fun _ => .error x

/-- Faults. -/
def fault {α : Type} (cause : Byte) (info : Word) : M α := stop (.flt ⟨cause, info, none⟩)

/-- Waits. -/
def block {α : Type} (w : Wait) : M α := stop (.wait w)

/-- Reads the state. -/
def gets {α : Type} (f : State → α) : M α := fun s => .ok (f s, s)

/-- Changes the state. -/
def change (f : State → State) : M Unit := fun s => .ok ((), f s)

/-- Faults unless p holds. -/
def check (p : Bool) (cause : Byte) (info : Word) : M Unit := if p then pure () else fault cause info

/-- Waits until p holds. -/
def await (p : Bool) (w : Wait) : M Unit := if p then pure () else block w

/-- The next value of a free choice, which nothing constrains. -/
def draw (f : Nat → Nat) : M Nat := fun s => .ok (f s.draws, { s with draws := s.draws + 1 })

/-- Runs a step from a state, keeping the state if it stops. -/
def orKeep (m : M Unit) (s : State) : State :=
  match m s with
  | .ok (_, t) => t
  | .error _ => s

/-- Runs pieces in order until one stops: how many ran, the state, and the stop. -/
def runPieces : List (M Unit) → Nat → State → Nat × State × Option Stop
  | [], k, s => (k, s, none)
  | m :: ms, k, s =>
    match m s with
    | .ok (_, t) => runPieces ms (k + 1) t
    | .error x => (k, s, some x)

/-! ## Places -/

/-- A core. -/
def State.core (s : State) (n : Nat) : Core := s.cores.get .reset n

/-- Writes a core. -/
def State.setCore (s : State) (n : Nat) (c : Core) : State := { s with cores := s.cores.put n c }

/-- Changes a core. -/
def State.onCore (s : State) (n : Nat) (f : Core → Core) : State := s.setCore n (f (s.core n))

/-- A court. -/
def State.court (s : State) (n : Nat) : Court := s.courts.get .reset n

/-- Changes a court. -/
def State.onCourt (s : State) (n : Nat) (f : Court → Court) : State :=
  { s with courts := s.courts.put n (f (s.court n)) }

/-- Changes an umpire. -/
def State.onUmpire (s : State) (n : Nat) (f : Umpire → Umpire) : State :=
  s.onCourt n fun c => { c with umpire := f c.umpire }

/-- Changes the floor. -/
def State.onFloor (s : State) (f : Floor → Floor) : State := { s with floor := f s.floor }

/-- The court, row and column of a core index (R1). -/
def courtOf (n : Nat) : Nat := n / Config.coresPerCourt
def rowOf (n : Nat) : Nat := n % Config.coresPerCourt / 16
def colOf (n : Nat) : Nat := n % 16

/-- The core index of a court, row and column. -/
def coreAt (court row col : Nat) : Nat := court * Config.coresPerCourt + row * 16 + col

/-- The position word of a core of this package (R49). -/
def posWord (s : State) (n : Nat) : Nat :=
  colOf n + 16 * rowOf n + 256 * (courtOf n % 4) + 65536 * s.domain.index

/-- The core whose strand acts. -/
def State.me (s : State) : Nat :=
  match s.cur with
  | .strand n _ => n
  | _ => 0

/-- The strand that acts. -/
def State.myStrand (s : State) : Strand :=
  match s.cur with
  | .strand _ k => k
  | _ => .e

/-- The court whose umpire acts. -/
def State.myCourt (s : State) : Nat :=
  match s.cur with
  | .umpire n => n
  | _ => 0

/-- The acting core. -/
def State.my (s : State) : Core := s.core s.me

/-- Changes the acting core. -/
def State.onMy (s : State) (f : Core → Core) : State := s.onCore s.me f

/-- A dispatch. -/
def State.disp (s : State) (d : Nat) : Option Dispatch := s.floor.dispatches.find d

/-- Changes a dispatch. -/
def State.onDisp (s : State) (d : Nat) (f : Dispatch → Dispatch) : State :=
  s.onFloor fun fl => { fl with dispatches := fl.dispatches.modify d f }

/-- The dispatch a core runs. -/
def State.dispOf (s : State) (n : Nat) : Option (Nat × Dispatch) :=
  match (s.core n).disp with
  | none => none
  | some d => (s.disp d).map fun x => (d, x)

/-- A context. -/
def State.ctxOf (s : State) (c : Nat) : Option Context := s.floor.contexts.find c

/-- Changes a context. -/
def State.onCtx (s : State) (c : Nat) (f : Context → Context) : State :=
  s.onFloor fun fl => { fl with contexts := fl.contexts.modify c f }

/-- The context of a core's dispatch; 0 outside one. -/
def State.coreCtx (s : State) (n : Nat) : Nat :=
  match s.dispOf n with
  | some (_, d) => d.ctx
  | none => 0

/-- A virtual function. -/
def State.vf (s : State) (v : Nat) : Vf := s.vfs.get .reset v

/-- Changes a virtual function. -/
def State.onVf (s : State) (v : Nat) (f : Vf → Vf) : State := { s with vfs := s.vfs.put v (f (s.vf v)) }

/-- The virtual function of a context. -/
def State.ctxVf (s : State) (c : Nat) : Nat :=
  match s.ctxOf c with
  | some x => x.vf
  | none => 0

/-- The handle that a dispatch evaluates, if it is a task. -/
def Dispatch.task (d : Dispatch) : Option Word :=
  match d.origin with
  | .task h => some h
  | .stolen _ h _ => some h
  | _ => none

/-- Whether a dispatch is a task that has not completed (R131). -/
def Dispatch.liveTask (d : Dispatch) : Bool := d.task.isSome && !(d.cores.all (·.tdone))

/-- What an event record names (R350): the handle, dugout id or launch record. -/
def Dispatch.eventId (d : Dispatch) : Word :=
  match d.origin with
  | .launch _ r _ _ => r
  | .task h => h
  | .resume e _ => BitVec.ofNat 64 e
  | .stolen _ h _ => h

/-- A dispatch has made progress by k pieces of a card or instructions of its umpire (R345). -/
def State.dispProgress (s : State) (d k : Nat) : State :=
  if k = 0 then s else s.onDisp d fun x => { x with progress := s.time.toNat }

/-- A fresh serial for a card, message or transfer. -/
def freshItem : M Nat := fun s =>
  .ok (s.floor.nextItem, s.onFloor fun f => { f with nextItem := f.nextItem + 1 })

/-- Puts turns before all others. -/
def State.soon (s : State) (ts : List Turn) : State := { s with agenda := ts ++ s.agenda }

/-- Adds an element to a list of marks. -/
def addMark {α : Type} [DecidableEq α] (x : α) (l : List α) : List α := if x ∈ l then l else l ++ [x]

/-! ## Bytes of a table -/

/-- n bytes from offset off of a table of bytes. -/
def tabRead (t : Tab Byte) (off : Nat) : Nat → List Byte
  | 0 => []
  | n + 1 => t.get 0 off :: tabRead t (off + 1) n

/-- Writes bytes from offset off. -/
def tabWrite (t : Tab Byte) (off : Nat) : List Byte → Tab Byte
  | [] => t
  | b :: bs => tabWrite (t.set 0 off b) (off + 1) bs

/-! ## Host memory and the rings the part writes -/

/-- Reads host memory. -/
def State.hostRead (s : State) (addr n : Nat) : List Byte := tabRead s.hostMem addr n

/-- Writes host memory. -/
def State.hostWrite (s : State) (addr : Nat) (bs : List Byte) : State :=
  { s with hostMem := tabWrite s.hostMem addr bs }

/-- Whether a queue base register enables its queue (R355). -/
def ringOn (base : Word) : Bool := base.getLsbD 5

/-- Entries of a queue (R355). -/
def ringSize (base : Word) : Nat := 2 ^ (base.toNat % 32)

/-- Base address of a queue (R355). -/
def ringBase (base : Word) : Nat := base.toNat / 4096 * 4096

/-- The entry after p. Heads and tails are entry numbers of the ring (log entry 21). -/
def ringNext (base : Word) (p : BitVec 16) : BitVec 16 := BitVec.ofNat 16 ((p.toNat + 1) % ringSize base)

/-- A ring is full when one more entry would meet its head (log entry 21). -/
def ringFull (base : Word) (tail head : BitVec 16) : Bool := ringNext base tail == head

/-- Raises an interrupt of a function: 0 command, 1 completion, 2 fault, 3 event queue (R355). -/
def State.interrupt (s : State) (v q : Nat) : State :=
  s.onVf v fun f => if f.regs.intMask.getLsbD q then f else { f with irqs := f.irqs.modify q (· + 1) }

/-- What an event record says (R350). -/
structure EventRec where
  ctx : Nat
  kind : Nat
  cause : Byte
  strand : Nat
  place : Nat
  pc : Nat
  id : Word
  detail : List Byte
  deriving DecidableEq, Repr

/-- The 64 bytes of an event record (R350). -/
def EventRec.bytes (e : EventRec) (time : Word) (v : Nat) : List Byte :=
  leBytes 8 time.toNat ++ leBytes 4 e.ctx ++ leBytes 1 (v % 64) ++ leBytes 1 e.kind ++ [e.cause] ++
    leBytes 1 e.strand ++ leBytes 4 e.place ++ leBytes 4 e.pc ++ leBytes 8 e.id.toNat ++
    (e.detail ++ List.replicate 32 0).take 32

/-- pc of a record that has none. -/
def noPc : Nat := 0xFFFFFFFF

/-- Posts an event record in a function's event queue, or counts it as dropped (R350). -/
def State.postEvent (s : State) (v : Nat) (e : EventRec) : State :=
  let r := (s.vf v).regs
  if !ringOn r.evBase then s
  else if ringFull r.evBase r.evTail r.evHead then
    s.onVf v fun f => { f with evDropped := f.evDropped + 1, regs := { f.regs with stat := f.regs.stat ||| 4 } }
  else
    let s1 := s.hostWrite (ringBase r.evBase + 64 * r.evTail.toNat) (e.bytes s.time v)
    let s2 := s1.onVf v fun f => { f with regs := { f.regs with evTail := ringNext r.evBase r.evTail } }
    s2.interrupt v 3

/-- An event of a context. -/
def State.ctxEvent (s : State) (e : EventRec) : State := s.postEvent (s.ctxVf e.ctx) e

/-- The part's own record, kept with the PF as function 64 (log entry 20). -/
def State.partEvent (s : State) (e : EventRec) : State := s.postEvent 64 { e with ctx := 0 }

/-- The 16 bytes of a completion (R358). -/
def Completion.bytes (c : Completion) (phase : Bool) : List Byte :=
  leBytes 4 c.tag.toNat ++ [c.status] ++ leBytes 1 phase.toNat ++ leBytes 2 0 ++ leBytes 8 c.value.toNat

/-- Posts held completions, oldest first, while the ring has room (R355). -/
def postHeld (v : Nat) : Nat → State → State
  | 0, s => s
  | n + 1, s =>
    let f := s.vf v
    let r := f.regs
    match f.heldCpl with
    | [] => s
    | c :: rest =>
      if !ringOn r.cplBase || ringFull r.cplBase r.cplTail r.cplHead then s
      else
        let s1 := s.hostWrite (ringBase r.cplBase + 16 * r.cplTail.toNat) (c.bytes f.cplPhase)
        let t' := ringNext r.cplBase r.cplTail
        let s2 := s1.onVf v fun f => { f with
          heldCpl := rest
          cplPhase := if t' = 0 then !f.cplPhase else f.cplPhase
          regs := { f.regs with cplTail := t' } }
        postHeld v n (s2.interrupt v 1)

/-- Completes a command (R358): held in order while the ring is full. -/
def State.complete (s : State) (v : Nat) (c : Completion) : State :=
  postHeld v ((s.vf v).heldCpl.length + 1) (s.onVf v fun f => { f with heldCpl := f.heldCpl ++ [c] })

/-! ## Fault records -/

/-- The merge kind of an access code: writes and atomics, or reads (R280). -/
def mergeWrite (access : Nat) : Bool := access = 1 || access = 2

/-- The bytes of a fault record (R279). -/
def FaultRec.bytes (f : FaultRec) (pkg : Nat) : List Byte :=
  leBytes 8 f.va ++ leBytes 8 f.task.toNat ++ leBytes 8 f.time.toNat ++ leBytes 4 f.ctx ++ leBytes 1 (f.vf % 64) ++
    [f.access, f.reason] ++ leBytes 1 pkg

/-- The merge key of a record (R280). -/
def FaultRec.key (f : FaultRec) : MergeKey := ⟨f.va / 4096, f.reason.toNat % 8, mergeWrite (f.access.toNat % 4)⟩

/-- Posts a function's held fault records while the ring has room: from then on like faults of the context merge with
them (R280). A ring that is not enabled takes no record, like a full one (log entry 101). -/
def postFaults (v : Nat) : Nat → State → State
  | 0, s => s
  | n + 1, s =>
    let f := s.vf v
    let r := f.regs
    match f.faults with
    | [] => s
    | x :: rest =>
      if !ringOn r.fltBase || ringFull r.fltBase r.fltTail r.fltHead then s
      else
        let s1 := s.hostWrite (ringBase r.fltBase + 32 * r.fltTail.toNat) (x.bytes s.domain.index)
        let s2 := s1.onVf v fun f => { f with
          faults := rest
          regs := { f.regs with fltTail := ringNext r.fltBase r.fltTail } }
        postFaults v n (s2.onCtx x.ctx fun c => { c with merged := x.key :: c.merged })

/-- Posts a batch of fault records: the records, the tail, then the interrupt (R280). -/
def State.postBatch (s : State) (v : Nat) : State :=
  let n := (s.vf v).faults.length
  let t := postFaults v n s
  if (t.vf v).faults.length < n then t.interrupt v 2 else t

/-- Produces a fault record: merged, held, or discarded with the overflow bit set (R280). The batch is posted as
soon as 64 records are held. -/
def State.produceFault (s : State) (ctx : Nat) (task : Word) (t : TrFault) (disposition : Nat) (host : Bool) :
    State :=
  match s.ctxOf ctx with
  | none => s
  | some c =>
    let key : MergeKey := ⟨t.va % 2 ^ 57 / 4096, t.reason % 8, mergeWrite t.access⟩
    if key ∈ c.merged then s
    else if 64 ≤ (s.vf c.vf).faults.length then
      s.onVf c.vf fun f => { f with regs := { f.regs with stat := f.regs.stat ||| 2 } }
    else
      let r : FaultRec := {
        va := t.va % 2 ^ 57, task := task, time := s.time, ctx := ctx, vf := c.vf
        access := BitVec.ofNat 8 (t.access + (if t.engine then 4 else 0) + 8 * disposition + (if host then 32 else 0))
        reason := BitVec.ofNat 8 (t.reason + 8 * t.level) }
      let s1 := s.onVf c.vf fun f => { f with faults := f.faults ++ [r] }
      if 64 ≤ (s1.vf c.vf).faults.length then s1.postBatch c.vf else s1

/-! ## Counts of a context -/

/-- A dropped arrival of a context (R53). -/
def State.dropMsg (s : State) (ctx : Nat) : State :=
  s.onCtx ctx fun c => { c with dmsg := true, dmsgCount := c.dmsgCount + 1 }

/-- A dropped routing share of a context (R302). -/
def State.dropShare (s : State) (ctx : Nat) : State :=
  s.onCtx ctx fun c => { c with dshare := true, dshareCount := c.dshareCount + 1 }

end Sys2Proof.Machine
end

