-- ==== Sys2Proof/Machine/Memory.lean ====
section
/-!
DEFINITION. Physical memory, page tables, the walk, the checks of a translation and the access of one generic
address (spec/15_translation_paging.md R265 to R278; spec/12_ordering_by_page_type.md R213 to R227;
spec/03_cores_strands_launches.md R54 to R57; spec/20_faults_errors.md R347; spec/21_host_fabric_firmware.md R354).
Every access performs when it issues (log entry 10).
-/
namespace Sys2Proof.Machine

open Sys2Proof

/-! ## Physical memory -/

/-- Reads n bytes at a physical address. -/
def State.physRead (s : State) (p n : Nat) : List Byte := tabRead s.mem p n

/-- A little-endian number of n bytes at a physical address. -/
def State.physNat (s : State) (p n : Nat) : Nat := leNat (s.physRead p n)

/-- The 64-byte lines that n bytes at p touch. -/
def linesOf (p n : Nat) : List Nat := (List.range ((p + n + 63) / 64 - p / 64)).map (p / 64 + ·)

/-- Lines that n bytes at p cover whole. -/
def linesCovered (p n : Nat) : List Nat := (linesOf p n).filter fun l => decide (p ≤ 64 * l) && decide (64 * l + 64 ≤ p + n)

/-- Whether n bytes at p touch a poisoned line (R347). -/
def State.poisoned (s : State) (p n : Nat) : Bool := (linesOf p n).any fun l => l ∈ s.floor.lines

/-- Whether n bytes at p touch a poisoned line without covering it (R347). -/
def State.partPoisoned (s : State) (p n : Nat) : Bool :=
  (linesOf p n).any fun l => l ∈ s.floor.lines && !(l ∈ linesCovered p n)

/-- Writes bytes at a physical address; a line written whole loses its poison mark (R347). -/
def State.physWrite (s : State) (p : Nat) (bs : List Byte) : State :=
  let s1 := { s with mem := tabWrite s.mem p bs }
  if s.floor.lines = [] then s1
  else s1.onFloor fun f => { f with lines := f.lines.filter fun l => !(l ∈ linesCovered p bs.length) }

/-- Stores a number of n bytes at a physical address. -/
def State.physPut (s : State) (p n v : Nat) : State := s.physWrite p (leBytes n v)

/-- Zeroes the bytes of [p, p + n). -/
def State.physZero (s : State) (p n : Nat) : State :=
  let s1 := { s with mem := s.mem.clearRange p n }
  s1.onFloor fun f => { f with lines := f.lines.filter fun l => !(decide (p ≤ 64 * l) && decide (64 * l + 64 ≤ p + n)) }

/-- Base of this package's floor-reserved memory (R354). -/
def floorBase (s : State) : Nat := s.domain.index * 2 ^ 44 + 2 * 2 ^ 42

/-! ## Page tables -/

/-- What a walk finds (R268, R274). -/
inductive Walk where
  /-- A leaf: the address of its entry, the entry, the page's bits and the level. -/
  | leaf (entry pte shift level : Nat)
  /-- A translation fault: its reason and level (R278). -/
  | bad (reason level : Nat)
  | overrun
  deriving DecidableEq, Repr

/-- Bits [51:12] of an entry, as an address (R267). -/
def pteFrame (e : Nat) : Nat := natBits e 51 12 * 4096

/-- The tier of a leaf (R267). -/
def pteTier (e : Nat) : Nat := natBits e 9 8

/-- The consistency type of a leaf (R267). -/
def pteCt (e : Nat) : BitVec 2 := BitVec.ofNat 2 (natBits e 7 6)

/-- Whether a physical address lies in a region that a translation can name (R354). -/
def physMappable (p : Nat) : Bool :=
  let region := natBits p 43 42
  (region == 0 && natBits p 41 39 == 0 && decide (natBits p 35 0 < Config.stackBytes)) || region == 1

/-- A leaf entry of a page of 2^shift bytes: malformed when its frame is not aligned or names no memory
(R268, R269, R274, R354). Tiers other than 00 name no frame (R267). -/
def leafAt (entry pte shift level : Nat) : Walk :=
  if pteTier pte = 0 && (pteFrame pte % 2 ^ shift ≠ 0 || !physMappable (pteFrame pte)) then .bad 3 level
  else .leaf entry pte shift level

/-- Whether n bytes of a table that a walk reads are uncorrectable: a failed entry, or a poisoned line (R278, R347,
R348). -/
def State.tableBad (s : State) (p n : Nat) : Bool := p ∈ s.floor.ptes || s.poisoned p n

/-- Walks a sequence window whose directory lies at dir (R274). A group header that is uncorrectable stops the walk at
its leaf table. -/
def walkWindow (s : State) (va dir : Nat) : Walk :=
  let da := dir + 8 * natBits va 38 30
  if s.tableBad da 8 then .bad 4 5
  else
    let e := s.physNat da 8
    if !natBit e 0 then .bad 1 5
    else if s.tableBad (pteFrame e) 2 then .bad 4 6
    else
      let b := natBits va 29 16
      if s.physNat (pteFrame e) 2 ≤ b then .overrun
      else
        let la := pteFrame e + 64 + 8 * b
        if s.tableBad la 8 then .bad 4 6
        else
          let x := s.physNat la 8
          if !natBit x 0 then .bad 1 6
          else if natBits x 2 1 ≠ 1 then .bad 3 6
          else leafAt la x 16 6

/-- Walks from a table with n + 1 levels left below it (R265, R268, R269). Log entry 36. -/
def walkFrom (s : State) (va : Nat) : Nat → Nat → Walk
  | 0, table =>
    let i := natBits va 20 12
    let a0 := table + 8 * (i - i % 16)
    if s.tableBad a0 8 then .bad 4 4
    else
      let e0 := s.physNat a0 8
      let span := natBit e0 5
      let a := if span then a0 else table + 8 * i
      if s.tableBad a 8 then .bad 4 4
      else
        let e := s.physNat a 8
        if !natBit e 0 then .bad 1 4
        else if natBits e 2 1 ≠ 1 then .bad 3 4
        else leafAt a e (if span then 16 else 12) 4
  | n + 1, table =>
    let level := 3 - n
    let shift := 21 + 9 * n
    let a := table + 8 * (va / 2 ^ shift % 512)
    if s.tableBad a 8 then .bad 4 level
    else
      let e := s.physNat a 8
      if !natBit e 0 then .bad 1 level
      else match natBits e 2 1 with
        | 0 => walkFrom s va n (pteFrame e)
        | 1 => if level < 2 then .bad 3 level else leafAt a e shift level
        | 2 => if level = 1 then walkWindow s va (pteFrame e) else .bad 3 level
        | _ => .bad 3 level

/-- The walk of a context's table (R268). A context that is gone maps nothing. -/
def State.walk (s : State) (ctx va : Nat) : Walk :=
  match s.ctxOf ctx with
  | none => .bad 1 0
  | some c => walkFrom s va 4 c.root

/-- The physical address of va under a leaf (R270). -/
def leafPhys (pte shift va : Nat) : Nat := pteFrame pte + va % 2 ^ shift

/-- The physical address that a resident leaf gives, if any. -/
def State.physOf (s : State) (ctx va : Nat) : Option Nat :=
  match s.walk ctx va with
  | .leaf _ pte shift _ => if pteTier pte = 0 then some (leafPhys pte shift va) else none
  | _ => none

/-- The frame that holds a physical address, with its base. -/
def State.frameAt (s : State) (p : Nat) : Option (Nat × Frame) :=
  s.floor.frames.find? fun x => decide (x.1 ≤ p) && decide (p < x.1 + 2 ^ x.2.bits)

/-- Changes a frame by its base. -/
def State.onFrame (s : State) (base : Nat) (f : Frame → Frame) : State :=
  s.onFloor fun fl => { fl with frames := fl.frames.modify base f }

/-! ## Accesses -/

/-- What an access does. A card or descriptor is read by an engine for an instruction (R279). -/
inductive Kind where
  | read | write | atomic | card
  deriving DecidableEq, Repr

/-- The access code of R279. -/
def Kind.code : Kind → Nat
  | .read => 0
  | .write => 1
  | .atomic => 2
  | .card => 3

/-- Whether an access is of a write kind (R275 step 3). -/
def Kind.writes : Kind → Bool
  | .write => true
  | .atomic => true
  | _ => false

/-- On whose behalf an access is made: its context; the issuing core and strand; whether an engine makes it; the
umpire's court; and the owner that it is for PRIV pages (R54, R223). Host, peer and firmware have none of these. -/
structure Via where
  ctx : Nat
  core : Option Nat
  strand : Strand
  engine : Bool
  umpire : Option Nat
  owner : Option Owner
  deriving DecidableEq, Repr

/-- The owner that a core of a dispatch is (R223). -/
def ownerOf (s : State) (n : Nat) : Option Owner :=
  (s.dispOf n).map fun x => ⟨x.2.pkg, x.2.gen, (s.core n).lvl⟩

/-- The access of a core's strand, or of an engine for it. -/
def viaCore (s : State) (n : Nat) (k : Strand) (engine : Bool) : Via :=
  ⟨s.coreCtx n, some n, k, engine, none, ownerOf s n⟩

/-- The access of the acting strand. -/
def viaMe (s : State) : Via := viaCore s s.me s.myStrand false

/-- The access of the acting umpire. -/
def viaUmpire (s : State) : Via := ⟨(s.court s.myCourt).umpire.ctx, none, .e, false, some s.myCourt, none⟩

/-- The access of the host, a peer or the firmware to a context. -/
def viaHost (ctx : Nat) : Via := ⟨ctx, none, .e, false, none, none⟩

/-- Fails a translation at va. -/
def trFault {α : Type} (v : Via) (kind : Kind) (cause : Byte) (va reason level : Nat) : M α :=
  stop (.flt ⟨cause, BitVec.ofNat 64 va, some ⟨va, reason, level, kind.code, v.engine⟩⟩)

/-- Whether a PRIV frame admits an access, and the owner it then has (R223): an owner is claimed by a core; the
umpire is always foreign; the host may use an unowned page. -/
def privOwner (v : Via) (f : Frame) : Option (Option Owner) :=
  if v.umpire.isSome then none
  else match f.owner, v.owner with
    | none, o => some o
    | some _, none => none
    | some x, some y => if x = y then some (some x) else none

/-- Translates va, checking steps 1 to 5 of R275, and answers the physical address with the frame's base and
record. A page whose tier is not 00, or whose zeroing is not done (R360), stalls the access. -/
def xlate (v : Via) (va : Nat) (kind : Kind) : M (Nat × Nat × Option Frame) := do
  match ← gets (fun s => s.walk v.ctx va) with
  | .bad r l => trFault v kind (if r = 4 then cPoison else cTranslation) va r l
  | .overrun => fault cSeqOverrun (BitVec.ofNat 64 va)
  | .leaf _ pte shift level =>
    let p := leafPhys pte shift va
    let fr ← gets fun s => if pteTier pte = 0 then s.frameAt p else none
    check (match fr with | some (_, f) => f.ct = pteCt pte | none => true) cAliasConflict (BitVec.ofNat 64 va)
    if kind.writes && !natBit pte 4 then trFault v kind cTranslation va 2 level
    else
      await (pteTier pte = 0) (.page (BitVec.ofNat 64 va))
      match fr with
      | none => pure (p, 0, none)
      | some (b, f) =>
        await (!f.zeroing) (.page (BitVec.ofNat 64 va))
        if f.ct = 3 then
          match privOwner v f with
          | none => fault cPrivForeign (BitVec.ofNat 64 va)
          | some o =>
            if o = f.owner then pure (p, b, some f)
            else
              change fun s => s.onFrame b fun f => { f with owner := o }
              pure (p, b, some { f with owner := o })
        else pure (p, b, some f)

/-- The row of R54's table that all n bytes at ea fall in. -/
inductive Aperture where
  | global (va : Nat)
  | own (off : Nat)
  | remote (index off : Nat)
  | stack (off : Nat)
  deriving DecidableEq, Repr

/-- Steers an access (R54). -/
def aperture (ea n : Nat) : Option Aperture :=
  if ea + n ≤ 2 ^ 57 then some (.global ea)
  else if 0xF000000000000000 ≤ ea ∧ ea + n ≤ 0xF000000000100000 then some (.own (ea - 0xF000000000000000))
  else if 0xF100000000000000 ≤ ea ∧ ea + n ≤ 0xF100000010000000 then
    some (.remote ((ea - 0xF100000000000000) / 2 ^ 20) ((ea - 0xF100000000000000) % 2 ^ 20))
  else if 0xF200000000000000 ≤ ea ∧ ea + n ≤ 0xF200000000100000 then some (.stack (ea - 0xF200000000000000))
  else none

/-- A place that an access reaches once every check has passed. -/
inductive Loc where
  /-- Memory, with the base of its frame if the page is STREAM. -/
  | mem (p : Nat) (stream : Option Nat)
  | pool (core : Nat) (sp : Space) (off : Nat)
  /-- A dropped arrival: reads zero, drops writes (R56). -/
  | dropped
  | umpire (court off : Nat)
  deriving DecidableEq, Repr

/-- Sizes of a partition word (R47, R48). -/
def partScratch (part : BitVec 28) : Nat :=
  768 * 1024 - part.toNat % 32 * 1024 - natBits part.toNat 11 8 * 40960 -
    (natBits part.toNat 19 16 + natBits part.toNat 23 20 + natBits part.toNat 27 24) * 4096
def partVregs (part : BitVec 28) : Nat := part.toNat % 32 * 64
def partTiles (part : BitVec 28) : Nat := natBits part.toNat 11 8
def partStack (part : BitVec 28) (k : Strand) : Nat :=
  4096 * match k with
    | .e => natBits part.toNat 19 16
    | .l => natBits part.toNat 23 20
    | .s => natBits part.toNat 27 24

/-- The stack space of a strand. -/
def stackSpace : Strand → Space
  | .e => .stackE
  | .l => .stackL
  | .s => .stackS

/-- Partitioned size of a space of a core's pool. -/
def spaceSize (c : Core) : Space → Nat
  | .scratch => partScratch c.part
  | .stackE => partStack c.part .e
  | .stackL => partStack c.part .l
  | .stackS => partStack c.part .s
  | .canvas => Config.canvasSize
  | .vregs => 16 * partVregs c.part
  | .tiles => 40960 * partTiles c.part

/-- The bytes of a space; registers and tiles are no bytes here. -/
def spaceTab (c : Core) : Space → Tab Byte
  | .scratch => c.pool.scratch
  | .stackE => c.pool.stackE
  | .stackL => c.pool.stackL
  | .stackS => c.pool.stackS
  | .canvas => c.mx.canvas
  | .vregs => []
  | .tiles => []

/-- Replaces the bytes of a space. -/
def setSpaceTab (c : Core) (sp : Space) (t : Tab Byte) : Core :=
  match sp with
  | .scratch => { c with pool := { c.pool with scratch := t } }
  | .stackE => { c with pool := { c.pool with stackE := t } }
  | .stackL => { c with pool := { c.pool with stackL := t } }
  | .stackS => { c with pool := { c.pool with stackS := t } }
  | .canvas => { c with mx := { c.mx with canvas := t } }
  | .vregs => c
  | .tiles => c

/-- Whether any strand of a core runs (R53, R56). -/
def Core.runs (c : Core) : Bool := c.disp.isSome && (c.e.run ≠ .stopped || c.l.run ≠ .stopped || c.s.run ≠ .stopped)

/-- The core that a home-view core index of a dispatch now stands at, if it is resident and runs (R56, R337). Only
a core of the issuer's own dispatch carries its generation. -/
def State.relocate (s : State) (d home : Nat) : Option Nat :=
  match s.disp d with
  | none => none
  | some x =>
    match x.cores.find? fun y => y.home == home && !y.retired with
    | none => none
    | some y => if (s.core y.cur).disp = some d && (s.core y.cur).runs then some y.cur else none

/-- The home court of a core: its position word shows it for the dispatch's whole life (R337). -/
def homeCourt (c : Core) : Nat := natBits c.pos.toNat 9 8

/-- Records an access beyond the partitioned size of a core's pool (R55). -/
def noteOob (n : Nat) (ea : Nat) : M Unit :=
  change fun s => s.onCore n fun c =>
    if c.pool.oobf = 0 then { c with pool := { c.pool with oobf := BitVec.ofNat 64 ea } } else c

/-- Notes the first of n bytes at ea, offset off, that lies beyond the size. -/
def oobCheck (v : Via) (ea off n size : Nat) : M Unit :=
  match v.core with
  | some c => if off + n ≤ size then pure () else noteOob c (ea + (size - off))
  | none => pure ()

/-- The granules of 16 bytes that n bytes at off touch. -/
def granulesOf (off n : Nat) : List Nat := (List.range ((off + n + 15) / 16 - off / 16)).map (off / 16 + ·)

/-- Whether a granule is covered by n bytes at off. -/
def granuleCovered (off n g : Nat) : Bool := decide (off ≤ 16 * g) && decide (16 * g + 16 ≤ off + n)

/-- Poison of a pool or the canvas (R347): a read of a poisoned granule, or a write of part of one, meets POISON. -/
def poolPoison (n : Nat) (sp : Space) (off len : Nat) (kind : Kind) (info : Word) : M Unit := do
  let bad ← gets fun s => (granulesOf off len).any fun g =>
    (sp, g) ∈ (s.core n).poison.granules && !(kind = .write && granuleCovered off len g)
  check (!bad) cPoison info

/-- The STREAM rules of R218 and R219 for one access inside a page: a write begins and ends on granules. A transfer makes
one for each of its granules in address order, so that the first fault in that order is the one met (log entry 106). -/
def streamCheck (b : Nat) (f : Frame) (p va n : Nat) (kind : Kind) : M Unit :=
  let gs := granulesOf (p - b) n
  match kind with
  | .atomic => pure ()
  | .write => do
    check (decide (p % 16 = 0) && decide (n % 16 = 0)) cMisaligned (BitVec.ofNat 64 va)
    match gs.find? (· ∈ f.written) with
    | some g => fault cWriteTwice (BitVec.ofNat 64 (va + (16 * g - (p - b))))
    | none => pure ()
  | _ => await (gs.all (· ∈ f.written)) (.granule (BitVec.ofNat 64 va))

/-- Resolves an access of n bytes that stays inside one page and one aperture row, with the checks of step 3 of R76
for a global address; an atomic on a STREAM page fails last (R221, R234). A write to a core that does not run the
generation is dropped and counted once for each such access: a transfer of an engine makes one for each of its pieces of
16 bytes (R56; log entry 99). -/
def resolve (v : Via) (ea n : Nat) (kind : Kind) : Aperture → M Loc
  | .global va => do
    let (p, b, fr) ← xlate v va kind
    let stream := match fr with
      | some f => if f.ct = 2 then some f else none
      | none => none
    match stream with
    | some f => streamCheck b f p va n kind
    | none => pure ()
    let bad ← gets fun s => if kind = .write then s.partPoisoned p n else s.poisoned p n
    check (!bad) cPoison (BitVec.ofNat 64 ea)
    check (!(stream.isSome && kind = .atomic)) cStreamAtomic (BitVec.ofNat 64 ea)
    pure (.mem p (stream.map fun _ => b))
  | .own off =>
    match v.umpire, v.core with
    | some c, _ =>
      if off + n ≤ Config.umpireScratch then pure (.umpire c off) else fault cBadAperture (BitVec.ofNat 64 ea)
    | none, some c => do
      let size ← gets fun s => partScratch (s.core c).part
      oobCheck v ea off n size
      poolPoison c .scratch off n kind (BitVec.ofNat 64 ea)
      pure (.pool c .scratch off)
    | none, none => fault cBadAperture (BitVec.ofNat 64 ea)
  | .remote i off =>
    match v.core with
    | none => fault cBadAperture (BitVec.ofNat 64 ea)
    | some c => do
      let target ← gets fun s =>
        match (s.core c).disp with
        | some d => s.relocate d (homeCourt (s.core c) * Config.coresPerCourt + i)
        | none => none
      match target with
      | none => do
        change fun s => s.dropMsg v.ctx
        pure .dropped
      | some t => do
        let size ← gets fun s => partScratch (s.core t).part
        oobCheck v ea off n size
        poolPoison t .scratch off n kind (BitVec.ofNat 64 ea)
        pure (.pool t .scratch off)
  | .stack off =>
    match v.core with
    | none => fault cBadAperture (BitVec.ofNat 64 ea)
    | some c => do
      let size ← gets fun s => partStack (s.core c).part v.strand
      oobCheck v ea off n size
      poolPoison c (stackSpace v.strand) off n kind (BitVec.ofNat 64 ea)
      pure (.pool c (stackSpace v.strand) off)

/-- The bytes of a pool space from off on; a byte beyond the size reads as zero (R55). -/
def poolRead (c : Core) (sp : Space) (off n : Nat) : List Byte :=
  let size := spaceSize c sp
  let t := spaceTab c sp
  (List.range n).map fun i => if off + i < size then t.get 0 (off + i) else 0

/-- The number of a space among those whose written granules are kept. -/
def spaceNumber : Space → Nat
  | .scratch => 0
  | .stackE => 1
  | .stackL => 2
  | .stackS => 3
  | .canvas => 4
  | .vregs => 5
  | .tiles => 6

/-- Marks the 4 KiB granules of n bytes at an offset of a space as written (R168, R334). -/
def markDirty (sp : Space) (off n : Nat) (c : Core) : Core :=
  if n = 0 then c
  else
    let lo := off / 4096
    let hi := (off + n - 1) / 4096
    { c with pool := { c.pool with dirty := (List.range (hi + 1 - lo)).foldl (fun l i =>
      insertNat (4096 * spaceNumber sp + lo + i) l) c.pool.dirty } }

/-- The written 4 KiB granules of a space, rising. -/
def dirtyGranules (c : Core) (sp : Space) : List Nat :=
  (c.pool.dirty.filter fun g => g / 4096 = spaceNumber sp).map (· % 4096)

/-- Writes bytes to a pool space, dropping those beyond the size (R55), and clears the poison marks of granules
written whole (R347). -/
def poolWrite (c : Core) (sp : Space) (off : Nat) (bs : List Byte) : Core :=
  let here := bs.take (spaceSize c sp - off)
  let c1 := markDirty sp off here.length (setSpaceTab c sp (tabWrite (spaceTab c sp) off here))
  if c.poison.granules = [] then c1
  else { c1 with poison := { c1.poison with
    granules := c1.poison.granules.filter fun g => !(g.1 = sp && granuleCovered off bs.length g.2) } }

/-- Reads the bytes of a place. -/
def locRead (s : State) (l : Loc) (n : Nat) : List Byte :=
  match l with
  | .mem p _ => s.physRead p n
  | .pool c sp off => poolRead (s.core c) sp off n
  | .dropped => List.replicate n 0
  | .umpire c off => tabRead (s.court c).umpire.scratch off n

/-- The dugout entries whose armed mailbox a write of n bytes at p touches (R263, R294). -/
def mailboxHits (s : State) (p n : Nat) : List Nat :=
  (s.floor.dugout.filter fun x =>
    x.2.state = .parked &&
      match s.physOf x.2.ctx x.2.mbox with
      | some m => decide (m < p + n) && decide (p < m + 8)
      | none => false).map (·.1)

/-- The wakes that a write raises come next. -/
def mailboxTurns (s : State) (p n : Nat) : State :=
  if s.floor.dugout = [] then s
  else s.soon ((mailboxHits s p n).map fun e => .event .mailboxWake (.entry e))

/-- Writes the bytes of a place; a STREAM granule becomes written (R218). -/
def locWrite (s : State) (l : Loc) (bs : List Byte) : State :=
  match l with
  | .mem p none => mailboxTurns (s.physWrite p bs) p bs.length
  | .mem p (some b) =>
    mailboxTurns ((s.physWrite p bs).onFrame b fun f =>
      { f with written := (granulesOf (p - b) bs.length).foldl (fun w g => insertNat g w) f.written }) p bs.length
  | .pool c sp off => s.onCore c fun x => poolWrite x sp off bs
  | .dropped => s
  | .umpire c off => s.onUmpire c fun u => { u with scratch := tabWrite u.scratch off bs }

/-- Whether an agent reaches an aperture: the umpire has global memory and its own scratchpad only (R306). -/
def Via.admits (v : Via) (n : Nat) (a : Aperture) : Bool :=
  match v.umpire, a with
  | none, _ => true
  | some _, .global _ => true
  | some _, .own off => decide (off + n ≤ Config.umpireScratch)
  | some _, _ => false

/-- Steps 1 to 3 of R76 for a strand's access of n bytes at ea. -/
def accessAt (v : Via) (ea : Word) (n : Nat) (kind : Kind) : M Loc :=
  match aperture ea.toNat n with
  | none => fault cBadAperture ea
  | some a =>
    if !v.admits n a then fault cBadAperture ea
    else if ea.toNat % n ≠ 0 then fault cMisaligned ea else resolve v ea.toNat n kind a

/-- A strand's load of n bytes (R76, R77). -/
def load (v : Via) (ea : Word) (n : Nat) : M (List Byte) := do
  let l ← accessAt v ea n .read
  gets fun s => locRead s l n

/-- A strand's store (R76, R78). -/
def store (v : Via) (ea : Word) (bs : List Byte) : M Unit := do
  let l ← accessAt v ea bs.length .write
  change fun s => locWrite s l bs

/-- An indivisible read-modify-write of n bytes (R225): answers the old bytes. -/
def atomicAt (v : Via) (ea : Word) (n : Nat) (f : List Byte → List Byte) : M (List Byte) := do
  let l ← accessAt v ea n .atomic
  let old ← gets fun s => locRead s l n
  change fun s => locWrite s l (f old)
  pure old

/-! ## Transfers of engines, split at pages and granules -/

/-- Splits n bytes at ea into pieces that cross no multiple of unit: address and length of each. -/
def splitAt (unit : Nat) : Nat → Nat → Nat → List (Nat × Nat)
  | 0, _, _ => []
  | fuel + 1, ea, n =>
    if n = 0 then []
    else
      let k := min n (unit - ea % unit)
      (ea, k) :: splitAt unit fuel (ea + k) (n - k)

/-- The pieces of an engine transfer: none crosses a 16-byte granule (R212, R226). -/
def granulePieces (ea n : Nat) : List (Nat × Nat) := splitAt 16 (n / 16 + 2) ea n

/-- The whole transfer falls in one row of R54's table. -/
def rowCheck (ea : Word) (n : Nat) : M Unit :=
  check ((aperture ea.toNat n).isSome || n = 0) cBadAperture ea

/-- Reads one piece. -/
def pieceRead (v : Via) (ea n : Nat) (kind : Kind) : M (List Byte) :=
  match aperture ea n with
  | none => fault cBadAperture (BitVec.ofNat 64 ea)
  | some a => do
    let l ← resolve v ea n kind a
    gets fun s => locRead s l n

/-- Writes one piece. -/
def pieceWrite (v : Via) (ea : Nat) (bs : List Byte) : M Unit :=
  match aperture ea bs.length with
  | none => fault cBadAperture (BitVec.ofNat 64 ea)
  | some a => do
    let l ← resolve v ea bs.length .write a
    change fun s => locWrite s l bs

/-- Reads the pieces of a list in order. -/
def piecesRead (v : Via) (kind : Kind) : List (Nat × Nat) → M (List Byte)
  | [] => pure []
  | (ea, n) :: ps => do
    let x ← pieceRead v ea n kind
    let y ← piecesRead v kind ps
    pure (x ++ y)

/-- Bytes from an address to the end of its page. -/
def toPageEnd (s : State) (ctx va : Nat) : Nat :=
  match s.walk ctx va with
  | .leaf _ _ shift _ => 2 ^ shift - va % 2 ^ shift
  | _ => 4096 - va % 4096

/-- The check of one page's part of an access that crosses pages: on a STREAM page it begins and ends on granules
(R226). -/
def partCheck (v : Via) (ea n : Nat) (kind : Kind) : M Unit :=
  if ea % 16 = 0 ∧ n % 16 = 0 then pure ()
  else do
    let (_, _, fr) ← xlate v ea kind
    check (fr.all (·.ct ≠ 2)) cMisaligned (BitVec.ofNat 64 ea)

/-- Reads one page's part of an access that crosses pages. -/
def partRead (v : Via) (ea n : Nat) (kind : Kind) : M (List Byte) := do
  partCheck v ea n kind
  piecesRead v kind (granulePieces ea n)

/-- Reads n bytes of global memory part by part, in address order. -/
def partsRead (v : Via) (kind : Kind) : Nat → Nat → Nat → M (List Byte)
  | 0, _, _ => pure []
  | fuel + 1, ea, n =>
    if n = 0 then pure []
    else do
      let k ← gets fun s => min n (toPageEnd s v.ctx ea)
      let x ← partRead v ea k kind
      let y ← partsRead v kind fuel (ea + k) (n - k)
      pure (x ++ y)

/-- Reads n bytes for an engine, piece by piece in address order. -/
def engineRead (v : Via) (ea : Word) (n : Nat) (kind : Kind) : M (List Byte) := do
  rowCheck ea n
  let crosses ← gets fun s => decide (toPageEnd s v.ctx ea.toNat < n)
  if (ea.toNat % 16 ≠ 0 ∨ n % 16 ≠ 0) ∧ ea.toNat + n ≤ 2 ^ 57 ∧ crosses then partsRead v kind (n + 1) ea.toNat n
  else piecesRead v kind (granulePieces ea.toNat n)

/-- Whether every byte of n at ea lies on a poisoned line that the transfer covers whole: the unit of R347 is then
written as a whole. -/
def lineUnit (s : State) (ctx ea n : Nat) : Bool :=
  s.floor.lines ≠ [] && ea % 64 = 0 && n = 64 &&
    match s.physOf ctx ea with
    | some p => s.poisoned p 64
    | none => false

/-- The writes of n bytes at ea as pieces: 64-byte lines where the transfer covers them, else granules. -/
def writePieces (v : Via) : Nat → Nat → List Byte → List (M Unit)
  | 0, _, _ => []
  | fuel + 1, ea, bs =>
    if bs = [] then []
    else if ea % 64 = 0 ∧ 64 ≤ bs.length then
      (do
        let whole ← gets fun s => lineUnit s v.ctx ea 64
        if whole then pieceWrite v ea (bs.take 64)
        else do
          pieceWrite v ea (bs.take 16)
          pieceWrite v (ea + 16) ((bs.drop 16).take 16)
          pieceWrite v (ea + 32) ((bs.drop 32).take 16)
          pieceWrite v (ea + 48) ((bs.drop 48).take 16)) :: writePieces v fuel (ea + 64) (bs.drop 64)
    else
      let k := min bs.length (16 - ea % 16)
      pieceWrite v ea (bs.take k) :: writePieces v fuel (ea + k) (bs.drop k)

/-- Runs pieces as one, stopping with the first that stops. -/
def allOf : List (M Unit) → M Unit
  | [] => pure ()
  | m :: ms => do
    m
    allOf ms

/-- Writes bytes for an engine, as one step that stops whole. -/
def engineWrite (v : Via) (ea : Word) (bs : List Byte) : M Unit := do
  rowCheck ea bs.length
  allOf (writePieces v (bs.length + 1) ea.toNat bs)

/-! ## Byte barriers (R58 to R61, R84) -/

/-- The place of a barrier: a scratchpad address, 16-byte aligned. -/
def barrierAt (v : Via) (b : Word) (remote : Bool) : M Loc :=
  match aperture b.toNat 16 with
  | some (.own off) =>
    if b.toNat % 16 ≠ 0 then fault cMisaligned b else resolve v b.toNat 16 .read (.own off)
  | some (.remote i off) =>
    if !remote then fault cBadAperture b
    else if b.toNat % 16 ≠ 0 then fault cMisaligned b else resolve v b.toNat 16 .read (.remote i off)
  | some _ => fault cBadAperture b
  | none => fault cBadAperture b

/-- arrive(b, n) on the barrier's pending and second word; none is BARRIER_OVERFLOW (R59). -/
def arriveWords (p w n : Nat) : Option (Nat × Nat) :=
  let ph := w / 2 ^ 63
  let ra := w % 2 ^ 63
  if n < p then some (p - n, w)
  else
    let x := n - p
    if 0 < x ∧ ra ≤ x then none else some (ra - x, (1 - ph) * 2 ^ 63 + ra)

/-- Releases a wait on a barrier whose phase has flipped away from p, even if it flips back later (R61). -/
def latchRun (b : Word) (p : Bool) (r : Run) : Run :=
  match r with
  | .waiting w false t => if w = .barrier b p then .waiting w true t else r
  | _ => r

/-- Releases the waits of a core's strands on its own barrier at an offset. -/
def latchCore (off : Nat) (p : Bool) (c : Core) : Core :=
  let b := BitVec.ofNat 64 (0xF000000000000000 + off)
  { c with
    e := { c.e with run := latchRun b p c.e.run }
    l := { c.l with run := latchRun b p c.l.run }
    s := { c.s with run := latchRun b p c.s.run } }

/-- Writes a barrier's two words; a flip of its phase releases the waits on it. -/
def barrierWrite (s : State) (l : Loc) (old new p : Nat) : State :=
  let s1 := locWrite s l (leBytes 8 p ++ leBytes 8 new)
  match l with
  | .pool c .scratch off => if natBit old 63 = natBit new 63 then s1 else s1.onCore c (latchCore off (natBit old 63))
  | _ => s1

/-- An arrival of n bytes (R59). An arrival of none has no effect at all. -/
def arrive (v : Via) (b : Word) (n : Nat) : M Unit :=
  if n = 0 then pure ()
  else do
    let l ← barrierAt v b true
    let bs ← gets fun s => locRead s l 16
    if l = .dropped then pure ()
    else match arriveWords (fieldAt bs 0 8) (fieldAt bs 8 8) n with
      | none => fault cBarrierOverflow b
      | some (p, w) => change fun s => barrierWrite s l (fieldAt bs 8 8) w p

/-- expect(b, n) (R84). -/
def expect (v : Via) (b : Word) (n : Nat) : M Unit := if n = 0 then pure () else do
  let l ← barrierAt v b true
  if l = .dropped then pure ()
  else
    let bs ← gets fun s => locRead s l 16
    if 2 ^ 64 ≤ fieldAt bs 0 8 + n then fault cBarrierOverflow b
    else change fun s => locWrite s l (leBytes 8 (fieldAt bs 0 8 + n) ++ bs.drop 8)

/-- The phase of a barrier (R61). -/
def barrierPhase (v : Via) (b : Word) : M Bool := do
  let l ← barrierAt v b false
  let bs ← gets fun s => locRead s l 16
  pure (natBit (fieldAt bs 8 8) 63)

/-- Whether a barrier address is acceptable as an argument: a scratchpad address, 16-byte aligned (R58). -/
def barrierArg (b : Word) : M Unit :=
  match aperture b.toNat 16 with
  | some (.own _) => check (b.toNat % 16 = 0) cMisaligned b
  | some (.remote _ _) => check (b.toNat % 16 = 0) cMisaligned b
  | _ => fault cBadAperture b

end Sys2Proof.Machine
end

