-- ==== Sys2Proof/Machine/Handles.lean ====
section
/-!
DEFINITION. The demand engine's tables: handles, references, the arena, demands, completion and failure
(spec/06_demand_engine.md R119 to R133; spec/01_forcing_a_graph.md R8 to R10).
-/
namespace Sys2Proof.Machine

open Sys2Proof

/-! ## Handle words -/

/-- Index, home and generation of a handle (R119). -/
def handleIndex (h : Word) : Nat := h.toNat % 2 ^ 36
def handleHome (h : Word) : Nat := natBits h.toNat 43 36
def handleGen (h : Word) : BitVec 20 := BitVec.ofNat 20 (natBits h.toNat 63 44)

/-- The handle word of an entry (R119). -/
def handleWord (gen : BitVec 20) (home index : Nat) : Word :=
  BitVec.ofNat 64 (gen.toNat * 2 ^ 44 + home % 256 * 2 ^ 36 + index % 2 ^ 36)

/-- The next generation, skipping 0 (R119, R52). -/
def nextGen (g : BitVec 20) : BitVec 20 := if g = 0xFFFFF then 1 else g + 1

/-- What a handle word names: a live entry of this package, an entry of another package of the domain, or nothing
(R119). -/
inductive HRef where
  | here (index : Nat) (x : Handle)
  | away
  | stale
  deriving DecidableEq, Repr

/-- Looks a handle up (R119). -/
def State.href (s : State) (ctx : Nat) (h : Word) : HRef :=
  if handleHome h ≠ s.domain.index then
    (if s.domain.joined && handleHome h ∈ s.domain.live && handleGen h ≠ 0 then .away else .stale)
  else match s.ctxOf ctx with
    | none => .stale
    | some c => match c.handles.find (handleIndex h) with
      | none => .stale
      | some x => if x.state ≠ .empty ∧ x.gen = handleGen h then .here (handleIndex h) x else .stale

/-- A live entry of this package. -/
def State.hget (s : State) (ctx i : Nat) : Option Handle :=
  match s.ctxOf ctx with
  | none => none
  | some c => c.handles.find i

/-- Changes an entry. -/
def State.onHandle (s : State) (ctx i : Nat) (f : Handle → Handle) : State :=
  s.onCtx ctx fun c => { c with handles := c.handles.modify i f }

/-- The handle word of a live entry. -/
def State.hword (s : State) (ctx i : Nat) : Word :=
  match s.hget ctx i with
  | some x => handleWord x.gen s.domain.index i
  | none => 0

/-- The state code of R121. -/
def HState.code : HState → Nat
  | .empty => 0
  | .suspended => 1
  | .demanded => 2
  | .ready => 3
  | .running => 4
  | .value => 5
  | .failed => 6
  | .cell => 7

/-! ## Tile descriptors -/

/-- The row stride, in 16-byte units, of a row of n elements of a type (R10). -/
def rowUnits (type : BitVec 5) (cols : Nat) : Nat := ceilDiv cols (tyOf type).lanes

/-- A tile with no place yet. -/
def Tile.none : Tile := ⟨0, 0, 0, 0, 0⟩

/-- Bytes of a tile: base to base + 16·stride·rows - 1 (R123). -/
def Tile.bytes (t : Tile) : Nat := 16 * t.stride * t.rows

/-- The 16 bytes of a descriptor (R8). The bits that its readers ignore are written as zero, which is the model's choice
(log entry 103). -/
def Tile.desc (t : Tile) : List Byte :=
  leBytes 8 t.base ++ leBytes 2 t.rows ++ leBytes 2 t.cols ++ leBytes 2 t.stride ++ leBytes 2 t.type.toNat

/-- Reads a descriptor; none when it breaks R8. -/
def tileOf (bs : List Byte) : Option Tile :=
  let t : Tile := ⟨fieldAt bs 0 8, fieldAt bs 8 2, fieldAt bs 10 2, fieldAt bs 12 2,
    BitVec.ofNat 5 (fieldAt bs 14 1)⟩
  if t.base % 16 = 0 ∧ 1 ≤ t.rows ∧ 1 ≤ t.cols ∧ t.type.toNat ≤ 0x11 ∧ rowUnits t.type t.cols ≤ t.stride
  then some t else none

/-! ## The arena (R129) -/

/-- The free gaps of a range, given its live allocations in rising order. -/
def gapsFrom (lo hi : Nat) : List (Nat × Nat) → List (Nat × Nat)
  | [] => [(lo, hi)]
  | (b, n) :: t => (lo, b) :: gapsFrom (max lo (b + n)) hi t

/-- Places of n bytes, aligned to al, in a gap. -/
def gapPlaces (al n : Nat) (g : Nat × Nat) : Nat :=
  let b := roundUp g.1 al
  if b + n ≤ g.2 then (g.2 - n - b) / al + 1 else 0

/-- The k-th place over the gaps. -/
def pickPlace (al n : Nat) : Nat → List (Nat × Nat) → Option Nat
  | _, [] => none
  | k, g :: t =>
    if k < gapPlaces al n g then some (roundUp g.1 al + al * k) else pickPlace al n (k - gapPlaces al n g) t

/-- The place that a free number gives n bytes in the gaps; none where they have no room. -/
def freePlace (al n free : Nat) (gaps : List (Nat × Nat)) : Option Nat :=
  let total := sumNat (gaps.map (gapPlaces al n))
  if total = 0 then none else pickPlace al n (free % total) gaps

/-- Inserts an allocation in address order. -/
def insertAlloc (x : Nat × Nat) : List (Nat × Nat) → List (Nat × Nat)
  | [] => [x]
  | y :: t => if x.1 < y.1 then x :: y :: t else y :: insertAlloc x t

/-- Allocates n bytes of a context's arena at a place the engine chooses; none when there is no room (R129). -/
def State.arenaAlloc (s : State) (ctx n : Nat) : State × Option Nat :=
  match s.ctxOf ctx with
  | none => (s, none)
  | some c =>
    let n' := roundUp (max n 1) 128
    match freePlace 128 n' (Config.freeArenaPlace s.draws) (gapsFrom c.arenaBase (c.arenaBase + c.arena) c.allocs) with
    | none => (s, none)
    | some b =>
      ({ s with draws := s.draws + 1 }.onCtx ctx fun c => { c with allocs := insertAlloc (b, n') c.allocs }, some b)

/-- Returns an allocation to the arena. -/
def State.arenaFree (s : State) (ctx base : Nat) : State :=
  s.onCtx ctx fun c => { c with allocs := c.allocs.filter (·.1 ≠ base) }

/-- Zeroes bytes of a context's virtual space page by page. -/
def State.zeroVa (s : State) (ctx : Nat) : Nat → Nat → Nat → State
  | 0, _, _ => s
  | fuel + 1, va, n =>
    if n = 0 then s
    else
      let k := min n (0x200000 - va % 0x200000)
      let s1 := match s.physOf ctx va with
        | some p => s.physZero p k
        | none => s
      s1.zeroVa ctx fuel (va + k) (n - k)

/-- Writes bytes to a context's virtual space, page by page, where it is resident. -/
def State.putPages (s : State) (ctx : Nat) : Nat → Nat → List Byte → State
  | 0, _, _ => s
  | fuel + 1, va, bs =>
    if bs = [] then s
    else
      let k := 4096 - va % 4096
      let s1 := match s.physOf ctx va with
        | some p => s.physWrite p (bs.take k)
        | none => s
      s1.putPages ctx fuel (va + k) (bs.drop k)

/-- Writes bytes to a context's virtual space. -/
def State.putVa (s : State) (ctx va : Nat) (bs : List Byte) : State := s.putPages ctx (bs.length / 4096 + 2) va bs

/-! ## References, freeing and versions -/

/-- Cores whose E waits in FORCE on a handle: for its value, as a CELL, or as the producer of a version. -/
def State.waiters (s : State) (ctx : Nat) (h : Word) : List Nat :=
  (s.cores.filter fun x =>
    match x.2.e.run with
    | .waiting (.handle g) _ _ => g = h && s.coreCtx x.1 = ctx
    | .waiting (.version c _ p) _ _ => (c = h || p = h) && s.coreCtx x.1 = ctx
    | _ => false).map (·.1)

/-- Whether a strand waits in FORCE on a handle, on a core or in a saved image (R126). -/
def State.waited (s : State) (ctx : Nat) (h : Word) : Bool :=
  s.waiters ctx h ≠ [] || s.floor.images.any fun i =>
    (match s.disp i.disp with | some d => d.ctx = ctx | none => false) &&
      match i.core.e.run with
      | .waiting (.handle g) _ _ => g = h
      | .waiting (.version c _ p) _ _ => c = h || p = h
      | _ => false

/-- Whether an incomplete effect task reads or writes the tile at base. -/
def tileHeld (c : Context) (base : Nat) : Bool :=
  c.handles.any fun x =>
    x.2.effect && (x.2.state = .demanded || x.2.state = .ready || x.2.state = .running) &&
      x.2.foot.any fun f => f.used && f.named.isSome && f.tile.base = base

/-- Returns to the arena the versions that are no longer current once no incomplete task holds them (R133). -/
def State.sweepVersions (s : State) (ctx : Nat) : State :=
  match s.ctxOf ctx with
  | none => s
  | some c =>
    let gone (v : Version) : Bool := v.owned && !tileHeld c v.tile.base
    let bases := (c.orphans.filter gone).map (·.tile.base)
    if bases = [] then s
    else s.onCtx ctx fun c => { c with
      allocs := c.allocs.filter fun a => !(a.1 ∈ bases)
      orphans := c.orphans.filter fun v => !gone v }

/-- Frees an entry: its generation advances, and an arena-owned tile returns to the arena (R119, R126). The arena's
versions of a CELL stay until no task holds them. -/
def State.freeHandle (s : State) (ctx i : Nat) : State :=
  match s.hget ctx i with
  | none => s
  | some x =>
    let s1 := if x.owned && x.state ≠ .cell then s.arenaFree ctx x.tile.base else s
    let s2 := s1.onCtx ctx fun c => { c with
      hgens := c.hgens.put i (nextGen x.gen)
      orphans := c.orphans ++ x.versions.filter (·.owned)
      handles := c.handles.del i }
    s2.sweepVersions ctx

/-- Lowers a reference count and frees what reaches zero (R126, R139): a SUSPENDED handle releases its arguments. -/
def State.dropRef : Nat → Nat → Word → State → State
  | 0, _, _, s => s
  | fuel + 1, ctx, h, s =>
    match s.href ctx h with
    | .here i x =>
      let s1 := s.onHandle ctx i fun y => { y with refs := y.refs - 1 }
      if x.refs ≠ 1 then s1
      else match x.state with
        | .suspended => x.slots.foldl (fun t a => State.dropRef fuel ctx a t) (s1.freeHandle ctx i)
        | .value => if s1.waited ctx h then s1 else s1.freeHandle ctx i
        | .failed => if s1.waited ctx h then s1 else s1.freeHandle ctx i
        | .cell => if s1.waited ctx h then s1 else s1.freeHandle ctx i
        | _ => s1
    | _ => s

/-- Enough fuel to walk every entry of a context. -/
def State.hfuel (s : State) (ctx : Nat) : Nat :=
  match s.ctxOf ctx with
  | some c => c.handles.length + 1
  | none => 1

/-- Drops one reference. -/
def State.drop (s : State) (ctx : Nat) (h : Word) : State := State.dropRef (s.hfuel ctx) ctx h s

/-- Frees a finished handle or a CELL that nothing references or waits on (R126, R137). -/
def State.reap (s : State) (ctx : Nat) (h : Word) : State :=
  match s.href ctx h with
  | .here i x =>
    if x.refs = 0 ∧ (x.state = .value ∨ x.state = .failed ∨ x.state = .cell) ∧ !s.waited ctx h then s.freeHandle ctx i else s
  | _ => s

/-- Frees every finished handle and CELL of a context that nothing references or waits on: a FORCE that waited has
ended without its value (R126). -/
def State.reapIdle (s : State) (ctx : Nat) : State :=
  match s.ctxOf ctx with
  | none => s
  | some c => (c.handles.filter fun x => x.2.refs = 0).foldl (fun t x =>
      t.reap ctx (handleWord x.2.gen s.domain.index x.1)) s

/-! ## Dispatches made from cards -/

/-- The dispatch of a READY handle, which waits in its class queue (R124, R325). Image addresses and the rest of
the card are read when it is placed. -/
def taskDispatch (s : State) (ctx : Nat) (x : Handle) (h : Word) : Dispatch where
  origin := .task h
  phase := .queued
  vf := s.ctxVf ctx
  ctx := ctx
  order := s.floor.nextDisp
  pkg := 0
  gen := 0
  curGen := 0
  eimg := 0
  limg := 0
  simg := 0
  part := 0
  levels := []
  args := BitVec.ofNat 64 x.record
  save := 0
  budget := 0
  energy := 0
  cls := x.cls
  restartable := false
  cores := []
  side := []
  umpire := none
  hregs := []
  hbars := []
  gbars := []
  poisonSeen := x.poisonSeen
  progress := s.time.toNat
  told := none
  avoid := none
  share := none
  table := none

/-- Adds a dispatch to the distributor. -/
def State.addDispatch (s : State) (d : Dispatch) : State :=
  s.onFloor fun f => { f with dispatches := f.dispatches.put f.nextDisp d, nextDisp := f.nextDisp + 1 }

/-- Queues a READY handle for dispatch. -/
def State.queueTask (s : State) (ctx i : Nat) : State :=
  match s.hget ctx i with
  | none => s
  | some x => s.addDispatch (taskDispatch s ctx x (handleWord x.gen s.domain.index i))

/-! ## Becoming READY, VALUE and FAILED -/

/-- The tile of a handle of another package, after k draws, which is free (log entry 11). -/
def awayTile (h : Word) (k : Nat) : Tile :=
  let k := Config.freeRemoteTile h.toNat k
  ⟨k % 2 ^ 57, k / 2 ^ 57 % 2 ^ 16, k / 2 ^ 73 % 2 ^ 16, k / 2 ^ 89 % 2 ^ 16, BitVec.ofNat 5 (k / 2 ^ 105)⟩

/-- The descriptor of an argument's value tile, for the argument block (R10). -/
def State.argTile (s : State) (ctx : Nat) (h : Word) : Tile :=
  match s.href ctx h with
  | .here _ x => if x.state = .cell then (match x.versions with | v :: _ => v.tile | [] => x.tile) else x.tile
  | .away => awayTile h s.draws
  | .stale => Tile.none

/-- A footprint entry once the pure handle that it reads has a tile: the range that it names (R123, R132). -/
def FootEntry.fill (f : FootEntry) (h : Word) (t : Tile) : FootEntry :=
  if f.used && !f.write && f.named = some h then { f with addr := t.base, len := t.bytes, tile := t } else f

/-- The 16 bytes that the argument block of an effect task gives a footprint entry (R124). -/
def FootEntry.block (f : FootEntry) : List Byte :=
  if !f.used then List.replicate 16 0
  else if f.named.isSome then f.tile.desc
  else leBytes 8 f.addr ++ leBytes 8 f.len

/-- The task argument block (R10, R124). What it holds past the last argument's descriptor is zero, which is the model's
choice (log entry 103). -/
def argBlock (s : State) (ctx : Nat) (x : Handle) : List Byte :=
  let bs := if x.effect then List.replicate 16 0 ++ x.foot.flatMap (·.block)
    else x.tile.desc ++ x.slots.flatMap fun a => (s.argTile ctx a).desc
  (bs ++ List.replicate 256 0).take 256

/-- Whether no task of a context runs in the package: an allocation that then finds no room fails (R129). A task counts
where its handle is an entry of this package, shipped ones among them (log entry 95). -/
def noneRunning (c : Context) : Bool := c.handles.all fun x => x.2.state ≠ .running

/-- Tries the allocations of a DEMANDED handle whose inputs are complete, and makes it READY (R10, R126). When the
arena has no room the handle stays DEMANDED and nothing changes. -/
def State.tryReady (s : State) (ctx i : Nat) : State :=
  match s.hget ctx i with
  | none => s
  | some x =>
    if x.state ≠ .demanded ∨ x.pending ≠ 0 then s
    else
      let stride := rowUnits x.type x.cols
      let (s1, tile) :=
        if x.effect then (s, some Tile.none)
        else
          let r := s.arenaAlloc ctx (16 * stride * x.rows)
          (r.1, r.2.map fun b => ⟨b, x.rows, x.cols, stride, x.type⟩)
      match tile with
      | none => s
      | some t =>
        match s1.arenaAlloc ctx 256 with
        | (_, none) => s
        | (s2, some r) =>
          let y := { x with state := .ready, tile := t, owned := !x.effect, record := r, poisonSeen := [] }
          let s3 := s2.onHandle ctx i fun _ => y
          (s3.putVa ctx r (argBlock s3 ctx y)).queueTask ctx i

/-- Releases the card, the argument record and the argument references of an evaluation that has ended (R9, R124,
R126). The sparked flag, the chain and the depth end with it, which is the model's choice (log entry 78). -/
def State.releaseCard (s : State) (ctx i : Nat) : State :=
  match s.hget ctx i with
  | none => s
  | some x =>
    let s1 := if x.record = 0 then s else s.arenaFree ctx x.record
    let s2 := s1.onHandle ctx i fun y => { y with slots := [], record := 0, depth := 0, chain := 0, sparked := false }
    (if x.state = .suspended then s2 else x.slots.foldl (fun t a => t.drop ctx a) s2)

/-- How many of a dependant's slots or edges name a handle. -/
def edgeCount (x : Handle) (h : Word) : Nat := if x.effect then x.preds.count h else x.slots.count h

/-- The DEMANDED dependants of a handle, by index. -/
def State.dependants (s : State) (ctx : Nat) (h : Word) : List Nat :=
  match s.ctxOf ctx with
  | none => []
  | some c => (c.handles.filter fun x => x.2.state = .demanded && edgeCount x.2 h ≠ 0).map (·.1)

/-- A handle becomes VALUE: its dependants' pending counts fall, those that name it in a read take its tile, and those
that reach 0 become READY (R126, R132). -/
def State.completeHandle (s : State) (ctx i : Nat) : State :=
  match s.hget ctx i with
  | none => s
  | some x =>
    let h := handleWord x.gen s.domain.index i
    let deps := s.dependants ctx h
    let s1 := s.onHandle ctx i fun y => { y with state := .value }
    let s2 := deps.foldl (fun t j => t.onHandle ctx j fun y =>
      { y with
        pending := y.pending - edgeCount y h, preds := y.preds.filter (· ≠ h)
        foot := if x.effect then y.foot else y.foot.map fun f => f.fill h x.tile }) s1
    let s3 := deps.foldl (fun t j => t.tryReady ctx j) s2
    let s4 := (s3.releaseCard ctx i).sweepVersions ctx
    s4.reap ctx h

/-- The versions that a failed task produces carry its cause (R133). -/
def State.blameVersions (s : State) (ctx : Nat) (h : Word) (cause : Byte) : State :=
  s.onCtx ctx fun c => { c with handles := c.handles.map fun x =>
    (x.1, { x.2 with versions := x.2.versions.map fun v =>
      if v.producer = some h then { v with cause := cause } else v }) }

/-- A handle becomes FAILED with a cause: its dependants' pending counts fall, and each of them becomes FAILED (R126). A
result tile that it has goes back to the arena at once, and its tile field is cleared (log entry 95). -/
def State.failRef : Nat → Nat → Nat → Byte → State → State
  | 0, _, _, _, s => s
  | fuel + 1, ctx, i, cause, s =>
    match s.hget ctx i with
    | none => s
    | some x =>
      if x.state = .failed ∨ x.state = .value ∨ x.state = .empty ∨ x.state = .cell then s
      else
        let h := handleWord x.gen s.domain.index i
        let deps := s.dependants ctx h
        let s0 := if x.owned then s.arenaFree ctx x.tile.base else s
        let s1 := (s0.onHandle ctx i fun y => { y with
          state := .failed, cause := cause, owned := false, tile := Tile.none }).blameVersions ctx h cause
        let s2 := deps.foldl (fun t j => t.onHandle ctx j fun y => { y with pending := y.pending - edgeCount y h }) s1
        let s3 := (s2.releaseCard ctx i).sweepVersions ctx
        let s4 := deps.foldl (fun t j => State.failRef fuel ctx j cause t) s3
        s4.reap ctx h

/-- A handle becomes FAILED. -/
def State.failHandle (s : State) (ctx i : Nat) (cause : Byte) : State := State.failRef (s.hfuel ctx) ctx i cause s

/-- A READY handle becomes RUNNING; the task count rises at the first claim only (R126). -/
def State.claimHandle (s : State) (ctx i : Nat) : State :=
  match s.hget ctx i with
  | none => s
  | some x =>
    let s1 := s.onHandle ctx i fun y => { y with state := .running, claimed := true }
    if x.claimed then s1 else s1.onCtx ctx fun c => { c with tcount := c.tcount + 1 }

/-- A task whose dispatch is refused: its READY handle is claimed by the dispatch, and fails from RUNNING (R126, R131). -/
def State.refuseHandle (s : State) (ctx i : Nat) (cause : Byte) : State :=
  match s.hget ctx i with
  | some x => (if x.state = .ready then s.claimHandle ctx i else s).failHandle ctx i cause
  | none => s

/-! ## Demands (R127) -/

/-- Whether a handle word names an entry of another package. -/
def State.isAway (s : State) (ctx : Nat) (h : Word) : Bool := s.href ctx h = .away

/-- What another package answers to a demand of one of its handles: it is VALUE, it is FAILED with a cause, or it is
left to finish. The answer is free (log entry 11). -/
inductive AwayState where
  | value
  | failed (cause : Byte)
  | open
  deriving DecidableEq, Repr

/-- The state that a free value gives. -/
def awayState (k : Nat) : AwayState :=
  match k % 3 with
  | 0 => .value
  | 1 => .failed (BitVec.ofNat 8 (k / 3))
  | _ => .open

/-- The answers for the handles of other packages among some slots, one draw for each. -/
def State.askAway (ctx : Nat) : List Word → State → State × List (Word × AwayState)
  | [], s => (s, [])
  | a :: t, s =>
    if s.isAway ctx a then
      let r := State.askAway ctx t { s with draws := s.draws + 1 }
      (r.1, (a, awayState (Config.freeRemote s.draws)) :: r.2)
    else State.askAway ctx t s

/-- The answer for a handle; VALUE where there is none. -/
def awayOf (l : List (Word × AwayState)) (a : Word) : AwayState :=
  match l.find? (·.1 == a) with
  | some x => x.2
  | none => .value

/-- Whether a slot's handle is VALUE (R127). -/
def State.slotDone (s : State) (ctx : Nat) (l : List (Word × AwayState)) (a : Word) : Bool :=
  match s.href ctx a with
  | .here _ x => x.state = .value
  | .away => awayOf l a = .value
  | .stale => true

/-- The number of slots whose handle is not VALUE. -/
def State.pendingOf (s : State) (ctx : Nat) (l : List (Word × AwayState)) (slots : List Word) : Nat :=
  (slots.filter fun a => !s.slotDone ctx l a).length

/-- Lowers the class of a DEMANDED or READY handle to c, and of its demanded arguments (R127). -/
def State.lowerClass : Nat → Nat → Word → Nat → State → State
  | 0, _, _, _, s => s
  | fuel + 1, ctx, h, c, s =>
    match s.href ctx h with
    | .here i x =>
      if (x.state = .demanded ∨ x.state = .ready) ∧ c < x.cls then
        let s1 := s.onHandle ctx i fun y => { y with cls := c }
        let s2 := s1.onFloor fun f => { f with dispatches := f.dispatches.map fun d =>
          if d.2.ctx = ctx ∧ d.2.phase = .queued ∧ d.2.origin = .task h then (d.1, { d.2 with cls := c }) else d }
        x.slots.foldl (fun t a => State.lowerClass fuel ctx a c t) s2
      else s
    | _ => s

/-- Goes through the slots of a demanded handle, left to right (R127): a failed argument answers its cause; a
suspended one is demanded. -/
def demandSlots (ctx : Nat) (rec : Word → State → State) (l : List (Word × AwayState)) :
    List Word → State → State × Option Byte
  | [], s => (s, none)
  | a :: t, s =>
    match s.href ctx a with
    | .here _ x =>
      if x.state = .failed then (s, some x.cause) else demandSlots ctx rec l t (rec a s)
    | .away => match awayOf l a with
      | .failed c => (s, some c)
      | _ => demandSlots ctx rec l t s
    | .stale => demandSlots ctx rec l t s

/-- The depth of an evaluation parent: 0 for none, and free, at least 1, for a handle of another package (log entry
11). -/
def State.parentDepth (s : State) (ctx : Nat) (p : Word) : Nat :=
  if p = 0 then 0
  else match s.href ctx p with
    | .here _ y => y.depth
    | .away => Config.freeRemoteDepth ctx p.toNat % 64 + 1
    | .stale => 0

/-- demand(h, c, p) (R127). -/
def State.demandRef : Nat → Nat → Word → Nat → Word → State → State
  | 0, _, _, _, _, s => s
  | fuel + 1, ctx, h, c, p, s =>
    match s.href ctx h with
    | .here i x =>
      if x.state = .suspended then
        let cls := min x.cls c
        let (s0, l) := State.askAway ctx x.slots.eraseDups s
        let s1 := s0.onHandle ctx i fun y => { y with
          state := .demanded, chain := p, depth := s.parentDepth ctx p + 1, cls := cls, pending := s.pendingOf ctx l y.slots
          awaits := y.slots.filter fun a => s.isAway ctx a && !s.slotDone ctx l a }
        match demandSlots ctx (fun a t => State.demandRef fuel ctx a cls h t) l x.slots s1 with
        | (s2, some cause) => s2.failHandle ctx i cause
        | (s2, none) => s2.tryReady ctx i
      else s.lowerClass fuel ctx h c
    | _ => s

/-- Demands a handle for a class and an evaluation parent. -/
def State.demand (s : State) (ctx : Nat) (h : Word) (c : Nat) (p : Word) : State :=
  State.demandRef (s.hfuel ctx) ctx h c p s

/-! ## The walk of R130 -/

/-- The handle that E of a core of a task waits on in FORCE, with the time that its wait holds; the wait for the producer
of a CELL's version is none (R137). -/
def forceWait (ctx : Nat) (h : Word) (c : Core) : Option Dispatch → Option (Nat × Word)
  | some d =>
    match c.e.run with
    | .waiting (.handle g) _ t => if d.ctx = ctx && d.task = some h then some (t, g) else none
    | _ => none
  | none => none

/-- Whether a handle word names a CELL. -/
def State.isCell (s : State) (ctx : Nat) (h : Word) : Bool :=
  match s.href ctx h with
  | .here _ x => x.state = .cell
  | _ => false

/-- The handles that strands of a RUNNING task wait on in FORCE, on cores and in saved images, with the time when each
wait began. A FORCE of a CELL is no wait edge, on a core or saved: the pseudocode of R137 adds the edge after the wait for
the producer of its version (log entry 78). -/
def State.forceWaits (s : State) (ctx : Nat) (h : Word) : List (Nat × Word) :=
  ((s.cores.filterMap fun x => forceWait ctx h x.2 ((s.dispOf x.1).map (·.2))) ++
    s.floor.images.filterMap fun i => (forceWait ctx h i.core (s.disp i.disp)).map fun x =>
      (s.time.toNat - x.1, x.2)).filter fun x => !s.isCell ctx x.2

/-- The handles that strands of a RUNNING task wait on in FORCE. -/
def State.waitEdges (s : State) (ctx : Nat) (h : Word) : List Word := (s.forceWaits ctx h).map (·.2)

/-- Whether a handle waits for its dispatch. -/
def Handle.undispatched (x : Handle) : Bool := x.state = .suspended || x.state = .demanded || x.state = .ready

/-- Whether the task of a handle runs in another package, to which it was shipped (R339): what its strands wait on is
free (log entry 11). -/
def State.shippedTask (s : State) (ctx : Nat) (h : Word) : Bool := s.domain.shipped.any fun x => x.ctx = ctx && x.handle == h

/-- Whether the walk goes on in another package from a handle: along a slot that names one of its handles, along a wait
on one, or from a task that runs there. -/
def State.leavesAt (s : State) (ctx : Nat) (h : Word) : Bool :=
  match s.href ctx h with
  | .here _ x => (x.undispatched && x.slots.any (s.isAway ctx)) ||
      (x.state = .running && (s.shippedTask ctx h || (s.waitEdges ctx h).any (s.isAway ctx)))
  | _ => false

/-- Whether the walk from some handles goes on in another package, looking at n layers. -/
def State.walkAway (s : State) (ctx : Nat) (next : List Word → List Word) : Nat → List Word → Bool
  | 0, _ => false
  | n + 1, l => l ≠ [] && (l.any (s.leavesAt ctx) || s.walkAway ctx next n (next l))

/-- The steps of the walk from a handle. -/
def State.walkNext (s : State) (ctx : Nat) (h : Word) : List Word :=
  match s.href ctx h with
  | .here _ x =>
    match x.state with
    | .running => s.waitEdges ctx h
    | .suspended => x.slots.filter fun a => match s.href ctx a with | .here _ y => y.state ≠ .value | _ => false
    | .demanded => x.slots.filter fun a => match s.href ctx a with | .here _ y => y.state ≠ .value | _ => false
    | .ready => x.slots.filter fun a => match s.href ctx a with | .here _ y => y.state ≠ .value | _ => false
    | _ => []
  | _ => []

/-- The handles one step from a layer of the walk. -/
def State.walkLayer (s : State) (ctx : Nat) (l : List Word) : List Word := (l.flatMap (s.walkNext ctx)).eraseDups

/-- Whether the walk steps from a handle to own, which may be a handle of another package whose task was stolen: it is
RUNNING here, so no slot that names it is VALUE. -/
def State.stepsTo (s : State) (ctx : Nat) (own h : Word) : Bool :=
  own ∈ s.walkNext ctx h || (s.isAway ctx own && match s.href ctx h with
    | .here _ x => x.undispatched && own ∈ x.slots
    | _ => false)

/-- The handle from which the walk first steps to own, looking at n layers. -/
def State.walkSelf (s : State) (ctx : Nat) (own : Word) : Nat → List Word → Option Word
  | 0, _ => none
  | n + 1, l =>
    match l.find? (s.stepsTo ctx own) with
    | some y => some y
    | none => if l = [] then none else s.walkSelf ctx own n (s.walkLayer ctx l)

/-- The layer at walk distance n + 1. -/
def State.walkDepth (s : State) (ctx : Nat) : Nat → List Word → List Word
  | 0, l => l
  | n + 1, l => if l = [] then [] else s.walkDepth ctx n (s.walkLayer ctx l)

/-- The walk from h for a forcing task's own handle (0 outside a task) at depth d0: the cause and xinfo of the
fault it finds (R130). -/
def State.demandWalk (s : State) (ctx : Nat) (h own : Word) (d0 : Nat) : Option (Byte × Word) :=
  if own ≠ 0 ∧ h = own then some (cSelfDependence, h)
  else match (if own = 0 then none else s.walkSelf ctx own (s.hfuel ctx) [h]) with
    | some y => some (cSelfDependence, y)
    | none =>
      match s.walkDepth ctx (64 - d0) [h] with
      | y :: _ => some (cDemandDepth, y)
      | [] => none

/-! ## Unevaluated space (R129) -/

/-- Whether a handle counts in U. -/
def countsInU (x : Handle) : Bool :=
  !x.effect && (x.state = .suspended || x.state = .demanded || x.state = .ready)

/-- Result bytes of a pure handle's card. -/
def resultBytes (x : Handle) : Nat := 16 * rowUnits x.type x.cols * x.rows

/-- The VALUE tiles that slots of such handles name, each tile once. -/
def pinned (s : State) (ctx : Nat) (xs : List Handle) : List Tile :=
  (((xs.filter countsInU).flatMap (·.slots)).filterMap fun a =>
    match s.href ctx a with
    | .here _ y => if y.state = .value then some y.tile else none
    | _ => none).eraseDups

/-- Handles of other packages that such slots name, each once. -/
def pinnedAway (s : State) (ctx : Nat) (xs : List Handle) : List Word :=
  (((xs.filter countsInU).flatMap (·.slots)).filter (s.isAway ctx)).eraseDups

/-- U, with extra handles counted as if they stood in the table. What a handle of another package pins is free (log
entry 11). -/
def State.unevaluated (s : State) (ctx : Nat) (extra : List Handle) : Nat :=
  match s.ctxOf ctx with
  | none => 0
  | some c =>
    let xs := c.handles.map (·.2) ++ extra
    sumNat ((xs.filter countsInU).map resultBytes) +
      sumNat ((pinned s ctx xs).map (·.bytes)) +
      sumNat ((pinnedAway s ctx xs).map fun h => Config.freeRemoteBytes h.toNat s.draws)

/-- Live entries of a context on this package. -/
def liveHandles (c : Context) : Nat := (c.handles.filter fun x => x.2.state ≠ .empty).length

/-- Makes a handle in a free entry that the engine chooses below the quota (R119). -/
def State.newHandle (s : State) (ctx : Nat) (x : Handle) : State × Word :=
  match s.ctxOf ctx with
  | none => (s, 0)
  | some c =>
    let used := c.handles.map (·.1)
    let i := Tab.nthFree used (Config.freeHandleIndex s.draws % (max 1 (c.hquota - used.length)))
    let g : BitVec 20 := match c.hgens.find i with
      | some g => g
      | none => BitVec.ofNat 20 (Config.freeHandleGen s.draws % 0xFFFFF + 1)
    let s1 := { s with draws := s.draws + 1 }
    (s1.onCtx ctx fun c => { c with handles := c.handles.put i { x with gen := g } }, handleWord g s.domain.index i)

/-- A fresh entry with nothing set. -/
def Handle.blank : Handle where
  gen := 0
  state := .suspended
  sparked := false
  effect := false
  owned := false
  neverStolen := false
  depth := 0
  refs := 1
  cause := 0
  cls := 0
  pending := 0
  awaits := []
  tile := Tile.none
  card := 0
  chain := 0
  slots := []
  rows := 0
  cols := 0
  type := 0
  versions := []
  foot := []
  preds := []
  record := 0
  held := false
  claimed := false
  poisonSeen := []

end Sys2Proof.Machine
end

