-- ==== Sys2Proof/Machine/Ending.lean ====
section
/-!
DEFINITION. How a dispatch ends: retirement, fail and teardown, task abort, the restart of a launch, and the loss of
a context (spec/20_faults_errors.md R342, R343, R348; spec/06_demand_engine.md R131;
spec/18_umpire_supersteps_exchange.md R322).
-/
namespace Sys2Proof.Machine

open Sys2Proof

/-- The strand, place and pc that an event record names (R350). -/
structure Who where
  strand : Nat
  place : Nat
  pc : Nat
  deriving DecidableEq, Repr

/-- The pc that an event names for an umpire: the manual gives the ROM routing program no instructions (log entry 5). -/
def umpirePc (s : State) (u : Umpire) : Nat :=
  match u.mode with
  | .rom _ => Config.freeRomWord s.draws % 2 ^ 32
  | _ => u.hart.pc.toNat

/-- The strand whose turn it is. -/
def whoNow (s : State) : Who :=
  match s.cur with
  | .strand n .e => ⟨0, (s.core n).pos.toNat, (s.core n).e.pc.toNat⟩
  | .strand n .l => ⟨1, (s.core n).pos.toNat, (s.core n).l.pc.toNat⟩
  | .strand n .s => ⟨2, (s.core n).pos.toNat, (s.core n).s.pc.toNat⟩
  | .umpire c => ⟨3, 256 * c + 65536 * s.domain.index, umpirePc s (s.court c).umpire⟩
  | .floor => ⟨7, 65536 * s.domain.index, noPc⟩

/-- The engines of a core. -/
def whoEngine (s : State) (n : Nat) : Who := ⟨4, (s.core n).pos.toNat, noPc⟩

/-- A strand of a core. -/
def whoStrand (s : State) (n : Nat) (k : Strand) : Who := whoNow { s with cur := .strand n k }

/-- A floor engine. -/
def whoFloor (s : State) : Who := ⟨5, 65536 * s.domain.index, noPc⟩

/-- A stack attention engine. -/
def whoSae (s : State) : Who := ⟨6, 65536 * s.domain.index, noPc⟩

/-! ## Letting go of what a dispatch held -/

/-- Whether no check has withdrawn a core (R349). -/
def State.works (s : State) (n : Nat) : Bool := !(n ∈ s.floor.withdrawnCores) && !(courtOf n ∈ s.floor.withdrawnDies)

/-- Whether a core holds no dispatch and is not reserved (R324). -/
def State.coreFree (s : State) (n : Nat) : Bool :=
  (s.core n).disp.isNone && s.works n && !(n ∈ s.floor.taken) && s.floor.wanted.all fun w => !(n ∈ w.2)

/-- A hart that no dispatch runs any more. -/
def RvStrand.letGo (h : RvStrand) : RvStrand := { h with run := .stopped, held := none }

/-- A core that its dispatch has let go: its strands have stopped and nothing is queued, what its queues held is
discarded (R201), and its registers and storage stand until the next dispatch starts on it (R49, R51, R186). -/
def Core.letGo (c : Core) : Core :=
  { c with
    disp := none
    e := { c.e with run := .stopped, deferred := [] }
    l := c.l.letGo
    s := c.s.letGo
    q := .reset
    poison := { c.poison with entries := [] }
    mx := { c.mx with queue := [] }
    copy := []
    windows := []
    held := []
    drain := .none
    loaded := false
    tdone := false }

/-- Cores are let go: they are free in the next report of their court, and not before (R324). -/
def Floor.release (f : Floor) (ns : List Nat) : Floor :=
  { f with taken := f.taken.filter fun n => !(n ∈ ns), released := ns.foldl (fun l n => addMark n l) f.released }

/-- Frees a core (R51, R343). -/
def State.freeCore (s : State) (n : Nat) : State := (s.onCore n Core.letGo).onFloor (·.release [n])

/-- Frees the cores that a dispatch holds. -/
def State.freeCores (s : State) (d : Nat) : State :=
  (s.cores.filter fun x => x.2.disp = some d).foldl (fun t x => t.freeCore x.1) s

/-- Lets an umpire go: the ROM routing program with an empty queue (R297, R307). -/
def State.freeUmpire (s : State) (d : Nat) : State :=
  { s with courts := s.courts.map fun x =>
      if x.2.umpire.disp = some d then (x.1, { x.2 with umpire := .reset, gate := .reset }) else x }

/-- Removes bulk cards by a test, freeing their dependence entries and their edges (R251). -/
def State.dropBulk (s : State) (p : BulkCard → Bool) : State :=
  let gone := (s.floor.bulk.filter p).map (·.id)
  s.onFloor fun f => { f with bulk := (f.bulk.filter fun c => !p c).map fun c =>
    { c with preds := c.preds.filter fun q => !(q ∈ gone) } }

/-- Withdraws the cards of a dispatch with no arrival (R343). -/
def State.dropCards (s : State) (d : Nat) : State :=
  let s1 := s.dropBulk fun c => c.disp = d
  s1.onFloor fun f => { f with attn := f.attn.filter (·.disp ≠ d), images := f.images.filter (·.disp ≠ d) }

/-- The generation that a destination word names (R252). -/
def destGen (w : Word) : BitVec 20 := BitVec.ofNat 20 (natBits w.toNat 51 32)

/-- Whether a destination word names a dispatch: by its origin, or by this package with the generation that it carries. -/
def destOf (s : State) (d : Dispatch) (w : Word) : Bool :=
  (natBits w.toNat 31 16 = d.pkg && destGen w = d.gen) || (natBits w.toNat 31 16 = s.domain.index && destGen w = d.curGen)

/-- Drops what is still in flight for a dispatch's generation, counting each for its sender's context (R53, R343). -/
def State.dropFlights (s : State) (d : Dispatch) : State :=
  let ms := s.floor.messages.filter fun m => destOf s d m.dst
  let ts := s.floor.transfers.filter fun t => destOf s d t.dst
  let s1 := s.onFloor fun f => { f with
    messages := f.messages.filter fun m => !(m ∈ ms), transfers := f.transfers.filter fun t => !(t ∈ ts) }
  (ms.map (·.ctx) ++ ts.map (·.ctx)).foldl State.dropMsg s1

/-- A frame that a dispatch owns no more. -/
def Frame.disown (f : Frame) (pkg : Nat) (gen : BitVec 20) : Frame :=
  match f.owner with
  | some o => if o.gen = gen ∧ o.pkg = pkg then { f with owner := none } else f
  | none => f

/-- Ends the PRIV ownership of a dispatch, of pages in HBM and of pages that have left it (R223). -/
def State.endOwnership (s : State) (d : Dispatch) : State :=
  s.onFloor fun f => { f with
    frames := f.frames.map fun x => (x.1, x.2.disown d.pkg d.gen)
    out := f.out.map fun o => { o with frame := o.frame.disown d.pkg d.gen } }

/-- Stops every strand of a dispatch and lets go of all it held; the dispatch is gone (R343). A handle that only a FORCE
of its strands kept is freed (R126). -/
def State.dismantle (s : State) (d : Nat) (x : Dispatch) : State :=
  let s1 := (((s.freeCores d).freeUmpire d).dropCards d).dropFlights x
  ((s1.endOwnership x).onFloor fun f => { f with
    dispatches := f.dispatches.del d
    wanted := f.wanted.filter (·.1 ≠ d)
  }.release ((x.cores.filter fun c : DCore => c.back).map fun c : DCore => c.cur)).reapIdle x.ctx

/-- Completes the LAUNCH command of a dispatch with a status (R51, R361). -/
def State.finishLaunch (s : State) (x : Dispatch) (status : Byte) : State :=
  match x.origin with
  | .launch slot _ _ _ =>
    match (s.vf x.vf).commands.find? (·.slot == slot) with
    | none => s
    | some c =>
      (s.onVf x.vf fun f => { f with commands := f.commands.filter (·.slot ≠ slot) }).complete x.vf
        ⟨c.tag, status, 0⟩
  | _ => s

/-- Tears a dispatch down (R343). -/
def State.tearDown (s : State) (d : Nat) (status : Byte) : State :=
  match s.disp d with
  | none => s
  | some x => (s.dismantle d x).finishLaunch x status

/-- A handle of this package that a dispatch evaluates. -/
def taskIndex (s : State) (x : Dispatch) : Option Nat :=
  match x.origin with
  | .task h => match s.href x.ctx h with
    | .here i _ => some i
    | _ => none
  | _ => none

/-- Tells the home of a stolen task how it has left the cores here (R339). -/
def State.tellHome (s : State) (x : Dispatch) (how : TaskEnd) : State :=
  match x.origin with
  | .stolen home h _ =>
    { s with domain := { s.domain with notices := s.domain.notices ++ [⟨home, x.ctx, h, how⟩] } }
  | _ => s

/-- A task that a dispatch evaluated has failed, here or at its home (R126, R339). -/
def State.taskFails (s : State) (i : Option Nat) (x : Dispatch) (cause : Byte) : State :=
  match i with
  | some i => s.failHandle x.ctx i cause
  | none => s.tellHome x (.failed cause)

/-- Notes that a fault has ended, aborted or restarted a dispatch (R344). -/
def State.noteEnd (s : State) (d : Nat) : State := { s with ended := d :: s.ended }

/-- The part of fail before its event (R343): a live task's handle becomes FAILED with the cause first met, or the
launch is torn down. -/
def State.endDisp (s : State) (d : Nat) (cause first : Byte) : State :=
  match s.disp d with
  | none => s
  | some x =>
    let s1 := (s.tearDown d cause).noteEnd d
    if x.liveTask then s1.taskFails (taskIndex s x) x first else s1

/-- fail(cause, info) of R343, with one event of kind 2 that names the strand; first is the cause that a task's handle
records (R131). -/
def State.failFirst (s : State) (d : Nat) (who : Who) (cause first : Byte) (detail : List Byte) : State :=
  match s.disp d with
  | none => s
  | some x => (s.endDisp d cause first).ctxEvent ⟨x.ctx, 2, cause, who.strand, who.place, who.pc, x.eventId, detail⟩

/-- fail(cause, info) of R343. -/
def State.failDisp (s : State) (d : Nat) (who : Who) (cause : Byte) (detail : List Byte) : State :=
  s.failFirst d who cause cause detail

/-- fail with xinfo as the detail. -/
def State.failInfo (s : State) (d : Nat) (who : Who) (cause : Byte) (info : Word) : State :=
  s.failDisp d who cause (leBytes 8 info.toNat)

/-- Whether a task aborts for a POISON that has aborted it since it last became READY from DEMANDED (R342). -/
def poisonAgain (y : Handle) (cause : Byte) (info : Word) : Bool := cause = cPoison && info ∈ y.poisonSeen

/-- A RUNNING handle returns to READY (R131); it waits for REPLAY, or is queued at once (R281). It keeps its argument
record, which is not written anew before the next dispatch: the model's choice (log entry 110). -/
def State.returnHandle (s : State) (ctx i : Nat) (cause : Byte) (info : Word) (hold : Bool) : State :=
  let s1 := s.onHandle ctx i fun y => { y with
    state := .ready, held := hold, poisonSeen := if cause = cPoison then info :: y.poisonSeen else y.poisonSeen }
  if hold then s1 else s1.queueTask ctx i

/-- A task leaves RUNNING for READY (R131). It is queued again unless it is held for REPLAY (R281). A second POISON
with the same xinfo fails it instead (R342). A stolen one returns to READY at its home (R128, R339). Log entry 32. -/
def State.abortTask (s : State) (d : Nat) (who : Who) (cause : Byte) (info : Word) (hold : Bool) : State :=
  match s.disp d with
  | none => s
  | some x =>
    match taskIndex s x with
    | none => ((s.tearDown d cause).noteEnd d).tellHome x (.aborted cause info hold)
    | some i =>
      let again := match s.hget x.ctx i with
        | some y => poisonAgain y cause info
        | none => false
      if again then s.failInfo d who cause info
      else ((s.dismantle d x).noteEnd d).returnHandle x.ctx i cause info hold

/-- A restartable launch is dispatched again from its start with a new generation (R322). Log entry 32. -/
def State.restartLaunch (s : State) (d : Nat) : State :=
  match s.disp d with
  | none => s
  | some x =>
    let s1 := (s.dismantle d x).noteEnd d
    s1.addDispatch { x with
      phase := .queued, order := s1.floor.nextDisp, gen := 0, curGen := 0, cores := [], side := [], umpire := none
      hregs := [], hbars := [], gbars := [], poisonSeen := [], progress := s1.time.toNat, told := none, avoid := none
      share := none, table := none }

/-- Faults raised in a dispatch at once with the one that decided its outcome are counted in its context (R344).
Log entry 71. -/
def State.countFaults (s : State) (ctx n : Nat) : State := s.onCtx ctx fun c => { c with faultCount := c.faultCount + n }

/-- EXCHANGE_TIMEOUT, EXCHANGE_COUNT and other task-abort causes that end a dispatch whole (R322, R342): whether they
do, or are taken precisely. -/
def exchangeCause (c : Byte) : Bool := c = cExchangeTimeout || c = cExchangeCount

/-- Forgets what a context has shipped to thieves. -/
def State.dropShipped (s : State) (ctx : Nat) : State :=
  { s with domain := { s.domain with shipped := s.domain.shipped.filter (·.ctx ≠ ctx) } }

/-- CONTEXT_LOST (R348): every dispatch of the context is torn down; its handles, dugout entries and dependence
entries are dropped. Pages that are moving finish their moves, and its memory stays mapped. -/
def State.loseContext (s : State) (ctx : Nat) (code : Nat) : State :=
  match s.ctxOf ctx with
  | none => s
  | some _ =>
    let ds := (s.floor.dispatches.filter fun x => x.2.ctx = ctx).map (·.1)
    let s1 := ds.foldl (fun t d => t.tearDown d cContextLost) s
    let s2 := (s1.onCtx ctx fun c => { c with lost := true, handles := [], sparks := [] }).dropShipped ctx
    let s3 := s2.onFloor fun f => { f with
      dugout := f.dugout.filter fun e => e.2.ctx ≠ ctx }
    s3.ctxEvent ⟨ctx, 1, cContextLost, 7, 65536 * s.domain.index, noPc, 0, List.replicate 8 0 ++ leBytes 8 code⟩

end Sys2Proof.Machine
end

