-- ==== Sys2Proof/Machine/Ops.lean ====
section
/-!
DEFINITION. The named operations of the strands: registers, queues, waiting and completing, and the one operation by
which each strand takes an exception, with the return from it (spec/02_instruction_word.md R16, R24, R25;
spec/04_scalar_control_plain_memory.md R90, R91; spec/11_access_strands_queues.md R191, R200, R201;
spec/15_translation_paging.md R281; spec/18_umpire_supersteps_exchange.md R306, R308;
spec/20_faults_errors.md R342).
-/
namespace Sys2Proof.Machine

open Sys2Proof

/-! ## Registers of E -/

/-- Changes E of the acting core. -/
def State.onE (s : State) (f : EStrand → EStrand) : State := s.onMy fun c => { c with e := f c.e }

/-- A general register; g0 reads zero (R16). -/
def EStrand.rd (e : EStrand) (n : Nat) : Word := if n = 0 then 0 else e.g.get 0 n

/-- Writes a general register; g0 discards (R16). -/
def EStrand.wr (e : EStrand) (n : Nat) (x : Word) : EStrand := if n = 0 then e else { e with g := e.g.set 0 n x }

/-- A vector register. -/
def EStrand.rdV (e : EStrand) (n : Nat) : V128 := e.v.get 0 n

/-- Writes a vector register. -/
def EStrand.wrV (e : EStrand) (n : Nat) (x : V128) : EStrand := { e with v := e.v.set 0 n x }

/-- Reads a general register; a poisoned one meets POISON with its number (R348). -/
def readG (n : Nat) : M Word := do
  let bad ← gets fun s => decide (n ∈ s.my.poison.eRegs)
  check (!bad) cPoison (BitVec.ofNat 64 n)
  gets fun s => s.my.e.rd n

/-- Writes a general register, whole. -/
def writeG (n : Nat) (x : Word) : M Unit :=
  change fun s => s.onMy fun c =>
    let c1 := { c with e := c.e.wr n x }
    if c.poison.eRegs = [] then c1
    else { c1 with poison := { c1.poison with eRegs := c1.poison.eRegs.filter (· ≠ n) } }

/-- Reads a vector register; a poisoned one meets POISON (R347; xinfo as log entry 12). -/
def readV (n : Nat) : M V128 := do
  let bad ← gets fun s => decide ((Space.vregs, n) ∈ s.my.poison.granules)
  check (!bad) cPoison (BitVec.ofNat 64 n)
  gets fun s => s.my.e.rdV n

/-- Writes a vector register, whole. -/
def writeV (n : Nat) (x : V128) : M Unit :=
  change fun s => s.onMy fun c =>
    let c1 := { c with e := c.e.wrV n x }
    if c.poison.granules = [] then c1
    else { c1 with poison := { c1.poison with granules := c1.poison.granules.filter (· ≠ (Space.vregs, n)) } }

/-! ## Registers of L, S and the umpire -/

/-- The hart that acts. -/
def State.hart (s : State) : RvStrand :=
  match s.cur with
  | .strand n .l => (s.core n).l
  | .strand n .s => (s.core n).s
  | .umpire c => (s.court c).umpire.hart
  | _ => .reset

/-- Changes the hart that acts. -/
def State.onHart (s : State) (f : RvStrand → RvStrand) : State :=
  match s.cur with
  | .strand n .l => s.onCore n fun c => { c with l := f c.l }
  | .strand n .s => s.onCore n fun c => { c with s := f c.s }
  | .umpire c => s.onUmpire c fun u => { u with hart := f u.hart }
  | _ => s

/-- An integer register; x0 reads zero. -/
def RvStrand.rd (h : RvStrand) (n : BitVec 5) : Word := if n = 0 then 0 else h.x.get 0 n.toNat

/-- Writes an integer register; x0 discards. -/
def RvStrand.wr (h : RvStrand) (n : BitVec 5) (v : Word) : RvStrand :=
  if n = 0 then h else { h with x := h.x.set 0 n.toNat v }

/-- Reads an integer register; a poisoned one meets POISON with its number (R348). -/
def readX (n : BitVec 5) : M Word := do
  let bad ← gets fun s =>
    match s.cur with
    | .strand c k => (k, n.toNat) ∈ (s.core c).poison.rvRegs
    | .umpire c => n.toNat ∈ (s.court c).umpire.badRegs
    | .floor => false
  check (!bad) cPoison (BitVec.ofNat 64 n.toNat)
  gets fun s => s.hart.rd n

/-- Writes an integer register, whole. -/
def writeX (n : BitVec 5) (v : Word) : M Unit :=
  change fun s =>
    let s1 := s.onHart fun h => h.wr n v
    match s.cur with
    | .strand c k =>
      if (s.core c).poison.rvRegs = [] then s1
      else s1.onCore c fun x => { x with poison := { x.poison with
        rvRegs := x.poison.rvRegs.filter (· ≠ (k, n.toNat)) } }
    | .umpire c =>
      if (s.court c).umpire.badRegs = [] then s1
      else s1.onUmpire c fun u => { u with badRegs := u.badRegs.filter (· ≠ n.toNat) }
    | .floor => s1

/-! ## Co-resident units and neighbours (R46, R330, R337) -/

/-- The outermost co-resident level of a launch (R328). -/
def coLevel (d : Dispatch) : Option Nat :=
  ((List.range d.levels.length).reverse).find? fun i =>
    match d.levels[i]? with
    | some l => l.coRes
    | none => false

/-- The level-i unit that a core belongs to: its level positions from byte i up (R45). -/
def unitOf (lvl : Word) (i : Nat) : Nat := lvl.toNat / 2 ^ (8 * i)

/-- The home-view neighbour of a home core on an endpoint (R24). -/
def neighbourHome (home id : Nat) : Option Nat :=
  match id with
  | 6 => if rowOf home = 15 then none else some (home + 16)
  | 7 => if colOf home = 15 then none else some (home + 1)
  | 8 => if rowOf home = 0 then none else some (home - 16)
  | 9 => if colOf home = 0 then none else some (home - 1)
  | _ => none

/-- The number of a dispatch's core within it. -/
def rankOf (d : Dispatch) (n : Nat) : Nat := (d.cores.findIdx? (·.cur == n)).getD 0

/-- The number under which a saved or retired core of a dispatch stands: no core of the part. -/
def awayNumber (rank : Nat) : Nat := Config.cores + rank

/-- A dispatch whose core at n has retired (R51): it stands at no core of the part any more. -/
def Dispatch.retireAt (d : Dispatch) (n : Nat) : Dispatch :=
  { d with cores := d.cores.mapIdx fun i y => if y.cur = n then { y with retired := true, cur := awayNumber i } else y }

/-- The home-view index of a core of a dispatch. -/
def homeOf (d : Dispatch) (n : Nat) : Option Nat := (d.cores.find? (·.cur == n)).map (·.home)

/-- The core at the far end of a neighbour endpoint, in the same co-resident unit of the same dispatch (R24, R330). -/
def State.partner (s : State) (n id : Nat) : Option Nat :=
  match s.dispOf n with
  | none => none
  | some (k, d) =>
    match coLevel d, homeOf d n with
    | some i, some home =>
      match neighbourHome home id with
      | none => none
      | some h =>
        match d.cores.find? fun y => y.home == h && !y.retired with
        | none => none
        | some y =>
          if (s.core y.cur).disp = some k ∧ unitOf y.lvl i = unitOf (s.core n).lvl i then some y.cur else none
    | _, _ => none

/-- The endpoint at which a push on an endpoint arrives. -/
def facing (id : Nat) : Nat :=
  match id with
  | 6 => 8
  | 7 => 9
  | 8 => 6
  | _ => 7

/-! ## Queues (R24, R200) -/

/-- Entries of a queue of 64 bits or 128 bits that pop in order; the leading filled entries of a load queue. -/
def filled : List LqEntry → List V128
  | .data v :: t => v :: filled t
  | _ => []

/-- Widens a 64-bit entry (R25). -/
def wide (x : Word) : V128 := x.setWidth 128

/-- The entries that can be popped at an endpoint, oldest first. 16 is the inbox. -/
def Core.entries (c : Core) (id : Nat) : List V128 :=
  match id with
  | 0 => filled c.q.lq0
  | 1 => filled c.q.lq1
  | 2 => c.q.sq
  | 3 => c.q.bol.map wide
  | 4 => c.q.bos.map wide
  | 5 => c.q.boi.map wide
  | 6 => c.q.inN
  | 7 => c.q.inE
  | 8 => c.q.inS
  | 9 => c.q.inW
  | 16 => c.q.inbox
  | _ => []

/-- Entries held, reserved ones included. -/
def Core.holds (c : Core) (id : Nat) : Nat :=
  match id with
  | 0 => c.q.lq0.length
  | 1 => c.q.lq1.length
  | _ => (c.entries id).length

/-- Depth of a queue of a core (R200, R252). -/
def queueDepth (id : Nat) : Nat := if id ≤ 2 then 16 else 8

/-- Removes the oldest entry of a queue. -/
def Core.popOne (c : Core) (id : Nat) : Core :=
  let q := c.q
  let q' := match id with
    | 0 => { q with lq0 := q.lq0.drop 1 }
    | 1 => { q with lq1 := q.lq1.drop 1 }
    | 2 => { q with sq := q.sq.drop 1 }
    | 3 => { q with bol := q.bol.drop 1 }
    | 4 => { q with bos := q.bos.drop 1 }
    | 5 => { q with boi := q.boi.drop 1 }
    | 6 => { q with inN := q.inN.drop 1 }
    | 7 => { q with inE := q.inE.drop 1 }
    | 8 => { q with inS := q.inS.drop 1 }
    | 9 => { q with inW := q.inW.drop 1 }
    | 16 => { q with inbox := q.inbox.drop 1 }
    | _ => q
  let c1 := { c with q := q' }
  if c.poison.entries = [] then c1
  else { c1 with poison := { c1.poison with entries := (c1.poison.entries.filter (· ≠ (id, 0))).map fun e =>
    if e.1 = id then (e.1, e.2 - 1) else e } }

/-- Adds an entry to a queue. -/
def Core.pushOne (c : Core) (id : Nat) (v : V128) : Core :=
  let q := c.q
  { c with q := match id with
    | 0 => { q with lq0 := q.lq0 ++ [.data v] }
    | 1 => { q with lq1 := q.lq1 ++ [.data v] }
    | 2 => { q with sq := q.sq ++ [v] }
    | 3 => { q with bol := q.bol ++ [v.setWidth 64] }
    | 4 => { q with bos := q.bos ++ [v.setWidth 64] }
    | 5 => { q with boi := q.boi ++ [v.setWidth 64] }
    | 6 => { q with inN := q.inN ++ [v] }
    | 7 => { q with inE := q.inE ++ [v] }
    | 8 => { q with inS := q.inS ++ [v] }
    | 9 => { q with inW := q.inW ++ [v] }
    | 16 => { q with inbox := q.inbox ++ [v] }
    | _ => q }

/-- Pops an entry of the acting core's queue, which must hold one; a poisoned entry meets POISON (R348). -/
def popEntry (id : Nat) : M V128 := do
  let c ← gets fun s => s.my
  match c.entries id with
  | [] => block .queues
  | v :: _ => do
    check (!((id, 0) ∈ c.poison.entries)) cPoison (BitVec.ofNat 64 id)
    change fun s => s.onMy fun c => c.popOne id
    pure v

/-- Whether a queue of the acting core, or the partner's on a neighbour endpoint, has room for a push. -/
def State.room (s : State) (id : Nat) : Bool :=
  if 6 ≤ id ∧ id ≤ 9 then
    match s.partner s.me id with
    | some p => decide ((s.core p).holds (facing id) < 8)
    | none => false
  else decide (s.my.holds id < queueDepth id)

/-- Pushes an entry on a queue that is not gq. -/
def pushEntry (id : Nat) (v : V128) : M Unit :=
  change fun s =>
    if 6 ≤ id ∧ id ≤ 9 then
      match s.partner s.me id with
      | some p => s.onCore p fun c => c.pushOne (facing id) v
      | none => s
    else s.onMy fun c => c.pushOne id v

/-! ## The gate queue (R298, R308) -/

/-- Units that a court's gate queue holds. -/
def Gate.used (g : Gate) : Nat := sumNat (g.records.map (·.units.length)) + sumNat (g.parts.map (·.units.length))

/-- The court whose gate queue a core uses: its home court (R337; log entry 33). -/
def State.gateCourt (s : State) (n : Nat) : Nat := homeCourt (s.core n)

/-- Whether a unit of the record of a token can enter (R308). -/
def Gate.admits (g : Gate) (token : Nat) : Bool :=
  let free := Config.gateUnits - g.used
  if token = g.expected then decide (0 < free) else decide (Config.gateReserve < free)

/-- Fields of a header unit: token, n, k (R298). -/
def headerToken (v : V128) : Nat := natBits v.toNat 31 0
def headerN (v : V128) : Nat := natBits v.toNat 47 32
def headerK (v : V128) : Nat := natBits v.toNat 71 64

/-- Units of a record, its header included (R308). -/
def recordUnits (n k : Nat) : Nat := 1 + ceilDiv n 4 + ceilDiv k 4

/-- Whether a core's launch holds the umpire of its court (R307). -/
def State.holdsUmpire (s : State) (n : Nat) : Bool :=
  match (s.core n).disp, (s.court (s.gateCourt n)).umpire.disp with
  | some d, some u => d = u
  | _, _ => false

/-- The record that a core has in progress, by its level positions: it goes on wherever the core resumes (R336, R337). -/
def State.gatePart (s : State) (n : Nat) : Option GatePart :=
  if s.holdsUmpire n then (s.court (s.gateCourt n)).gate.parts.find? (·.lvl == (s.core n).lvl) else none

/-- Whether the umpire of a court has halted, so that its launch's pushes are accepted and discarded (R297). -/
def Court.gateHalted (c : Court) : Bool := c.umpire.mode = .halted

/-- Enters the next unit of a core's record p: it completes the record when none is still to come, and discards one that
comes late or twice, or after the umpire has halted; after the halt the queue holds no more units (R297, R308). -/
def State.gateEnter (s : State) (n : Nat) (p : GatePart) (v : V128) : State :=
  let c := s.gateCourt n
  let g := (s.court c).gate
  let rest := g.parts.filter (·.lvl ≠ p.lvl)
  let halted := (s.court c).gateHalted
  let units := if halted then p.units else p.units ++ [v]
  if 1 < p.need then
    s.onCourt c fun x => { x with gate := { g with parts := rest ++ [⟨p.lvl, p.token, p.need - 1, units⟩] } }
  else if halted ∨ p.token < g.expected ∨ g.records.any (·.token == p.token) then
    (s.onCourt c fun x => { x with gate := { g with parts := rest } }).dropMsg (s.coreCtx n)
  else s.onCourt c fun x => { x with gate := { g with parts := rest, records := g.records ++ [⟨p.token, units⟩] } }

/-- Pushes a unit on gq; info is the xinfo of a header that fails (R308). -/
def pushGate (v : V128) (info : Word) : M Unit := do
  let n ← gets State.me
  let c ← gets fun s => s.court (s.gateCourt n)
  match ← gets fun s => s.gatePart n with
  | some p => do
    await (c.gate.admits p.token || c.gateHalted) .gateRoom
    change fun s => s.gateEnter n p v
  | none => do
    check (decide (1 ≤ headerN v) && decide (headerN v ≤ 256) && decide (1 ≤ headerK v) && decide (headerK v ≤ 8))
      cIllegalOperand info
    await (c.gate.admits (headerToken v) || c.gateHalted) .gateRoom
    change fun s => s.gateEnter n ⟨(s.core n).lvl, headerToken v, recordUnits (headerN v) (headerK v), []⟩ v

/-! ## Completing and waiting -/

/-- The side-table entry of a dispatch at an index (R36). -/
def pointAt (d : Dispatch) (i : Nat) : Option SideEntry := d.side.find? (·.index == i)

/-- Whether the side table of a core's dispatch lists an index. -/
def State.listed (s : State) (n i : Nat) : Bool :=
  match s.dispOf n with
  | some (_, d) => (pointAt d i).isSome
  | none => false

/-- While a core drains, E stops before an index of the side table that it is about to execute, and with a full entry
once it has halted (R329). -/
def State.pointStop (s : State) (n : Nat) : State :=
  match (s.core n).drain, s.dispOf n with
  | .draining _ _, some (_, d) =>
    if (s.core n).e.run = .stopped then s.onCore n fun c => { c with drain := .stopped none }
    else match pointAt d (s.core n).e.pc.toNat with
    | some p => s.onCore n fun c => { c with drain := .stopped (some p) }
    | none => s
  | _, _ => s

/-- Whether E has stopped for a save (R329). -/
def Drain.isStopped (d : Drain) : Bool :=
  match d with
  | .stopped _ => true
  | _ => false

/-- One more instruction of E executed since the request; the window closes after 16,384 (R329). -/
def Drain.tick : Drain → Drain
  | .draining k t => if 16384 ≤ k + 1 then .stopped Option.none else .draining (k + 1) t
  | d => d

/-- E completes an instruction: it goes on at an index, or stops (R165, R331). -/
def EStrand.done (e : EStrand) (listed : Bool) (pc : BitVec 13) (run : Run) : EStrand :=
  { e with pc := pc, run := run, icount := e.icount + 1, sincePoint := if listed then 0 else e.sincePoint + 1 }

/-- L stops once E has halted and bol is empty; S once sq and bos are empty and it waits in a pop of one of them
(R51). L in any wait stops at once, before the instruction that waits, which is the model's choice (log entry 105). -/
def Core.settle (c : Core) : Core :=
  if c.disp.isSome && !c.loaded && c.e.run = .stopped then
    let c1 := if c.l.run ≠ .stopped && c.q.bol = [] then { c with l := { c.l with run := .stopped } } else c
    let c2 := if c1.l.run = .stopped then { c1 with q := { c1.q with lq0 := [], lq1 := [], boi := [] } } else c1
    match c2.s.run with
    | .waiting .queues _ _ => if c2.q.sq = [] && c2.q.bos = [] then { c2 with s := { c2.s with run := .stopped } } else c2
    | _ => c2
  else c

/-- E of the acting core completes an instruction. -/
def completeE (pc : BitVec 13) (run : Run) : M Unit :=
  change fun s =>
    let n := s.me
    let listed := s.listed n (s.core n).e.pc.toNat
    (s.onCore n fun c => ({ c with e := c.e.done listed pc run, drain := c.drain.tick, progress := s.time.toNat }).settle).pointStop n

/-- The umpire of a court has made progress for the launch that it serves (R345). -/
def State.umpireProgress (s : State) (c : Nat) : State :=
  match (s.court c).umpire.disp with
  | some d => s.dispProgress d 1
  | none => s

/-- The acting hart completes an instruction. -/
def completeRv (pc : Word) (run : Run) : M Unit :=
  change fun s =>
    let s1 := s.onHart fun h => { h with pc := pc, run := run }
    match s.cur with
    | .strand n _ => s1.onCore n fun c => ({ c with progress := s.time.toNat }).settle
    | .umpire c => s1.umpireProgress c
    | _ => s1

/-- When a wait began: a strand that still waits for the same thing keeps its time. -/
def waitStart (r : Run) (w : Wait) (now : Nat) : Nat :=
  match r with
  | .waiting w' _ t => if w' = w then t else now
  | _ => now

/-- The dugout entry whose window holds an address of a context (R271). -/
def State.parkedAt (s : State) (ctx va : Nat) : Option Nat :=
  (s.floor.dugout.find? fun x => x.2.ctx = ctx && x.2.win / 2 ^ 39 == va / 2 ^ 39).map (·.1)

/-- The id of a dugout entry (R263). -/
def dugWord (gen : BitVec 20) (i : Nat) : Word := BitVec.ofNat 64 (gen.toNat * 2 ^ 44 + i % 2 ^ 44)

/-- An access stalled on a page of a dugout entry is reported once after each PARK (R275). -/
def State.reportStall (s : State) (ctx va : Nat) (w : Who) : State :=
  match s.walk ctx va with
  | .leaf _ pte _ _ =>
    if pteTier pte = 0 then s
    else match s.parkedAt ctx va with
      | none => s
      | some i => match s.floor.dugout.find i with
        | none => s
        | some e =>
          if e.stallReported then s
          else
            (s.onFloor fun f => { f with dugout := f.dugout.modify i fun e => { e with stallReported := true } }).ctxEvent
              ⟨ctx, 7, 0, w.strand, w.place, w.pc, dugWord e.gen i, [4]⟩
  | _ => s

/-- The acting strand waits (R62). While its core drains, E stops before the waiting instruction (R329). -/
def State.enterWait (s : State) (w : Wait) : State :=
  let s1 := match w with
    | .page va =>
      s.reportStall (match s.cur with | .umpire c => (s.court c).umpire.ctx | _ => s.coreCtx s.me) va.toNat (whoNow s)
    | _ => s
  match s.cur with
  | .strand n .e => s1.onCore n fun c =>
      let c1 := { c with e := { c.e with run := .waiting w false (waitStart c.e.run w s.time.toNat) } }
      match c.drain with
      | .draining _ _ => { c1 with drain := .stopped none }
      | _ => c1
  | .strand n _ =>
    (s1.onHart fun h => { h with run := .waiting w false (waitStart h.run w s.time.toNat) }).onCore n Core.settle
  | .umpire _ => s1.onHart fun h => { h with run := .waiting w false (waitStart h.run w s.time.toNat) }
  | .floor => s1

/-- Whether the acting strand's wait has been released by the event it waited for (R61). -/
def released (w : Wait) : M Bool :=
  gets fun s =>
    let r := match s.cur with
      | .strand n .e => (s.core n).e.run
      | _ => s.hart.run
    match r with
    | .waiting w' b _ => b && w' = w
    | _ => false

/-! ## Taking an exception (R90), and its return (R91) -/

/-- The disposition of a translation fault by its owner (R281): 0 abort, 1 stall, 2 precise. -/
def disposition (d : Option Dispatch) : Nat :=
  match d with
  | none => 2
  | some d => if d.liveTask then 0 else if d.restartable then 1 else 2

/-- The handle that a fault record names (R279). -/
def faultTask (d : Option Dispatch) : Word :=
  match d with
  | some d => d.task.getD 0
  | none => 0

/-- Posts the record of a failed translation with a disposition (R278 to R280). -/
def State.recordAs (s : State) (ctx : Nat) (d : Option Dispatch) (f : Flt) (k : Nat) : State :=
  match f.tr with
  | none => s
  | some t => s.produceFault ctx (faultTask d) t k false

/-- Posts the record of a failed translation: a POISON stalls no access but one of an SAE (R281, R288). -/
def State.recordFault (s : State) (ctx : Nat) (d : Option Dispatch) (f : Flt) : State :=
  let k := disposition d
  s.recordAs ctx d f (if f.cause = cPoison && k = 1 then 2 else k)

/-- Marks of the control registers that exception entry writes, xcause, xinfo and xpc, and of those that it reads, xvec
and xcause (R90, R348). -/
def entryWrites : List Nat := [0x1011, 0x1012, 0x1013]
def entryReads : List Nat := [0x1010, 0x1011]

/-- Whether E of a core has no handler that it can enter: none is set, one is active, or an uncorrectable error hides
which (R90, log entry 80). -/
def noHandler (c : Core) : Bool :=
  c.e.xvec = 0 || decide (c.stores.ilim ≤ c.e.xvec.toNat) || c.e.xcause.getLsbD 8 ||
    entryReads.any (· ∈ c.poison.eRegs)

/-- take(cause, info) of R90 in E of core n: the handler is entered with xcause, xinfo and xpc written, which clears
their poison marks, or, with no handler or inside one, the dispatch ends by fail; a task's handle then records the
first fault's code (R131, log entry 79). -/
def State.takeE (s : State) (n : Nat) (cause : Byte) (info : Word) : State :=
  let c := s.core n
  if noHandler c then
    match c.disp with
    | some d =>
      let first := if c.e.xcause.getLsbD 8 then c.e.xcause.setWidth 8 else cause
      s.failFirst d (whoStrand s n .e) cause first (leBytes 8 info.toNat)
    | none => s
  else
    (s.onCore n fun c => { c with
      e := { c.e with
        run := .running
        xcause := 0x100 ||| cause.setWidth 9
        xinfo := info
        xpc := c.e.pc
        pc := c.e.xvec.setWidth 13 }
      poison := { c.poison with eRegs := c.poison.eRegs.filter fun r => !(r ∈ entryWrites) } }).pointStop n

/-- The next index of E after ERET, whose checks stand in its meaning (R91). -/
def returnE : M (BitVec 13) := do
  let pc ← gets fun s => s.my.e.xpc
  change fun s => s.onE fun e => { e with xcause := e.xcause &&& 0xFF }
  pure pc

/-- The causes that R342 reports as context faults besides their delivery. -/
def contextCause (c : Byte) : Bool := c = cSelfDependence || c = cDemandDepth || c = cArenaFull

/-- A fault of E of core n is disposed of by its class (R342). A task that the POISON of a table entry aborts (reason 4)
is queued again at once, which is the model's choice (log entry 107). -/
def State.raiseE (s : State) (n : Nat) (f : Flt) : State :=
  match s.dispOf n with
  | none => s
  | some (k, d) =>
    let s1 := s.recordFault d.ctx (some d) f
    let who := whoStrand s n .e
    if f.cause = cTranslation ∧ d.liveTask then s1.abortTask k who f.cause f.info true
    else if f.cause = cTranslation ∧ d.restartable then
      ({ s1 with cur := .strand n .e }).enterWait (.replay f.info)
    else if (f.cause = cPoison ∨ f.cause = cGangAbort ∨ exchangeCause f.cause) ∧ d.liveTask then
      s1.abortTask k who f.cause f.info false
    else if exchangeCause f.cause ∧ d.restartable ∧ d.task = none then s1.restartLaunch k
    else
      let s2 := if contextCause f.cause then
          s1.ctxEvent ⟨d.ctx, 1, f.cause, who.strand, who.place, who.pc, d.eventId, leBytes 8 f.info.toNat⟩
        else s1
      s2.takeE n f.cause f.info

/-- A fault of L or S of core n is turned into a device cause and disposed of by its class (R191). -/
def State.raiseLS (s : State) (n : Nat) (k : Strand) (f : Flt) : State :=
  match s.dispOf n with
  | none => s
  | some (i, d) =>
    let s1 := s.recordFault d.ctx (some d) f
    let who := whoStrand s n k
    if f.cause = cTranslation ∧ d.liveTask then s1.abortTask i who f.cause f.info true
    else if f.cause = cTranslation ∧ d.restartable then ({ s1 with cur := .strand n k }).enterWait (.replay f.info)
    else if f.cause = cPoison ∧ d.liveTask then s1.abortTask i who f.cause f.info false
    else s1.failInfo i who f.cause f.info

/-- An exception of the umpire of a court (R306): a stall until REPLAY, or the launch it serves is torn down. -/
def State.raiseUmpire (s : State) (c : Nat) (f : Flt) : State :=
  match (s.court c).umpire.disp with
  | none => s
  | some i =>
    let d := s.disp i
    let s1 := s.recordFault (s.court c).umpire.ctx d f
    let stalls := (match d with | some x => x.restartable | none => false : Bool)
    if f.cause = cTranslation ∧ stalls then ({ s1 with cur := .umpire c }).enterWait (.replay f.info)
    else s1.failInfo i (whoNow { s with cur := .umpire c }) f.cause f.info

/-- The acting strand raises a fault. -/
def State.raise (s : State) (f : Flt) : State :=
  match s.cur with
  | .strand n .e => s.raiseE n f
  | .strand n k => s.raiseLS n k f
  | .umpire c => s.raiseUmpire c f
  | .floor => s

/-- A fault that an engine delivers to the strand that issued its card (R180, R248): to E before its next
instruction, to L and S at once; a halted issuer ends its dispatch. -/
def State.deliver (s : State) (n : Nat) (k : Strand) (f : Flt) : State :=
  match s.dispOf n with
  | none => s
  | some (i, _) =>
    match k with
    | .e =>
      if (s.core n).e.run = .stopped then s.failInfo i (whoEngine s n) f.cause f.info
      else s.onCore n fun c => { c with e := { c.e with deferred := c.e.deferred ++ [⟨f.cause, f.info⟩] } }
    | _ => s.failInfo i (whoStrand s n k) f.cause f.info

/-- Whether a fault that leads from s to t has ended, aborted or restarted dispatch k (R344). -/
def State.endedBy (s t : State) (k : Nat) : Bool := decide (k ∈ t.ended) && !decide (k ∈ s.ended)

/-- A fault f of each of some cores of dispatch k in the same cycle, at s: they are applied in order until one ends the
dispatch, and the later ones that would have ended it are counted (R344). -/
def faultEach (k ctx : Nat) (f : State → Nat → State) (s : State) : List Nat → State → State
  | [], t => t
  | n :: ns, t =>
    faultEach k ctx f s ns
      (if !s.endedBy t k then f t n else if s.endedBy (f s n) k then t.countFaults ctx 1 else t)

/-- E takes the oldest deferred fault before its next instruction (R180). -/
def State.takeDeferred (s : State) (n : Nat) : State :=
  match (s.core n).e.deferred with
  | [] => s
  | x :: rest =>
    ((s.onCore n fun c => { c with e := { c.e with deferred := rest } }).takeE n x.cause x.info).reapIdle (s.coreCtx n)

/-! ## Outcomes -/

/-- The outcome of a strand's instruction: its effect, its fault taken, or its wait entered. -/
def outcome (m : M Unit) (s : State) : Host.Outcome State Fault Refusal :=
  match m s with
  | .ok (_, t) => .next t
  | .error (.flt f) => .next (s.raise f)
  | .error (.wait w) => .next (s.enterWait w)

end Sys2Proof.Machine
end

