-- ==== Sys2Proof/Machine/Operands.lean ====
section
/-!
DEFINITION. The operand forms of E and the order of checks around every Norom instruction
(spec/02_instruction_word.md R16, R17, R20, R21, R24 to R29).
-/
namespace Sys2Proof.Machine

open Sys2Proof

/-! ## Operand fields (R16) -/

/-- What an operand field names. -/
inductive Opnd where
  | g (n : Nat)
  | v (n : Nat)
  | imm (x : Word)
  | q (id : Nat)
  | sp (n : Nat)
  | bad
  deriving DecidableEq, Repr

/-- Reads a field's kind and value (R16). -/
def opnd (f : BitVec 16) : Opnd :=
  match (f >>> 13).toNat with
  | 0 => .g (f.toNat % 64)
  | 1 => .v (f.toNat % 1024)
  | 2 => .imm ((f.setWidth 13).signExtend 64)
  | 3 => .q (f.toNat % 16)
  | 4 => .sp (f.toNat % 256)
  | _ => .bad

/-- The class of a special operand (R17). -/
inductive SpClass where
  | tile | huddle | gbar
  deriving DecidableEq, Repr

/-- How an instruction uses a field. -/
inductive Role where
  /-- Unused, or raw: no kind is read (R18, R20). -/
  | no
  | src
  | dst
  /-- Read, then written. -/
  | both
  deriving DecidableEq, Repr

/-- The kinds that a field accepts: general registers, a run of vec vector registers (0 for none), immediates,
endpoints, and a class of special operand. -/
structure Fld where
  role : Role
  g : Bool
  vec : Nat
  imm : Bool
  q : Bool
  sp : Option SpClass
  deriving DecidableEq, Repr

def fNo : Fld := ⟨.no, false, 0, false, false, none⟩
/-- 000 as a source; 000 or 010; 000, 010 or 011. -/
def fG : Fld := ⟨.src, true, 0, false, false, none⟩
def fGI : Fld := ⟨.src, true, 0, true, false, none⟩
def fGIQ : Fld := ⟨.src, true, 0, true, true, none⟩
/-- 010 only. -/
def fI : Fld := ⟨.src, false, 0, true, false, none⟩
/-- 000 as a destination; 000 or 011; 000 read and written. -/
def fGd : Fld := ⟨.dst, true, 0, false, false, none⟩
def fGQd : Fld := ⟨.dst, true, 0, false, true, none⟩
def fGb : Fld := ⟨.both, true, 0, false, false, none⟩
/-- 001, or 001 and 011, as a source, over a run of registers. -/
def fV (run : Nat) : Fld := ⟨.src, false, run, false, false, none⟩
def fVQ : Fld := ⟨.src, false, 1, false, true, none⟩
/-- 001, or 001 and 011, as a destination; 001 read and written. -/
def fVd (run : Nat) : Fld := ⟨.dst, false, run, false, false, none⟩
def fVQd : Fld := ⟨.dst, false, 1, false, true, none⟩
def fVb : Fld := ⟨.both, false, 1, false, false, none⟩
/-- 100 of a class. -/
def fSp (c : SpClass) : Fld := ⟨.src, false, 0, false, false, some c⟩

/-- Endpoints allowed as a source and as a destination (R24). -/
def srcEndpoint (id : Nat) : Bool := id ∈ [0, 1, 5, 6, 7, 8, 9]
def dstEndpoint (id : Nat) : Bool := id ∈ [2, 3, 4, 6, 7, 8, 9, 10]

/-- Whether an endpoint can be used in a direction at the acting core (R24, R307, R330). -/
def endpointOk (s : State) (role : Role) (id : Nat) : Bool :=
  (match role with
    | .src => srcEndpoint id
    | .dst => dstEndpoint id
    | _ => false) &&
  (if 6 ≤ id ∧ id ≤ 9 then (s.partner s.me id).isSome else if id = 10 then s.holdsUmpire s.me else true)

/-- Whether a special operand is in range (R17). -/
def specialOk (s : State) (c : SpClass) (n : Nat) : Bool :=
  match c with
  | .tile => decide (n < 8) && decide (n < partTiles s.my.part)
  | .huddle => decide (n < 8)
  | .gbar => true

/-- Whether a used field passes step 5 of R28. -/
def fieldOk (s : State) (f : Fld) (raw : BitVec 16) : Bool :=
  match f.role with
  | .no => true
  | _ =>
    match opnd raw with
    | .g _ => f.g
    | .v n => decide (f.vec ≠ 0) && decide (n + f.vec ≤ partVregs s.my.part)
    | .imm _ => f.imm
    | .q id => f.q && endpointOk s f.role id
    | .sp n => match f.sp with
      | some c => specialOk s c n
      | none => false
    | .bad => false

/-- xinfo of ILLEGAL_OPERAND at a field: 0 for D, 1 for A, 2 for B, 3 for MOD (R29). -/
def operandInfo (field raw : Nat) : Word := BitVec.ofNat 64 (field + 4 * raw)

/-- ILLEGAL_OPERAND at D, A, B or MOD. -/
def badD {α : Type} (w : Norom) : M α := fault cIllegalOperand (operandInfo 0 w.d.toNat)
def badA {α : Type} (w : Norom) : M α := fault cIllegalOperand (operandInfo 1 w.a.toNat)
def badB {α : Type} (w : Norom) : M α := fault cIllegalOperand (operandInfo 2 w.b.toNat)
def badMod {α : Type} (w : Norom) : M α := fault cIllegalOperand (operandInfo 3 w.mod.toNat)

/-- What an instruction accepts: its MOD, and its three fields. -/
structure Shape where
  mod : BitVec 6 → Bool
  d : Fld
  a : Fld
  b : Fld

/-- MOD without a check. -/
def anyMod : BitVec 6 → Bool := fun _ => true

/-- Step 5 of R28: MOD, then D, A and B. -/
def checkFields (sh : Shape) (w : Norom) : M Unit := do
  if sh.mod w.mod then pure () else badMod w
  let s ← gets id
  if fieldOk s sh.d w.d then pure () else badD w
  if fieldOk s sh.a w.a then pure () else badA w
  if fieldOk s sh.b w.b then pure () else badB w

/-! ## Queues of an instruction (R25) -/

/-- The endpoint that a source field pops. -/
def popOf (f : Fld) (raw : BitVec 16) : List Nat :=
  match f.role, opnd raw with
  | .src, .q id => [id]
  | .both, .q id => [id]
  | _, _ => []

/-- The endpoint that a destination field pushes. -/
def pushOf (f : Fld) (raw : BitVec 16) : List Nat :=
  match f.role, opnd raw with
  | .dst, .q id => [id]
  | _, _ => []

/-- Whether the gate queue may take a unit of the acting core (R75, R308); after the halt it takes every one (R297). -/
def State.gateRoom (s : State) : Bool :=
  let c := s.court (s.gateCourt s.me)
  match s.gatePart s.me with
  | some p => c.gate.admits p.token || c.gateHalted
  | none => decide (c.gate.used < Config.gateUnits) || c.gateHalted

/-- Whether an endpoint has room for one push. -/
def State.canPush (s : State) (id : Nat) : Bool := if id = 10 then s.gateRoom else s.room id

/-- Step 6 of R28: every source queue holds the entries to pop, every destination has room. -/
def queuesReady (s : State) (pops pushes : List Nat) : Bool :=
  pops.all (fun id => decide (pops.count id ≤ (s.my.entries id).length)) && pushes.all s.canPush

/-- Reads a source field, popping an endpoint (R16, R25). A 64-bit value is zero-extended. -/
def readField (f : Fld) (raw : BitVec 16) : M V128 :=
  match f.role with
  | .no => pure 0
  | .dst => pure 0
  | _ =>
    match opnd raw with
    | .g n => do
      let x ← readG n
      pure (wide x)
    | .v n => if f.vec = 1 then readV n else pure 0
    | .imm x => pure (wide x)
    | .q id => popEntry id
    | .sp n => pure (BitVec.ofNat 128 n)
    | .bad => pure 0

/-- Writes the destination D, pushing an endpoint (R16, R25). -/
def putD (w : Norom) (x : V128) : M Unit :=
  match opnd w.d with
  | .g n => writeG n (x.setWidth 64)
  | .v n => writeV n x
  | .q id => if id = 10 then pushGate x (operandInfo 0 w.d.toNat) else pushEntry id x
  | _ => pure ()

/-- Writes a 64-bit result to D. -/
def putW (w : Norom) (x : Word) : M Unit := putD w (wide x)

/-! ## The whole instruction -/

/-- The guard (R26): whether the instruction takes effect. -/
def guardOn (w : Norom) : M Bool :=
  if w.g.getLsbD 7 then do
    let x ← readG (w.g.toNat % 64)
    pure (decide (x ≠ 0) != w.g.getLsbD 6)
  else pure true

/-- The next index in line. -/
def nextPc : M (BitVec 13) := gets fun s => s.my.e.pc + 1

/-- Goes on in line. -/
def goOn : M (BitVec 13 × Run) := do
  let pc ← nextPc
  pure (pc, .running)

/-- The operand values of D, A and B, popped in that order (R25). -/
structure Vals where
  d : V128
  a : V128
  b : V128
  deriving DecidableEq, Repr

/-- Low 64 bits of an operand value. -/
def low (x : V128) : Word := x.setWidth 64

/-- One Norom instruction of E, from its guard on (R28): step 4, step 5, step 6, then its own effect, which answers
where E goes next, or nothing when it has itself entered a wait that keeps what it has done (R137). -/
def instrKeep (sh : Shape) (w : Norom) (body : Vals → M (Option (BitVec 13 × Run))) : M Unit := do
  let on ← guardOn w
  if !on then do
    let pc ← nextPc
    completeE pc .running
  else do
    checkFields sh w
    let ready ← gets fun s => queuesReady s (popOf sh.d w.d ++ popOf sh.a w.a ++ popOf sh.b w.b) (pushOf sh.d w.d)
    await ready .queues
    let d ← readField sh.d w.d
    let a ← readField sh.a w.a
    let b ← readField sh.b w.b
    match ← body ⟨d, a, b⟩ with
    | some (pc, run) => completeE pc run
    | none => pure ()

/-- An instruction whose effect answers where E goes next. -/
def instrE (sh : Shape) (w : Norom) (body : Vals → M (BitVec 13 × Run)) : M Unit :=
  instrKeep sh w fun v => do
    let r ← body v
    pure (some r)

/-- An instruction that goes on in line after its effect. -/
def lineE (sh : Shape) (w : Norom) (body : Vals → M Unit) : M Unit :=
  instrE sh w fun v => do
    body v
    goOn

/-- The raw 32 bits of A:B (R18). -/
def rawAB (w : Norom) : BitVec 32 := w.a ++ w.b

end Sys2Proof.Machine
end

