-- ==== Sys2Proof/Machine/Flags.lean ====
section
/-!
DEFINITION. The sticky flags of FLAGS and FLAGC (spec/04_scalar_control_plain_memory.md R92). E has no condition
flags (spec/02_instruction_word.md R26), and no arithmetic sets a flag (R64).
-/
namespace Sys2Proof.Machine

open Sys2Proof

/-- The flags word: dmsg, oob, dshare (R92). -/
def flagsWord (dmsg oob dshare : Bool) : Word :=
  BitVec.ofNat 64 (dmsg.toNat + 2 * oob.toNat + 4 * dshare.toNat)

/-- The flags of a core and its context (R92). -/
def State.flags (s : State) (n : Nat) : Word :=
  let oob := decide ((s.core n).pool.oobf ≠ 0)
  match s.ctxOf (s.coreCtx n) with
  | some c => flagsWord c.dmsg oob c.dshare
  | none => flagsWord false oob false

/-- Clears the selected flags; clearing oob sets oobf to 0 (R92). -/
def State.clearFlags (s : State) (n : Nat) (a : Word) : State :=
  let s1 := s.onCtx (s.coreCtx n) fun c => { c with
    dmsg := c.dmsg && !a.getLsbD 0, dshare := c.dshare && !a.getLsbD 2 }
  if a.getLsbD 1 then s1.onCore n fun c => { c with pool := { c.pool with oobf := 0 } } else s1

end Sys2Proof.Machine
end

