-- ==== Sys2Proof/Machine/Scalar.lean ====
section
/-!
DEFINITION. The scalar instructions of E (spec/02_instruction_word.md R30 to R32;
spec/04_scalar_control_plain_memory.md R63 to R70).
-/
namespace Sys2Proof.Machine

open Sys2Proof

/-- A scalar instruction of two sources (R63). -/
def scalar2 (w : Norom) (f : Word → Word → Word) : M Unit :=
  lineE ⟨anyMod, fGQd, fGIQ, fGIQ⟩ w fun v => putW w (f (low v.a) (low v.b))

/-- A scalar instruction of A alone (R63, R66). -/
def scalar1 (w : Norom) (f : Word → Word) : M Unit :=
  lineE ⟨anyMod, fGQd, fGIQ, fNo⟩ w fun v => putW w (f (low v.a))

/-- A comparison's result. -/
def boolWord (b : Bool) : Word := if b then 1 else 0

/-! ## Values (R64 to R68) -/

def valAdd (a b : Word) : Word := a + b
def valAddss (a b : Word) : Word := BitVec.ofInt 64 (clampInt (-(2 ^ 63)) (2 ^ 63 - 1) (a.toInt + b.toInt))
def valAddus (a b : Word) : Word := BitVec.ofNat 64 (min (a.toNat + b.toNat) (2 ^ 64 - 1))
def valSub (a b : Word) : Word := a - b
def valSubss (a b : Word) : Word := BitVec.ofInt 64 (clampInt (-(2 ^ 63)) (2 ^ 63 - 1) (a.toInt - b.toInt))
def valSubus (a b : Word) : Word := BitVec.ofNat 64 (a.toNat - b.toNat)
def valMul (a b : Word) : Word := a * b
def valMulhs (a b : Word) : Word := BitVec.ofInt 64 (a.toInt * b.toInt / 2 ^ 64)
def valMulhu (a b : Word) : Word := BitVec.ofNat 64 (a.toNat * b.toNat / 2 ^ 64)
/-- The quotient, with its fixed results for a zero divisor and for overflow (R64). -/
def valDivs (a b : Word) : Word :=
  if b = 0 then BitVec.allOnes 64
  else if a.toInt = -(2 ^ 63) ∧ b.toInt = -1 then a
  else BitVec.ofInt 64 (a.toInt.tdiv b.toInt)
def valDivu (a b : Word) : Word := if b = 0 then BitVec.allOnes 64 else BitVec.ofNat 64 (a.toNat / b.toNat)
def valRems (a b : Word) : Word :=
  if b = 0 then a
  else if a.toInt = -(2 ^ 63) ∧ b.toInt = -1 then 0
  else BitVec.ofInt 64 (a.toInt - a.toInt.tdiv b.toInt * b.toInt)
def valRemu (a b : Word) : Word :=
  if b = 0 then a else BitVec.ofNat 64 (a.toNat - a.toNat / b.toNat * b.toNat)
def valAnd (a b : Word) : Word := a &&& b
def valOr (a b : Word) : Word := a ||| b
def valXor (a b : Word) : Word := a ^^^ b
def valAndn (a b : Word) : Word := a &&& ~~~b
/-- The count of a shift (R65). -/
def shiftCount (b : Word) : Nat := b.toNat % 64
def valShl (a b : Word) : Word := a <<< shiftCount b
def valShr (a b : Word) : Word := a >>> shiftCount b
def valSar (a b : Word) : Word := a.sshiftRight (shiftCount b)
def valRol (a b : Word) : Word := a.rotateLeft (shiftCount b)
def valSeq (a b : Word) : Word := boolWord (a = b)
def valSne (a b : Word) : Word := boolWord (a ≠ b)
def valSlt (a b : Word) : Word := boolWord (a.slt b)
def valSle (a b : Word) : Word := boolWord (a.sle b)
def valSltu (a b : Word) : Word := boolWord (a.ult b)
def valSleu (a b : Word) : Word := boolWord (a.ule b)
def valMin (a b : Word) : Word := if b.slt a then b else a
def valMax (a b : Word) : Word := if a.slt b then b else a
def valMinu (a b : Word) : Word := if b.ult a then b else a
def valMaxu (a b : Word) : Word := if a.ult b then b else a
def valClz (a : Word) : Word := BitVec.ofNat 64 (leadZeros a 64)
def valCtz (a : Word) : Word := BitVec.ofNat 64 (trailZeros a 0 64)
def valPopc (a : Word) : Word := BitVec.ofNat 64 (popCount a)
def valBrev (a : Word) : Word := revBits a
def valBswap (a : Word) : Word := revBytes 8 a
/-- Position, width and mask of a bit field (R67). -/
def fieldPos (b : Word) : Nat := natBits b.toNat 11 6
def fieldWidth (b : Word) : Nat := if b.toNat % 64 = 0 then 64 else b.toNat % 64
def fieldMask (b : Word) : Word := BitVec.ofNat 64 ((2 ^ fieldWidth b - 1) * 2 ^ fieldPos b)
def valBfx (a b : Word) : Word := (a >>> fieldPos b) &&& BitVec.ofNat 64 (2 ^ fieldWidth b - 1)
def valBfi (d a b : Word) : Word := (d &&& ~~~fieldMask b) ||| ((a <<< fieldPos b) &&& fieldMask b)
def valSext (a b : Word) : Word := sextWord (fieldWidth b) a.toNat
def valZext (a b : Word) : Word := BitVec.ofNat 64 (a.toNat % 2 ^ fieldWidth b)

/-! ## Meanings -/

/-- NOP (R30): advances pc by one, guarded or not. -/
def execNop (w : Norom) (s : State) : Host.Outcome State Fault Refusal :=
  outcome (lineE ⟨anyMod, fNo, fNo, fNo⟩ w fun _ => pure ()) s

/-- HINT_WORD (R31): a no-op; the guard is not read. -/
def execHintWord (_op : BitVec 8) (_fn : BitVec 6) (_w : Norom) (s : State) : Host.Outcome State Fault Refusal :=
  outcome (do
    let pc ← nextPc
    completeE pc .running) s

/-- ILLEGAL_OPCODE_WORD (R32): ILLEGAL_OPCODE whatever the guard, with OP and FN in xinfo. -/
def execIllegalOpcodeWord (op : BitVec 8) (fn : BitVec 6) (_w : Norom) (s : State) :
    Host.Outcome State Fault Refusal :=
  outcome (fault cIllegalOpcode (BitVec.ofNat 64 (op.toNat + 256 * fn.toNat))) s

/-- ADD (R64). -/
def execAdd (w : Norom) (s : State) : Host.Outcome State Fault Refusal := outcome (scalar2 w valAdd) s

/-- ADDSS (R64). -/
def execAddss (w : Norom) (s : State) : Host.Outcome State Fault Refusal := outcome (scalar2 w valAddss) s

/-- ADDUS (R64). -/
def execAddus (w : Norom) (s : State) : Host.Outcome State Fault Refusal := outcome (scalar2 w valAddus) s

/-- SUB (R64). -/
def execSub (w : Norom) (s : State) : Host.Outcome State Fault Refusal := outcome (scalar2 w valSub) s

/-- SUBSS (R64). -/
def execSubss (w : Norom) (s : State) : Host.Outcome State Fault Refusal := outcome (scalar2 w valSubss) s

/-- SUBUS (R64). -/
def execSubus (w : Norom) (s : State) : Host.Outcome State Fault Refusal := outcome (scalar2 w valSubus) s

/-- MUL (R64). -/
def execMul (w : Norom) (s : State) : Host.Outcome State Fault Refusal := outcome (scalar2 w valMul) s

/-- MULHS (R64). -/
def execMulhs (w : Norom) (s : State) : Host.Outcome State Fault Refusal := outcome (scalar2 w valMulhs) s

/-- MULHU (R64). -/
def execMulhu (w : Norom) (s : State) : Host.Outcome State Fault Refusal := outcome (scalar2 w valMulhu) s

/-- DIVS (R64). -/
def execDivs (w : Norom) (s : State) : Host.Outcome State Fault Refusal := outcome (scalar2 w valDivs) s

/-- DIVU (R64). -/
def execDivu (w : Norom) (s : State) : Host.Outcome State Fault Refusal := outcome (scalar2 w valDivu) s

/-- REMS (R64). -/
def execRems (w : Norom) (s : State) : Host.Outcome State Fault Refusal := outcome (scalar2 w valRems) s

/-- REMU (R64). -/
def execRemu (w : Norom) (s : State) : Host.Outcome State Fault Refusal := outcome (scalar2 w valRemu) s

/-- AND (R65). -/
def execAnd (w : Norom) (s : State) : Host.Outcome State Fault Refusal := outcome (scalar2 w valAnd) s

/-- OR (R65). -/
def execOr (w : Norom) (s : State) : Host.Outcome State Fault Refusal := outcome (scalar2 w valOr) s

/-- XOR (R65). -/
def execXor (w : Norom) (s : State) : Host.Outcome State Fault Refusal := outcome (scalar2 w valXor) s

/-- ANDN (R65). -/
def execAndn (w : Norom) (s : State) : Host.Outcome State Fault Refusal := outcome (scalar2 w valAndn) s

/-- SHL (R65). -/
def execShl (w : Norom) (s : State) : Host.Outcome State Fault Refusal := outcome (scalar2 w valShl) s

/-- SHR (R65). -/
def execShr (w : Norom) (s : State) : Host.Outcome State Fault Refusal := outcome (scalar2 w valShr) s

/-- SAR (R65). -/
def execSar (w : Norom) (s : State) : Host.Outcome State Fault Refusal := outcome (scalar2 w valSar) s

/-- ROL (R65). -/
def execRol (w : Norom) (s : State) : Host.Outcome State Fault Refusal := outcome (scalar2 w valRol) s

/-- SEQ (R65). -/
def execSeq (w : Norom) (s : State) : Host.Outcome State Fault Refusal := outcome (scalar2 w valSeq) s

/-- SNE (R65). -/
def execSne (w : Norom) (s : State) : Host.Outcome State Fault Refusal := outcome (scalar2 w valSne) s

/-- SLT (R65). -/
def execSlt (w : Norom) (s : State) : Host.Outcome State Fault Refusal := outcome (scalar2 w valSlt) s

/-- SLE (R65). -/
def execSle (w : Norom) (s : State) : Host.Outcome State Fault Refusal := outcome (scalar2 w valSle) s

/-- SLTU (R65). -/
def execSltu (w : Norom) (s : State) : Host.Outcome State Fault Refusal := outcome (scalar2 w valSltu) s

/-- SLEU (R65). -/
def execSleu (w : Norom) (s : State) : Host.Outcome State Fault Refusal := outcome (scalar2 w valSleu) s

/-- MIN (R65). -/
def execMin (w : Norom) (s : State) : Host.Outcome State Fault Refusal := outcome (scalar2 w valMin) s

/-- MAX (R65). -/
def execMax (w : Norom) (s : State) : Host.Outcome State Fault Refusal := outcome (scalar2 w valMax) s

/-- MINU (R65). -/
def execMinu (w : Norom) (s : State) : Host.Outcome State Fault Refusal := outcome (scalar2 w valMinu) s

/-- MAXU (R65). -/
def execMaxu (w : Norom) (s : State) : Host.Outcome State Fault Refusal := outcome (scalar2 w valMaxu) s

/-- CLZ (R66). -/
def execClz (w : Norom) (s : State) : Host.Outcome State Fault Refusal := outcome (scalar1 w valClz) s

/-- CTZ (R66). -/
def execCtz (w : Norom) (s : State) : Host.Outcome State Fault Refusal := outcome (scalar1 w valCtz) s

/-- POPC (R66). -/
def execPopc (w : Norom) (s : State) : Host.Outcome State Fault Refusal := outcome (scalar1 w valPopc) s

/-- BREV (R66). -/
def execBrev (w : Norom) (s : State) : Host.Outcome State Fault Refusal := outcome (scalar1 w valBrev) s

/-- BSWAP (R66). -/
def execBswap (w : Norom) (s : State) : Host.Outcome State Fault Refusal := outcome (scalar1 w valBswap) s

/-- BFX (R67). -/
def execBfx (w : Norom) (s : State) : Host.Outcome State Fault Refusal := outcome (scalar2 w valBfx) s

/-- BFI (R67): D accepts kind 000 and is read. -/
def execBfi (w : Norom) (s : State) : Host.Outcome State Fault Refusal :=
  outcome (lineE ⟨anyMod, fGb, fGIQ, fGIQ⟩ w fun v => putW w (valBfi (low v.d) (low v.a) (low v.b))) s

/-- SEXT (R68). -/
def execSext (w : Norom) (s : State) : Host.Outcome State Fault Refusal := outcome (scalar2 w valSext) s

/-- ZEXT (R68). -/
def execZext (w : Norom) (s : State) : Host.Outcome State Fault Refusal := outcome (scalar2 w valZext) s

/-- MOV (R69): 64 and 128 bits, widened and narrowed by R25. -/
def execMov (w : Norom) (s : State) : Host.Outcome State Fault Refusal :=
  outcome (lineE ⟨anyMod, ⟨.dst, true, 1, false, true, none⟩, ⟨.src, true, 1, true, true, none⟩, fNo⟩ w fun v =>
    putD w v.a) s

/-- LI (R70): imm32 sign-extended. -/
def execLi (w : Norom) (s : State) : Host.Outcome State Fault Refusal :=
  outcome (lineE ⟨anyMod, fGd, fNo, fNo⟩ w fun _ => putW w ((rawAB w).signExtend 64)) s

/-- LIH (R70): imm32 above the old low half of D. -/
def execLih (w : Norom) (s : State) : Host.Outcome State Fault Refusal :=
  outcome (lineE ⟨anyMod, fGb, fNo, fNo⟩ w fun v => putW w (rawAB w ++ (low v.d).setWidth 32)) s

end Sys2Proof.Machine
end

