-- ==== Sys2Proof/Machine/Control.lean ====
section
/-!
DEFINITION. Control transfer, HALT, TRAP, WAIT, ERET, FLAGS, FLAGC, TIME and the control registers of E
(spec/02_instruction_word.md R18, R19; spec/04_scalar_control_plain_memory.md R71 to R75, R87 to R93).
-/
namespace Sys2Proof.Machine

open Sys2Proof

/-! ## Transfers -/

/-- A transfer to an index: FETCH_LIMIT outside 0 to ilim - 1, with xinfo the target (R19): a negative one as a 64-bit
two's complement word (log entry 82). -/
def transfer (target : Int) : M (BitVec 13 × Run) := do
  let ilim ← gets fun s => s.my.stores.ilim
  if 0 ≤ target ∧ target < ilim then pure (BitVec.ofInt 13 target, .running)
  else fault cFetchLimit (BitVec.ofInt 64 target)

/-- A branch (R71): D is the raw offset; a branch not taken never faults on its target. -/
def branchE (w : Norom) (taken : Word → Word → Bool) : M Unit :=
  instrE ⟨anyMod, fNo, fGI, fGI⟩ w fun v =>
    if taken (low v.a) (low v.b) then do
      let pc ← gets fun s => s.my.e.pc
      transfer ((pc.toNat : Int) + w.d.toInt)
    else goOn

/-- BEQ (R71). -/
def execBeq (w : Norom) (s : State) : Host.Outcome State Fault Refusal :=
  outcome (branchE w fun a b => decide (a = b)) s

/-- BNE (R71). -/
def execBne (w : Norom) (s : State) : Host.Outcome State Fault Refusal :=
  outcome (branchE w fun a b => decide (a ≠ b)) s

/-- BLT (R71). -/
def execBlt (w : Norom) (s : State) : Host.Outcome State Fault Refusal := outcome (branchE w fun a b => a.slt b) s

/-- BGE (R71). -/
def execBge (w : Norom) (s : State) : Host.Outcome State Fault Refusal := outcome (branchE w fun a b => b.sle a) s

/-- BLTU (R71). -/
def execBltu (w : Norom) (s : State) : Host.Outcome State Fault Refusal := outcome (branchE w fun a b => a.ult b) s

/-- BGEU (R71). -/
def execBgeu (w : Norom) (s : State) : Host.Outcome State Fault Refusal := outcome (branchE w fun a b => b.ule a) s

/-- JMP (R72). -/
def execJmp (w : Norom) (s : State) : Host.Outcome State Fault Refusal :=
  outcome (instrE ⟨anyMod, fNo, fNo, fNo⟩ w fun _ => transfer (rawAB w).toNat) s

/-- JMPR (R72). -/
def execJmpr (w : Norom) (s : State) : Host.Outcome State Fault Refusal :=
  outcome (instrE ⟨anyMod, fNo, fG, fNo⟩ w fun v => transfer (low v.a).toNat) s

/-- A call: lk takes pc + 1 once the target has been checked (R19, R72). -/
def callTo (target : Nat) : M (BitVec 13 × Run) := do
  let r ← transfer target
  let pc ← gets fun s => s.my.e.pc
  writeG 62 (BitVec.ofNat 64 (pc.toNat + 1))
  pure r

/-- CALL (R72). -/
def execCall (w : Norom) (s : State) : Host.Outcome State Fault Refusal :=
  outcome (instrE ⟨anyMod, fNo, fNo, fNo⟩ w fun _ => callTo (rawAB w).toNat) s

/-- CALLR (R72): the target is read before lk is written. -/
def execCallr (w : Norom) (s : State) : Host.Outcome State Fault Refusal :=
  outcome (instrE ⟨anyMod, fNo, fG, fNo⟩ w fun v => callTo (low v.a).toNat) s

/-- RET (R72). -/
def execRet (w : Norom) (s : State) : Host.Outcome State Fault Refusal :=
  outcome (instrE ⟨anyMod, fNo, fNo, fNo⟩ w fun _ => do
    let lk ← readG 62
    transfer lk.toNat) s

/-- HALT (R73): E stops; retirement follows R51. -/
def execHalt (w : Norom) (s : State) : Host.Outcome State Fault Refusal :=
  outcome (instrE ⟨anyMod, fNo, fNo, fNo⟩ w fun _ => do
    let pc ← nextPc
    pure (pc, .stopped)) s

/-- TRAP (R74). -/
def execTrap (w : Norom) (s : State) : Host.Outcome State Fault Refusal :=
  outcome (instrE ⟨anyMod, fNo, fGI, fNo⟩ w fun v => fault cTrap (low v.a)) s

/-! ## WAIT -/

/-- Whether one condition of WAIT holds (R75). -/
def State.condition (s : State) (i : Nat) : Bool :=
  let c := s.my
  match i with
  | 2 => s.canPush i
  | 3 => s.canPush i
  | 4 => s.canPush i
  | 10 => s.gateRoom
  | 16 => decide (c.q.inbox ≠ [])
  | 17 => decide (c.mx.queue.length < 2)
  | 18 => decide (c.copy.length < 2)
  | _ =>
    if 6 ≤ i ∧ i ≤ 9 then (s.partner s.me i).isSome && decide (c.entries i ≠ [])
    else decide (c.entries i ≠ [])

/-- The bits of a mask that request a condition (R75). -/
def waitBits : List Nat := [0, 1, 2, 3, 4, 5, 6, 7, 8, 9, 10, 16, 17, 18]

/-- The mask of requested conditions that hold. -/
def State.holding (s : State) (mask : Word) : Word :=
  waitBits.foldl (fun m i => if mask.getLsbD i && s.condition i then m ||| BitVec.twoPow 64 i else m) 0

/-- Whether a mask requests any condition. -/
def requests (mask : Word) : Bool := waitBits.any fun i => mask.getLsbD i

/-- WAIT (R75). -/
def execWait (w : Norom) (s : State) : Host.Outcome State Fault Refusal :=
  outcome (lineE ⟨anyMod, fGd, fGI, fNo⟩ w fun v => do
    let m ← gets fun s => s.holding (low v.a)
    await (!requests (low v.a) || m ≠ 0) (.conditions (low v.a))
    putW w m) s

/-! ## Exceptions -/

/-- A control register that an instruction reads meets POISON when it is uncorrectable (R348). -/
def csrGood (n : Nat) : M Unit := do
  let bad ← gets fun s => decide (0x1000 + n ∈ s.my.poison.eRegs)
  check (!bad) cPoison (BitVec.ofNat 64 (0x1000 + n))

/-- ERET (R91): it reads xcause and xpc. -/
def execEret (w : Norom) (s : State) : Host.Outcome State Fault Refusal :=
  outcome (instrE ⟨anyMod, fNo, fNo, fNo⟩ w fun _ => do
    let c ← gets fun s => s.my
    csrGood 0x011
    check (c.e.xcause.getLsbD 8) cIllegalOpcode 0xC1
    csrGood 0x013
    let r ← transfer c.e.xpc.toNat
    let pc ← returnE
    pure (pc, r.2)) s

/-! ## Control registers (R87 to R89) -/

/-- The bits of a partition word that R47 gives a meaning; the reserved ones read zero (R87). -/
def partFields : Word := 0x0FFF0F1F

/-- The readable value of a control register; none when the number is absent from the map (R88). The energy counter
and tcount stand in the dispatch and the context. -/
def State.csr (s : State) (n : Nat) : Option Word :=
  let c := s.my
  match n with
  | 0x000 => some (BitVec.ofNat 64 (s.coreCtx s.me))
  | 0x001 => some (c.pos.setWidth 64)
  | 0x002 => some (match s.dispOf s.me with | some (_, d) => d.gen.setWidth 64 | none => 0)
  | 0x003 => some (c.part.setWidth 64 &&& partFields)
  | 0x004 => some (BitVec.ofNat 64 (c.stores.ilim % 8192))
  | 0x010 => some (c.e.xvec.setWidth 64)
  | 0x011 => some (c.e.xcause.setWidth 64)
  | 0x012 => some c.e.xinfo
  | 0x013 => some (c.e.xpc.setWidth 64)
  | 0x020 => some (c.e.fpm.setWidth 64)
  | 0x021 => some c.e.seed
  | 0x030 => some (match s.dispOf s.me with | some (_, d) => BitVec.ofNat 64 d.energy | none => 0)
  | 0x031 => some (match s.dispOf s.me with | some (_, d) => BitVec.ofNat 64 (d.cls % 8) | none => 0)
  | 0x040 => some c.pool.oobf
  | 0x050 => some (match s.ctxOf (s.coreCtx s.me) with | some x => BitVec.ofNat 64 x.tcount | none => 0)
  | _ => none

/-- Whether a control register can be written (R88). -/
def csrWritable (n : Nat) : Bool := n ∈ [0x010, 0x013, 0x020, 0x021]

/-- Writes a control register; reserved bits are ignored (R87). xpc keeps values up to 4,096 (log entry 13). -/
def EStrand.setCsr (e : EStrand) (n : Nat) (x : Word) : EStrand :=
  match n with
  | 0x010 => { e with xvec := x.setWidth 12 }
  | 0x013 => { e with xpc := x.setWidth 13 }
  | 0x020 => { e with fpm := x.setWidth 8 }
  | 0x021 => { e with seed := x }
  | _ => e

/-- The meter may charge any amount before a read of ebud (R327). -/
def chargeMeter : M Unit := do
  let k ← draw Config.freeCharge
  change fun s =>
    match s.my.disp with
    | some d => s.onDisp d fun x => { x with energy := x.energy - k % (x.energy + 1) }
    | none => s

/-- Reads a control register: an absent number faults at A; a poisoned one meets POISON (R87, R348). -/
def readCsr (w : Norom) (n : Nat) : M Word := do
  if n = 0x030 then chargeMeter else pure ()
  match ← gets fun s => s.csr n with
  | none => badA w
  | some x => do
    csrGood n
    pure x

/-- Writes a control register. -/
def writeCsr (n : Nat) (x : Word) : M Unit :=
  change fun s => s.onE fun e => e.setCsr n x

/-- A control register instruction that writes (R87). The register number of A is checked with the operands' values,
after the kind of B (log entry 100). -/
def csrOp (w : Norom) (f : Word → Word → Word) : M Unit :=
  lineE ⟨anyMod, fGd, fI, fGI⟩ w fun v => do
    let n := (low v.a).toNat
    if csrWritable n then pure () else badA w
    let t ← readCsr w n
    writeCsr n (f t (low v.b))
    putW w t

/-- CSRR (R87). -/
def execCsrr (w : Norom) (s : State) : Host.Outcome State Fault Refusal :=
  outcome (lineE ⟨anyMod, fGd, fI, fNo⟩ w fun v => do
    let t ← readCsr w (low v.a).toNat
    putW w t) s

/-- CSRW (R87). -/
def execCsrw (w : Norom) (s : State) : Host.Outcome State Fault Refusal := outcome (csrOp w fun _ b => b) s

/-- CSRS (R87). -/
def execCsrs (w : Norom) (s : State) : Host.Outcome State Fault Refusal := outcome (csrOp w fun t b => t ||| b) s

/-- CSRC (R87). -/
def execCsrc (w : Norom) (s : State) : Host.Outcome State Fault Refusal :=
  outcome (csrOp w fun t b => t &&& ~~~b) s

/-! ## Flags and time -/

/-- FLAGS (R92). -/
def execFlags (w : Norom) (s : State) : Host.Outcome State Fault Refusal :=
  outcome (lineE ⟨anyMod, fGd, fNo, fNo⟩ w fun _ => do
    let x ← gets fun s => s.flags s.me
    putW w x) s

/-- FLAGC (R92). -/
def execFlagc (w : Norom) (s : State) : Host.Outcome State Fault Refusal :=
  outcome (lineE ⟨anyMod, fNo, fGI, fNo⟩ w fun v => change fun s => s.clearFlags s.me (low v.a)) s

/-- TIME (R93). -/
def execTime (w : Norom) (s : State) : Host.Outcome State Fault Refusal :=
  outcome (lineE ⟨anyMod, fGd, fNo, fNo⟩ w fun _ => do
    let t ← gets fun s => s.time
    putW w t) s

end Sys2Proof.Machine
end

