-- ==== Sys2Proof/Machine/Demand.lean ====
section
/-!
DEFINITION. The demand instructions of E, and the demand engine's own steps (spec/06_demand_engine.md R119 to R141;
spec/01_forcing_a_graph.md R9 to R12). What another package of the domain answers to an operation on a handle of its
own is free (log entry 11).
-/
namespace Sys2Proof.Machine

open Sys2Proof

/-! ## Reading cards -/

/-- Reads n bytes of a card, footprint or descriptor at a global address (R134, R135 steps 1 and 2). -/
def readCard (a : Word) (n : Nat) : M (List Byte) := do
  match aperture a.toNat n with
  | some (.global _) => pure ()
  | _ => fault cBadAperture a
  check (decide (a.toNat % 16 = 0)) cMisaligned a
  let v ← gets fun s => viaCore s s.me .e true
  engineRead v a n .card

/-- The argument slots of a task card: those before the first zero (R9). -/
def cardSlots (bs : List Byte) : List Word :=
  ((List.range 8).map fun i => wordAt bs (0x20 + 8 * i)).takeWhile (· ≠ 0)

/-- Card fields that both SUSP and TASK use are in range (R122). -/
def cardOk (bs : List Byte) : Bool :=
  decide (wordAt bs 0 ≠ 0) && decide (1 ≤ fieldAt bs 0x62 1) && decide (fieldAt bs 0x62 1 ≤ 16)

/-- Card fields of a pure task (R122, R8). -/
def pureCardOk (bs : List Byte) : Bool :=
  cardOk bs && decide (1 ≤ fieldAt bs 0x1C 2) && decide (1 ≤ fieldAt bs 0x1E 2) && decide (fieldAt bs 0x60 1 % 32 ≤ 0x11)

/-- The class, context and task handle of the acting strand's dispatch; no handle is 0 (R127, R137). -/
def State.myClass (s : State) : Nat :=
  match s.dispOf s.me with
  | some (_, d) => d.cls
  | none => 7
def State.myTask (s : State) : Word :=
  match s.dispOf s.me with
  | some (_, d) => d.task.getD 0
  | none => 0
def State.myCtx (s : State) : Nat := s.coreCtx s.me

/-- Whether a remote engine finds a handle in order (log entry 11). -/
def remoteOk : M Bool := do
  let k ← draw Config.freeRemote
  pure (decide (k % 2 = 0))

/-- Step 3 of R135: a handle in a slot, or named in a footprint, is valid and held (R139). Answers its entry here, or
none for one of another package. -/
def heldHandle (ctx : Nat) (h : Word) : M (Option Handle) := do
  match ← gets fun s => s.href ctx h with
  | .here _ x => do
    check (decide (x.refs ≠ 0)) cHandleStale h
    pure (some x)
  | .away => do
    let ok ← remoteOk
    check ok cHandleStale h
    pure none
  | .stale => fault cHandleStale h

/-- A check of a handle's state, or what the engine of another package answers to it, which is free (log entry 11). -/
def stateCheck (x : Option Handle) (ok : Handle → Bool) (bad : M Unit) : M Unit :=
  match x with
  | some x => if ok x then pure () else bad
  | none => do
    let ok ← remoteOk
    if ok then pure () else bad

/-- The quota of R129: xinfo[0] = 1. -/
def quotaCheck (ctx : Nat) : M Unit := do
  let full ← gets fun s => match s.ctxOf ctx with
    | some c => decide (c.hquota ≤ liveHandles c)
    | none => false
  check (!full) cArenaFull 1

/-- Makes a handle, taking a reference for each of its slots. A count that already stands at 0xFFFF_FFFF counts on: R134
bounds HDUP alone (log entry 78). -/
def makeHandle (ctx : Nat) (x : Handle) : M Word := fun s =>
  let s1 := x.slots.foldl (fun t a => match t.href ctx a with
    | .here i _ => t.onHandle ctx i fun y => { y with refs := y.refs + 1 }
    | _ => t) s
  let r := s1.newHandle ctx x
  .ok (r.2, r.1)

/-! ## SUSP -/

/-- The handle that SUSP makes from a card (R122, R135). -/
def suspHandle (a : Word) (bs : List Byte) : Handle :=
  { Handle.blank with
    card := a
    slots := cardSlots bs
    rows := fieldAt bs 0x1C 2
    cols := fieldAt bs 0x1E 2
    type := BitVec.ofNat 5 (fieldAt bs 0x60 1)
    cls := fieldAt bs 0x61 1 % 8
    neverStolen := natBit (fieldAt bs 0x63 1) 0 }

/-- Step 3 of R135 for one slot. -/
def slotCheck (ctx : Nat) (w : Norom) (a : Word) : M Unit := do
  let x ← heldHandle ctx a
  stateCheck x (fun x => x.state ≠ .cell) (badA w)

/-- Runs a check for each element in order. -/
def forAll {α : Type} (f : α → M Unit) : List α → M Unit
  | [] => pure ()
  | x :: t => do
    f x
    forAll f t

/-- SUSP (R135). -/
def execSusp (w : Norom) (s : State) : Host.Outcome State Fault Refusal :=
  outcome (lineE ⟨anyMod, fGd, fG, fNo⟩ w fun v => do
    let a := low v.a
    let bs ← readCard a 128
    if pureCardOk bs then pure () else badA w
    let ctx ← gets State.myCtx
    let x := suspHandle a bs
    forAll (slotCheck ctx w) x.slots
    quotaCheck ctx
    let u ← gets fun s => s.unevaluated ctx [x]
    let (lh, hw) ← gets fun s => match s.ctxOf ctx with
      | some c => (c.lh, c.hw)
      | none => (0, 0)
    check (decide (u ≤ lh)) cArenaFull (BitVec.ofNat 64 (2 * u))
    let h ← makeHandle ctx x
    if hw < u then change fun s => s.demand ctx h s.myClass 0 else pure ()
    putW w h) s

/-! ## TASK -/

/-- One footprint entry as read (R123). -/
structure RawEntry where
  write : Bool
  used : Bool
  named : Bool
  place : Word
  len : Nat
  deriving DecidableEq, Repr

/-- The eight entries of a footprint block. -/
def rawEntries (bs : List Byte) : List RawEntry :=
  (List.range 8).map fun i =>
    let x := fieldAt bs (16 * i + 8) 8
    let named := natBit x 63
    let len := natBits x 56 0
    ⟨decide (4 ≤ i), named || decide (len ≠ 0), named, wordAt bs (16 * i), if named then 0 else len⟩

/-- Whether ranges a, a + n and b, b + m overlap. -/
def overlap (a n b m : Nat) : Bool := decide (0 < n) && decide (0 < m) && decide (a < b + m) && decide (b < a + n)

/-- An unnamed range must be global (R123); an unnamed write range must not overlap an unnamed read range of the same
card (R132). -/
def rangeOk (all : List RawEntry) (e : RawEntry) : Bool :=
  decide (e.place.toNat + e.len ≤ 2 ^ 57) &&
    (!e.write || all.all fun r => r.write || r.named || !overlap r.place.toNat r.len e.place.toNat e.len)

/-- The checks of one footprint entry (R136 step 1). -/
def entryCheck (ctx : Nat) (w : Norom) (all : List RawEntry) (e : RawEntry) : M Unit :=
  if !e.used then pure ()
  else if e.named then do
    let x ← heldHandle ctx e.place
    stateCheck x (fun x => if e.write then x.state = .cell else !x.effect) (badA w)
  else if rangeOk all e then pure () else badA w

/-- The own handle of the acting strand that the walk of R130 looks for, 0 for none: its task runs. That of a task stolen
from another package runs until every core has done its part. -/
def State.forcer (s : State) : Word :=
  match s.dispOf s.me with
  | some (_, d) =>
    let h := d.task.getD 0
    if s.isAway d.ctx h && d.cores.all (·.tdone) then 0 else h
  | none => 0

/-- The walk goes on in another package: what it finds there is free (log entry 11). It finds own only if there is one.
-/
def walkOn (own : Word) : M Unit := do
  let k ← draw Config.freeRemote
  let x ← draw Config.freeRemote
  match k % 3 with
  | 0 => if own = 0 then pure () else fault cSelfDependence (BitVec.ofNat 64 x)
  | 1 => fault cDemandDepth (BitVec.ofNat 64 x)
  | _ => pure ()

/-- The walk of R130 from a handle that is not VALUE, CELL or FAILED, for the acting strand. From a handle of another
package it is all made there. -/
def walkCheck (ctx : Nat) (h : Word) : M Unit := do
  match ← gets fun s => s.href ctx h with
  | .here _ x =>
    if x.state = .value ∨ x.state = .cell ∨ x.state = .failed then pure ()
    else do
      let own ← gets State.forcer
      let r ← gets fun s => s.demandWalk ctx h own (s.parentDepth ctx s.myTask)
      match r with
      | some (cause, info) => fault cause info
      | none => do
        let away ← gets fun s => s.walkAway ctx (s.walkLayer ctx) 65 [h]
        if away then walkOn own else pure ()
  | .away => do
    let own ← gets State.forcer
    check (decide (own = 0 ∨ h ≠ own)) cSelfDependence h
    walkOn own
  | .stale => pure ()

/-- Entries of the dependence table in use: incomplete effect tasks and bulk cards of the package (R132, R251). -/
def State.depUsed (s : State) : Nat :=
  sumNat (s.floor.contexts.map fun c => (c.2.handles.filter fun x =>
    x.2.effect && (x.2.state = .demanded || x.2.state = .ready || x.2.state = .running)).length) + s.floor.bulk.length

/-- The fresh version of a CELL of another package, whose engine allocates it: that finds no room, or waits for it, or
answers a tile, and all of it is free (log entry 11). -/
def awayVersion (h : Word) : M FootEntry := do
  let k ← draw Config.freeRemote
  let n ← draw Config.freeRemote
  match k % 3 with
  | 0 => fault cArenaFull (BitVec.ofNat 64 (2 * n))
  | 1 => block .arena
  | _ => do
    let t ← gets fun s => awayTile h s.draws
    pure ⟨true, true, some h, t.base, t.bytes, t⟩

/-- Resolves an entry to what the task receives (R123, R133). A write entry takes a fresh version, which becomes
current; its rows are packed (log entry 81). A pure handle that has no tile yet gives its range when it is VALUE
(FootEntry.fill). -/
def resolveEntry (ctx : Nat) (e : RawEntry) : M FootEntry :=
  if !e.used then pure ⟨false, e.write, none, 0, 0, Tile.none⟩
  else if !e.named then pure ⟨true, e.write, none, e.place.toNat, e.len, Tile.none⟩
  else if !e.write then do
    let t ← gets fun s => s.argTile ctx e.place
    pure ⟨true, false, some e.place, t.base, t.bytes, t⟩
  else do
    match ← gets fun s => s.href ctx e.place with
    | .here i x => do
      let stride := rowUnits x.type x.cols
      let n := 16 * stride * x.rows
      let r ← gets fun s => s.arenaAlloc ctx n
      match r.2 with
      | none => do
        let idle ← gets fun s => match s.ctxOf ctx with
          | some c => noneRunning c
          | none => true
        check (!idle) cArenaFull (BitVec.ofNat 64 (2 * n))
        block .arena
      | some b => do
        let t : Tile := ⟨b, x.rows, x.cols, stride, x.type⟩
        change fun _ => r.1.onCtx ctx fun c => { c with
          orphans := c.orphans ++ x.versions.filter (·.owned)
          handles := c.handles.modify i fun y => { y with versions := [⟨t, none, true, 0⟩] } }
        pure ⟨true, true, some e.place, b, t.bytes, t⟩
    | .away => awayVersion e.place
    | .stale => pure ⟨true, true, some e.place, 0, 0, Tile.none⟩

/-- Resolves the entries in order. -/
def resolveEntries (ctx : Nat) : List RawEntry → M (List FootEntry)
  | [] => pure []
  | e :: t => do
    let x ← resolveEntry ctx e
    let xs ← resolveEntries ctx t
    pure (x :: xs)

/-- Whether an earlier task's entry y makes it a predecessor of a task with entry x (R132). -/
def edgeBetween (y x : FootEntry) : Bool :=
  y.used && x.used && overlap y.addr y.len x.addr x.len &&
    ((y.write && y.named.isNone) || (!y.write && x.write && x.named.isNone))

/-- An earlier task's entry as it stands: a pure handle that it reads may have got its tile since (R132). -/
def State.footNow (s : State) (ctx : Nat) (f : FootEntry) : FootEntry :=
  match f.named with
  | none => f
  | some h => match s.href ctx h with
    | .here _ x => if x.effect ∨ x.state = .cell ∨ x.tile = Tile.none then f else f.fill h x.tile
    | _ => f

/-- Incomplete effect tasks of a context that an entry list depends on (R132). -/
def overlapPreds (s : State) (ctx : Nat) (foot : List FootEntry) : List Word :=
  match s.ctxOf ctx with
  | none => []
  | some c => c.handles.filterMap fun y =>
      if y.2.effect && (y.2.state = .demanded || y.2.state = .ready || y.2.state = .running) &&
          y.2.foot.any fun a => foot.any fun b => edgeBetween (s.footNow ctx a) b
      then some (handleWord y.2.gen s.domain.index y.1) else none

/-- What a named read entry waits for: the producer of a CELL's version, or a pure handle that is not VALUE (R132,
R133). -/
def namedPred (s : State) (ctx : Nat) (h : Word) : Option Word :=
  match s.href ctx h with
  | .here _ x =>
    if x.state = .cell then
      match x.versions with
      | v :: _ => match v.producer with
        | some p => match s.href ctx p with
          | .here _ y => if y.state = .value ∨ y.state = .failed then none else some p
          | _ => none
        | none => none
      | [] => none
    else if x.state = .value then none else some h
  | _ => none

/-- The named reads of a footprint. -/
def namedReads (es : List RawEntry) : List Word := (es.filter fun e => e.used && e.named && !e.write).map (·.place)

/-- A fresh version's producer is the task that writes it (R133). -/
def setProducer (ctx : Nat) (x : Word) (es : List RawEntry) (s : State) : State :=
  (es.filter fun e => e.used && e.named && e.write).foldl (fun t e => match t.href ctx e.place with
    | .here i _ => t.onHandle ctx i fun y => { y with versions := y.versions.map fun v =>
        if v.producer = none ∧ v.owned then { v with producer := some x } else v }
    | _ => t) s

/-- Demands the pure handles that a task's named reads await; the first that has failed answers its cause (R132). The
answers l are those of other packages. -/
def awaitReads (ctx : Nat) (cls : Nat) (l : List (Word × AwayState)) : List Word → State → State × Option Byte
  | [], s => (s, none)
  | h :: t, s =>
    match s.href ctx h with
    | .here _ x =>
      if x.state = .cell then awaitReads ctx cls l t s
      else if x.state = .failed then (s, some x.cause)
      else awaitReads ctx cls l t (s.demand ctx h cls 0)
    | .away => match awayOf l h with
      | .failed c => (s, some c)
      | _ => awaitReads ctx cls l t s
    | .stale => awaitReads ctx cls l t s

/-- The reads that name a handle of another package which is not done, once for each (R132). -/
def State.openReads (s : State) (ctx : Nat) (l : List (Word × AwayState)) (reads : List Word) : List Word :=
  reads.eraseDups.filter fun h => s.isAway ctx h && !s.slotDone ctx l h

/-- The handle that TASK makes from a card (R122, R136), with what it waits for. -/
def taskHandle (a : Word) (bs : List Byte) (foot : List FootEntry) (preds awaits : List Word) : Handle :=
  { Handle.blank with
    state := .demanded
    effect := true
    card := a
    cls := fieldAt bs 0x61 1 % 8
    neverStolen := true
    foot := foot
    preds := preds
    awaits := awaits
    pending := preds.length + awaits.length }

/-- What other packages answer for the handles among some words that are theirs. -/
def asking (ctx : Nat) (hs : List Word) : M (List (Word × AwayState)) := fun s =>
  let r := State.askAway ctx hs s
  .ok (r.2, r.1)

/-- TASK (R136). -/
def execTask (w : Norom) (s : State) : Host.Outcome State Fault Refusal :=
  outcome (lineE ⟨anyMod, fGd, fG, fNo⟩ w fun v => do
    let a := low v.a
    let bs ← readCard a 128
    if cardOk bs then pure () else badA w
    let fp ← readCard (wordAt bs 0x68) 128
    let ctx ← gets State.myCtx
    let es := rawEntries fp
    forAll (entryCheck ctx w es) es
    quotaCheck ctx
    forAll (walkCheck ctx) (namedReads es)
    let used ← gets State.depUsed
    await (decide (used < Config.depEntries)) .depRoom
    let reads := namedReads es
    let named ← gets fun s => reads.filterMap (namedPred s ctx)
    let foot ← resolveEntries ctx es
    let preds ← gets fun s => (overlapPreds s ctx foot ++ named).eraseDups
    let l ← asking ctx reads.eraseDups
    let awaits ← gets fun s => s.openReads ctx l reads
    let x := taskHandle a bs foot preds awaits
    let h ← makeHandle ctx x
    change fun s =>
      match awaitReads ctx x.cls l reads ((setProducer ctx h es s).sweepVersions ctx) with
      | (s2, some cause) => s2.failHandle ctx (handleIndex h) cause
      | (s2, none) => s2.tryReady ctx (handleIndex h)
    putW w h) s

/-! ## FORCE -/

/-- A finished handle's tile base: 0 for an effect task (R132, R137). -/
def valueBase (x : Handle) : Word := BitVec.ofNat 64 x.tile.base

/-- EVAL_FAILED with the recorded cause (R134). -/
def evalFailed {α : Type} (cause : Byte) : M α := fault cEvalFailed (cause.setWidth 64)

/-- Ends a FORCE with a value. -/
def forceEnd (w : Norom) (x : Word) : M (Option (BitVec 13 × Run)) := do
  putW w x
  let r ← goOn
  pure (some r)

/-- A producer that a CELL's FORCE waits for: done, still at work, or failed with a cause. -/
def producerState (s : State) (ctx : Nat) (p : Word) : Option (Option Byte) :=
  match s.href ctx p with
  | .here _ y =>
    if y.state = .value then some none else if y.state = .failed then some (some y.cause) else none
  | _ => some none

/-- Waits, in a state that keeps what FORCE has done. -/
def keepWaiting (w : Wait) : M (Option (BitVec 13 × Run)) := do
  change fun s => s.enterWait w
  pure none

/-- FORCE of a CELL: the version current when the FORCE began (R133, R137). -/
def forceCell (w : Norom) (ctx : Nat) (h : Word) (x : Handle) : M (Option (BitVec 13 × Run)) := do
  let run ← gets fun s => s.my.e.run
  let (base, p, cause) := match run with
    | .waiting (.version g b p) _ _ => if g = h then (b, some p, (0 : Byte)) else (0, none, 0)
    | _ => match x.versions with
      | v :: _ => (v.tile.base, v.producer, v.cause)
      | [] => (0, none, 0)
  if cause ≠ 0 then evalFailed cause
  else match p with
    | none => forceEnd w (BitVec.ofNat 64 base)
    | some q =>
      match ← gets fun s => producerState s ctx q with
      | some none => do
        forceEnd w (BitVec.ofNat 64 base)
      | some (some c) => evalFailed c
      | none => keepWaiting (.version h base q)

/-- FORCE of a handle of another package: what that package answers is free, that it is not done yet among them (log
entry 11). Only the own handle of a stolen task is known: it is RUNNING (R130). -/
def forceAway (w : Norom) (h : Word) : M (Option (BitVec 13 × Run)) := do
  let own ← gets State.forcer
  check (decide (own = 0 ∨ h ≠ own)) cSelfDependence h
  let k ← draw Config.freeRemote
  let x ← draw Config.freeRemote
  match k % 6 with
  | 0 => fault cHandleStale h
  | 1 => evalFailed (BitVec.ofNat 8 x)
  | 2 => if own = 0 then keepWaiting (.handle h) else fault cSelfDependence (BitVec.ofNat 64 x)
  | 3 => fault cDemandDepth (BitVec.ofNat 64 x)
  | 4 => keepWaiting (.handle h)
  | _ => forceEnd w (BitVec.ofNat 64 x)

/-- Once a waiting FORCE has ended, the entry that it kept is freed if nothing else refers to it (R126, R137). -/
def afterForce (s : State) (o : Host.Outcome State Fault Refusal) : Host.Outcome State Fault Refusal :=
  match o with
  | .next t =>
    match s.my.e.run with
    | .waiting (.handle h) _ _ => .next (t.reap s.myCtx h)
    | .waiting (.version h _ p) _ _ => .next ((t.reap s.myCtx p).reap s.myCtx h)
    | _ => .next t
  | o => o

/-- FORCE (R137). A demand that ends at once in VALUE or FAILED stays done: the wait is over when it begins. -/
def execForce (w : Norom) (s : State) : Host.Outcome State Fault Refusal :=
  afterForce s (outcome (instrKeep ⟨anyMod, fGd, fG, fNo⟩ w fun v => do
    let h := low v.a
    let ctx ← gets State.myCtx
    match ← gets fun s => s.href ctx h with
    | .stale => fault cHandleStale h
    | .away => forceAway w h
    | .here _ x =>
      match x.state with
      | .cell => forceCell w ctx h x
      | .value => forceEnd w (valueBase x)
      | .failed => evalFailed x.cause
      | _ => do
        walkCheck ctx h
        change fun s => s.demand ctx h s.myClass s.myTask
        keepWaiting (.handle h)) s)

/-! ## The other demand instructions -/

/-- SPARK (R138). -/
def execSpark (w : Norom) (s : State) : Host.Outcome State Fault Refusal :=
  outcome (lineE ⟨anyMod, fNo, fG, fNo⟩ w fun v => do
    let h := low v.a
    let ctx ← gets State.myCtx
    match ← gets fun s => s.href ctx h with
    | .stale => fault cHandleStale h
    | .away => do
      let ok ← remoteOk
      check ok cHandleStale h
    | .here i x =>
      change fun s =>
        match s.ctxOf ctx with
        | some c =>
          if x.state = .suspended ∧ c.sparks.length < Config.sparkEntries then
            (s.onHandle ctx i fun y => { y with sparked := true }).onCtx ctx fun c =>
              { c with sparks := c.sparks ++ [h] }
          else s
        | none => s) s

/-- DROP (R139). -/
def execDrop (w : Norom) (s : State) : Host.Outcome State Fault Refusal :=
  outcome (lineE ⟨anyMod, fNo, fG, fNo⟩ w fun v => do
    let ctx ← gets State.myCtx
    let _ ← heldHandle ctx (low v.a)
    change fun s => s.drop ctx (low v.a)) s

/-- HDUP (R139). -/
def execHdup (w : Norom) (s : State) : Host.Outcome State Fault Refusal :=
  outcome (lineE ⟨anyMod, fNo, fG, fNo⟩ w fun v => do
    let h := low v.a
    let ctx ← gets State.myCtx
    match ← heldHandle ctx h with
    | some x =>
      if x.refs = 0xFFFFFFFF then badA w
      else change fun s => s.onHandle ctx (handleIndex h) fun y => { y with refs := y.refs + 1 }
    | none => do
      let ok ← remoteOk
      if ok then pure () else badA w) s

/-- The handle that HMAKE makes (R126, R140). -/
def madeHandle (t : Tile) (cell : Bool) : Handle :=
  { Handle.blank with
    state := if cell then .cell else .value
    tile := t
    rows := t.rows
    cols := t.cols
    type := t.type
    versions := if cell then [⟨t, none, false, 0⟩] else [] }

/-- HMAKE (R140). -/
def execHmake (w : Norom) (s : State) : Host.Outcome State Fault Refusal :=
  outcome (lineE ⟨anyMod, fGd, fG, fNo⟩ w fun v => do
    let bs ← readCard (low v.a) 16
    match tileOf bs with
    | none => badA w
    | some t => do
      check (decide (t.base < 2 ^ 57)) cBadAperture (BitVec.ofNat 64 t.base)
      let ctx ← gets State.myCtx
      quotaCheck ctx
      let h ← makeHandle ctx (madeHandle t (w.mod.getLsbD 0))
      putW w h) s

/-- HSTAT (R12, R134). -/
def execHstat (w : Norom) (s : State) : Host.Outcome State Fault Refusal :=
  outcome (lineE ⟨anyMod, fGd, fG, fNo⟩ w fun v => do
    let ctx ← gets State.myCtx
    match ← gets fun s => s.href ctx (low v.a) with
    | .here _ x => putW w (BitVec.ofNat 64 x.state.code)
    | .stale => putW w 0
    | .away => do
      let k ← draw Config.freeRemote
      putW w (BitVec.ofNat 64 (k % 8))) s

/-! ## TDONE -/

/-- Whether S has come to rest: stopped, or in a pop of sq or bos (R141). -/
def Core.sAtRest (c : Core) : Bool :=
  match c.s.run with
  | .stopped => true
  | .waiting .queues _ _ => c.s.held.isNone
  | _ => false

/-- Whether L, S and the engines of a core have drained (R141). -/
def State.drained (s : State) (n : Nat) : Bool :=
  let c := s.core n
  decide (c.q.sq = []) && decide (c.q.bos = []) && c.sAtRest && decide (c.mx.queue = []) && decide (c.copy = []) &&
    s.floor.bulk.all (fun b => b.core ≠ n || some b.disp ≠ (s.core n).disp) &&
    s.floor.attn.all (fun a => a.core ≠ n || some a.disp ≠ (s.core n).disp)

/-- One core's part of a task is done; the last makes the handle VALUE (R141, R126). -/
def State.markDone (s : State) (n : Nat) : State :=
  match s.dispOf n with
  | none => s
  | some (d, x) =>
    if (s.core n).tdone then s
    else
      let s1 := (s.onCore n fun c => { c with tdone := true }).onDisp d fun x => { x with
        cores := x.cores.map fun y => if y.cur = n then { y with tdone := true } else y }
      match s1.disp d with
      | none => s1
      | some y =>
        if y.cores.all (·.tdone) then
          match taskIndex s1 x with
          | some i => s1.completeHandle x.ctx i
          | none => s1.tellHome x .done
        else s1

/-- TDONE (R141). A core that is done already waits for its drain too, and then nothing happens (log entry 78). -/
def execTdone (w : Norom) (s : State) : Host.Outcome State Fault Refusal :=
  outcome (lineE ⟨anyMod, fNo, fNo, fNo⟩ w fun _ => do
    let own ← gets State.myTask
    check (decide (own ≠ 0)) cIllegalOpcode 0x96
    let ok ← gets fun s => s.drained s.me
    await ok .drain
    change fun s => s.markDone s.me) s

/-! ## Steps of the engine -/

/-- The bytes that a failing allocation of a handle asked for: its result tile, or its argument record. -/
def askedBytes (s : State) (ctx : Nat) (x : Handle) : Nat :=
  if x.effect then 256 else if (s.arenaAlloc ctx (resultBytes x)).2.isNone then resultBytes x else 256

/-- ARENA_ALLOCATION (R129): the waiting allocation of a handle completes, or fails with ARENA_FULL when no task of
the context runs in the package; the event of kind 1 names the handle (R351). -/
def execArenaAllocation (s : State) : Host.Outcome State Fault Refusal :=
  match s.arg with
  | .handle ctx i =>
    match s.hget ctx i, s.ctxOf ctx with
    | some x, some c =>
      let t := s.tryReady ctx i
      match t.hget ctx i with
      | some y =>
        if x.state = .demanded ∧ x.pending = 0 ∧ y.state = .demanded ∧ noneRunning c then
          let w := whoFloor s
          .next ((s.failHandle ctx i cArenaFull).ctxEvent ⟨ctx, 1, cArenaFull, w.strand, w.place, w.pc,
            handleWord x.gen s.domain.index i, leBytes 8 (askedBytes s ctx x)⟩)
        else .next t
      | none => .next t
    | _, _ => .next s
  | _ => .next s

/-- Cores of the package that are free. -/
def State.freeCoreCount (s : State) : Nat := ((List.range Config.cores).filter s.coreFree).length

/-- Whether a READY task of any class waits for cores. -/
def State.taskWaits (s : State) : Bool :=
  s.floor.dispatches.any fun d => d.2.phase = .queued && d.2.task.isSome

/-- Whether a spark's handle is still SUSPENDED with the same generation. -/
def State.sparkLive (s : State) (ctx : Nat) (h : Word) : Bool :=
  match s.href ctx h with
  | .here _ x => x.state = .suspended
  | _ => false

/-- SPARK_TAKE (R138): with a core free and no READY task waiting, older sparks that have fizzled are discarded and
the oldest live one demands its handle. A spark that has fizzled keeps its entry until then (log entry 78). -/
def execSparkTake (s : State) : Host.Outcome State Fault Refusal :=
  match s.arg with
  | .ctx ctx =>
    match s.ctxOf ctx with
    | some c =>
      if s.freeCoreCount = 0 ∨ s.taskWaits then .next s
      else
        match c.sparks.dropWhile fun h => !s.sparkLive ctx h with
        | h :: rest => .next ((s.onCtx ctx fun c => { c with sparks := rest }).demand ctx h 7 0)
        | [] => .next (s.onCtx ctx fun c => { c with sparks := [] })
    | none => .next s
  | _ => .next s

end Sys2Proof.Machine
end

