-- ==== Sys2Proof/Machine/Engine.lean ====
section
/-!
DEFINITION. What the engines of a core share: reading blocks and cards at issue, the checks of areas, performing a
command piece by piece, and the disposal of a fault (spec/07_segmented_scan.md R143, R149;
spec/09_matrix_engine.md R171, R180; spec/13_synchronising_asynchronous.md R245 to R248).
-/
namespace Sys2Proof.Machine

open Sys2Proof

/-! ## Checks at issue -/

/-- Aperture, alignment where it is checked here, and reading of n bytes at issue, for the acting strand (R171 step
1). -/
def issueRead (kind : Kind) (aligned : Bool) (a : Word) (n : Nat) : M (List Byte) := do
  let via ← gets viaMe
  check (aperture a.toNat n).isSome cBadAperture a
  check (!aligned || decide (a.toNat % 16 = 0)) cMisaligned a
  engineRead via a n kind

/-- Reads a block of n bytes. -/
def readBlock (a : Word) (n : Nat) : M (List Byte) := issueRead .read true a n

/-- Reads a card of n bytes: its fault record shows access code 3 (R279). -/
def readJob (a : Word) (n : Nat) : M (List Byte) := issueRead .card true a n

/-- The apertures that an area may lie in. -/
inductive Area where
  | own | ownOrGlobal | plain
  deriving DecidableEq, Repr

/-- Whether n bytes at an exact address (R6) lie in one row of R54 that the area accepts. -/
def inAreaAt (k : Area) (a n : Nat) : Bool :=
  match k, aperture a n with
  | _, some (.own _) => true
  | .ownOrGlobal, some (.global _) => true
  | .plain, some (.global _) => true
  | .plain, some (.remote _ _) => true
  | _, _ => false

/-- Whether n bytes at an address lie in one row of R54 that the area accepts. -/
def inArea (k : Area) (a : Word) (n : Nat) : Bool := inAreaAt k a.toNat n

/-- The exact address of the first row of an area, n bytes at a + i · stride, that lies outside (R6, R171 step 4,
R246). -/
def rowOutside (k : Area) (a : Word) (rows stride n : Nat) : Option Nat :=
  ((List.range rows).map fun i => a.toNat + i * stride).find? fun x => !inAreaAt k x n

/-- Every row of an area lies in it, or BAD_APERTURE names the first that does not: the low 64 bits of its address
(log entry 75). -/
def rowsCheck (k : Area) (a : Word) (rows stride n : Nat) : M Unit :=
  match rowOutside k a rows stride n with
  | none => pure ()
  | some x => fault cBadAperture (BitVec.ofNat 64 x)

/-- The check of an area of rows: its aperture, then its alignment. -/
def areaCheck (k : Area) (a : Word) (rows stride n : Nat) : M Unit := do
  rowsCheck k a rows stride n
  check (decide (a.toNat % 16 = 0)) cMisaligned a

/-- ILLEGAL_OPERAND at A unless p holds. -/
def orBadA (w : Norom) (p : Bool) : M Unit := if p then pure () else badA w

/-! ## Faults met while a command is performed (R180, R248) -/

/-- Defers a fault to E of a core saved in an image. -/
def deferImage (d rank : Nat) (x : Deferred) (s : State) : State :=
  s.onFloor fun f => { f with images := f.images.map fun i =>
    if i.disp = d ∧ i.rank = rank then
      { i with core := { i.core with e := { i.core.e with deferred := i.core.e.deferred ++ [x] } } }
    else i }

/-- A fault reaches E of a core that stands in an image. Where E has halted it ends the dispatch (R180), and so does one
for a core that a lost die has stopped (R323; log entry 64). -/
def State.deliverAway (s : State) (d rank : Nat) (who : Who) (f : Flt) : State :=
  if s.floor.images.any fun i => i.disp = d && i.rank = rank && i.core.e.run ≠ .stopped then
    deferImage d rank ⟨f.cause, f.info⟩ s
  else s.failInfo d who f.cause f.info

/-- Whether a dispatch is a plain restartable launch. -/
def Dispatch.stalls (d : Dispatch) : Bool := d.restartable && d.task.isNone

/-- The causes with which a queued matrix command aborts a task (R180, R181). -/
def matrixAborts (c : Byte) : Bool := c = cTranslation || c = cPoison || c = cGangAbort

/-- The faults of a job or bulk card that abort a task: those that R248 lists (log entry 74). BARRIER_OVERFLOW of its
arrival is not among them, and its class is strand-precise (R341; log entry 96). -/
def cardAborts (c : Byte) : Bool := c ≠ cBarrierOverflow

/-- Disposes of a fault of an engine of core n working for strand k: a stall, the abort of a task where the fault
aborts one, or the discard of the queue and delivery to the issuer. -/
def State.engineFault (s : State) (n : Nat) (k : Strand) (f : Flt) (aborts : Bool) (stall discard : Core → Core) :
    State :=
  match s.dispOf n with
  | none => s.onCore n discard
  | some (i, d) =>
    let s1 := s.recordFault d.ctx (some d) f
    if f.cause = cTranslation ∧ d.stalls then s1.onCore n stall
    else if aborts ∧ d.liveTask then
      s1.abortTask i (whoEngine s n) f.cause f.info (f.cause = cTranslation)
    else (s1.onCore n discard).deliver n k f

/-- The granule that a wait is for. -/
def Wait.unread (w : Wait) : Option Word :=
  match w with
  | .granule va => some va
  | _ => none

/-- An engine's access waits: a stall on a page of a dugout entry is reported (R275). -/
def State.engineWait (s : State) (ctx : Nat) (w : Wait) (who : Who) : State :=
  match w with
  | .page va => s.reportStall ctx va.toNat who
  | _ => s

/-- An engine has made progress (R345). -/
def State.engineProgress (s : State) (n : Nat) : State :=
  s.onCore n fun c => ({ c with progress := s.time.toNat }).settle

/-- The POISON of a queue entry (R348): the oldest entry of an engine queue is poisoned. -/
def entryPoison (n id : Nat) : M Unit := do
  let bad ← gets fun s => decide ((id, 0) ∈ (s.core n).poison.entries)
  check (!bad) cPoison (BitVec.ofNat 64 id)

/-- Moves the poison marks of a queue up by one place. -/
def popMarks (id : Nat) (c : Core) : Core :=
  if c.poison.entries = [] then c
  else { c with poison := { c.poison with entries := (c.poison.entries.filter (· ≠ (id, 0))).map fun e =>
    if e.1 = id then (e.1, e.2 - 1) else e } }

/-- Drops every poison mark of a queue. -/
def dropMarks (id : Nat) (c : Core) : Core :=
  { c with poison := { c.poison with entries := c.poison.entries.filter (·.1 ≠ id) } }

end Sys2Proof.Machine
end

