-- ==== Sys2Proof/Machine/Links.lean ====
section
/-!
DEFINITION. The Dolvia links: flits, their numbers, credits and replay, and what the part sends (spec/
21_host_fabric_firmware.md R364). Log entries 29 and 85.
-/
namespace Sys2Proof.Machine

open Sys2Proof

/-! ## Flits -/

/-- The generator polynomial of CRC-64 of ECMA-182, without its leading term. -/
def crcPoly : BitVec 64 := 0x42F0E1EBA9EA3693

/-- n steps of the division, one bit each. -/
def crcBits : Nat → BitVec 64 → BitVec 64
  | 0, c => c
  | n + 1, c => crcBits n (if c.getLsbD 63 then (c <<< 1) ^^^ crcPoly else c <<< 1)

/-- CRC-64 over bytes: initial value 0, highest bit first, no final inversion (log entry 29). -/
def crc64 (bs : List Byte) : BitVec 64 :=
  bs.foldl (fun (c : BitVec 64) (b : Byte) => crcBits 8 (c ^^^ (b.setWidth 64 <<< 56))) 0

/-- Bytes 0 to 119 of a flit. -/
def flitBytes (f : Flit) : List Byte :=
  [f.kind, f.flags] ++ leBytes 2 f.seq.toNat ++ leBytes 2 f.ack.toNat ++ leBytes 2 f.credits.toNat ++ [f.dst, f.src] ++
    leBytes 2 0 ++ leBytes 4 f.e2e.toNat ++ (f.payload ++ List.replicate 104 0).take 104

/-! ## Links -/

/-- A link that has seen no flit. -/
def Link.fresh : Link where
  up := true
  nextSeq := 0
  failed := 0
  replayAsked := none
  sendSeq := 0
  kept := []
  spent := 0
  owed := 0

/-- A link. -/
def State.link (s : State) (n : Nat) : Link := s.domain.links.get .fresh n

/-- Changes the domain. -/
def State.onDomain (s : State) (f : Domain → Domain) : State := { s with domain := f s.domain }

/-- Writes a link. -/
def State.setLink (s : State) (n : Nat) (l : Link) : State := s.onDomain fun d => { d with links := d.links.put n l }

/-- Links of a package (R364). -/
def linkCount : Nat := 18

/-- Flits that a sender keeps for replay (R364). -/
def replayDepth : Nat := 256

/-- The link to a package that the part sends on: the first of the route table's that is up and has credit. -/
def State.outLink (s : State) (pkg : Nat) : Option Nat :=
  (List.range linkCount).find? fun n =>
    ((s.domain.routes.getD pkg 0).getLsbD n) && (s.link n).up && decide ((s.link n).spent < Config.linkCredits)

/-- A flit as a link sends it: with the link's numbers, the credits it returns, and its CRC. -/
def Link.stamp (l : Link) (f : Flit) : Flit :=
  let g := { f with seq := l.sendSeq, ack := l.nextSeq - 1, credits := BitVec.ofNat 16 l.owed }
  { g with crc := crc64 (flitBytes g) }

/-- Sends a flit on a link, which keeps it for replay. -/
def State.putFlit (s : State) (n : Nat) (f : Flit) : State :=
  let l := s.link n
  let g := l.stamp f
  let kept := l.kept ++ [g]
  (s.setLink n { l with
    sendSeq := l.sendSeq + 1, kept := kept.drop (kept.length - replayDepth), spent := l.spent + 1, owed := 0 }).onDomain
      fun d => { d with sent := d.sent ++ [(n, g)] }

/-- Sends a flit towards its destination, or lets it wait for a link. -/
def State.sendFlit (s : State) (f : Flit) : State :=
  match s.outLink f.dst.toNat with
  | some n => s.putFlit n f
  | none => s.onDomain fun d => { d with waiting := d.waiting ++ [f] }

/-- Tries the flits that wait for a link, oldest first. -/
def State.flushFlits (s : State) : State :=
  s.domain.waiting.foldl State.sendFlit (s.onDomain fun d => { d with waiting := [] })

/-- Asks a link's sender for replay from the last good number. The request has no number of its own: it is not kept and
takes no credit (log entry 85). -/
def State.askReplay (s : State) (n : Nat) : State :=
  let f : Flit := {
    kind := Config.replayKind, flags := 0, seq := 0, ack := 0, credits := 0, dst := 0, src := BitVec.ofNat 8 s.domain.index
    e2e := 0, payload := [], crc := 0 }
  let l := s.link n
  (s.setLink n { l with owed := 0 }).onDomain fun d => { d with sent := d.sent ++ [(n, l.stamp f)] }

/-- A flit of this package for another, with the next end-to-end number of the pair; its kind, flags and payload are
free, but that its kind is not that of a request for replay. -/
def State.newFlit (s : State) (pkg : Nat) : State :=
  let bs := leBytes 106 (Config.freeFlit s.draws)
  let k := s.domain.e2eOut.get 0 pkg
  let f : Flit := {
    kind := if byteAt bs 0 = Config.replayKind then byteAt bs 0 + 1 else byteAt bs 0, flags := byteAt bs 1
    seq := 0, ack := 0, credits := 0, dst := BitVec.ofNat 8 pkg
    src := BitVec.ofNat 8 s.domain.index, e2e := BitVec.ofNat 32 k, payload := bs.drop 2, crc := 0 }
  (({ s with draws := s.draws + 1 }).onDomain fun d => { d with e2eOut := d.e2eOut.put pkg ((k + 1) % 2 ^ 32) }).sendFlit f

/-- What n bytes for another package of the domain take: one flit for each 104 bytes. -/
def State.depart (s : State) (pkg n : Nat) : State :=
  if s.domain.joined && decide (pkg ∈ s.domain.live) && decide (pkg ≠ s.domain.index) then
    (List.range ((n + 103) / 104)).foldl (fun t _ => t.newFlit pkg) s
  else s

/-- A link takes what a flit tells its sender: flits up to the acknowledged number need no replay, and credits come
back. -/
def Link.heed (l : Link) (f : Flit) : Link :=
  { l with
    kept := if l.kept.any (·.seq = f.ack) then (l.kept.dropWhile (·.seq ≠ f.ack)).drop 1 else l.kept
    spent := l.spent - f.credits.toNat }

/-- Sends again, in order, every flit that a link keeps. -/
def State.replay (s : State) (n : Nat) : State :=
  s.onDomain fun d => { d with sent := d.sent ++ (s.link n).kept.map (fun g => (n, g)) }

/-- Whether a path reaches a package: a link of the route table's that is up, and all that lies past it (R364). -/
def State.reachable (s : State) (p : Nat) : Bool :=
  !(p ∈ s.domain.cut) && (List.range linkCount).any fun n => (s.domain.routes.getD p 0).getLsbD n && (s.link n).up

/-- Notes, after a change of the links or of the paths past them, which packages no path reaches, and since when. -/
def State.noteRoutes (s : State) : State :=
  let lost := (s.domain.live.filter (· ≠ s.domain.index)).filter fun p => !s.reachable p
  s.onDomain fun d => { d with
    unreached := lost.map fun p => (p, ((d.unreached.find? (·.1 == p)).map (·.2)).getD s.time.toNat) }

/-- Nanoseconds without a path after which a package is lost (R364). -/
def lossTime : Nat := 10000000

/-- Whether no path has reached a package for so long that it is lost (R364). -/
def State.lossDue (s : State) (p : Nat) : Bool :=
  s.domain.unreached.any fun x => x.1 = p && decide (x.2 + lossTime ≤ s.time.toNat)

/-- Moves the traffic of a link to the other links (R364). -/
def State.moveTraffic (s : State) (n : Nat) : State :=
  let l := s.link n
  l.kept.foldl State.sendFlit (s.setLink n { l with up := false, failed := 0, replayAsked := none, kept := [], spent := 0 })

/-- Delivers the flits that have come ahead, while the next one is among them. -/
def drainAhead (src : Nat) : Nat → Domain → Domain
  | 0, d => d
  | n + 1, d =>
    match d.ahead.find? fun f => f.src.toNat = src && f.e2e.toNat == d.e2e.get 0 src with
    | none => d
    | some f => drainAhead src n { d with
        ahead := d.ahead.filter (· ≠ f)
        delivered := d.delivered ++ [f]
        e2e := d.e2e.put src ((d.e2e.get 0 src + 1) % 2 ^ 32) }

/-- Takes a flit for this package in end-to-end order: a duplicate, by source and number, is discarded, and one that
comes early waits. -/
def takeFlit (f : Flit) (d : Domain) : Domain :=
  let src := f.src.toNat
  let gap := f.e2e - BitVec.ofNat 32 (d.e2e.get 0 src)
  if gap.getLsbD 31 || d.ahead.any (fun g => g.src = f.src && g.e2e = f.e2e) then d
  else drainAhead src (d.ahead.length + 1) { d with ahead := d.ahead ++ [f] }

end Sys2Proof.Machine
end

