-- ==== Sys2Proof/Machine/MemoryInstr.lean ====
section
/-!
DEFINITION. Plain loads and stores of E, and its byte barrier instructions
(spec/04_scalar_control_plain_memory.md R76 to R86; spec/03_cores_strands_launches.md R58 to R61).
Acquire and release marks have no further effect here, since every access performs when it issues (log entry 10).
-/
namespace Sys2Proof.Machine

open Sys2Proof

/-- The effective address of [a + b] (R76). -/
def effAddr (v : Vals) : Word := low v.a + low v.b

/-- A load of size bytes into D (R77): f forms the result. -/
def loadE (w : Norom) (size : Nat) (f : Nat → Word) : M Unit :=
  lineE ⟨anyMod, fGQd, fG, fGI⟩ w fun v => do
    let via ← gets viaMe
    let bs ← load via (effAddr v) size
    putW w (f (leNat bs))

/-- A store of the low size bytes of D (R78). -/
def storeE (w : Norom) (size : Nat) : M Unit :=
  lineE ⟨anyMod, fGIQ, fG, fGI⟩ w fun v => do
    let via ← gets viaMe
    store via (effAddr v) (leBytes size (low v.d).toNat)

/-- LDB (R77). -/
def execLdb (w : Norom) (s : State) : Host.Outcome State Fault Refusal :=
  outcome (loadE w 1 fun x => sextWord 8 x) s

/-- LDBU (R77). -/
def execLdbu (w : Norom) (s : State) : Host.Outcome State Fault Refusal :=
  outcome (loadE w 1 fun x => BitVec.ofNat 64 x) s

/-- LDH (R77). -/
def execLdh (w : Norom) (s : State) : Host.Outcome State Fault Refusal :=
  outcome (loadE w 2 fun x => sextWord 16 x) s

/-- LDHU (R77). -/
def execLdhu (w : Norom) (s : State) : Host.Outcome State Fault Refusal :=
  outcome (loadE w 2 fun x => BitVec.ofNat 64 x) s

/-- LDW (R77). -/
def execLdw (w : Norom) (s : State) : Host.Outcome State Fault Refusal :=
  outcome (loadE w 4 fun x => sextWord 32 x) s

/-- LDWU (R77). -/
def execLdwu (w : Norom) (s : State) : Host.Outcome State Fault Refusal :=
  outcome (loadE w 4 fun x => BitVec.ofNat 64 x) s

/-- LDD (R77). -/
def execLdd (w : Norom) (s : State) : Host.Outcome State Fault Refusal :=
  outcome (loadE w 8 fun x => BitVec.ofNat 64 x) s

/-- STB (R78). -/
def execStb (w : Norom) (s : State) : Host.Outcome State Fault Refusal := outcome (storeE w 1) s

/-- STH (R78). -/
def execSth (w : Norom) (s : State) : Host.Outcome State Fault Refusal := outcome (storeE w 2) s

/-- STW (R78). -/
def execStw (w : Norom) (s : State) : Host.Outcome State Fault Refusal := outcome (storeE w 4) s

/-- STD (R78). -/
def execStd (w : Norom) (s : State) : Host.Outcome State Fault Refusal := outcome (storeE w 8) s

/-- VLD (R79). -/
def execVld (w : Norom) (s : State) : Host.Outcome State Fault Refusal :=
  outcome (lineE ⟨anyMod, fVQd, fG, fGI⟩ w fun v => do
    let via ← gets viaMe
    let bs ← load via (effAddr v) 16
    putD w (BitVec.ofNat 128 (leNat bs))) s

/-- VST (R79). -/
def execVst (w : Norom) (s : State) : Host.Outcome State Fault Refusal :=
  outcome (lineE ⟨anyMod, fVQ, fG, fGI⟩ w fun v => do
    let via ← gets viaMe
    store via (effAddr v) (leBytes 16 v.d.toNat)) s

/-! ## Byte barriers (R82 to R86) -/

/-- A barrier address in the own scratchpad only (R82). -/
def ownBarrier (b : Word) : M Unit :=
  match aperture b.toNat 16 with
  | some (.own _) => check (b.toNat % 16 = 0) cMisaligned b
  | _ => fault cBadAperture b

/-- BBINIT (R83): pending and rearm n, phase 0, as one write of the 16 bytes. -/
def execBbinit (w : Norom) (s : State) : Host.Outcome State Fault Refusal :=
  outcome (lineE ⟨anyMod, fNo, fG, fGI⟩ w fun v => do
    let via ← gets viaMe
    ownBarrier (low v.a)
    let m := (low v.b).toNat % 2 ^ 63
    store via (low v.a) (leBytes 8 m ++ leBytes 8 m)) s

/-- BBEXP (R84). -/
def execBbexp (w : Norom) (s : State) : Host.Outcome State Fault Refusal :=
  outcome (lineE ⟨anyMod, fNo, fG, fGI⟩ w fun v => do
    let via ← gets viaMe
    barrierArg (low v.a)
    expect via (low v.a) (low v.b).toNat) s

/-- The arrival of a BBARR (R85). -/
def arriveE (w : Norom) : M Unit :=
  lineE ⟨anyMod, fNo, fG, fGI⟩ w fun v => do
    let via ← gets viaMe
    barrierArg (low v.a)
    arrive via (low v.a) (low v.b).toNat

/-- BBARR (R85). -/
def execBbarr (w : Norom) (s : State) : Host.Outcome State Fault Refusal := outcome (arriveE w) s

/-- BBWAIT (R86): waits until the phase differs from p[0]; a wait that has begun is released by the first flip after
it began (R61). -/
def execBbwait (w : Norom) (s : State) : Host.Outcome State Fault Refusal :=
  outcome (lineE ⟨anyMod, fNo, fG, fGI⟩ w fun v => do
    let via ← gets viaMe
    ownBarrier (low v.a)
    let p := (low v.b).getLsbD 0
    let ph ← barrierPhase via (low v.a)
    let r ← released (.barrier (low v.a) p)
    await (r || ph != p) (.barrier (low v.a) p)) s

/-- BBTEST (R86). -/
def execBbtest (w : Norom) (s : State) : Host.Outcome State Fault Refusal :=
  outcome (lineE ⟨anyMod, fGd, fG, fGI⟩ w fun v => do
    let via ← gets viaMe
    ownBarrier (low v.a)
    let ph ← barrierPhase via (low v.a)
    putW w (boolWord (ph != (low v.b).getLsbD 0))) s

end Sys2Proof.Machine
end

