-- ==== Sys2Proof/Machine/Sync.lean ====
section
/-!
DEFINITION. Atomics, fences, huddle barriers, messages, queue state and outcome flushing
(spec/13_synchronising_asynchronous.md R233 to R244, R252 to R255; spec/12_ordering_by_page_type.md R225, R230;
spec/19_scheduling_preemption.md R337). Order bits and scopes have no further effect, since every access performs when
it issues (log entry 10).
-/
namespace Sys2Proof.Machine

open Sys2Proof

/-! ## Atomics -/

/-- Width of an atomic in bytes: MOD[2] (R233). -/
def atomicSize (w : Norom) : Nat := if w.mod.getLsbD 2 then 8 else 4

/-- An atomic of OP 0x54 (R234): f forms the new value from the width, the old value and the operand. -/
def atomicE (w : Norom) (f : Nat → Nat → Nat → Nat) : M Unit :=
  lineE ⟨anyMod, fGd, fG, fGI⟩ w fun v => do
    let via ← gets viaMe
    let n := atomicSize w
    let x := (low v.b).toNat % 2 ^ (8 * n)
    let old ← atomicAt via (low v.a) n fun o => leBytes n (f (8 * n) (leNat o) x)
    putW w (BitVec.ofNat 64 (leNat old))

/-- AADD (R233). -/
def execAadd (w : Norom) (s : State) : Host.Outcome State Fault Refusal := outcome (atomicE w fun _ o x => o + x) s

/-- AMIN (R233). -/
def execAmin (w : Norom) (s : State) : Host.Outcome State Fault Refusal :=
  outcome (atomicE w fun k o x => if sextNat k o < sextNat k x then o else x) s

/-- AMAX (R233). -/
def execAmax (w : Norom) (s : State) : Host.Outcome State Fault Refusal :=
  outcome (atomicE w fun k o x => if sextNat k o < sextNat k x then x else o) s

/-- AMINU (R233). -/
def execAminu (w : Norom) (s : State) : Host.Outcome State Fault Refusal :=
  outcome (atomicE w fun _ o x => min o x) s

/-- AMAXU (R233). -/
def execAmaxu (w : Norom) (s : State) : Host.Outcome State Fault Refusal :=
  outcome (atomicE w fun _ o x => max o x) s

/-- AAND (R233). -/
def execAand (w : Norom) (s : State) : Host.Outcome State Fault Refusal := outcome (atomicE w fun _ o x => o &&& x) s

/-- AOR (R233). -/
def execAor (w : Norom) (s : State) : Host.Outcome State Fault Refusal := outcome (atomicE w fun _ o x => o ||| x) s

/-- AXOR (R233). -/
def execAxor (w : Norom) (s : State) : Host.Outcome State Fault Refusal := outcome (atomicE w fun _ o x => o ^^^ x) s

/-- AXCHG (R233). -/
def execAxchg (w : Norom) (s : State) : Host.Outcome State Fault Refusal := outcome (atomicE w fun _ _ x => x) s

/-- ACAS (R236): a failed comparison makes no write. -/
def execAcas (w : Norom) (s : State) : Host.Outcome State Fault Refusal :=
  outcome (lineE ⟨anyMod, fGb, fG, fGI⟩ w fun v => do
    let via ← gets viaMe
    let n := atomicSize w
    let e := (low v.d).toNat % 2 ^ (8 * n)
    let l ← accessAt via (low v.a) n .atomic
    let old ← gets fun s => leNat (locRead s l n)
    if old = e then change fun s => locWrite s l (leBytes n (low v.b).toNat) else pure ()
    putW w (BitVec.ofNat 64 old)) s

/-! ## Fences -/

/-- The serial after one: 0xFF_FFFF wraps to 1 (R237). -/
def nextSerial (k : Nat) : Nat := if k = 0xFFFFFF then 1 else k + 1

/-- The fence token of a serial, kinds and scope (R237). -/
def fenceToken (serial kinds scope : Nat) : Word := BitVec.ofNat 64 (serial * 256 + kinds % 16 * 16 + scope % 8)

/-- FENCE (R237). -/
def execFence (w : Norom) (s : State) : Host.Outcome State Fault Refusal :=
  outcome (lineE ⟨fun m => decide (m.toNat % 8 ≤ 4), fGd, fGI, fNo⟩ w fun v => do
    let mark ← gets fun s => s.floor.nextItem
    let k ← gets fun s => s.my.e.serial
    change fun s => s.onE fun e => { e with
      serial := nextSerial k, fences := ⟨k, mark⟩ :: e.fences.filter (·.serial ≠ k) }
    putW w (fenceToken k (low v.a).toNat (w.mod.toNat % 8))) s

/-- Serial, kinds and scope of a token. -/
def tokenSerial (t : Word) : Nat := natBits t.toNat 31 8
def tokenKinds (t : Word) : Nat := natBits t.toNat 7 4
def tokenScope (t : Word) : Nat := t.toNat % 8

/-- Whether every card that E of a core queued before a mark has completed (R237, R230). -/
def cardsBefore (s : State) (n mark : Nat) : Bool :=
  (s.core n).mx.queue.all (fun c => mark ≤ c.stamp) &&
    (s.core n).copy.all (fun c => c.issuer ≠ .e || mark ≤ c.stamp) &&
    s.floor.bulk.all (fun c => c.core ≠ n || some c.disp ≠ (s.core n).disp || mark ≤ c.id) &&
    s.floor.attn.all (fun c => c.core ≠ n || some c.disp ≠ (s.core n).disp || mark ≤ c.id)

/-- Whether the condition of a token holds at a core: loads, stores and atomics have performed when they issued, so
only the engine kind can be open (R230, R238). -/
def State.fenceDone (s : State) (n : Nat) (t : Word) : Bool :=
  if !natBit (tokenKinds t) 3 then true
  else match (s.core n).e.fences.find? (·.serial == tokenSerial t) with
    | none => true
    | some f => cardsBefore s n f.mark

/-- The check of a token: a serial and a scope (R238). -/
def tokenCheck (w : Norom) (t : Word) : M Unit := if tokenSerial t = 0 ∨ 4 < tokenScope t then badA w else pure ()

/-- FWAIT (R238). -/
def execFwait (w : Norom) (s : State) : Host.Outcome State Fault Refusal :=
  outcome (lineE ⟨anyMod, fNo, fG, fNo⟩ w fun v => do
    tokenCheck w (low v.a)
    let ok ← gets fun s => s.fenceDone s.me (low v.a)
    await ok (.fence (low v.a))) s

/-- FTEST (R238). -/
def execFtest (w : Norom) (s : State) : Host.Outcome State Fault Refusal :=
  outcome (lineE ⟨anyMod, fGd, fG, fNo⟩ w fun v => do
    tokenCheck w (low v.a)
    let ok ← gets fun s => s.fenceDone s.me (low v.a)
    putW w (boolWord ok)) s

/-! ## Huddles (R239) -/

/-- Whether a core of a unit is saved: the unit's watchdogs then stand still (R243, R317). -/
def State.unitAway (s : State) (k lv unit : Nat) : Bool :=
  s.floor.images.any fun i => i.disp = k && unitOf i.core.lvl lv = unit

/-- Whether a level is a row or a rectangle (R43). -/
def Level.flat (l : Level) : Bool := l.kind = 1 || l.kind = 2

/-- The outermost level of kind row or rectangle (R208). -/
def flatLevel (d : Dispatch) : Option Nat :=
  ((List.range d.levels.length).reverse).find? fun i =>
    match d.levels[i]? with
    | some l => l.flat
    | none => false

/-- The level of the huddle, when that level lies in a co-resident unit (R239, R44; log entry 14). -/
def huddleLevel (d : Dispatch) : Option Nat :=
  match flatLevel d, coLevel d with
  | some i, some j => if i ≤ j then some i else none
  | _, _ => none

/-- Cores of one unit of level i (R43). -/
def unitCores (d : Dispatch) (i : Nat) : Nat :=
  ((d.levels.take (i + 1)).map fun l => l.ex * l.ey).foldl (· * ·) 1

/-- The number of a core within its unit of level i: its level positions below i. -/
def coreInUnit (d : Dispatch) (lvl : Word) (i : Nat) : Nat :=
  sumNat ((List.range i).map fun k => lvl.toNat / 2 ^ (8 * k) % 256 * unitCores d k)

/-- The key of a huddle's register: its huddle and its number. -/
def huddleKey (lvl : Word) (i reg : Nat) : Nat := unitOf lvl i * 8 + reg

/-- Fields of a configuration word (R240). -/
def hbWord (x : Word) : Word := x &&& 0x0000FFFF01FF0007
def hbLevel (x : Word) : Nat := x.toNat % 8
def hbCount (x : Word) : Nat := natBits x.toNat 24 16
def hbWatch (x : Word) : Nat := if natBits x.toNat 47 32 = 0 then 10000 else natBits x.toNat 47 32

/-- The dispatch of the acting core and the level of its huddle; HUDDLE_OUTSIDE without one (R239). -/
def huddleHere : M (Nat × Dispatch × Nat) := do
  match ← gets fun s => s.dispOf s.me with
  | none => fault cHuddleOutside 0
  | some (k, d) =>
    match huddleLevel d with
    | none => fault cHuddleOutside 0
    | some i => pure (k, d, i)

/-- HBSET (R240). -/
def execHbset (w : Norom) (s : State) : Host.Outcome State Fault Refusal :=
  outcome (lineE ⟨anyMod, fNo, fSp .huddle, fG⟩ w fun v => do
    let (k, d, i) ← huddleHere
    let x := low v.b
    let lv := hbLevel x
    let lvl ← gets fun s => s.my.lvl
    check (decide (1 ≤ lv) && decide (lv ≤ i) && (match d.levels[lv]? with | some l => l.flat | none => false))
      cHuddleOutside x
    if unitCores d lv < hbCount x then badB w else pure ()
    let key := huddleKey lvl i v.a.toNat
    let old := d.hregs.get 0 key
    if old = 0 then change fun s => s.onDisp k fun d => { d with hregs := d.hregs.put key (hbWord x) }
    else if old = hbWord x then pure ()
    else badB w) s

/-- The barrier of a register and a unit; one not yet touched has phase 0 and no arrivals. -/
def hbarOf (d : Dispatch) (key unit : Nat) : HBarrier :=
  match d.hbars.find? fun b => b.reg == key && b.unit == unit with
  | some b => b
  | none => ⟨key, unit, false, [], none⟩

/-- Replaces a barrier. -/
def putHbar (d : Dispatch) (b : HBarrier) : Dispatch :=
  { d with hbars := b :: d.hbars.filter fun x => !(x.reg == b.reg && x.unit == b.unit) }

/-- Releases a core whose E waits for q, while the core is still one of dispatch k (R61, R242, R303). -/
def releaseWaiter (k : Nat) (q : Wait) (c : Core) : Core :=
  if c.disp = some k then
    match c.e.run with
    | .waiting r false since => if r = q then { c with e := { c.e with run := .waiting r true since } } else c
    | _ => c
  else c

/-- Releases the cores of a unit of dispatch k whose E waits for q. -/
def latchUnit (s : State) (k : Nat) (d : Dispatch) (lv unit : Nat) (q : Wait) : State :=
  d.cores.foldl (fun t y =>
    if !y.retired && decide (unitOf y.lvl lv = unit) then t.onCore y.cur (releaseWaiter k q) else t) s

/-- Releases the cores of a unit that wait for the phase of a huddle barrier to leave p (R242, R61). -/
def latchHuddle (s : State) (k : Nat) (d : Dispatch) (lv unit reg : Nat) (p : Bool) : State :=
  latchUnit s k d lv unit (.huddle reg p)

/-- A set register of the acting core's huddle: its dispatch, key and word. An unset one is ILLEGAL_OPERAND at A. -/
def huddleReg (w : Norom) (reg : Nat) : M (Nat × Dispatch × Nat × Word) := do
  let (k, d, i) ← huddleHere
  let lvl ← gets fun s => s.my.lvl
  let key := huddleKey lvl i reg
  let x := d.hregs.get 0 key
  if x = 0 then badA w else pure (k, d, key, x)

/-- HBARR (R241). -/
def execHbarr (w : Norom) (s : State) : Host.Outcome State Fault Refusal :=
  outcome (lineE ⟨anyMod, fGd, fSp .huddle, fNo⟩ w fun v => do
    let reg := v.a.toNat
    let (k, d, key, x) ← huddleReg w reg
    let lvl ← gets fun s => s.my.lvl
    let lv := hbLevel x
    let unit := unitOf lvl lv
    let b := hbarOf d key unit
    let id := coreInUnit d lvl lv
    check (!(id ∈ b.arrived)) cBarrierOverflow (BitVec.ofNat 64 reg)
    let count := if hbCount x = 0 then unitCores d lv else hbCount x
    let arrived := insertNat id b.arrived
    if arrived.length = count then
      change fun s => latchHuddle (s.onDisp k fun d => putHbar d ⟨key, unit, !b.phase, [], none⟩) k d lv unit reg b.phase
    else
      change fun s => s.onDisp k fun d =>
        putHbar d ⟨key, unit, b.phase, arrived, if b.arrived = [] then some s.time.toNat else b.since⟩
    putW w (boolWord b.phase)) s

/-- HBWAIT (R242). -/
def execHbwait (w : Norom) (s : State) : Host.Outcome State Fault Refusal :=
  outcome (lineE ⟨anyMod, fNo, fSp .huddle, fGI⟩ w fun v => do
    let reg := v.a.toNat
    let (_, d, key, x) ← huddleReg w reg
    let lvl ← gets fun s => s.my.lvl
    let p := (low v.b).getLsbD 0
    let r ← released (.huddle reg p)
    await (r || (hbarOf d key (unitOf lvl (hbLevel x))).phase != p) (.huddle reg p)) s

/-- The bit of a unit's arrivals as 32 bytes (R351). -/
def arrivalBytes (arrived : List Nat) : List Byte :=
  leBytes 32 (arrived.foldl (fun m i => m + 2 ^ (i % 256)) 0)

/-- HUDDLE_BARRIER_TIMEOUT (R243): a phase that has counted its watchdog ends the dispatch, and a record of kind 3
names the register, the level, the unit's position and its arrivals (R351). Log entry 50. -/
def execHuddleBarrierTimeout (s : State) : Host.Outcome State Fault Refusal :=
  match s.arg with
  | .barrier k key unit =>
    match s.disp k with
    | some d =>
      let x := d.hregs.get 0 key
      let b := hbarOf d key unit
      match b.since with
      | some t =>
        if !(s.unitAway k (hbLevel x) unit) ∧ t + hbWatch x * 1000 ≤ s.time.toNat then
          let id := key % 8 + 256 * hbLevel x + 65536 * (unit % 256)
          .next ((s.endDisp k cBarrierTimeout cBarrierTimeout).ctxEvent ⟨d.ctx, 3, cBarrierTimeout, 7, 65536 * s.domain.index, noPc,
            BitVec.ofNat 64 id, arrivalBytes b.arrived⟩)
        else .next s
      | none => .next s
    | none => .next s
  | _ => .next s

/-! ## Destinations on the fabric (R252, R337) -/

/-- The core index that a destination word names. -/
def destCore (w : Word) : Nat := coreAt (natBits w.toNat 9 8) (natBits w.toNat 7 4) (w.toNat % 16)

/-- The package that a destination word names. -/
def destPkg (w : Word) : Nat := natBits w.toNat 31 16

/-- A destination word without the bits that delivery ignores (R252, R304): two words name one target where these
agree. -/
def destKey (w : Word) : Word := w &&& 0x000FFFFFFFFF03FF

/-- Nanoseconds that a message or transfer lives (R52). -/
def fabricLife : Nat := 1000000

/-- Whether what was sent at t has outlived its lifetime (R52). -/
def State.tooOld (s : State) (t : Nat) : Bool := decide (t + fabricLife ≤ s.time.toNat)

/-- Whether a destination word of a sender of dispatch d, if it has one here, names another package than this: one that
its dispatch's home view shows is carried by the relocation (R337). -/
def State.destAway (s : State) (d : Option Nat) (w : Word) : Bool :=
  decide (destPkg w ≠ s.domain.index) && !(match d.bind s.disp with
    | some x => decide (destPkg w = x.pkg) && decide (destGen w = x.gen)
    | none => false)

/-- The core of this package that a destination word reaches for a sender of dispatch d, if it has one here: the home
view for its own first generation, else the core that stands there, if it runs a strand of that generation (R53, R337). -/
def State.reaches (s : State) (d : Option Nat) (w : Word) : Option Nat :=
  let physical : Option Nat :=
    let n := destCore w
    if destPkg w = s.domain.index ∧ (s.core n).runs ∧ (s.core n).gen = destGen w then some n else none
  match d with
  | none => physical
  | some k => match s.disp k with
    | some x =>
      if destGen w = x.gen ∧ x.cores.any (·.home == destCore w) then s.relocate k (destCore w) else physical
    | none => physical

/-- Whether what a core of another package sends comes to this one: from a live package of the domain, of a dispatch that
spreads over both where one is named, and for a core here (R53; log entry 11). -/
def State.comesHere (s : State) (f : FarSend) : Bool :=
  decide (f.pkg ∈ s.domain.live) && decide (f.pkg ≠ s.domain.index) && !s.destAway f.disp f.dst &&
    match f.disp with
    | none => true
    | some k => match s.disp k with
      | some d => d.share.isSome && d.ctx = f.ctx
      | none => false

/-! ## Messages -/

/-- The messages of a core of this package, of dispatch d, that are not delivered (R252). -/
def State.unheardOf (s : State) (n : Nat) (d : Option Nat) : Nat :=
  (s.floor.messages.filter fun m => m.away.isNone && m.src = n && m.disp = d).length

/-- MSG (R252): at most four messages of a sender are undelivered. -/
def execMsg (w : Norom) (s : State) : Host.Outcome State Fault Refusal :=
  outcome (lineE ⟨anyMod, fNo, fV 1, fG⟩ w fun v => do
    let n ← gets State.me
    let d ← gets fun s => s.my.disp
    let k ← gets fun s => s.unheardOf n d
    await (decide (k < 4)) .messageRoom
    let id ← freshItem
    change fun s => s.onFloor fun f => { f with
      messages := f.messages ++ [⟨id, n, low v.b, v.a, s.time.toNat, s.coreCtx n, d, none⟩] }) s

/-- MSG.recv (R253). -/
def execMsgRecv (w : Norom) (s : State) : Host.Outcome State Fault Refusal :=
  outcome (lineE ⟨anyMod, fVd 1, fNo, fNo⟩ w fun _ => do
    let some_ ← gets fun s => decide (s.my.q.inbox ≠ [])
    await some_ .inbox
    let x ← popEntry 16
    putD w x) s

/-- A message leaves the fabric. -/
def State.endMessage (s : State) (id : Nat) : State :=
  s.onFloor fun f => { f with messages := f.messages.filter (·.id ≠ id) }

/-- Whether an item of a sender goes before another of the same sender to the same target (R252, R319): where it stands
with its sender, destination word and number. -/
def goesBefore (away1 : Option Nat) (src1 : Nat) (d1 : Option Nat) (w1 : Word) (id1 : Nat) (away : Option Nat) (src : Nat)
    (d : Option Nat) (w : Word) (id : Nat) : Bool :=
  away1 = away && src1 = src && d1 = d && destKey w1 = destKey w && decide (id1 < id)

/-- MSG_DELIVER (R53, R252): the oldest message of its sender to its target enters the inbox, waits while that is
full, or is dropped and counted, as one that has outlived its lifetime is (R52). What another package does with one is
free; a message from a core of another enters the fabric here (log entry 11). -/
def execMsgDeliver (s : State) : Host.Outcome State Fault Refusal :=
  match s.arg with
  | .item id =>
    match s.floor.messages.find? (·.id == id) with
    | none => .next s
    | some m =>
      if s.tooOld m.sent then .next ((s.endMessage id).dropMsg m.ctx)
      else if s.floor.messages.any fun o => goesBefore o.away o.src o.disp o.dst o.id m.away m.src m.disp m.dst m.id
      then .next s
      else if m.away.isNone && s.destAway m.disp m.dst then
        let k := Config.freeRemote s.draws % 2
        let s1 := (({ s with draws := s.draws + 1 }).endMessage id).depart (destPkg m.dst) 16
        .next (if s.domain.joined && decide (destPkg m.dst ∈ s.domain.live) && k = 0 then s1 else s1.dropMsg m.ctx)
      else match s.reaches m.disp m.dst with
        | none => .next ((s.endMessage id).dropMsg m.ctx)
        | some n =>
          if (s.core n).holds 16 < 8 then .next ((s.endMessage id).onCore n fun c => c.pushOne 16 m.payload)
          else .next s
  | .message f payload =>
    .next (if s.comesHere f then s.onFloor fun fl => { fl with
      nextItem := fl.nextItem + 1
      messages := fl.messages ++ [⟨fl.nextItem, f.core, f.dst, payload, f.sent, f.ctx, f.disp, some f.pkg⟩] } else s)
  | _ => .next s

/-! ## Queue state -/

/-- Whether a load queue entry still awaits its data. -/
def LqEntry.open (x : LqEntry) : Bool :=
  match x with
  | .data _ => false
  | _ => true

/-- Depth, second and used of a queue id (R254); none for an id that names no queue. -/
def queueState (s : State) (id : Nat) : Option (Nat × Nat × Nat) :=
  let c := s.my
  if id ≤ 1 then
    some (16, ((if id = 0 then c.q.lq0 else c.q.lq1).filter LqEntry.open).length, c.holds id)
  else if id ≤ 5 then some (queueDepth id, 0, c.holds id)
  else if id ≤ 9 then
    match s.partner s.me id with
    | some p => some (8, (s.core p).holds (facing id), c.holds id)
    | none => some (0, 0, 0)
  else if id = 10 then some (Config.gateUnits, 0, (s.court (s.gateCourt s.me)).gate.used)
  else if id = 16 then some (8, 0, c.holds 16)
  else if id = 17 then some (2, 0, c.mx.queue.length)
  else if id = 18 then some (2, 0, c.copy.length)
  else none

/-- QSTAT (R254). -/
def execQstat (w : Norom) (s : State) : Host.Outcome State Fault Refusal :=
  outcome (lineE ⟨anyMod, fGd, fGI, fNo⟩ w fun v => do
    match ← gets fun s => queueState s (low v.a).toNat with
    | some (d, k, u) => putW w (BitVec.ofNat 64 (d * 2 ^ 32 + k % 65536 * 65536 + u % 65536))
    | none => badA w) s

/-- Empties the outcome queues that a mask selects (R255). -/
def flushOutcomes (mask : Word) (c : Core) : Core :=
  let gone (id : Nat) : Bool := decide (3 ≤ id) && decide (id ≤ 5) && mask.getLsbD id
  { c with
    q := { c.q with
      bol := if gone 3 then [] else c.q.bol
      bos := if gone 4 then [] else c.q.bos
      boi := if gone 5 then [] else c.q.boi }
    poison := { c.poison with entries := c.poison.entries.filter fun e => !gone e.1 } }

/-- BOFLUSH (R255). -/
def execBoflush (w : Norom) (s : State) : Host.Outcome State Fault Refusal :=
  outcome (lineE ⟨anyMod, fNo, fGI, fNo⟩ w fun v => change fun s => s.onMy (flushOutcomes (low v.a))) s

end Sys2Proof.Machine
end

