-- ==== Sys2Proof/Machine/Copy.lean ====
section
/-!
DEFINITION. The private copy engine and the bulk copy engines (spec/13_synchronising_asynchronous.md R245 to R251;
spec/11_access_strands_queues.md R198).
-/
namespace Sys2Proof.Machine

open Sys2Proof

/-! ## Job cards -/

/-- The job card of 64 bytes (R246), for operation op of a strand: 0 CPY, 1 CPYS, 2 CPYG, 3 CPYX. -/
def jobCard (bs : List Byte) (op : Nat) (issuer : Strand) : CopyCmd where
  stamp := 0
  issuer := issuer
  op := op
  src := wordAt bs 0
  dst := wordAt bs 8
  bar := wordAt bs 16
  idx := wordAt bs 24
  rows := if op = 0 then 1 else fieldAt bs 0x20 4
  rbytes := fieldAt bs 0x24 4
  sstride := if op = 0 then 0 else fieldAt bs 0x28 4
  dstride := if op = 0 then 0 else fieldAt bs 0x2C 4
  scope := fieldAt bs 0x30 1 % 8
  ix := 0
  done := 0
  unread := none
  stalled := false

/-- Every field of a card lies in its range (R246). -/
def jobOk (c : CopyCmd) : Bool :=
  decide (1 ≤ c.rows) && decide (c.rows ≤ 65535) && decide (16 ≤ c.rbytes) && decide (c.rbytes ≤ 0x100000) &&
    c.rbytes % 16 = 0 && c.sstride % 16 = 0 && c.dstride % 16 = 0 && decide (c.scope ≤ 4) &&
    decide (c.rows * c.rbytes ≤ 0x100000) &&
    (decide (c.op < 2) || (inArea .own c.idx (4 * c.rows) && c.idx.toNat % 16 = 0))

/-- The checks of a card at issue, in the order of R246; bad raises ILLEGAL_OPERAND. -/
def jobChecks (c : CopyCmd) (bad : M Unit) : M Unit := do
  if jobOk c then pure () else bad
  check (decide (c.src.toNat % 16 = 0)) cMisaligned c.src
  check (decide (c.dst.toNat % 16 = 0)) cMisaligned c.dst
  check (decide (c.bar.toNat % 16 = 0)) cMisaligned c.bar
  check (inArea .plain c.src 16) cBadAperture c.src
  if c.op = 2 then pure () else rowsCheck .plain c.src c.rows c.sstride c.rbytes
  check (inArea .plain c.dst 16) cBadAperture c.dst
  if c.op = 3 then pure () else rowsCheck .plain c.dst c.rows c.dstride c.rbytes
  if c.bar = 0 then pure () else barrierArg c.bar

/-- Whether a strand of a core that enters the copy engine's queue before strand k waits for room there (R198). -/
def Core.copyAhead (c : Core) (k : Strand) : Bool :=
  let waits (r : Run) : Bool := match r with
    | .waiting .copyRoom _ _ => true
    | _ => false
  match k with
  | .e => false
  | .l => waits c.e.run
  | .s => waits c.e.run || waits c.l.run

/-- Reads the card at a of the acting strand, checks it, and queues it once it finds room, E before L before S (R198,
R245). -/
def issueCopy (a : Word) (op : Nat) (bad : M Unit) : M Unit := do
  check (inArea .own a 64) cBadAperture a
  let bs ← readJob a 64
  let k ← gets State.myStrand
  let c := jobCard bs op k
  jobChecks c bad
  let room ← gets fun s => decide (s.my.copy.length < 2) && !s.my.copyAhead k
  await room .copyRoom
  let id ← freshItem
  change fun s => s.onMy fun x => { x with copy := x.copy ++ [{ c with stamp := id }] }

/-- An instruction of E that issues a job card. -/
def copyE (w : Norom) (op : Nat) : M Unit :=
  lineE ⟨anyMod, fNo, fG, fNo⟩ w fun v => issueCopy (low v.a) op (badA w)

/-- CPY (R245). -/
def execCpy (w : Norom) (s : State) : Host.Outcome State Fault Refusal := outcome (copyE w 0) s

/-- CPYS (R245). -/
def execCpys (w : Norom) (s : State) : Host.Outcome State Fault Refusal := outcome (copyE w 1) s

/-- CPYG (R245). -/
def execCpyg (w : Norom) (s : State) : Host.Outcome State Fault Refusal := outcome (copyE w 2) s

/-- CPYX (R245). -/
def execCpyx (w : Norom) (s : State) : Host.Outcome State Fault Refusal := outcome (copyE w 3) s

/-! ## Performing a job card (R247) -/

/-- The access of a core's copy engine for the strand that issued a card. -/
def viaCopy (s : State) (n : Nat) (c : CopyCmd) : Via := viaCore s n c.issuer true

/-- Changes the card at the head of a core's queue. -/
def onCard (n : Nat) (f : CopyCmd → CopyCmd) : State → State := fun s =>
  s.onCore n fun x => { x with copy := match x.copy with
    | c :: t => f c :: t
    | [] => [] }

/-- The list element of the row in progress. -/
def rowIndex (n : Nat) : M Nat := gets fun s => match (s.core n).copy with
  | c :: _ => c.ix
  | [] => 0

/-- Reads ix(i) (R247). -/
def listPiece (n : Nat) (c : CopyCmd) (i : Nat) : M Unit := do
  let via ← gets fun s => viaCopy s n c
  let bs ← pieceRead via (c.idx.toNat + 4 * i) 4 .read
  change (onCard n fun c => { c with ix := leNat bs })

/-- One piece of 16 bytes from s to t, at exact addresses (R6). A place outside the accepted apertures is BAD_APERTURE
(R248), with the low 64 bits of its address (log entry 75). -/
def copyPiece (via : Via) (src dst : Nat) : M Unit := do
  check (inAreaAt .plain src 16) cBadAperture (BitVec.ofNat 64 src)
  let bs ← pieceRead via src 16 .read
  check (inAreaAt .plain dst 16) cBadAperture (BitVec.ofNat 64 dst)
  pieceWrite via dst bs

/-- Piece j of row i. -/
def rowPiece (n : Nat) (c : CopyCmd) (i j : Nat) : M Unit := do
  let ix ← rowIndex n
  let si := if c.op = 2 then ix else i
  let di := if c.op = 3 then ix else i
  let via ← gets fun s => viaCopy s n c
  copyPiece via (c.src.toNat + (si * c.sstride + 16 * j)) (c.dst.toNat + (di * c.dstride + 16 * j))

/-- The pieces of a card in the order of R247: for CPYG and CPYX each row first reads its list element. -/
def cardPieces (n : Nat) (c : CopyCmd) : List (M Unit) :=
  (List.range c.rows).flatMap fun i =>
    (if c.op < 2 then [] else [listPiece n c i]) ++ (List.range (c.rbytes / 16)).map (rowPiece n c i)

/-- The last act of a card: its arrival, and its place in the queue. -/
def cardEnd (n : Nat) (c : CopyCmd) : M Unit := do
  let via ← gets fun s => viaCopy s n c
  if c.bar = 0 then pure () else arrive via c.bar (c.rows * c.rbytes)
  change fun s => (s.onCore n fun x => popMarks 18 { x with copy := x.copy.drop 1 }).engineProgress n

/-- A stall keeps how far the card has come. -/
def stallCopy (c : Core) : Core :=
  { c with copy := match c.copy with
    | x :: t => { x with stalled := true } :: t
    | [] => [] }

/-- Discards every card of the queue (R248). -/
def discardCopy (c : Core) : Core := dropMarks 18 { c with copy := [] }

/-- Runs the pieces of the oldest card c from where it stands. -/
def runCopy (s : State) (n : Nat) (c : CopyCmd) : Nat × State × Option Stop :=
  runPieces ((entryPoison n 18 :: cardPieces n c).drop c.done ++ [cardEnd n c]) 0 s

/-- COPY_CARD_PERFORM (R247, R248): the oldest card runs on from where it stands; a wait keeps what it has done. -/
def execCopyCardPerform (s : State) : Host.Outcome State Fault Refusal :=
  match s.arg with
  | .core n =>
    match (s.core n).copy with
    | [] => .next s
    | c :: _ =>
      if c.stalled then .next s
      else
        let (k, t, e) := runCopy s n c
        match e with
        | none => .next t
        | some (.wait w) =>
          let t1 := onCard n (fun x => { x with done := c.done + k, unread := w.unread }) t
          .next ((if max c.done 1 < c.done + k then t1.engineProgress n else t1).engineWait (s.coreCtx n) w (whoEngine s n))
        | some (.flt f) =>
          .next ((onCard n (fun x => { x with done := c.done + k, unread := none }) t).engineFault n c.issuer f
            (cardAborts f.cause) stallCopy discardCopy)
  | _ => .next s

/-! ## Bulk cards (R249 to R251) -/

/-- The segments of a bulk card (R250). -/
def bulkSegs (bs : List Byte) (n : Nat) : List Segment :=
  (List.range n).map fun i => ⟨fieldAt bs (0x20 + 24 * i) 8, fieldAt bs (0x28 + 24 * i) 8, fieldAt bs (0x30 + 24 * i) 8⟩

/-- Whether a destination overlaps another segment's source or destination (R250). -/
def segClash (zero : Bool) (segs : List Segment) : Bool :=
  (List.range segs.length).any fun i => (List.range segs.length).any fun j =>
    i ≠ j && match segs[i]?, segs[j]? with
      | some a, some b => overlap a.dst a.len b.dst b.len || (!zero && overlap a.dst a.len b.src b.len)
      | _, _ => false

/-- Ranges of a card's fields and lengths (R250). -/
def bulkOk (scope nseg : Nat) (segs : List Segment) : Bool :=
  decide (scope ≤ 4) && decide (1 ≤ nseg) && decide (nseg ≤ 4) &&
    segs.all (fun g => decide (16 ≤ g.len) && decide (g.len ≤ 0x100000) && g.len % 16 = 0) &&
    decide (sumNat (segs.map (·.len)) ≤ 0x100000)

/-- The address checks of one range of a segment. -/
def segCheck (a n : Nat) : M Unit := do
  check (inArea .ownOrGlobal (BitVec.ofNat 64 a) n && decide (a < 2 ^ 57)) cBadAperture (BitVec.ofNat 64 a)
  check (decide (a % 16 = 0)) cMisaligned (BitVec.ofNat 64 a)

/-- Whether a later card depends on an earlier one (R251). -/
def bulkEdge (y x : BulkCard) : Bool :=
  let reads (c : BulkCard) : List (Nat × Nat) := if c.zero then [] else c.segs.map fun g => (g.src, g.len)
  let writes (c : BulkCard) : List (Nat × Nat) := c.segs.map fun g => (g.dst, g.len)
  let meet (a b : List (Nat × Nat)) : Bool := a.any fun p => b.any fun q => overlap p.1 p.2 q.1 q.2
  meet (writes y) (reads x) || meet (writes y) (writes x) || meet (reads y) (writes x)

/-- BCOPY (R249 to R251). The order of the checks of R250, field ranges and overlaps, then the segments one by one, then
bar, is the model's choice (log entry 100). -/
def execBcopy (w : Norom) (s : State) : Host.Outcome State Fault Refusal :=
  outcome (lineE ⟨anyMod, fNo, fG, fNo⟩ w fun v => do
    check (inArea .ownOrGlobal (low v.a) 128) cBadAperture (low v.a)
    let bs ← readJob (low v.a) 128
    let bar := wordAt bs 0
    let scope := fieldAt bs 8 1 % 8
    let nseg := fieldAt bs 9 1
    let zero := natBit (fieldAt bs 10 1) 0
    let segs := bulkSegs bs nseg
    orBadA w (bulkOk scope nseg segs && !segClash zero segs)
    forAll (fun g => do
      if zero then pure () else segCheck g.src g.len
      segCheck g.dst g.len) segs
    if bar = 0 then pure () else barrierArg bar
    let n ← gets State.me
    let mine ← gets fun s => s.floor.bulk.filter fun c => c.core = n && some c.disp = s.my.disp
    await (decide (mine.length < 8)) .bulkRoom
    let used ← gets State.depUsed
    await (decide (used < Config.depEntries)) .depRoom
    let id ← freshItem
    let d ← gets fun s => s.my.disp.getD 0
    let x : BulkCard := {
      id := id, core := n, disp := d, bar := bar, scope := scope, zero := zero, segs := segs, preds := []
      done := 0, unread := none, stalled := false }
    let preds := (mine.filter fun y => bulkEdge y x).map (·.id)
    change fun s => s.onFloor fun f => { f with bulk := f.bulk ++ [{ x with preds := preds }] }) s

/-- The core of a dispatch that stands, or stood, at an index. -/
def coreOf (d : Dispatch) (n : Nat) : Option DCore := d.cores.find? (·.cur == n)

/-- The access of a bulk card, whose core may be saved (R329). -/
def viaBulk (s : State) (c : BulkCard) : Via :=
  match s.disp c.disp with
  | none => viaCore s c.core .e true
  | some d => ⟨d.ctx, some c.core, .e, true, none, (coreOf d c.core).map fun y => ⟨d.pkg, d.gen, y.lvl⟩⟩

/-- Whether the core of a bulk card is saved. -/
def State.cardAway (s : State) (c : BulkCard) : Bool := (s.core c.core).disp ≠ some c.disp

/-- Records an arrival with the image of a saved core (R329). -/
def State.noteArrival (s : State) (d rank : Nat) (b : Word) (n : Nat) : State :=
  s.onFloor fun f => { f with images := f.images.map fun i =>
    if i.disp = d ∧ i.rank = rank then { i with arrivals := i.arrivals ++ [(b, n)] } else i }

/-- The images of a dispatch are complete once no bulk card of its saved cores runs (R329, R333). -/
def State.imagesComplete (s : State) (k : Nat) : Bool := s.floor.bulk.all fun c => c.disp ≠ k || !s.cardAway c

/-- Writes bytes at an offset of a dispatch's save table: the one that its record names, or the one that stands in its
context's default area (R333). -/
def State.putTable (s : State) (d : Dispatch) (off : Nat) (bs : List Byte) : State :=
  if d.save ≠ 0 then s.putVa d.ctx (d.save.toNat + off) bs
  else match d.table with
    | some p => s.physWrite (p + off) bs
    | none => s

/-- Writes the state word of a dispatch's save table (R333). -/
def State.markTable (s : State) (k : Nat) : State :=
  match s.disp k with
  | none => s
  | some d =>
    if s.floor.images.any (·.disp == k) then s.putTable d 12 (leBytes 4 (if s.imagesComplete k then 3 else 2)) else s

/-- The arrival of a bulk card. That of a saved core's card on its own barrier, by either of its addresses, is recorded
with the image (R329); on another core's barrier it goes where that core stands, or is dropped (R56, R337). -/
def bulkArrive (c : BulkCard) (n : Nat) : M Unit := do
  let away ← gets fun s => s.cardAway c
  if !away then do
    let via ← gets fun s => viaBulk s c
    arrive via c.bar n
  else match ← gets fun s => s.disp c.disp with
    | none => pure ()
    | some d =>
      match aperture c.bar.toNat 16, coreOf d c.core with
      | some (.remote i off), some y =>
        if y.home % Config.coresPerCourt = i then
          change fun s => s.noteArrival c.disp (rankOf d c.core) (BitVec.ofNat 64 (0xF000000000000000 + off)) n
        else match ← gets fun s => s.relocate c.disp (y.home / Config.coresPerCourt * Config.coresPerCourt + i) with
        | some t => do
          let via ← gets fun s => viaCore s t .e true
          arrive via (BitVec.ofNat 64 (0xF000000000000000 + off)) n
        | none => change fun s => s.dropMsg d.ctx
      | _, _ => change fun s => s.noteArrival c.disp (rankOf d c.core) c.bar n

/-- The pieces of a bulk card, by segment and then by address: R251 leaves their order open, and this is the model's
(log entry 106). -/
def bulkPieces (c : BulkCard) : List (M Unit) :=
  c.segs.flatMap fun g => (List.range (g.len / 16)).map fun j => do
    let via ← gets fun s => viaBulk s c
    let bs ← if c.zero then pure (List.replicate 16 0) else pieceRead via (g.src + 16 * j) 16 .read
    pieceWrite via (g.dst + 16 * j) bs

/-- The end of a bulk card: its arrival, its entry and its edges. -/
def bulkEnd (c : BulkCard) : M Unit := do
  if c.bar = 0 then pure () else bulkArrive c (sumNat (c.segs.map (·.len)))
  change fun s =>
    let s1 := s.dropBulk fun x => x.id = c.id
    if s.cardAway c then (s1.dispProgress c.disp 1).markTable c.disp else s1.engineProgress c.core

/-- Changes a bulk card. -/
def State.onBulk (s : State) (id : Nat) (f : BulkCard → BulkCard) : State :=
  s.onFloor fun fl => { fl with bulk := fl.bulk.map fun c => if c.id = id then f c else c }

/-- The cards of a core that have an edge to one of a set, directly or through others, looking at the cards in
order. -/
def bulkHeirs (gone : List Nat) (cards : List BulkCard) : List Nat :=
  cards.foldl (fun g c => if c.preds.any (· ∈ g) then c.id :: g else g) gone

/-- Disposes of a fault of a bulk card (R248, R251). -/
def State.bulkFault (s : State) (c : BulkCard) (f : Flt) : State :=
  let gone := bulkHeirs [c.id] (s.floor.bulk.filter fun x => x.core = c.core && x.disp = c.disp)
  let without (t : State) : State := t.dropBulk fun x => x.id ∈ gone
  let i := c.disp
  match s.disp i with
  | none => without s
  | some d =>
    let s1 := s.recordFault d.ctx (some d) f
    if f.cause = cTranslation ∧ d.stalls then s1.onBulk c.id fun x => { x with stalled := true }
    else if d.liveTask && cardAborts f.cause then
      s1.abortTask i (whoFloor s) f.cause f.info (f.cause = cTranslation)
    else if s1.cardAway c then (without s1).deliverAway i (rankOf d c.core) (whoFloor s) f
    else if (s1.core c.core).e.run = .stopped then s1.failInfo i (whoFloor s) f.cause f.info
    else (without s1).deliver c.core .e f

/-- Whether one of the bulk copy engines is free of cards that stall until REPLAY (R1, R248; log entry 104). -/
def State.bulkFree (s : State) : Bool := decide ((s.floor.bulk.filter (·.stalled)).length < Config.bulkEngines)

/-- BULK_CARD_PERFORM (R251): a card whose predecessors are complete runs on from where it stands, on a free engine. -/
def execBulkCardPerform (s : State) : Host.Outcome State Fault Refusal :=
  match s.arg with
  | .item id =>
    match s.floor.bulk.find? (·.id == id) with
    | none => .next s
    | some c =>
      if c.stalled || c.preds ≠ [] || !s.bulkFree then .next s
      else
        let (k, t, e) := runPieces ((bulkPieces c).drop c.done ++ [bulkEnd c]) 0 s
        match e with
        | none => .next t
        | some (.wait w) =>
          .next (((t.onBulk id fun x => { x with done := c.done + k, unread := w.unread }).dispProgress c.disp k).engineWait
            (viaBulk s c).ctx w (whoFloor s))
        | some (.flt f) => .next ((t.onBulk id fun x => { x with done := c.done + k, unread := none }).bulkFault c f)
  | _ => .next s

end Sys2Proof.Machine
end

