-- ==== Sys2Proof/Machine/Pages.lean ====
section
/-!
DEFINITION. The firmware's side of memory: free HBM, page tables as they are written, the leaves of a range, and
sequence windows (spec/15_translation_paging.md R265 to R277; spec/21_host_fabric_firmware.md R354, R360;
spec/16_sequences_attention_dugout.md R284). Frames and tables are taken lowest first (log entry 22).
-/
namespace Sys2Proof.Machine

open Sys2Proof

/-! ## Free memory -/

/-- Base of an HBM stack of this package (R354). -/
def stackBase (s : State) (st : Nat) : Nat := s.domain.index * 2 ^ 44 + st * 2 ^ 36

/-- The lowest place of n bytes, aligned to n, between lo and hi that none of the rising frames covers. -/
def fitFrames (n hi : Nat) : Nat → List (Nat × Frame) → Option Nat
  | lo, [] => if roundUp lo n + n ≤ hi then some (roundUp lo n) else none
  | lo, f :: t =>
    if roundUp lo n + n ≤ f.1 then (if roundUp lo n + n ≤ hi then some (roundUp lo n) else none)
    else fitFrames n hi (max lo (f.1 + 2 ^ f.2.bits)) t

/-- Where a page of 2^bits bytes fits on a stack. -/
def State.hbmFit (s : State) (st bits : Nat) : Option Nat :=
  let b := stackBase s st
  fitFrames (2 ^ bits) (b + Config.stackBytes) b (s.floor.frames.filter fun f => decide (b ≤ f.1) && decide (f.1 < b + 2 ^ 36))

/-- Bytes of the default save area of a context with a quota of n cores (R333, R362). -/
def saveBytes (n : Nat) : Nat := 0x40 + n * Config.imageSlot

/-- Bytes of HBM that a virtual function's contexts hold in this package (R356, R362). -/
def State.hbmUsed (s : State) (v : Nat) : Nat :=
  sumNat ((s.floor.frames.filter fun f => s.ctxVf f.2.ctx = v).map fun f => 2 ^ f.2.bits) +
    sumNat ((s.floor.contexts.filter fun c => c.2.vf = v).map fun c => saveBytes c.2.cores)

/-- Whether a virtual function may hold n more bytes of HBM. -/
def State.hbmShare (s : State) (v n : Nat) : Bool := decide (s.hbmUsed v + n ≤ (s.vf v).pf.hbm.toNat)

/-- A frame just allocated, which reads zero (R360). -/
def Frame.fresh (bits : Nat) (ct : BitVec 2) (ctx : Nat) (zeroing : Bool) : Frame :=
  ⟨bits, ct, ctx, none, [], 0, zeroing⟩

/-- Allocates a zeroed frame at a place. -/
def State.putFrame (s : State) (p : Nat) (f : Frame) : State :=
  (s.physZero p (2 ^ f.bits)).onFloor fun fl => { fl with frames := fl.frames.put p f }

/-- Frees the frame at a base. -/
def State.freeFrame (s : State) (p : Nat) : State := s.onFloor fun fl => { fl with frames := fl.frames.del p }

/-- The first stack from st on, in cyclic order, with room for a page. -/
def State.stackFrom (s : State) (st bits : Nat) : Option (Nat × Nat) :=
  (List.range Config.hbmStacks).findSome? fun i =>
    (s.hbmFit ((st + i) % Config.hbmStacks) bits).map fun p => ((st + i) % Config.hbmStacks, p)

/-- Takes n bytes of floor-reserved memory, in whole 4 KiB tables, which read zero. -/
def State.takeReserved (s : State) (n : Nat) : State × Nat :=
  let p := floorBase s + s.floor.reserved
  ((s.physZero p n).onFloor fun fl => { fl with reserved := fl.reserved + roundUp n 4096 }, p)

/-! ## Page table entries as they are written -/

/-- An entry that names a table, a window's directory, or a leaf table (R267, R271, R272). -/
def tableEntry (p : Nat) : Nat := p + 1
def windowEntry (p : Nat) : Nat := p + 5

/-- A valid leaf in tier 00 (R267). -/
def leafEntry (p : Nat) (w span : Bool) (ct : Nat) : Nat :=
  p + 3 + (if w then 16 else 0) + (if span then 32 else 0) + ct * 64

/-- An entry with another tier; its frame field stays the controller's (R267). -/
def setTier (e tier : Nat) : Nat := e - natBits e 9 8 * 256 + tier * 256

/-- An entry with another type (R228). -/
def setCt (e ct : Nat) : Nat := e - natBits e 7 6 * 64 + ct * 64

/-- An entry with another frame. -/
def setFramePte (e p : Nat) : Nat := e - pteFrame e + p

/-- The address of the entry of va at a level, below a table of a level, making the tables between. None when a
leaf, a window or a malformed entry stands in the way. -/
def State.entryAt (s : State) (va : Nat) : Nat → Nat → Nat → State × Option Nat
  | 0, level, table => (s, some (table + 8 * (va / 2 ^ (12 + 9 * (4 - level)) % 512)))
  | n + 1, level, table =>
    let a := table + 8 * (va / 2 ^ (12 + 9 * (4 - level)) % 512)
    let e := s.physNat a 8
    if natBit e 0 then
      if natBits e 2 1 = 0 then s.entryAt va n (level + 1) (pteFrame e) else (s, none)
    else
      let (s1, t) := s.takeReserved 4096
      (s1.physPut a 8 (tableEntry t)).entryAt va n (level + 1) t

/-- Whether the entry of va at a level cannot take a leaf: it is valid, or a valid entry on the way to it names no
table. -/
def State.entryTaken (s : State) (va : Nat) : Nat → Nat → Nat → Bool
  | 0, level, table => natBit (s.physNat (table + 8 * (va / 2 ^ (12 + 9 * (4 - level)) % 512)) 8) 0
  | n + 1, level, table =>
    let e := s.physNat (table + 8 * (va / 2 ^ (12 + 9 * (4 - level)) % 512)) 8
    natBit e 0 && (natBits e 2 1 ≠ 0 || s.entryTaken va n (level + 1) (pteFrame e))

/-- The level at which a leaf of 2^shift bytes stands (R265). -/
def leafLevel (shift : Nat) : Nat := if shift = 30 then 2 else if shift = 21 then 3 else 4

/-- Writes a leaf of a context's table. A 64 KiB leaf stands in the first entry of its sixteen (R269). -/
def State.putLeaf (s : State) (ctx va shift p : Nat) (w : Bool) (ct : Nat) : State :=
  match s.ctxOf ctx with
  | none => s
  | some c =>
    match s.entryAt (va / 2 ^ shift * 2 ^ shift) (leafLevel shift) 0 c.root with
    | (s1, some a) => s1.physPut a 8 (leafEntry p w (shift = 16) ct)
    | (s1, none) => s1

/-! ## The leaves of a range -/

/-- A valid leaf: the address of its entry, the entry, its page and its size. -/
structure Leaf where
  entry : Nat
  pte : Nat
  va : Nat
  shift : Nat
  deriving DecidableEq, Repr

/-- A leaf whose page meets [lo, hi). -/
def leafIf (a e va shift lo hi : Nat) : List Leaf := if lo < va + 2 ^ shift ∧ va < hi then [⟨a, e, va, shift⟩] else []

/-- The index range of a table's entries, each of 2^shift bytes from base, that meet [lo, hi). -/
def entryRange (base shift count lo hi : Nat) : List Nat :=
  let i0 := (lo - base) / 2 ^ shift
  let i1 := min count ((hi - base + 2 ^ shift - 1) / 2 ^ shift)
  (List.range (i1 - i0)).map (i0 + ·)

/-- The leaves of a window's group from its leaf table at t (R273). -/
def groupLeaves (s : State) (t base lo hi : Nat) : List Leaf :=
  (entryRange base 16 (s.physNat t 2) lo hi).flatMap fun b =>
    let a := t + 64 + 8 * b
    let e := s.physNat a 8
    if natBit e 0 then leafIf a e (base + b * 2 ^ 16) 16 lo hi else []

/-- The leaves of a window whose directory lies at dir (R271, R272). -/
def windowLeaves (s : State) (dir base lo hi : Nat) : List Leaf :=
  (entryRange base 30 512 lo hi).flatMap fun g =>
    let e := s.physNat (dir + 8 * g) 8
    if natBit e 0 then groupLeaves s (pteFrame e) (base + g * 2 ^ 30) lo hi else []

/-- The leaves below a table with n levels under it, whose first byte is base, that meet [lo, hi). Log entry 36. -/
def leavesFrom (s : State) (lo hi : Nat) : Nat → Nat → Nat → List Leaf
  | 0, table, base =>
    (entryRange base 12 512 lo hi).flatMap fun i =>
      let first := table + 8 * (i - i % 16)
      let e0 := s.physNat first 8
      if natBit e0 5 then
        (if natBit e0 0 && (i % 16 = 0 || decide (base + i * 4096 ≤ lo)) then
          leafIf first e0 (base + (i - i % 16) * 4096) 16 lo hi else [])
      else
        let a := table + 8 * i
        let e := s.physNat a 8
        if natBit e 0 then leafIf a e (base + i * 4096) 12 lo hi else []
  | n + 1, table, base =>
    let shift := 21 + 9 * n
    (entryRange base shift 512 lo hi).flatMap fun i =>
      let a := table + 8 * i
      let e := s.physNat a 8
      let va := base + i * 2 ^ shift
      if !natBit e 0 then []
      else match natBits e 2 1 with
        | 0 => leavesFrom s lo hi n (pteFrame e) va
        | 1 => leafIf a e va shift lo hi
        | 2 => windowLeaves s (pteFrame e) va lo hi
        | _ => []

/-- The valid leaves of a context whose pages meet [lo, hi). -/
def State.leaves (s : State) (ctx lo hi : Nat) : List Leaf :=
  match s.ctxOf ctx with
  | none => []
  | some c => leavesFrom s lo hi 4 c.root 0

/-- Whether a leaf's page lies wholly in [lo, hi). -/
def Leaf.within (l : Leaf) (lo hi : Nat) : Bool := decide (lo ≤ l.va) && decide (l.va + 2 ^ l.shift ≤ hi)

/-- The page of a leaf that is out of HBM. -/
def State.outOf (s : State) (ctx va : Nat) : Option OutPage := s.floor.out.find? fun o => o.ctx = ctx && o.va == va

/-- Changes the page of a leaf that is out of HBM. -/
def State.onOut (s : State) (ctx va : Nat) (f : OutPage → OutPage) : State :=
  s.onFloor fun fl => { fl with out := fl.out.map fun o => if o.ctx = ctx ∧ o.va = va then f o else o }

/-- The frame record of a leaf, wherever its page lies. -/
def State.leafFrame (s : State) (ctx : Nat) (l : Leaf) : Option Frame :=
  match s.outOf ctx l.va with
  | some o => some o.frame
  | none => s.floor.frames.find (pteFrame l.pte)

/-- Changes the frame record of a leaf. -/
def State.onLeafFrame (s : State) (ctx : Nat) (l : Leaf) (f : Frame → Frame) : State :=
  match s.outOf ctx l.va with
  | some _ => s.onOut ctx l.va fun o => { o with frame := f o.frame }
  | none => s.onFrame (pteFrame l.pte) f

/-- Frees the memory behind a leaf, in whatever tier it lies (R277, R291). -/
def State.freeLeaf (s : State) (ctx : Nat) (l : Leaf) : State :=
  match s.outOf ctx l.va with
  | some _ => s.onFloor fun fl => { fl with out := fl.out.filter fun o => !(o.ctx = ctx && o.va == l.va) }
  | none => s.freeFrame (pteFrame l.pte)

/-! ## Sequence windows -/

/-- The window whose base is at an address of a context. -/
def State.windowAt (s : State) (ctx base : Nat) : Option Window :=
  s.floor.windows.find? fun w => w.ctx = ctx && w.base == base

/-- The leaf table of a group (R272). -/
def groupTable (s : State) (w : Window) (g : Nat) : Nat := pteFrame (s.physNat (w.dir + 8 * g) 8)

/-- A group's policy (R273). -/
structure Group where
  table : Nat
  leaflen : Nat
  kvtype : Nat
  ct : Nat
  sglen : Nat
  heads : Nat
  dh : Nat
  tpp : Nat
  tclass : Nat
  len : Nat
  deriving DecidableEq, Repr

/-- Reads a group header. -/
def State.group (s : State) (w : Window) (g : Nat) : Group :=
  let t := groupTable s w g
  { table := t
    leaflen := s.physNat t 2
    kvtype := s.physNat (t + 2) 1
    ct := s.physNat (t + 3) 1 % 4
    sglen := s.physNat (t + 4) 1
    heads := s.physNat (t + 5) 1
    dh := s.physNat (t + 6) 2
    tpp := s.physNat (t + 8) 2
    tclass := s.physNat (t + 10) 1 % 4
    len := s.physNat (t + 12) 4 }

/-- Bytes of a stored row: 2·Dh, or Dh and a 16-byte tail for e4m3 (R283). -/
def rowStored (kvtype dh : Nat) : Nat := if kvtype = 0x0C then dh + 16 else 2 * dh

/-- The leaves of group g of a window. -/
def State.windowGroup (s : State) (w : Window) (g : Nat) : List Leaf :=
  let base := w.base + g * 2 ^ 30
  groupLeaves s (groupTable s w g) base base (base + 2 ^ 30)

/-- Whether every mapped page of a group has tier 00 (R286, R292). -/
def State.groupResident (s : State) (w : Window) (g : Nat) : Bool :=
  (s.windowGroup w g).all fun l => pteTier l.pte = 0

end Sys2Proof.Machine
end

