-- ==== Sys2Proof/Machine/Vector.lean ====
section
/-!
DEFINITION. Vector instructions (spec/05_vector_special_functions.md R94 to R115;
spec/08_number_formats.md R151 to R166).
-/
namespace Sys2Proof.Machine

open Sys2Proof

/-! ## Lanes (R22, R23) -/

/-- Lane i of width w. -/
def lane (w : Nat) (x : V128) (i : Nat) : Nat := x.toNat / 2 ^ (w * i) % 2 ^ w

/-- The number whose lanes of width w are given, lowest first. -/
def joinLanes (w : Nat) : List Nat → Nat
  | [] => 0
  | c :: t => c % 2 ^ w + 2 ^ w * joinLanes w t

/-- A register from its lanes; high bits that no lane fills are zero (R23). -/
def pack (w : Nat) (l : List Nat) : V128 := BitVec.ofNat 128 (joinLanes w l)

/-- The lanes of a register. -/
def lanes (t : Ty) (x : V128) : List Nat := (List.range t.lanes).map (lane t.width x)

/-- The lanes of a source field: a scalar is one lane value in every lane (R94). -/
def srcLanes (t : Ty) (raw : BitVec 16) (x : V128) : List Nat :=
  match opnd raw with
  | .g _ => List.replicate t.lanes (x.toNat % 2 ^ t.width)
  | .imm _ => List.replicate t.lanes (x.toNat % 2 ^ t.width)
  | _ => lanes t x

/-- A source of an untyped instruction: a scalar fills both halves (R94). -/
def srcBits (raw : BitVec 16) (x : V128) : V128 :=
  match opnd raw with
  | .g _ => low x ++ low x
  | .imm _ => low x ++ low x
  | _ => x

/-! ## Types an instruction accepts (R95) -/

/-- MOD[4:0]. -/
def modTy (m : BitVec 6) : BitVec 5 := m.setWidth 5

/-- MOD[5], the saturate bit. -/
def modSat (m : BitVec 6) : Bool := m.getLsbD 5

def tyInts (m : BitVec 6) : Bool := decide ((modTy m).toNat ≤ 7)
def tyArith (m : BitVec 6) : Bool := (modTy m).toNat ∈ [0, 1, 2, 3, 4, 5, 6, 7, 9, 0xA, 0xB]
def tyDot (m : BitVec 6) : Bool := decide ((modTy m).toNat ≤ 1)
def tyAll (m : BitVec 6) : Bool := decide ((modTy m).toNat ≤ 0x11)
def tyMx (m : BitVec 6) : Bool := (modTy m).toNat ∈ [0xC, 0xD, 0xF, 0x10, 0x11]
def tySpecial (m : BitVec 6) : Bool := (modTy m).toNat ∈ [9, 0xA, 0xB]

/-- A source of R94: 001, 011, 000 or 010. -/
def fSrc : Fld := ⟨.src, true, 1, true, true, none⟩

/-- fpm as an instruction samples it at issue (R164); a poisoned one meets POISON (R348). Which instructions sample it,
and that they do so before their register runs, are the model's choices (log entry 111). -/
def readFpm : M Byte := do
  let bad ← gets fun s => decide (0x1020 ∈ s.my.poison.eRegs)
  check (!bad) cPoison 0x1020
  gets fun s => s.my.e.fpm

/-! ## Lane operations (R96 to R98) -/

/-- One lane operation: its exact integer result, and its exact float result. -/
structure LaneOp where
  int : Bool → Nat → Int → Int → Int
  flt : FVal → FVal → FVal

/-- A lane result, rounded, wrapped or clamped (R96, R97). -/
def laneOp (t : Ty) (fpm : Byte) (sat : Bool) (op : LaneOp) (a b : Nat) : Nat :=
  match t with
  | .int s w => intResult s w sat (op.int s w (intDecode s w a) (intDecode s w b))
  | _ => t.encode fpm .rne sat (op.flt (t.value fpm a) (t.value fpm b))

def opAdd : LaneOp := ⟨fun _ _ a b => a + b, FVal.add⟩
def opSub : LaneOp := ⟨fun _ _ a b => a - b, FVal.sub⟩
def opMul : LaneOp := ⟨fun _ _ a b => a * b, FVal.mul⟩
def opMulh : LaneOp := ⟨fun _ w a b => a * b / (2 : Int) ^ w, FVal.mul⟩
def opMin : LaneOp := ⟨fun _ _ a b => min a b, FVal.min⟩
def opMax : LaneOp := ⟨fun _ _ a b => max a b, FVal.max⟩
def opAbs : LaneOp := ⟨fun _ _ a _ => (a.natAbs : Int), fun a _ => a.abs⟩
def opNeg : LaneOp := ⟨fun _ _ a _ => -a, fun a _ => a.neg⟩
def opDiv : LaneOp := ⟨fun _ _ a b => a / b, FVal.div⟩

/-- A lane-wise instruction of two sources; sat decides from MOD[5]. -/
def vector2 (w : Norom) (types : BitVec 6 → Bool) (sat : Bool → Bool) (op : LaneOp) : M Unit :=
  lineE ⟨types, fVQd, fSrc, fSrc⟩ w fun v => do
    let t := tyOf (modTy w.mod)
    let fpm ← readFpm
    putD w (pack t.width
      (List.zipWith (laneOp t fpm (sat (modSat w.mod)) op) (srcLanes t w.a v.a) (srcLanes t w.b v.b)))

/-- A lane-wise instruction of A alone. -/
def vector1 (w : Norom) (op : LaneOp) : M Unit :=
  lineE ⟨tyArith, fVQd, fSrc, fNo⟩ w fun v => do
    let t := tyOf (modTy w.mod)
    let fpm ← readFpm
    putD w (pack t.width ((srcLanes t w.a v.a).map fun a => laneOp t fpm (modSat w.mod) op a a))

/-- VADD (R98). -/
def execVadd (w : Norom) (s : State) : Host.Outcome State Fault Refusal :=
  outcome (vector2 w tyArith id opAdd) s

/-- VADDS (R98). -/
def execVadds (w : Norom) (s : State) : Host.Outcome State Fault Refusal :=
  outcome (vector2 w tyArith (fun _ => true) opAdd) s

/-- VSUB (R98). -/
def execVsub (w : Norom) (s : State) : Host.Outcome State Fault Refusal :=
  outcome (vector2 w tyArith id opSub) s

/-- VSUBS (R98). -/
def execVsubs (w : Norom) (s : State) : Host.Outcome State Fault Refusal :=
  outcome (vector2 w tyArith (fun _ => true) opSub) s

/-- VMUL (R98). -/
def execVmul (w : Norom) (s : State) : Host.Outcome State Fault Refusal :=
  outcome (vector2 w tyArith id opMul) s

/-- VMULH (R98). -/
def execVmulh (w : Norom) (s : State) : Host.Outcome State Fault Refusal :=
  outcome (vector2 w tyInts (fun _ => false) opMulh) s

/-- VMIN (R98). -/
def execVmin (w : Norom) (s : State) : Host.Outcome State Fault Refusal :=
  outcome (vector2 w tyArith (fun _ => false) opMin) s

/-- VMAX (R98). -/
def execVmax (w : Norom) (s : State) : Host.Outcome State Fault Refusal :=
  outcome (vector2 w tyArith (fun _ => false) opMax) s

/-- VABS (R98). -/
def execVabs (w : Norom) (s : State) : Host.Outcome State Fault Refusal := outcome (vector1 w opAbs) s

/-- VNEG (R98). -/
def execVneg (w : Norom) (s : State) : Host.Outcome State Fault Refusal := outcome (vector1 w opNeg) s

/-- d + a·b or d - a·b, rounded, wrapped or clamped once (R99). -/
def fusedLane (t : Ty) (fpm : Byte) (sat minus : Bool) (d a b : Nat) : Nat :=
  match t with
  | .int s w =>
    let p := intDecode s w a * intDecode s w b
    intResult s w sat (intDecode s w d + if minus then -p else p)
  | _ =>
    let p := (t.value fpm a).mul (t.value fpm b)
    t.encode fpm .rne sat ((t.value fpm d).add (if minus then p.neg else p))

/-- The three operands of a fused instruction, lane by lane. -/
def zip3 (f : Nat → Nat → Nat → Nat) (l : List Nat) (m n : List Nat) : List Nat :=
  List.zipWith (fun d (p : Nat × Nat) => f d p.1 p.2) l (List.zip m n)

/-- VFMA and VFMS (R99). -/
def vectorFused (w : Norom) (minus : Bool) : M Unit :=
  lineE ⟨tyArith, fVb, fSrc, fSrc⟩ w fun v => do
    let t := tyOf (modTy w.mod)
    let fpm ← readFpm
    putD w (pack t.width
      (zip3 (fusedLane t fpm (modSat w.mod) minus) (lanes t v.d) (srcLanes t w.a v.a) (srcLanes t w.b v.b)))

/-- VFMA (R99). -/
def execVfma (w : Norom) (s : State) : Host.Outcome State Fault Refusal := outcome (vectorFused w false) s

/-- VFMS (R99). -/
def execVfms (w : Norom) (s : State) : Host.Outcome State Fault Refusal := outcome (vectorFused w true) s

/-! ## Bits and shifts (R100, R101) -/

/-- An untyped instruction on 128 bits. -/
def vectorBits (w : Norom) (f : V128 → V128 → V128) : M Unit :=
  lineE ⟨anyMod, fVQd, fSrc, fSrc⟩ w fun v => putD w (f (srcBits w.a v.a) (srcBits w.b v.b))

/-- VAND (R100). -/
def execVand (w : Norom) (s : State) : Host.Outcome State Fault Refusal := outcome (vectorBits w (· &&& ·)) s

/-- VOR (R100). -/
def execVor (w : Norom) (s : State) : Host.Outcome State Fault Refusal := outcome (vectorBits w (· ||| ·)) s

/-- VXOR (R100). -/
def execVxor (w : Norom) (s : State) : Host.Outcome State Fault Refusal := outcome (vectorBits w (· ^^^ ·)) s

/-- VANDN (R100). -/
def execVandn (w : Norom) (s : State) : Host.Outcome State Fault Refusal :=
  outcome (vectorBits w fun a b => a &&& ~~~b) s

/-- A shift, lane by lane; the count is lane i of b modulo the width (R101). -/
def vectorShift (w : Norom) (f : Bool → Nat → Bool → Nat → Nat → Nat) : M Unit :=
  lineE ⟨tyInts, fVQd, fSrc, fSrc⟩ w fun v => do
    let t := tyOf (modTy w.mod)
    match t with
    | .int sg wd =>
      putD w (pack wd (List.zipWith (fun a b => f sg wd (modSat w.mod) a (b % wd)) (srcLanes t w.a v.a) (srcLanes t w.b v.b)))
    | _ => badMod w

/-- VSHL (R101). -/
def execVshl (w : Norom) (s : State) : Host.Outcome State Fault Refusal :=
  outcome (vectorShift w fun sg wd sat a c => intResult sg wd sat (intDecode sg wd a * 2 ^ c)) s

/-- VSHR (R101). -/
def execVshr (w : Norom) (s : State) : Host.Outcome State Fault Refusal :=
  outcome (vectorShift w fun _ _ _ a c => a / 2 ^ c) s

/-- VSAR (R101). -/
def execVsar (w : Norom) (s : State) : Host.Outcome State Fault Refusal :=
  outcome (vectorShift w fun _ wd _ a c => intWrap wd (intDecode true wd a / 2 ^ c)) s

/-! ## Comparisons and masks (R102 to R104) -/

/-- All ones in w bits, or zero. -/
def maskLane (w : Nat) (b : Bool) : Nat := if b then 2 ^ w - 1 else 0

/-- A comparison, lane by lane. -/
def vectorCmp (w : Norom) (fi : Int → Int → Bool) (ff : FVal → FVal → Bool) : M Unit :=
  lineE ⟨tyArith, fVQd, fSrc, fSrc⟩ w fun v => do
    let t := tyOf (modTy w.mod)
    let fpm ← readFpm
    let one (a b : Nat) : Bool :=
      match t with
      | .int sg wd => fi (intDecode sg wd a) (intDecode sg wd b)
      | _ => ff (t.value fpm a) (t.value fpm b)
    putD w (pack t.width (List.zipWith (fun a b => maskLane t.width (one a b)) (srcLanes t w.a v.a) (srcLanes t w.b v.b)))

/-- VCEQ (R102). -/
def execVceq (w : Norom) (s : State) : Host.Outcome State Fault Refusal :=
  outcome (vectorCmp w (fun a b => decide (a = b)) FVal.eqv) s

/-- VCNE (R102): true when either lane is NaN. -/
def execVcne (w : Norom) (s : State) : Host.Outcome State Fault Refusal :=
  outcome (vectorCmp w (fun a b => decide (a ≠ b)) fun a b => !(FVal.eqv a b)) s

/-- VCLT (R102). -/
def execVclt (w : Norom) (s : State) : Host.Outcome State Fault Refusal :=
  outcome (vectorCmp w (fun a b => decide (a < b)) FVal.lt) s

/-- VCLE (R102). -/
def execVcle (w : Norom) (s : State) : Host.Outcome State Fault Refusal :=
  outcome (vectorCmp w (fun a b => decide (a ≤ b)) fun a b => FVal.lt a b || FVal.eqv a b) s

/-- The top bit of a lane. -/
def topBit (w c : Nat) : Bool := natBit c (w - 1)

/-- VBLEND (R103). -/
def execVblend (w : Norom) (s : State) : Host.Outcome State Fault Refusal :=
  outcome (lineE ⟨tyAll, fVb, fSrc, fSrc⟩ w fun v => do
    let t := tyOf (modTy w.mod)
    putD w (pack t.width
      (zip3 (fun d a b => if topBit t.width d then a else b) (lanes t v.d) (srcLanes t w.a v.a) (srcLanes t w.b v.b)))) s

/-- VPOPM (R104). -/
def execVpopm (w : Norom) (s : State) : Host.Outcome State Fault Refusal :=
  outcome (lineE ⟨tyAll, fGQd, fSrc, fNo⟩ w fun v => do
    let t := tyOf (modTy w.mod)
    putW w (BitVec.ofNat 64 (joinLanes 1 ((srcLanes t w.a v.a).map fun a => (topBit t.width a).toNat)))) s

/-! ## Conversion (R105, R106) -/

/-- The rounding mode of VCVT; sr draws for a lane. -/
def cvtMode (s : State) (k di : Nat) : RMode :=
  match k with
  | 0 => .rne
  | 1 => .rz
  | _ => .sr (srDraw s.my.e.seed s.my.lvl s.my.e.icount di)

/-- Whether a conversion between two integer types only clamps (R106). -/
def convertLane (src dst : Ty) (fpm : Byte) (mode : RMode) (sat : Bool) (c : Nat) : Nat :=
  dst.encode fpm mode sat (src.value fpm c)

/-- The lanes of D after VCVT (R105). -/
def cvtLanes (src dst : Ty) (part : Nat) (conv : Nat → Nat → Nat) (zero : Nat → Nat) (a d : List Nat) : List Nat :=
  let ls := src.lanes
  let ld := dst.lanes
  let l := min ls ld
  (List.range ld).map fun di =>
    let i := if ls ≤ ld then di - part * l else di
    let si := if ls ≤ ld then i else part * l + i
    let written := if ls ≤ ld then decide (part * l ≤ di) && decide (di < part * l + l) else decide (di < l)
    if written then (if si < ls then conv di ((a[si]?).getD 0) else zero di) else (d[di]?).getD 0

/-- Parts of a conversion (R105). -/
def cvtParts (src dst : Ty) : Nat := ceilDiv (max src.lanes dst.lanes) (min src.lanes dst.lanes)

/-- VCVT (R105): FN names the destination type; other values are no instruction (R32). The value of B is checked after the
wait for the operands, with the xinfo of R29 for B, which is the model's choice (log entry 100). -/
def execVcvt (dst : BitVec 6) (w : Norom) (s : State) : Host.Outcome State Fault Refusal :=
  outcome (if 0x11 < dst.toNat then fault cIllegalOpcode (BitVec.ofNat 64 (0x2A + 256 * dst.toNat))
    else lineE ⟨tyAll, fVb, fSrc, fI⟩ w fun v => do
      let st := tyOf (modTy w.mod)
      let dt := tyOf (dst.setWidth 5)
      let k := (low v.b).toNat
      let mode := k % 4
      let part := k / 4 % 16
      if 63 < k ∨ mode = 3 ∨ cvtParts st dt ≤ part then badB w
      else do
        let fpm ← readFpm
        let bad ← gets fun s => decide (0x1021 ∈ s.my.poison.eRegs)
        check (!bad || mode ≠ 2) cPoison 0x1021
        let s0 ← gets id
        let conv (di c : Nat) : Nat := convertLane st dt fpm (cvtMode s0 mode di) (modSat w.mod) c
        let zero (di : Nat) : Nat := dt.encode fpm (cvtMode s0 mode di) (modSat w.mod) .zero
        putD w (pack dt.width (cvtLanes st dt part conv zero (srcLanes st w.a v.a) (lanes dt v.d)))) s

/-! ## MX blocks (R107, R108, R156, R157) -/

/-- emax of an MX element type (R107). -/
def mxEmax (ty : BitVec 5) : Int :=
  match ty.toNat with
  | 0xC => 8
  | 0xD => 15
  | 0x11 => 4
  | _ => 2

/-- Registers that a block of a type takes. -/
def mxRegs (ty : BitVec 5) : Nat := if ty = 0xF then 1 else 2

/-- The register number of a vector field. -/
def vecNo (raw : BitVec 16) : Nat :=
  match opnd raw with
  | .v n => n
  | _ => 0

/-- Reads a run of vector registers. -/
def readRun (n : Nat) : Nat → M (List V128)
  | 0 => pure []
  | k + 1 => do
    let x ← readV n
    let r ← readRun (n + 1) k
    pure (x :: r)

/-- Writes a run of vector registers. -/
def writeRun (n : Nat) : List V128 → M Unit
  | [] => pure ()
  | x :: t => do
    writeV n x
    writeRun (n + 1) t

/-- The greatest of a list of magnitudes. -/
def maxMag : List Mag → Mag
  | [] => ⟨0, 1⟩
  | x :: t => let m := maxMag t; if Mag.lt m x then x else m

/-- The magnitude of a finite value. -/
def FVal.mag : FVal → Mag
  | .fin _ m => m
  | _ => ⟨0, 1⟩

/-- Whether a value is finite. -/
def FVal.finite : FVal → Bool
  | .fin _ _ => true
  | _ => false

/-- The value times 2^e. -/
def FVal.scale (v : FVal) (e : Int) : FVal :=
  match v with
  | .fin s m => .fin s (m.shift e)
  | x => x

/-- Quantises f32 values to an element type: the E8M0 scale and the element codes (R107, R157). Results are flushed
when flushOut holds. -/
def mxQuantise (ty : BitVec 5) (flushOut : Bool) (xs : List FVal) : Nat × List Nat :=
  if !(xs.all FVal.finite) then (0xFF, xs.map fun _ => 0)
  else
    let m := maxMag (xs.map FVal.mag)
    let e : Int := if m.n = 0 then -127 else clampInt (-127) 127 (m.log2 - mxEmax ty)
    ((e + 127).toNat, xs.map fun x =>
      match tyOf ty with
      | .flt f => f.flush flushOut (f.encode .rne true (x.scale (-e)))
      | _ => 0)

/-- The registers of a block from its 32 element codes (R107, R156). -/
def mxPack (ty : BitVec 5) (codes : List Nat) : List V128 :=
  let t := tyOf ty
  if mxRegs ty = 1 then [pack t.width codes]
  else [pack t.width (codes.take t.lanes), pack t.width (codes.drop t.lanes)]

/-- The 32 element codes of a block from its registers. -/
def mxUnpack (ty : BitVec 5) (regs : List V128) : List Nat := (regs.flatMap (lanes (tyOf ty))).take 32

/-- The value of an element under a block scale, formed exactly (R156). -/
def mxValue (ty : BitVec 5) (flushIn : Bool) (scale c : Nat) : FVal :=
  if scale = 0xFF then .nan
  else match tyOf ty with
    | .flt f => (f.decode (f.flush flushIn c)).scale ((scale : Int) - 127)
    | _ => .nan

/-- VQMX (R107). fpm is tested before the registers of A (log entry 111). -/
def execVqmx (w : Norom) (s : State) : Host.Outcome State Fault Refusal :=
  let ty := modTy w.mod
  outcome (lineE ⟨tyMx, fVd (mxRegs ty), fV 8, fGd⟩ w fun _ => do
    let fpm ← readFpm
    let xs ← readRun (vecNo w.a) 8
    let vals := (xs.flatMap (lanes (.flt fmtF32))).map fun c => fmtF32.decode (fmtF32.flush (fpm.getLsbD 4) c)
    let (sc, q) := mxQuantise ty (fpm.getLsbD 1) vals
    writeRun (vecNo w.d) (mxPack ty q)
    writeG (w.b.toNat % 64) (BitVec.ofNat 64 sc)) s

/-- VDQMX (R108). Of several poisoned sources B is met first, then fpm, then the registers of A; a single register of A
is met with its field, before B (log entry 111). -/
def execVdqmx (w : Norom) (s : State) : Host.Outcome State Fault Refusal :=
  let ty := modTy w.mod
  outcome (lineE ⟨tyMx, fVd 8, fV (mxRegs ty), fGI⟩ w fun v => do
    let fpm ← readFpm
    let xs ← readRun (vecNo w.a) (mxRegs ty)
    let sc := (low v.b).toNat % 256
    let ys := (mxUnpack ty xs).map fun c =>
      fmtF32.flush (fpm.getLsbD 5) (fmtF32.encode .rne (modSat w.mod) (mxValue ty (fpm.getLsbD 0) sc c))
    writeRun (vecNo w.d) ((List.range 8).map fun i => pack 32 ((ys.drop (4 * i)).take 4))) s

/-! ## Reductions and scans (R109, R110) -/

/-- One level of pairwise reduction. -/
def pairs (f : Nat → Nat → Nat) : List Nat → List Nat
  | a :: b :: t => f a b :: pairs f t
  | l => l

/-- Reduces a list pairwise, level by level (R109). -/
def reducePairs (f : Nat → Nat → Nat) : Nat → List Nat → Nat
  | 0, l => (l[0]?).getD 0
  | n + 1, l => if l.length ≤ 1 then (l[0]?).getD 0 else reducePairs f n (pairs f l)

/-- A lane as a 64-bit word: sign-extended for signed integer types (R109, R113). -/
def laneWord (t : Ty) (c : Nat) : Word :=
  match t with
  | .int true w => sextWord w c
  | _ => BitVec.ofNat 64 c

/-- Whether a destination takes 64 bits: a general register, bol or bos. The list of R109 leaves gq out: it takes the
128 bits of its units (log entry 82). -/
def narrowDest (raw : BitVec 16) : Bool :=
  match opnd raw with
  | .g _ => true
  | .q id => id = 3 || id = 4
  | _ => false

/-- A reduction. -/
def vectorReduce (w : Norom) (op : LaneOp) : M Unit :=
  lineE ⟨tyArith, ⟨.dst, true, 1, false, true, none⟩, fSrc, fNo⟩ w fun v => do
    let t := tyOf (modTy w.mod)
    let fpm ← readFpm
    let r := reducePairs (laneOp t fpm (modSat w.mod) op) 8 (srcLanes t w.a v.a)
    putD w (if narrowDest w.d then wide (laneWord t r) else BitVec.ofNat 128 r)

/-- VRSUM (R109). -/
def execVrsum (w : Norom) (s : State) : Host.Outcome State Fault Refusal := outcome (vectorReduce w opAdd) s

/-- VRMAX (R109). -/
def execVrmax (w : Norom) (s : State) : Host.Outcome State Fault Refusal := outcome (vectorReduce w opMax) s

/-- VRMIN (R109). -/
def execVrmin (w : Norom) (s : State) : Host.Outcome State Fault Refusal := outcome (vectorReduce w opMin) s

/-- Running results of an operation from a carry-in. -/
def scanFrom (f : Nat → Nat → Nat) (c : Nat) : List Nat → List Nat
  | [] => []
  | a :: t => let x := f c a; x :: scanFrom f x t

/-- A scan; the carry-in is lane 0 of B or its scalar (R110). -/
def vectorScan (w : Norom) (op : LaneOp) : M Unit :=
  lineE ⟨tyArith, fVQd, fSrc, fSrc⟩ w fun v => do
    let t := tyOf (modTy w.mod)
    let fpm ← readFpm
    putD w (pack t.width (scanFrom (laneOp t fpm (modSat w.mod) op) (lane t.width v.b 0) (srcLanes t w.a v.a)))

/-- VSCAN (R110). -/
def execVscan (w : Norom) (s : State) : Host.Outcome State Fault Refusal := outcome (vectorScan w opAdd) s

/-- VSCANM (R110). -/
def execVscanm (w : Norom) (s : State) : Host.Outcome State Fault Refusal := outcome (vectorScan w opMax) s

/-! ## Moving lanes (R111 to R115) -/

/-- VPERM (R111). -/
def execVperm (w : Norom) (s : State) : Host.Outcome State Fault Refusal :=
  outcome (vectorBits w fun a b => pack 8 ((List.range 16).map fun i =>
    let t := lane 8 b i
    if natBit t 7 then 0 else lane 8 a (t % 16))) s

/-- VSHUF (R112). -/
def execVshuf (w : Norom) (s : State) : Host.Outcome State Fault Refusal :=
  outcome (lineE ⟨tyAll, fVb, fSrc, fSrc⟩ w fun v => do
    let t := tyOf (modTy w.mod)
    let a := srcLanes t w.a v.a
    let d := lanes t v.d
    putD w (pack t.width ((srcLanes t w.b v.b).map fun b =>
      let k := b % (2 * t.lanes)
      if k < t.lanes then (a[k]?).getD 0 else (d[k - t.lanes]?).getD 0))) s

/-- VBCAST (R113). -/
def execVbcast (w : Norom) (s : State) : Host.Outcome State Fault Refusal :=
  outcome (lineE ⟨tyAll, fVQd, fSrc, fNo⟩ w fun v => do
    let t := tyOf (modTy w.mod)
    putD w (pack t.width (List.replicate t.lanes (lane t.width v.a 0)))) s

/-- VEXT (R113). -/
def execVext (w : Norom) (s : State) : Host.Outcome State Fault Refusal :=
  outcome (lineE ⟨tyAll, fGQd, fVQ, fGI⟩ w fun v => do
    let t := tyOf (modTy w.mod)
    putW w (laneWord t (lane t.width v.a ((low v.b).toNat % t.lanes)))) s

/-- VINS (R113). -/
def execVins (w : Norom) (s : State) : Host.Outcome State Fault Refusal :=
  outcome (lineE ⟨tyAll, fVb, fGIQ, fGI⟩ w fun v => do
    let t := tyOf (modTy w.mod)
    putD w (pack t.width ((lanes t v.d).set ((low v.b).toNat % t.lanes) ((low v.a).toNat % 2 ^ t.width)))) s

/-- VMOV (R114). -/
def execVmov (w : Norom) (s : State) : Host.Outcome State Fault Refusal :=
  outcome (lineE ⟨anyMod, fVQd, fVQ, fNo⟩ w fun v => putD w v.a) s

/-- VDOT4 (R115): four byte products added to each 32-bit lane, wrapped or clamped once. -/
def execVdot4 (w : Norom) (s : State) : Host.Outcome State Fault Refusal :=
  outcome (lineE ⟨tyDot, fVb, fSrc, fSrc⟩ w fun v => do
    let sg := decide (modTy w.mod = 0)
    let t := tyOf (modTy w.mod)
    let prods := List.zipWith (fun a b => intDecode sg 8 a * intDecode sg 8 b) (srcLanes t w.a v.a) (srcLanes t w.b v.b)
    putD w (pack 32 ((List.range 4).map fun j =>
      intResult sg 32 (modSat w.mod)
        (intDecode sg 32 (lane 32 v.d j) + ((prods.drop (4 * j)).take 4).foldl (· + ·) 0)))) s

end Sys2Proof.Machine
end

