-- ==== Sys2Proof/Machine/Special.lean ====
section
/-!
DEFINITION. Special functions (spec/05_vector_special_functions.md R116 to R118).
-/
namespace Sys2Proof.Machine

open Sys2Proof

/-! ## Functions on exact values (R116) -/

/-- A function that is NaN on NaN. -/
def onValue (f : FVal → FVal) (x : FVal) : FVal := if x.isNan then .nan else f x

def fnExp (x : FVal) : FVal := onValue (fun x => match x with
  | .inf s => if s then .zero else .inf false
  | .fin s m => .fin false (expMag s m)
  | .nan => .nan) x

def fnExp2 (x : FVal) : FVal := onValue (fun x => match x with
  | .inf s => if s then .zero else .inf false
  | .fin s m => .fin false (exp2Mag s m)
  | .nan => .nan) x

def fnLog2 (x : FVal) : FVal := onValue (fun x => match x with
  | .inf s => if s then .nan else .inf false
  | .fin s m => if m.n = 0 then .inf true else if s then .nan else log2Val m
  | .nan => .nan) x

def fnRcp (x : FVal) : FVal := FVal.div .one x

def fnSqrt (x : FVal) : FVal := onValue (fun x => match x with
  | .inf s => if s then .nan else .inf false
  | .fin s m => if m.n = 0 then .fin s m else if s then .nan else .fin false m.sqrt
  | .nan => .nan) x

def fnRsqrt (x : FVal) : FVal := onValue (fun x => match x with
  | .inf s => if s then .nan else .zero
  | .fin s m => if m.n = 0 then .inf s else if s then .nan else .fin false (Mag.div ⟨1, 1⟩ m.sqrt)
  | .nan => .nan) x

def fnSin (x : FVal) : FVal := onValue (fun x => match x with
  | .inf _ => .nan
  | .fin s m => if m.n = 0 then .fin s m else sinCosVal false s m
  | .nan => .nan) x

def fnCos (x : FVal) : FVal := onValue (fun x => match x with
  | .inf _ => .nan
  | .fin s m => if m.n = 0 then .one else sinCosVal true s m
  | .nan => .nan) x

/-! ## Sequences of roundings (R117) -/

/-- rnd(v): one rounding in the lane type, with no flush and no saturation. -/
def rndIn (f : FFmt) (v : FVal) : FVal := f.decode (f.encode .rne false v)

/-- sigm(x) before its last rounding. -/
def sigmLast (f : FFmt) (x : FVal) : FVal :=
  let e := rndIn f (fnExp x.neg)
  FVal.div .one (rndIn f (FVal.add .one e))

/-- sigm(x). -/
def sigm (f : FFmt) (x : FVal) : FVal := rndIn f (sigmLast f x)

/-- A small integer as a value. -/
def fInt (n : Nat) : FVal := .fin false ⟨n, 1⟩

/-- tanh(x) before its last rounding. -/
def tanhLast (f : FFmt) (x : FVal) : FVal :=
  FVal.sub (FVal.mul (fInt 2) (sigm f (rndIn f (FVal.mul (fInt 2) x)))) .one

/-- silu(x) before its last rounding; silu(-∞) is -0. -/
def siluLast (f : FFmt) (x : FVal) : FVal := if x = .inf true then .fin true ⟨0, 1⟩ else FVal.mul x (sigm f x)

/-- The constants of GELU. -/
def geluC1 (f : FFmt) : FVal := rndIn f (.fin false (Mag.sqrt ⟨2 * fixWide, piBits⟩))
def geluC2 (f : FFmt) : FVal := rndIn f (.fin false ⟨44715, 1000000⟩)

/-- gelu(x) before its last rounding; gelu(-∞) is -0. -/
def geluLast (f : FFmt) (x : FVal) : FVal :=
  if x = .inf true then .fin true ⟨0, 1⟩
  else
    let x2 := rndIn f (FVal.mul x x)
    let x3 := rndIn f (FVal.mul x2 x)
    let i := rndIn f (FVal.add (FVal.mul (geluC2 f) x3) x)
    let w := rndIn f (FVal.mul (geluC1 f) i)
    let h := rndIn f (FVal.add .one (rndIn f (tanhLast f w)))
    FVal.mul (.fin false ⟨1, 2⟩) (rndIn f (FVal.mul x h))

/-! ## Instructions -/

/-- A special function, lane by lane: f gives the value that is rounded last. -/
def special (w : Norom) (f : FFmt → FVal → FVal) : M Unit :=
  lineE ⟨tySpecial, fVQd, fSrc, fNo⟩ w fun v => do
    let t := tyOf (modTy w.mod)
    let fpm ← readFpm
    match t with
    | .flt k =>
      putD w (pack t.width ((srcLanes t w.a v.a).map fun c => t.encode fpm .rne (modSat w.mod) (f k (t.value fpm c))))
    | _ => badMod w

/-- VEXP2 (R116). -/
def execVexp2 (w : Norom) (s : State) : Host.Outcome State Fault Refusal := outcome (special w (fun _ => fnExp2)) s

/-- VLOG2 (R116). -/
def execVlog2 (w : Norom) (s : State) : Host.Outcome State Fault Refusal := outcome (special w (fun _ => fnLog2)) s

/-- VRCP (R116). -/
def execVrcp (w : Norom) (s : State) : Host.Outcome State Fault Refusal := outcome (special w (fun _ => fnRcp)) s

/-- VRSQRT (R116). -/
def execVrsqrt (w : Norom) (s : State) : Host.Outcome State Fault Refusal := outcome (special w (fun _ => fnRsqrt)) s

/-- VSQRT (R116). -/
def execVsqrt (w : Norom) (s : State) : Host.Outcome State Fault Refusal := outcome (special w (fun _ => fnSqrt)) s

/-- VTANH (R117). -/
def execVtanh (w : Norom) (s : State) : Host.Outcome State Fault Refusal := outcome (special w tanhLast) s

/-- VSIGM (R117). -/
def execVsigm (w : Norom) (s : State) : Host.Outcome State Fault Refusal := outcome (special w sigmLast) s

/-- VSILU (R117). -/
def execVsilu (w : Norom) (s : State) : Host.Outcome State Fault Refusal := outcome (special w siluLast) s

/-- VGELU (R117). -/
def execVgelu (w : Norom) (s : State) : Host.Outcome State Fault Refusal := outcome (special w geluLast) s

/-- VSIN (R116). -/
def execVsin (w : Norom) (s : State) : Host.Outcome State Fault Refusal := outcome (special w (fun _ => fnSin)) s

/-- VCOS (R116). -/
def execVcos (w : Norom) (s : State) : Host.Outcome State Fault Refusal := outcome (special w (fun _ => fnCos)) s

/-- VEXP (R116). -/
def execVexp (w : Norom) (s : State) : Host.Outcome State Fault Refusal := outcome (special w (fun _ => fnExp)) s

/-- VDIV (R118). -/
def execVdiv (w : Norom) (s : State) : Host.Outcome State Fault Refusal :=
  outcome (vector2 w tySpecial id opDiv) s

end Sys2Proof.Machine
end

