-- ==== Sys2Proof/Machine/Sequence.lean ====
section
/-!
DEFINITION. Sequences, attention and the dugout (spec/14_parking_a_sequence.md R256 to R263;
spec/16_sequences_attention_dugout.md R283 to R296). The home package of every window is this one.
-/
namespace Sys2Proof.Machine

open Sys2Proof

/-! ## The dugout -/

/-- Changes a dugout entry. -/
def State.onDug (s : State) (i : Nat) (f : DugEntry → DugEntry) : State :=
  s.onFloor fun fl => { fl with dugout := fl.dugout.modify i f }

/-- Drops moves (R277, R291). A command that a dropped move has queued stays outstanding: its completion is still to come
(R363). -/
def State.dropMoves (s : State) (p : Move → Bool) : State :=
  s.onFloor fun f => { f with
    moves := f.moves.filter (!p ·)
    loose := f.loose ++ (f.moves.filter p).filterMap fun m => m.cmd.map fun cid => ⟨m.id, s.ctxVf m.ctx, cid⟩ }

/-- Frees an entry: its id becomes stale and its moves stop (R291). -/
def State.freeDug (s : State) (i : Nat) : State :=
  (s.onFloor fun f =>
    { f with
      dgens := match f.dugout.find i with
        | some e => f.dgens.put i (nextGen e.gen)
        | none => f.dgens
      dugout := f.dugout.del i }).dropMoves (·.entry == i)

/-- The entry of a window, if it is parked or returning. -/
def State.dugOf (s : State) (ctx win : Nat) : Option (Nat × DugEntry) :=
  s.floor.dugout.find? fun x => x.2.ctx = ctx && x.2.win == win

/-- An event of a dugout entry (R351): kind 7 with a subcode. -/
def State.dugEvent (s : State) (i : Nat) (e : DugEntry) (sub : Nat) : State :=
  let w := whoFloor s
  s.ctxEvent ⟨e.ctx, 7, 0, w.strand, w.place, w.pc, dugWord e.gen i, leBytes 1 sub⟩

/-- A move that does not happen is reported once for an entry (R290). -/
def State.reportMove (s : State) (i : Nat) : State :=
  match s.floor.dugout.find i with
  | none => s
  | some e => if e.moveReported then s else (s.onDug i fun e => { e with moveReported := true }).dugEvent i e 2

/-- Bytes of 64 KiB pages that a function's pages and moves hold in a tier. -/
def State.tierUsed (s : State) (v : Nat) (tier : BitVec 2) : Nat :=
  65536 * ((s.floor.out.filter fun o => s.ctxVf o.ctx = v && o.tier = tier).length +
    (s.floor.moves.filter fun m => s.ctxVf m.ctx = v && m.target = tier).length)

/-- Whether a tier is assigned to a function and has room for a page (R290, R363). -/
def State.tierRoom (s : State) (v : Nat) (tier : BitVec 2) : Bool :=
  if tier = 1 then decide (s.tierUsed v 1 + 65536 ≤ (s.vf v).cxlBytes)
  else (s.vf v).nvme ≠ [] && decide (s.tierUsed v 2 + 65536 ≤ 4096 * (s.vf v).flashLbas)

/-! ## The flash tier's commands (R363; log entry 84) -/

/-- Changes a move. -/
def State.onMove (s : State) (id : Nat) (f : Move → Move) : State :=
  s.onFloor fun fl => { fl with moves := fl.moves.map fun x => if x.id = id then f x else x }

/-- The 64 bytes of a Read or Write of one page: opcode, command id, namespace, data pointer, first LBA, and 16 LBAs
(number 15, counted from 0). -/
def nvmeEntry (read : Bool) (cid nsid data lba : Nat) : List Byte :=
  leBytes 2 (if read then 2 else 1) ++ leBytes 2 cid ++ leBytes 4 nsid ++ List.replicate 16 0 ++ leBytes 16 data ++
    leBytes 8 lba ++ leBytes 2 15 ++ List.replicate 14 0

/-- The ids of a function's commands whose completions have not been taken. -/
def State.nvmeOpen (s : State) (v : Nat) : List Nat :=
  (s.floor.moves.filter fun m => s.ctxVf m.ctx = v).filterMap (·.cmd) ++
    (s.floor.loose.filter (·.vf = v)).map (·.cid)

/-- Rings a doorbell: a value written to a bus address. -/
def State.ringDoorbell (s : State) (a : Word) (x : Nat) : State :=
  s.onFloor fun f => { f with doorbells := f.doorbells ++ [(a, x)] }

/-- Queues the command of a move from or to the flash tier, and rings the tail's doorbell; a full queue lets the move
wait. -/
def State.queueMove (s : State) (m : Move) : State :=
  let v := s.ctxVf m.ctx
  let f := s.vf v
  let n := fieldAt f.nvme 0x16 2
  let busy := s.nvmeOpen v
  if n ≤ busy.length + 1 then s
  else
    let cid := Tab.nthFree (busy.foldl (fun l x => insertNat x l) []) 0
    let e := nvmeEntry (m.target = 0) cid (fieldAt f.nvme 0x10 4) (Config.freeDataPointer s.draws) m.lba
    let tail := (f.nvmeTail + 1) % n
    ((({ s with draws := s.draws + 1 }).onVf v fun f => { f with
      nvmeSq := tabWrite f.nvmeSq (64 * f.nvmeTail) e, nvmeTail := tail }).onMove m.id fun x =>
        { x with cmd := some cid }).ringDoorbell (wordAt f.nvme 0) tail

/-- Takes a completion of a function's queue: its head moves on, and the head's doorbell is rung. -/
def State.takeCompletion (s : State) (v : Nat) : State :=
  let f := s.vf v
  let head := (f.nvmeHead + 1) % fieldAt f.nvme 0x16 2
  (s.onVf v fun f => { f with nvmeHead := head }).ringDoorbell (wordAt f.nvme 8) head

/-- The command of a move has completed. -/
def State.completed (s : State) (m : Move) : State :=
  (s.onMove m.id fun x => { x with cmd := none }).takeCompletion (s.ctxVf m.ctx)

/-- The command of a dropped move has completed: only its completion is taken. -/
def State.endLoose (s : State) (id : Nat) : State :=
  match s.floor.loose.find? (·.id == id) with
  | none => s
  | some c => (s.onFloor fun f => { f with loose := f.loose.filter (·.id ≠ id) }).takeCompletion c.vf

/-- The first of 16 free LBAs of a function's share. -/
def State.pickLba (s : State) (v : Nat) : Nat :=
  let used := (s.floor.out.filter fun o => s.ctxVf o.ctx = v && o.tier = 2).map (·.lba / 16) ++
    (s.floor.moves.filter fun m => s.ctxVf m.ctx = v && m.target = 2).map (·.lba / 16)
  let used := used.foldl (fun l x => insertNat x l) []
  16 * Tab.nthFree used (Config.freeLba s.draws % ((s.vf v).flashLbas / 16 - used.length))

/-- Whether a move uses the flash tier. -/
def Move.flash (m : Move) : Bool := m.source = 2 || m.target = 2

/-- Sets the tier of the leaf at an entry. -/
def State.putTier (s : State) (leaf tier : Nat) : State := s.physPut leaf 8 (setTier (s.physNat leaf 8) tier)

/-- The first LBA of a page that goes to the flash tier, or stands there. -/
def State.lbaOf (s : State) (ctx va : Nat) (target : BitVec 2) : Nat :=
  if target = 2 then s.pickLba (s.ctxVf ctx)
  else match s.outOf ctx va with
    | some o => o.lba
    | none => 0

/-! ## Reads past translation (R222, R228, R277; log entry 108) -/

/-- The granule that a strand's access waits for, past translation. -/
def Run.unread (r : Run) : Option Word :=
  match r with
  | .waiting w _ _ => w.unread
  | _ => none

/-- The granule that an outstanding read of a load queue reads. -/
def LqEntry.reads (x : LqEntry) : Option Word :=
  match x with
  | .reserved a _ _ => some a
  | _ => none

/-- The granules for which reads of a core stand past translation. Once E has stopped for a save, an instruction that
waits has done nothing, and is executed whole after the resumption (R329). -/
def Core.unreads (c : Core) : List Word :=
  (if c.drain.isStopped then [] else [c.e.run, c.l.run, c.s.run].filterMap Run.unread) ++
    (c.q.lq0 ++ c.q.lq1).filterMap LqEntry.reads ++ (c.copy.take 1).filterMap CopyCmd.unread ++
    (c.mx.queue.take 1).filterMap MxCmd.unread

/-- The reads that stand past translation, by context and granule (R219). -/
def State.unreads (s : State) : List (Nat × Word) :=
  (s.cores.flatMap fun x => x.2.unreads.map fun a => (s.coreCtx x.1, a)) ++
    (s.courts.filterMap fun x => x.2.umpire.hart.run.unread.map fun a => (x.2.umpire.ctx, a)) ++
    (s.floor.bulk.filterMap fun b => b.unread.map fun a => ((viaBulk s b).ctx, a)) ++
    s.floor.attn.flatMap fun b => b.unread.map fun a => (s.coreCtx b.core, a)

/-- Whether a granule of a context is written, in the frame at a base. -/
def State.granuleIn (s : State) (base ctx : Nat) (a : Word) : Bool :=
  match s.physOf ctx a.toNat with
  | none => false
  | some p => match s.frameAt p with
    | some (b, f) => b = base && f.ct = 2 && (p - b) / 16 ∈ f.written
    | none => false

/-- Whether a read past translation on the frame of a leaf has all its bytes and has not yet performed: a command that
lets such reads perform first waits for it (R222 step 1, R228 step 3). -/
def State.readPends (s : State) (ctx : Nat) (l : Leaf) : Bool :=
  (s.outOf ctx l.va).isNone && s.unreads.any fun x => s.granuleIn (pteFrame l.pte) x.1 x.2

/-- Begins the move of a page: its tier becomes 11 (R263), and the command of a move from or to flash is queued. -/
def State.beginMove (s : State) (i ctx : Nat) (l : Leaf) (target : BitVec 2) : State :=
  let m : Move := {
    id := s.floor.nextItem, entry := i, ctx := ctx, va := l.va, leaf := l.entry
    source := BitVec.ofNat 2 (pteTier l.pte), target := target, retries := 0, lba := s.lbaOf ctx l.va target, cmd := none }
  let t := ({ s with draws := s.draws + 1 }.putTier l.entry 3).onFloor fun f => { f with
    nextItem := f.nextItem + 1, moves := f.moves ++ [m] }
  if m.flash then t.queueMove m else t

/-- Whether a page of an entry's window is moving. -/
def State.moving (s : State) (i : Nat) (e : DugEntry) : Bool := s.floor.moves.any fun m => m.entry == i && m.ctx = e.ctx

/-- Whether the pages of a class in a tier move to a target when its timer elapses (R290). -/
def agesTo (target : BitVec 2) (tclass tier : Nat) : Bool :=
  if target = 1 then (tclass = 0 || tclass = 1) && tier = 0
  else (tclass = 0 || tclass = 3) && (tier = 0 || tier = 1)

/-- The pages of a window that age to a target, below a virtual address, highest group and block first. -/
def State.ageing (s : State) (w : Window) (target : BitVec 2) (below : Nat) : List Leaf :=
  (List.range w.groups).reverse.flatMap fun g =>
    let c := (s.group w g).tclass
    (s.windowGroup w g).reverse.filter fun l => decide (l.va < below) && agesTo target c (pteTier l.pte)

/-- Begins the next demotion of an entry below an address, or reports that it cannot be made. Reads past translation on
its page perform first (R263, R228 step 3): until they have, the demotion is due. -/
def State.demoteNext (s : State) (i : Nat) (target : BitVec 2) (below : Nat) : State :=
  match s.floor.dugout.find i with
  | none => s
  | some e =>
    match s.windowAt e.ctx e.win with
    | none => s
    | some w =>
      match s.ageing w target below with
      | [] => s
      | l :: _ =>
        if !s.tierRoom (s.ctxVf e.ctx) target then s.reportMove i
        else if s.readPends e.ctx l then s.onDug i fun e => { e with due := some (target, below) }
        else s.beginMove i e.ctx l target

/-- The group of a stage in the card's order (R263, R291). -/
def stageGroup (e : DugEntry) (w : Window) (stage : Nat) : Nat := if e.order = 0 then stage - 1 else w.groups - stage

/-- Begins the next promotion of the running stage, once no move of the entry is in progress (R263, R292). -/
def State.promoteNext (s : State) (i : Nat) : State :=
  match s.floor.dugout.find i with
  | none => s
  | some e =>
    match e.state, s.windowAt e.ctx e.win with
    | .promoting k, some w =>
      if s.moving i e then s
      else match (s.windowGroup w (stageGroup e w k)).find? fun l => pteTier l.pte ≠ 0 with
        | some l => s.beginMove i e.ctx l 0
        | none => s
    | _, _ => s

/-- The resume dispatch of an entry (R263, R293): its card is read when it is placed. -/
def resumeDispatch (s : State) (i : Nat) (e : DugEntry) : Dispatch where
  origin := .resume (dugWord e.gen i).toNat e.rcard
  phase := .queued
  vf := s.ctxVf e.ctx
  ctx := e.ctx
  order := s.floor.nextDisp
  pkg := 0
  gen := 0
  curGen := 0
  eimg := 0
  limg := 0
  simg := 0
  part := 0
  levels := []
  args := e.rargs
  save := 0
  budget := 0
  energy := 0
  cls := e.cls
  restartable := true
  cores := []
  side := []
  umpire := none
  hregs := []
  hbars := []
  gbars := []
  poisonSeen := []
  progress := s.time.toNat
  told := none
  avoid := none
  share := none
  table := none

/-- Whether the running stage of an entry is resident (R292). -/
def State.stageDone (s : State) (i : Nat) : Bool :=
  match s.floor.dugout.find i with
  | none => false
  | some e => match e.state, s.windowAt e.ctx e.win with
    | .promoting k, some w => s.groupResident w (stageGroup e w k)
    | _, _ => false

/-- The running stage of an entry ends once it is resident (R291, R292): stage 1 dispatches the resume card; the last
stage frees the entry; any other starts the next. -/
def State.endStage (s : State) (i : Nat) : State :=
  match s.floor.dugout.find i with
  | none => s
  | some e =>
    match e.state, s.windowAt e.ctx e.win with
    | .promoting k, some w =>
      if s.groupResident w (stageGroup e w k) then
        let s1 := if k = 1 then s.addDispatch (resumeDispatch s i e) else s
        if w.groups ≤ k then s1.freeDug i
        else (s1.onDug i fun e => { e with state := .promoting (k + 1) }).promoteNext i
      else s
    | _, _ => s

/-- Ends every stage that is resident, at most n of them: one whose pages never left HBM is resident as it begins. -/
def State.endStages (i : Nat) : Nat → State → State
  | 0, s => s
  | n + 1, s => if s.stageDone i then State.endStages i n (s.endStage i) else s

/-- The stages of a window at the most. -/
def maxStages : Nat := 512

/-- A wake of a PARKED entry: its mailbox is disarmed, a demotion that has not begun is cancelled and stage 1 begins
(R263, R291). Every other wake has no effect. -/
def State.wakeDug (s : State) (i : Nat) : State :=
  match s.floor.dugout.find i with
  | none => s
  | some e =>
    if e.state = .parked then
      State.endStages i maxStages ((s.onDug i fun e => { e with state := .promoting 1, due := none }).promoteNext i)
    else s

/-- The entry that an id of a context names (R294). -/
def State.dugNamed (s : State) (ctx : Nat) (id : Word) : Option Nat :=
  let i := id.toNat % 2 ^ 44
  match s.floor.dugout.find i with
  | none => none
  | some e => if e.ctx = ctx ∧ dugWord e.gen i = id then some i else none

/-! ## PARK and WAKE -/

/-- Checks the mailbox of a park card (R295). One that is not on a SEQ page is ILLEGAL_OPERAND at A: R263 says so, and
stands as written by the opening of R295's chapter (log entry 86). -/
def mailboxCheck (w : Norom) (m : Word) : M Unit := do
  check (decide (m.toNat % 8 = 0)) cMisaligned m
  check (decide (m.toNat + 8 ≤ 2 ^ 57)) cBadAperture m
  let via ← gets viaMe
  let r ← xlate via m.toNat .read
  let seq := match r.2.2 with
    | some f => f.ct = 0
    | none => false
  orBadA w seq

/-- Registers an entry in a free place that the controller chooses, and answers its id (R263). -/
def newDug (e : DugEntry) : M Word := fun s =>
  let used := s.floor.dugout.map (·.1)
  let i := Tab.nthFree used (Config.freeDugoutIndex s.draws % (2 ^ 44 - used.length))
  let g : BitVec 20 := match s.floor.dgens.find i with
    | some g => g
    | none => BitVec.ofNat 20 (Config.freeDugoutGen s.draws % 0xFFFFF + 1)
  let s1 := { s with draws := s.draws + 1 }
  .ok (dugWord g i, s1.onFloor fun f => { f with dugout := f.dugout.put i { e with gen := g } })

/-- PARK (R262, R263, R295). -/
def execPark (w : Norom) (s : State) : Host.Outcome State Fault Refusal :=
  outcome (lineE ⟨anyMod, fGd, fG, fNo⟩ w fun v => do
    let a := low v.a
    check (decide (a.toNat % 16 = 0)) cMisaligned a
    check (inArea .ownOrGlobal a 64) cBadAperture a
    let bs ← readJob a 64
    let win := fieldAt bs 0 8
    let tcxl := if fieldAt bs 0x20 4 = 0 then 2000000 else fieldAt bs 0x20 4
    let tflash := if fieldAt bs 0x24 4 = 0 then 120000000 else fieldAt bs 0x24 4
    let order := fieldAt bs 0x28 1
    let ctx ← gets State.myCtx
    let ok ← gets fun s => (s.windowAt ctx win).isSome && (s.dugOf ctx win).isNone
    orBadA w (ok && decide (order ≤ 1) && decide (tcxl < tflash))
    mailboxCheck w (wordAt bs 0x18)
    let full ← gets fun s => match s.ctxOf ctx with
      | some c => decide (c.dquota ≤ (s.floor.dugout.filter fun x => x.2.ctx = ctx).length)
      | none => true
    check (!full) cArenaFull 1
    let now ← gets fun s => s.time.toNat
    let id ← newDug {
      gen := 0, state := .parked, ctx := ctx, win := win, rcard := wordAt bs 8, rargs := wordAt bs 0x10
      mbox := fieldAt bs 0x18 8, tcxl := tcxl, tflash := tflash, order := order, cls := fieldAt bs 0x29 1 % 8
      parkedAt := now, cxlBegun := false, flashBegun := false, due := none, moveReported := false, stallReported := false }
    putW w id) s

/-- WAKE (R294). -/
def execWake (w : Norom) (s : State) : Host.Outcome State Fault Refusal :=
  outcome (lineE ⟨anyMod, fNo, fG, fNo⟩ w fun v =>
    change fun s => match s.dugNamed s.myCtx (low v.a) with
      | some i => s.wakeDug i
      | none => s) s

/-- MAILBOX_WAKE (R263, R291): a write has performed on an armed mailbox. -/
def execMailboxWake (s : State) : Host.Outcome State Fault Refusal :=
  match s.arg with
  | .entry i => .next (s.wakeDug i)
  | _ => .next s

/-- DEMOTION_TIMER (R263, R290): at tcxl, and at tflash once the moves to CXL memory have ended, pages begin to move. A
demotion that is due is begun again. -/
def execDemotionTimer (s : State) : Host.Outcome State Fault Refusal :=
  match s.arg with
  | .entry i =>
    match s.floor.dugout.find i with
    | none => .next s
    | some e =>
      let gone := s.time.toNat - e.parkedAt
      if e.state ≠ .parked then .next s
      else match e.due with
      | some (target, below) => .next ((s.onDug i fun e => { e with due := none }).demoteNext i target below)
      | none =>
        if !e.cxlBegun then
          if e.tcxl * 1000 ≤ gone then .next ((s.onDug i fun e => { e with cxlBegun := true }).demoteNext i 1 (2 ^ 57))
          else .next s
        else if !e.flashBegun && decide (e.tflash * 1000 ≤ gone) && !s.moving i e then
          .next ((s.onDug i fun e => { e with flashBegun := true }).demoteNext i 2 (2 ^ 57))
        else .next s
  | _ => .next s

/-! ## Tier moves -/

/-- A move leaves the controller's list. -/
def State.endMove (s : State) (m : Move) : State :=
  s.onFloor fun f => { f with moves := f.moves.filter (·.id ≠ m.id) }

/-- What follows a move of an entry: the next demotion while it is PARKED, else the next promotion, or the end of the
stages that are resident. -/
def State.afterMove (s : State) (m : Move) : State :=
  match s.floor.dugout.find m.entry with
  | none => s
  | some e =>
    if e.ctx ≠ m.ctx then s
    else if e.state = .parked then s.demoteNext m.entry m.target m.va
    else State.endStages m.entry maxStages (s.promoteNext m.entry)

/-- Takes a page out of HBM: its bytes, its frame record and its poison marks go with it, and its frame returns to
the pool (R263, R284, R347). -/
def State.takeOut (s : State) (m : Move) : State :=
  let p := pteFrame (s.physNat m.leaf 8)
  match s.floor.frames.find p with
  | none => s
  | some f =>
    let data := (s.mem.filter fun x => decide (p ≤ x.1) && decide (x.1 < p + 65536)).map fun x => (x.1 - p, x.2)
    let bad := (s.floor.lines.filter fun l => decide (p / 64 ≤ l) && decide (l < p / 64 + 1024)).map (· - p / 64)
    let gone : OutPage := ⟨m.ctx, m.va, m.leaf, natBits p 38 36, m.target, data, f, bad, m.lba⟩
    (({ s with mem := s.mem.clearRange p 65536 }).freeFrame p).onFloor fun fl => { fl with
      lines := fl.lines.filter fun l => !(decide (p / 64 ≤ l) && decide (l < p / 64 + 1024))
      out := fl.out ++ [gone] }

/-- A demotion's copy completes: the page takes its new tier (R263). -/
def State.demoted (s : State) (m : Move) : State :=
  let s1 := if m.source = 0 then s.takeOut m else s.onOut m.ctx m.va fun o => { o with tier := m.target, lba := m.lba }
  ((s1.putTier m.leaf m.target.toNat).endMove m).afterMove m

/-- The fresh frame, on the stack it came from, that a promoted page would take now (R284, R292). -/
def State.homeFrame (s : State) (ctx : Nat) (o : OutPage) : Option Nat :=
  if s.hbmShare (s.ctxVf ctx) 65536 then s.hbmFit o.stack 16 else none

/-- Gives a promoted page its frame, with its bytes and marks, or every line marked when its flash read has failed for
good (R292). -/
def State.promoted (s : State) (m : Move) (o : OutPage) (p : Nat) (lost : Bool) : State :=
  let s1 := s.putFrame p o.frame
  let s2 := if lost then s1 else { s1 with mem := o.data.foldl (fun t x => t.set 0 (p + x.1) x.2) s1.mem }
  let bad := if lost then List.range 1024 else o.poison
  let s3 := s2.onFloor fun f => { f with
    lines := f.lines ++ bad.map (p / 64 + ·)
    out := f.out.filter fun x => !(x.ctx = m.ctx && x.va == m.va) }
  let s4 := s3.physPut m.leaf 8 (setTier (setFramePte (s3.physNat m.leaf 8) p) 0)
  let s5 := if lost then (match s4.floor.dugout.find m.entry with
    | some e => s4.dugEvent m.entry e 3
    | none => s4) else s4
  (s5.endMove m).afterMove m

/-- The end of a promotion's copy: it needs a frame; a read from flash that fails is retried twice (R292). -/
def State.endPromotion (s : State) (m : Move) (failed : Bool) : State :=
  match s.outOf m.ctx m.va with
  | none => (if m.flash then s.completed m else s).endMove m
  | some o =>
    match s.homeFrame m.ctx o with
    | none => s
    | some p =>
      if m.source ≠ 2 then s.promoted m o p false
      else
        let t := s.completed m
        if !failed then t.promoted m o p false
        else if m.retries < 2 then (t.onMove m.id fun x => { x with retries := x.retries + 1 }).queueMove m
        else t.promoted m o p true

/-- The end of a demotion's copy: a write to flash that fails leaves its page where it was (R290). -/
def State.endDemotion (s : State) (m : Move) (failed : Bool) : State :=
  let t := if m.flash then s.completed m else s
  if failed && m.target = 2 then (((t.putTier m.leaf m.source.toNat).endMove m).reportMove m.entry).afterMove m
  else t.demoted m

/-- PAGE_MOVE_COMPLETE (R263, R290, R292, R363): a move from or to flash whose command is not queued queues it; every
other move ends, between HBM and CXL memory once a bulk copy engine is free (log entry 104). Of a dropped move only the
completion is taken. -/
def execPageMoveComplete (s : State) : Host.Outcome State Fault Refusal :=
  match s.arg with
  | .move id failed =>
    match s.floor.moves.find? (·.id == id) with
    | none => .next (s.endLoose id)
    | some m =>
      if m.flash && m.cmd.isNone then .next (s.queueMove m)
      else if !m.flash && !s.bulkFree then .next s
      else if m.target = 0 then .next (s.endPromotion m failed)
      else .next (s.endDemotion m failed)
  | _ => .next s

/-- STAGE_RESIDENT (R291, R292): a stage that is resident ends. -/
def execStageResident (s : State) : Host.Outcome State Fault Refusal :=
  match s.arg with
  | .entry i => .next (s.endStage i)
  | _ => .next s

/-! ## KVAPP -/

/-- The source format of a group's rows: f16 for an f16 group, else bf16 (R283). -/
def rowFmt (kvtype : Nat) : FFmt := if kvtype = 0x09 then fmtF16 else fmtBf16

/-- The codes of a source row. -/
def rowCodes (bs : List Byte) (dh : Nat) : List Nat := (List.range dh).map fun j => fieldAt bs (2 * j) 2

/-- mag(x): the largest finite magnitude of a row (R285). -/
def rowMag (f : FFmt) (cs : List Nat) : Mag :=
  cs.foldl (fun m c => match f.decode c with
    | .fin _ x => if m.lt x then x else m
    | _ => m) ⟨0, 1⟩

/-- 448 · 2^(sc - 127), the largest magnitude that a scale holds (R285). -/
def scaleTop (sc : Nat) : Mag := Mag.scale 448 ((sc : Int) - 127)

/-- sc(m): the least scale, at most 254 and at least 0, that holds a magnitude (R285). -/
def rowScale (m : Mag) : Nat :=
  if m.n = 0 then 0 else ((List.range 255).find? fun sc => m.le (scaleTop sc)).getD 254

/-- A row quantised to e4m3, with its tail (R283, R285). -/
def quantRow (cs : List Nat) (sc : Nat) : List Byte :=
  cs.map (fun c => BitVec.ofNat 8 (fmtE4m3.encode .rne true ((fmtBf16.decode c).scale (127 - (sc : Int))))) ++
    leBytes 16 sc

/-- The scale-group state of one head after a token: K scale, V scale, count (R285). -/
def headState (mk mv : Mag) (sglen kc vc c : Nat) : Nat × Nat × Nat :=
  if c = 0 ∨ c = sglen ∨ (scaleTop kc).lt mk ∨ (scaleTop vc).lt mv then (rowScale mk, rowScale mv, 1)
  else (kc, vc, c + 1)

/-- Writes the rows of one head, and its scale-group state for e4m3 (R256, R258, R285). -/
def appendHead (via : Via) (g : Group) (page : Nat) (src : List Byte) (h : Nat) : M Unit := do
  let rb := rowStored g.kvtype g.dh
  let k := (src.drop (2 * g.dh * h)).take (2 * g.dh)
  let v := (src.drop (2 * g.dh * (g.heads + h))).take (2 * g.dh)
  let off := (g.len % g.tpp * g.heads + h) * rb
  let write (a : Nat) (bs : List Byte) : M Unit := allOf (writePieces via (bs.length + 1) a bs)
  if g.kvtype = 0x0C then do
    let kcs := rowCodes k g.dh
    let vcs := rowCodes v g.dh
    let st ← gets fun s => headState (rowMag fmtBf16 kcs) (rowMag fmtBf16 vcs) g.sglen (s.physNat (g.table + 0x10 + h) 1)
      (s.physNat (g.table + 0x20 + h) 1) (s.physNat (g.table + 0x30 + h) 1)
    write (page + off) (quantRow kcs st.1)
    write (page + 0x8000 + off) (quantRow vcs st.2.1)
    change fun s => ((s.physPut (g.table + 0x10 + h) 1 st.1).physPut (g.table + 0x20 + h) 1 st.2.1).physPut
      (g.table + 0x30 + h) 1 st.2.2
  else do
    write (page + off) k
    write (page + 0x8000 + off) v

/-- Maps a fresh frame for a block, on stack (block + g) mod 8 (R258, R284). -/
def mapBlock (ctx : Nat) (g : Group) (gi block : Nat) : M Unit := do
  let a := g.table + 64 + 8 * block
  let e ← gets fun s => s.physNat a 8
  if natBit e 0 then pure ()
  else do
    let run ← gets fun s => s.my.e.run
    let told := match run with
      | .waiting (.frame r) _ _ => r
      | _ => false
    let place ← gets fun s => if s.hbmShare (s.ctxVf ctx) 65536 then s.hbmFit ((block + gi) % 8) 16 else none
    match place with
    | none => stop (.wait (.frame told))
    | some p =>
      change fun s => (s.putFrame p (Frame.fresh 16 (BitVec.ofNat 2 g.ct) ctx false)).physPut a 8 (leafEntry p true false g.ct)

/-- KVAPP (R258, R286). -/
def execKvapp (w : Norom) (s : State) : Host.Outcome State Fault Refusal :=
  outcome (lineE ⟨anyMod, fGd, fG, fG⟩ w fun v => do
    let a := (low v.a).toNat
    let b := low v.b
    let ctx ← gets State.myCtx
    let gi := a / 2 ^ 30 % 512
    let win ← gets fun s => s.windowAt ctx (a / 2 ^ 39 * 2 ^ 39)
    match win with
    | none => badA w
    | some x => do
      orBadA w (a % 2 ^ 30 = 0 && decide (gi < x.groups))
      let g ← gets fun s => s.group x gi
      let n := 4 * g.heads * g.dh
      check (decide (b.toNat % 16 = 0)) cMisaligned b
      check (inArea .own b n) cBadAperture b
      let parked ← gets fun s => match s.dugOf ctx x.base with
        | some (_, e) => e.state = .parked
        | none => false
      orBadA w (!parked)
      let block := g.len / g.tpp
      check (decide (block < g.leaflen)) cSeqOverrun (BitVec.ofNat 64 (a + block * 65536))
      let here ← gets fun s => s.groupResident x gi
      await here .promotion
      mapBlock ctx g gi block
      let via ← gets viaMe
      let src ← engineRead via b n .read
      forAll (appendHead via g (a + block * 65536) src) (List.range g.heads)
      change fun s => s.physPut (g.table + 12) 4 (g.len + 1)
      putW w (BitVec.ofNat 64 g.len)) s

/-- KVAPP_FRAME_WAIT_REPORT (R284, R345): a wait for a frame of more than 100 µs is reported once. -/
def execKvappFrameWaitReport (s : State) : Host.Outcome State Fault Refusal :=
  match s.arg with
  | .core n =>
    match (s.core n).e.run, s.dispOf n with
    | .waiting (.frame false) b t, some (_, d) =>
      if t + 100000 < s.time.toNat then
        let w := whoStrand s n .e
        .next ((s.onCore n fun c => { c with e := { c.e with run := .waiting (.frame true) b t } }).ctxEvent
          ⟨d.ctx, 7, 0, w.strand, w.place, w.pc, d.eventId, leBytes 1 1⟩)
      else .next s
    | _, _ => .next s
  | _ => .next s

/-! ## ATTN -/

/-- Bytes of a triple (R260). -/
def tripleBytes (dh : Nat) : Nat := 16 + 4 * dh

/-- ATTN (R259, R288): its checks in the order of R288's table, the alignment of the card among them. -/
def execAttn (w : Norom) (s : State) : Host.Outcome State Fault Refusal :=
  outcome (lineE ⟨anyMod, fNo, fG, fNo⟩ w fun v => do
    let bs ← issueRead .card false (low v.a) 64
    let win := fieldAt bs 0 8
    let gi := fieldAt bs 8 2
    let qh := fieldAt bs 0x0A 1
    let q := wordAt bs 0x10
    let tfirst := fieldAt bs 0x18 4
    let tcount := fieldAt bs 0x1C 4
    let tri := wordAt bs 0x20
    let bar := wordAt bs 0x28
    let ctx ← gets State.myCtx
    match ← gets fun s => s.windowAt ctx win with
    | none => badA w
    | some x => do
      orBadA w (decide (gi < x.groups))
      let g ← gets fun s => s.group x gi
      orBadA w (decide (1 ≤ qh) && decide (qh ≤ 16) && qh % g.heads = 0 && decide (1 ≤ tcount))
      check (decide (tfirst + tcount ≤ g.leaflen * g.tpp)) cSeqOverrun (BitVec.ofNat 64 (win + gi * 2 ^ 30))
      check (decide ((low v.a).toNat % 16 = 0)) cMisaligned (low v.a)
      check (decide (q.toNat % 16 = 0)) cMisaligned q
      check (decide (tri.toNat % 16 = 0)) cMisaligned tri
      check (decide (bar.toNat % 16 = 0)) cMisaligned bar
      let pages := (tfirst + tcount - 1) / g.tpp - tfirst / g.tpp + 1
      check (inArea .own q (2 * g.dh * qh)) cBadAperture q
      check (inArea .own tri (pages * qh * tripleBytes g.dh)) cBadAperture tri
      barrierArg bar
      let n ← gets State.me
      let k ← gets fun s => (s.floor.attn.filter fun c => c.core = n && some c.disp = s.my.disp).length
      await (decide (k < 4)) .attnRoom
      let via ← gets viaMe
      let rows ← engineRead via q (2 * g.dh * qh) .read
      let id ← freshItem
      change fun s => s.onFloor fun f => { f with attn := f.attn ++ [{
        id := id, core := n, disp := s.my.disp.getD 0, win := win, group := gi
        kvtype := g.kvtype, heads := g.heads, dh := g.dh, tpp := g.tpp, qh := qh
        scale := BitVec.ofNat 32 (fieldAt bs 0x0C 4), qrows := rows, tfirst := tfirst, tcount := tcount, tri := tri
        bar := bar, done := [], stalled := [], unread := [] }] }) s

/-- The values of a stored row (R283). -/
def rowValues (kvtype dh : Nat) (bs : List Byte) : List FVal :=
  if kvtype = 0x0C then
    (bs.take dh).map fun c => mxValue 0x0C false (byteAt bs dh).toNat c.toNat
  else (rowCodes bs dh).map (rowFmt kvtype).decode

/-- One score: Dh steps of one rounding each, then the scale (R260). -/
def scoreOf (q k : List FVal) (scale : BitVec 32) : BitVec 32 :=
  f32Mul ((q.zip k).foldl (fun d p => rndF32 ((valF32 d).add (p.1.mul p.2))) 0) scale

/-- exp of a difference of f32 codes, each step rounded once (R260, R261). -/
def expDiff (x m : BitVec 32) : BitVec 32 := rndF32 (fnExp (valF32 (rndF32 ((valF32 x).sub (valF32 m)))))

/-- The maximum of f32 codes in the sense of VMAX.f32 (R98, R287). -/
def maxF32 : List (BitVec 32) → BitVec 32
  | [] => 0
  | x :: t => t.foldl (fun m y => rndF32 (FVal.max (valF32 m) (valF32 y))) x

/-- m, s and a of one triple (R260). -/
def tripleOf (scores : List (BitVec 32)) (vs : List (List FVal)) (dh : Nat) : BitVec 32 × BitVec 32 × List (BitVec 32) :=
  let m := maxF32 scores
  let ps := scores.map fun x => expDiff x m
  let sum := ps.foldl f32Add 0
  (m, sum, (ps.zip vs).foldl (fun a pv =>
    (a.zip pv.2).map fun x => rndF32 ((valF32 x.1).add ((valF32 pv.1).mul x.2))) (List.replicate dh 0))

/-- The bytes of a triple. -/
def tripleRow (t : BitVec 32 × BitVec 32 × List (BitVec 32)) (tokens block : Nat) : List Byte :=
  leBytes 4 t.1.toNat ++ leBytes 4 t.2.1.toNat ++ leBytes 4 tokens ++ leBytes 4 block ++ t.2.2.flatMap fun a => leBytes 4 a.toNat

/-- Reads the stored rows of a half of a page (K at 0, V at 0x8000), for some tokens and a head. -/
def pageRows (via : Via) (g : AttnCard) (page half h : Nat) : List Nat → M (List (List FVal))
  | [] => pure []
  | t :: ts => do
    let rb := rowStored g.kvtype g.dh
    let bs ← engineRead via (BitVec.ofNat 64 (page + half + (t % g.tpp * g.heads + h) * rb)) rb .read
    let rest ← pageRows via g page half h ts
    pure (rowValues g.kvtype g.dh bs :: rest)

/-- The tokens of a card's range on a block. -/
def blockTokens (c : AttnCard) (block : Nat) : List Nat :=
  let lo := max c.tfirst (block * c.tpp)
  let hi := min (c.tfirst + c.tcount) ((block + 1) * c.tpp)
  (List.range (hi - lo)).map (lo + ·)

/-- Forms and writes one triple (R260, R287). -/
def formTriple (c : AttnCard) (p i : Nat) : M Unit := do
  let via ← gets fun s => viaCore s c.core .e true
  let block := c.tfirst / c.tpp + p
  let page := c.win + c.group * 2 ^ 30 + block * 65536
  let h := i * c.heads / c.qh
  let ts := blockTokens c block
  let ks ← pageRows via c page 0 h ts
  let vs ← pageRows via c page 0x8000 h ts
  let q := (rowCodes ((c.qrows.drop (2 * c.dh * i)).take (2 * c.dh)) c.dh).map (rowFmt c.kvtype).decode
  let scores := ks.map fun k => scoreOf q k c.scale
  engineWrite via (c.tri + BitVec.ofNat 64 ((p * c.qh + i) * tripleBytes c.dh))
    (tripleRow (tripleOf scores vs c.dh) ts.length block)

/-- The end of a card: its arrival. -/
def attnEnd (c : AttnCard) (n : Nat) : M Unit := do
  let via ← gets fun s => viaCore s c.core .e true
  arrive via c.bar n
  change fun s => (s.onFloor fun f => { f with attn := f.attn.filter (·.id ≠ c.id) }).engineProgress c.core

/-- The pages that a card touches. -/
def attnPages (c : AttnCard) : Nat := (c.tfirst + c.tcount - 1) / c.tpp - c.tfirst / c.tpp + 1

/-- The triples of a card: one for each page and query head, numbered as they lie in memory. -/
def attnTriples (c : AttnCard) : List (Nat × M Unit) :=
  (List.range (attnPages c * c.qh)).map fun k => (k, formTriple c (k / c.qh) (k % c.qh))

/-- The triples of a card that are not yet written. -/
def attnLeft (c : AttnCard) : List (Nat × M Unit) := (attnTriples c).filter fun x => x.1 ∉ c.done

/-- Bytes of a card's triples, with which it arrives. -/
def attnBytes (c : AttnCard) : Nat := attnPages c * c.qh * tripleBytes c.dh

/-- What a turn of a card's SAEs comes to: the triples written, the state, and the waits and faults that they met. -/
structure Attempt where
  done : List Nat
  s : State
  waits : List Wait
  faults : List (Nat × Flt)

/-- The stack that holds the page of a triple (R258, R284, R287). -/
def tripleStack (c : AttnCard) (k : Nat) : Nat := (c.tfirst / c.tpp + k / c.qh + c.group) % Config.hbmStacks

/-- The SAEs of a stack that stall until REPLAY (R288). -/
def State.saesStalled (s : State) (stack : Nat) : Nat :=
  sumNat (s.floor.attn.map fun c => (c.stalled.filter fun k => tripleStack c k = stack).length)

/-- Whether a triple's stack has an SAE that does not stall, with the faults of this turn (R1, R287; log entry 104). -/
def saeFree (s : State) (c : AttnCard) (fs : List (Nat × Flt)) (i : Nat) : Bool :=
  decide (s.saesStalled (tripleStack c i) + (fs.filter fun x => tripleStack c x.1 = tripleStack c i).length <
    Config.saesPerStack)

/-- Forms triples, none of which depends on another (R287): one that waits, for its data or for an SAE, leaves the
others to go on, and so does one whose fault stalls its own SAE; any other fault ends the work. -/
def runTriples (free : List (Nat × Flt) → Nat → Bool) (stalls : Bool) : List (Nat × M Unit) → Attempt → Attempt
  | [], a => a
  | (i, p) :: rest, a =>
    if !free a.faults i then runTriples free stalls rest a
    else match p a.s with
    | .ok (_, t) => runTriples free stalls rest { a with done := a.done ++ [i], s := t }
    | .error (.wait x) => runTriples free stalls rest { a with waits := a.waits ++ [x] }
    | .error (.flt f) =>
      let b := { a with faults := a.faults ++ [(i, f)] }
      if stalls then runTriples free stalls rest b else b

/-- Changes an attention card. -/
def State.onAttn (s : State) (id : Nat) (f : AttnCard → AttnCard) : State :=
  s.onFloor fun fl => { fl with attn := fl.attn.map fun c => if c.id = id then f c else c }

/-- A card ends with a fault, with no arrival, and E takes it; one of the causes that abort a task aborts it (R288). -/
def State.attnFault (s : State) (c : AttnCard) (f : Flt) : State :=
  let without (t : State) : State := t.onFloor fun fl => { fl with attn := fl.attn.filter (·.id ≠ c.id) }
  match s.dispOf c.core with
  | none => without s
  | some (i, d) =>
    let s1 := s.recordFault d.ctx (some d) f
    if d.liveTask && cardAborts f.cause then s1.abortTask i (whoSae s) f.cause f.info (f.cause = cTranslation)
    else if (s1.core c.core).e.run = .stopped then s1.failInfo i (whoSae s) f.cause f.info
    else (without s1).deliver c.core .e f

/-- Disposes of the faults met at the stacks (R288): each stalls its own SAE in a plain restartable launch, and
otherwise the first ends the card. -/
def State.attnFaults (s : State) (c : AttnCard) (d : Dispatch) (fs : List (Nat × Flt)) : State :=
  if d.stalls then
    fs.foldl (fun t x => (t.recordAs d.ctx (some d) x.2 1).onAttn c.id fun a => { a with stalled := a.stalled ++ [x.1] }) s
  else match fs with
    | [] => s
    | x :: _ => s.attnFault c x.2

/-- ATTN_PERFORM (R287, R288): the engines form a card's triples and arrive when all are written. Every wait at a parked
page is reported (R275). A fault of the arrival is E's (log entry 96). Once its core's E has stopped for a save, the card
waits to be withdrawn (R329). -/
def execAttnPerform (s : State) : Host.Outcome State Fault Refusal :=
  match s.arg with
  | .item id =>
    match s.floor.attn.find? (·.id == id) with
    | none => .next s
    | some c =>
      match s.dispOf c.core with
      | none => .next s
      | some (_, d) =>
        if (s.core c.core).drain.isStopped then .next s
        else
          let ctx := s.coreCtx c.core
          let r := runTriples (saeFree s c) d.stalls ((attnLeft c).filter fun x => x.1 ∉ c.stalled) ⟨c.done, s, [], []⟩
          let unread := r.waits.filterMap Wait.unread
          let t := if r.done = c.done ∧ unread = c.unread then r.s
            else r.s.onAttn id fun a => { a with done := r.done, unread := unread }
          let u := if r.done = c.done then t else t.engineProgress c.core
          if (attnLeft { c with done := r.done }).isEmpty then
            match attnEnd c (attnBytes c) u with
            | .ok (_, v) => .next v
            | .error (.wait x) => .next (u.engineWait ctx x (whoSae s))
            | .error (.flt f) => .next (u.attnFault c f)
          else .next ((r.waits.foldl (fun t x => t.engineWait ctx x (whoSae s)) u).attnFaults c d r.faults)
  | _ => .next s

/-! ## ACOMB -/

/-- Reads m, s and a of a triple at an address of the acting strand. -/
def readTriple (a : Word) (dh : Nat) : M (BitVec 32 × BitVec 32 × List (BitVec 32)) := do
  let via ← gets viaMe
  let hd ← engineRead via a 8 .read
  let xs ← engineRead via (a + 16) (4 * dh) .read
  pure (BitVec.ofNat 32 (fieldAt hd 0 4), BitVec.ofNat 32 (fieldAt hd 4 4),
    (List.range dh).map fun j => BitVec.ofNat 32 (fieldAt xs (4 * j) 4))

/-- Reads triples at a list of addresses. -/
def readTriples (dh : Nat) : List Word → M (List (BitVec 32 × BitVec 32 × List (BitVec 32)))
  | [] => pure []
  | a :: t => do
    let x ← readTriple a dh
    let xs ← readTriples dh t
    pure (x :: xs)

/-- The combined vector of R261. -/
def combine (ts : List (BitVec 32 × BitVec 32 × List (BitVec 32))) (dh : Nat) : List (BitVec 32) :=
  let m := maxF32 (ts.map (·.1))
  let r := ts.foldl (fun acc t =>
    let f := expDiff t.1 m
    (rndF32 ((valF32 acc.1).add ((valF32 t.2.1).mul (valF32 f))),
      (acc.2.zip t.2.2).map fun x => rndF32 ((valF32 x.1).add ((valF32 x.2).mul (valF32 f)))))
    ((0 : BitVec 32), List.replicate dh (0 : BitVec 32))
  r.2.map fun a => rndF32 ((valF32 a).div (valF32 r.1))

/-- ACOMB (R261, R289). -/
def execAcomb (w : Norom) (s : State) : Host.Outcome State Fault Refusal :=
  outcome (lineE ⟨anyMod, fG, fG, fGI⟩ w fun v => do
    let d := low v.d
    let a := low v.a
    let sh := (low v.b).toNat
    let n := sh % 65536
    let dh := natBits sh 31 16
    let step := if natBits sh 47 32 = 0 then 1 else natBits sh 47 32
    if decide (1 ≤ n) && decide (n ≤ 16384) && dh % 4 = 0 && decide (4 ≤ dh) && decide (dh ≤ 512) &&
      decide (n * dh ≤ 262144) then pure () else badB w
    check (decide (d.toNat % 16 = 0)) cMisaligned d
    check (decide (a.toNat % 16 = 0)) cMisaligned a
    let places := (List.range n).map fun i => a + BitVec.ofNat 64 (i * step * tripleBytes dh)
    match places.find? fun p => !inArea .own p (tripleBytes dh) with
    | some p => fault cBadAperture p
    | none => pure ()
    check (inArea .own d (4 * dh)) cBadAperture d
    let ts ← readTriples dh places
    let via ← gets viaMe
    engineWrite via d ((combine ts dh).flatMap fun x => leBytes 4 x.toNat)) s

end Sys2Proof.Machine
end

