-- ==== Sys2Proof/Machine/Matrix.lean ====
section
/-!
DEFINITION. The matrix engine: its instructions and the commands it performs (spec/07_segmented_scan.md R142 to R149;
spec/08_number_formats.md R155 to R164; spec/09_matrix_engine.md R168 to R183).
-/
namespace Sys2Proof.Machine

open Sys2Proof

/-! ## Formats -/

/-- The twelve array formats (R143). -/
def arrayFormat (m : BitVec 6) : Bool :=
  (modTy m).toNat ∈ [0x00, 0x01, 0x08, 0x09, 0x0A, 0x0B, 0x0C, 0x0D, 0x0E, 0x0F, 0x10, 0x11]

/-- Whether a format is of the integer class (R169). -/
def intFormat (t : BitVec 5) : Bool := t.toNat ∈ [0x00, 0x01, 0x08]

/-- Whether a format carries block scales on the array (R169). -/
def mxFormat (t : BitVec 5) : Bool := t.toNat ∈ [0x0C, 0x0D, 0x0F, 0x10, 0x11]

/-- Element bytes of an MX stream row of k elements (R169). -/
def mxRowBytes (t : BitVec 5) (k : Nat) : Nat := ceilDiv k 32 * (if t = 0x0F then 16 else 32)

/-- Bytes of a stream row that a command touches: its elements, and its scales for an MX format (R147, R169). -/
def streamRow (t : BitVec 5) (k : Nat) : Nat :=
  if mxFormat t then mxRowBytes t k + ceilDiv k 32 else (tyOf t).rowBytes k

/-- Whether a stride covers a stream row (R147, R169); the stride of MSTR is unsigned (log entry 75). -/
def strideOk (t : BitVec 5) (k stride : Nat) : Bool :=
  stride % 16 = 0 && decide ((if mxFormat t then mxRowBytes t k + 16 else (tyOf t).rowBytes k) ≤ stride)

/-- Element i of a row packed as R23 gives: granule by granule. -/
def rowElem (t : Ty) (row : List Byte) (i : Nat) : Nat :=
  fieldAt row (16 * (i / t.lanes)) 16 / 2 ^ (t.width * (i % t.lanes)) % 2 ^ t.width

/-- Element k of an MX stream row: each block of 32 starts afresh (R169). -/
def mxElem (t : BitVec 5) (row : List Byte) (k : Nat) : Nat :=
  rowElem (tyOf t) (row.drop (k / 32 * (if t = 0x0F then 16 else 32))) (k % 32)

/-! ## Tiles -/

/-- The key of element (0, 0) of a tile's row. -/
def tileRow (t m : Nat) : Nat := 8192 * t + 64 * m

/-- Granules of a tile's rows: a row is 320 bytes of the pool (R47, R347). -/
def rowGranules (t m n : Nat) : List (Space × Nat) :=
  (List.range (20 * n)).map fun i => (Space.tiles, 2560 * t + 20 * m + i)

/-- Whether a tile is poisoned in the rows that are read (R180, R347). -/
def tilePoisoned (c : Core) (t m n : Nat) : Bool :=
  c.mx.poisoned.getLsbD t || (c.poison.granules ≠ [] && (rowGranules t m n).any fun g => g ∈ c.poison.granules)

/-- Clears the marks of granules written whole. -/
def clearGranules (gs : List (Space × Nat)) (c : Core) : Core :=
  if c.poison.granules = [] then c
  else { c with poison := { c.poison with granules := c.poison.granules.filter fun g => !(g ∈ gs) } }

/-- Rows of a tile in a configuration; 0 when none is in force. -/
def cfgRows (c : Option TileCfg) (t : Nat) : Nat :=
  match c with
  | some x => (x.rows[t]?).getD 0
  | none => 0

/-- Whether a tile is of the integer class. -/
def cfgInt (c : Option TileCfg) (t : Nat) : Bool :=
  match c with
  | some x => (x.ints[t]?).getD false
  | none => false

/-- K in force. -/
def cfgK (c : Option TileCfg) : Nat :=
  match c with
  | some x => x.k
  | none => 0

/-! ## Issue (R143, R171) -/

/-- Takes one entry of the engine queue, and changes what is in force for later checks. It is the last action of an
instruction: its checks and reads come before the wait for room and again after it, which is the model's choice (log
entry 100). -/
def issueMx (op : MxOp) (f : Matrix → Matrix) : M Unit := do
  let room ← gets fun s => decide (s.my.mx.queue.length < 2)
  await room .matrixRoom
  let k ← freshItem
  change fun s => s.onMy fun c => { c with mx := f { c.mx with queue := c.mx.queue ++ [⟨k, op, 0, none, false⟩] } }

/-- A barrier named in B (R58). -/
def barrierB (v : Vals) : M Unit := barrierArg (low v.b)

/-- The configuration block of MCFG; none when a field is out of range (R144). -/
def tileCfgOf (tiles : Nat) (bs : List Byte) : Option TileCfg :=
  let row (t : Nat) : Nat := (byteAt bs (8 + 4 * t)).toNat
  let ok (t : Nat) : Bool :=
    row t = 0 || (decide (row t ≤ 128) && decide (t < tiles) && (byteAt bs (9 + 4 * t)).toNat = 64 &&
      decide ((byteAt bs (10 + 4 * t)).toNat ≤ 1))
  let k := (byteAt bs 0).toNat
  if 1 ≤ k ∧ k ≤ 64 ∧ (List.range 8).all ok then
    some ⟨k, (List.range 8).map row, (List.range 8).map fun t => decide (row t ≠ 0) && byteAt bs (10 + 4 * t) = 1⟩
  else none

/-- MCFG (R144). -/
def execMcfg (w : Norom) (s : State) : Host.Outcome State Fault Refusal :=
  outcome (lineE ⟨anyMod, fNo, fG, fNo⟩ w fun v => do
    let bs ← readBlock (low v.a) 64
    let tiles ← gets fun s => partTiles s.my.part
    match tileCfgOf tiles bs with
    | none => badA w
    | some c => issueMx (.mcfg c) fun x => { x with cfgI := some c }) s

/-- 64 f32 words from their bytes. -/
def f32Words (bs : List Byte) : List (BitVec 32) := (List.range 64).map fun i => BitVec.ofNat 32 (fieldAt bs (4 * i) 4)

/-- The bias or scale words that an epilogue block names; none for a zero address (R177). -/
def columnWords (a : Word) : M (Option (List (BitVec 32))) :=
  if a = 0 then pure none
  else do
    areaCheck .ownOrGlobal a 1 0 256
    let via ← gets viaMe
    let bs ← engineRead via a 256 .read
    pure (some (f32Words bs))

/-- EPCFG (R148, R177, R178): the bias words are checked and read before the scale words are checked (log entry
76). -/
def execEpcfg (w : Norom) (s : State) : Host.Outcome State Fault Refusal :=
  outcome (lineE ⟨anyMod, fNo, fG, fNo⟩ w fun v => do
    let bs ← readBlock (low v.a) 128
    let act := (byteAt bs 20).toNat
    let ot := (byteAt bs 21).toNat
    let mx := natBit (byteAt bs 22).toNat 0
    orBadA w (decide (act ≤ 4) && decide (ot ≤ 0x11) && (!mx || mxFormat (BitVec.ofNat 5 ot)))
    let bias ← columnWords (wordAt bs 0)
    let scale ← columnWords (wordAt bs 8)
    let e : Epilogue := {
      bias := bias, scale := scale, tscale := BitVec.ofNat 32 (fieldAt bs 16 4), act := act
      otype := BitVec.ofNat 5 ot, mx := mx
      clo := BitVec.ofNat 32 (fieldAt bs 24 4), chi := BitVec.ofNat 32 (fieldAt bs 28 4) }
    issueMx (.epcfg e) fun x => { x with epI := some e }) s

/-- CVLD (R145). -/
def execCvld (w : Norom) (s : State) : Host.Outcome State Fault Refusal :=
  outcome (lineE ⟨anyMod, fNo, fG, fG⟩ w fun v => do
    let bs ← readJob (low v.a) 32
    barrierB v
    let src := wordAt bs 0
    let coff := fieldAt bs 8 4
    let rows := fieldAt bs 12 2
    let rbytes := fieldAt bs 14 2
    let sstride := fieldAt bs 16 4
    let cstride := fieldAt bs 20 4
    orBadA w (coff % 16 = 0 && decide (1 ≤ rows) && decide (rows ≤ 4096) && decide (16 ≤ rbytes) &&
      decide (rbytes ≤ 4096) && rbytes % 16 = 0 && sstride % 16 = 0 && cstride % 16 = 0 && decide (rbytes ≤ cstride) &&
      decide (coff + (rows - 1) * cstride + rbytes ≤ Config.canvasSize))
    areaCheck .ownOrGlobal src rows sstride rbytes
    issueMx (.cvld src coff rows rbytes sstride cstride (low v.b)) fun x => x) s

/-- MWLD (R146). -/
def execMwld (w : Norom) (s : State) : Host.Outcome State Fault Refusal :=
  outcome (lineE ⟨arrayFormat, fNo, fG, fG⟩ w fun v => do
    let fmt := modTy w.mod
    let bs ← readJob (low v.a) 16
    barrierB v
    let cfg ← gets fun s => s.my.mx.cfgI
    orBadA w cfg.isSome
    let k := cfgK cfg
    let coff := fieldAt bs 0 4
    let cstride := fieldAt bs 4 4
    let n := (byteAt bs 8).toNat
    let soff := fieldAt bs 12 4
    orBadA w (coff % 16 = 0 && cstride % 16 = 0 && decide (1 ≤ n) && decide (n ≤ 64) &&
      decide (coff + (k - 1) * cstride + (tyOf fmt).rowBytes n ≤ Config.canvasSize) &&
      (!mxFormat fmt || (soff % 16 = 0 && decide (soff + 64 * ceilDiv k 32 ≤ Config.canvasSize))))
    issueMx (.mwld coff cstride n soff k fmt (low v.b)) fun x => { x with fmtI := some fmt }) s

/-- A tile of the configuration in force: its rows, or ILLEGAL_OPERAND at D (R171). -/
def tileRowsD (w : Norom) (t : Nat) : M Nat := do
  let m ← gets fun s => cfgRows s.my.mx.cfgI t
  if m = 0 then badD w else pure m

/-- FORMAT_MISMATCH unless the stream, the latched format and the tile are of one class (R147, R341). -/
def classCheck (fmt : BitVec 5) (t : Nat) : M Unit := do
  let lat ← gets fun s => s.my.mx.fmtI
  let cls ← gets fun s => cfgInt s.my.mx.cfgI t
  let ok := match lat with
    | some f => intFormat f = intFormat fmt && intFormat fmt = cls
    | none => false
  let l := match lat with
    | some f => f.toNat
    | none => 0x1F
  check ok cFormatMismatch (BitVec.ofNat 64 (fmt.toNat + 256 * l + 65536 * cls.toNat))

/-- MSTR (R147). -/
def execMstr (w : Norom) (s : State) : Host.Outcome State Fault Refusal :=
  outcome (lineE ⟨arrayFormat, fSp .tile, fG, fGI⟩ w fun v => do
    let fmt := modTy w.mod
    let t := w.d.toNat % 256
    let m ← tileRowsD w t
    let k ← gets fun s => cfgK s.my.mx.cfgI
    let stride := (low v.b).toNat
    if strideOk fmt k stride then pure () else badB w
    areaCheck .own (low v.a) m stride (streamRow fmt k)
    classCheck fmt t
    let fpm ← readFpm
    issueMx (.mstr t (low v.a) stride fmt fpm) fun x => x) s

/-- The level that a gang word names, its stride, and whether they are in order for the acting core (R175). -/
def gangStride (x : Word) : Nat := natBits x.toNat 31 16
def gangLevel (x : Word) : Nat := x.toNat % 8
def gangOk (s : State) (x : Word) : Bool :=
  match s.dispOf s.me with
  | none => false
  | some (_, d) =>
    match d.levels[gangLevel x]? with
    | none => false
    | some l =>
      decide (1 ≤ gangLevel x) && l.kind = 1 && l.coRes && decide (2 ≤ unitCores d (gangLevel x)) &&
        decide (unitCores d (gangLevel x) ≤ 16)

/-- Whether a core leads its unit of a level: it is the westmost (R175). -/
def leads (s : State) (n lvl : Nat) : Bool :=
  match s.dispOf n with
  | none => false
  | some (_, d) => coreInUnit d (s.core n).lvl lvl = 0

/-- Whether SCRUM reads A: the acting core leads the unit that the gang word of B names, or B names no unit for it to
lead (R175, log entry 77). -/
def scrumReadsA (w : Norom) (s : State) : Bool :=
  match opnd w.b with
  | .g n => !gangOk s (s.my.e.rd n) || leads s s.me (gangLevel (s.my.e.rd n))
  | _ => true

/-- What SCRUM accepts: a member that does not lead ignores A (R174, R175). -/
def scrumShape (w : Norom) (s : State) : Shape :=
  ⟨arrayFormat, fSp .tile, if scrumReadsA w s then fG else fNo, fG⟩

/-- SCRUM (R174, R175). -/
def execScrum (w : Norom) (s : State) : Host.Outcome State Fault Refusal :=
  outcome (lineE (scrumShape w s) w fun v => do
    let fmt := modTy w.mod
    let t := w.d.toNat % 256
    let m ← tileRowsD w t
    let k ← gets fun s => cfgK s.my.mx.cfgI
    let gang := low v.b
    let ok ← gets fun s => gangOk s gang
    if ok && strideOk fmt k (gangStride gang) then pure () else badB w
    let lead ← gets fun s => leads s s.me (gangLevel gang)
    if lead then areaCheck .own (low v.a) m (gangStride gang) (streamRow fmt k) else pure ()
    classCheck fmt t
    let fpm ← readFpm
    issueMx (.scrum t (low v.a) gang (gangStride gang) (gangLevel gang) fmt fpm) fun x => x) s

/-- MZERO (R172). -/
def execMzero (w : Norom) (s : State) : Host.Outcome State Fault Refusal :=
  outcome (lineE ⟨anyMod, fSp .tile, fNo, fNo⟩ w fun _ => do
    let _ ← tileRowsD w (w.d.toNat % 256)
    issueMx (.mzero (w.d.toNat % 256)) fun x => x) s

/-- Bytes of an output row and of the scale area of a drain of m rows (R148, R178). -/
def drainRow (e : Epilogue) : Nat := (tyOf e.otype).rowBytes 64
def drainScales (e : Epilogue) (m : Nat) : Nat := if e.mx then roundUp (2 * m) 16 else 0

/-- MDRN (R148, R171). -/
def execMdrn (w : Norom) (s : State) : Host.Outcome State Fault Refusal :=
  outcome (lineE ⟨anyMod, fSp .tile, fG, fG⟩ w fun v => do
    barrierB v
    let t := w.d.toNat % 256
    let m ← tileRowsD w t
    match ← gets fun s => s.my.mx.epI with
    | none => badA w
    | some e => do
      let a := low v.a
      let rb := drainRow e
      areaCheck .own a m rb rb
      if e.mx then rowsCheck .own (a + BitVec.ofNat 64 (m * rb)) 1 0 (drainScales e m) else pure ()
      let fpm ← readFpm
      issueMx (.mdrn t a (low v.b) fpm) fun x => x) s

/-! ## ACCRD and ACCWR (R179) -/

/-- Whether MOD names acc40 (R174). -/
def modAcc (m : BitVec 6) : Bool := modTy m = 0x12

/-- The registers of a tile row: three elements to a register. -/
def rowRegs (xs : List Acc40) : List V128 :=
  (List.range 22).map fun j => pack 40 (((xs.drop (3 * j)).take 3).map (·.toNat))

/-- The 64 elements of 22 registers. -/
def regsRow (rs : List V128) : List Acc40 := ((rs.flatMap fun r => (List.range 3).map fun i =>
  BitVec.ofNat 40 (lane 40 r i))).take 64

/-- ACCRD (R179). Log entry 39. The last of its registers is checked with D, before its tile, which is the model's choice,
as ACCWR's order is (log entry 100). -/
def execAccrd (w : Norom) (s : State) : Host.Outcome State Fault Refusal :=
  outcome (lineE ⟨modAcc, fVd 22, fSp .tile, fGI⟩ w fun v => do
    let t := w.a.toNat % 256
    let m ← gets fun s => cfgRows s.my.mx.cfgI t
    orBadA w (decide (m ≠ 0))
    let row := (low v.b).toNat
    if row < m then pure () else badB w
    let idle ← gets fun s => decide (s.my.mx.queue = [])
    await idle .matrixIdle
    let bad ← gets fun s => tilePoisoned s.my t row 1
    check (!bad) cPoison (BitVec.ofNat 64 t)
    let xs ← gets fun s => Tab.slice 0 s.my.mx.tiles (tileRow t row) 64
    writeRun (vecNo w.d) (rowRegs xs)) s

/-- ACCWR (R179): its tile is checked before the last of its registers, which the move alone reads (log entry 100). -/
def execAccwr (w : Norom) (s : State) : Host.Outcome State Fault Refusal :=
  outcome (lineE ⟨modAcc, fSp .tile, fVd 1, fGI⟩ w fun v => do
    let t := w.d.toNat % 256
    let m ← tileRowsD w t
    let count ← gets fun s => partVregs s.my.part
    orBadA w (decide (vecNo w.a + 22 ≤ count))
    let row := (low v.b).toNat
    if row < m then pure () else badB w
    let idle ← gets fun s => decide (s.my.mx.queue = [])
    await idle .matrixIdle
    let rs ← readRun (vecNo w.a) 22
    change fun s => s.onMy fun c => clearGranules (rowGranules t row 1)
      { c with mx := { c.mx with tiles := c.mx.tiles.splice 0 (tileRow t row) (regsRow rs) } }) s

/-! ## Performing commands -/

/-- The access of core n's matrix engine. -/
def viaMx (s : State) (n : Nat) : Via := viaCore s n .e true

/-- Changes the engine of a core. -/
def onMx (n : Nat) (f : Matrix → Matrix) : M Unit := change fun s => s.onCore n fun c => { c with mx := f c.mx }

/-- The command in force at the head of a core's queue, if it is not stalled and the engine may run it. -/
def headMx (s : State) (n : Nat) : Option MxCmd :=
  match (s.core n).mx.queue with
  | c :: _ => if c.stalled then none else some c
  | [] => none

/-- Tiles that discarded commands would have written (R180). -/
def lostTiles (q : List MxCmd) : BitVec 8 :=
  q.foldl (fun p c => match c.op with
    | .mstr t .. => p ||| BitVec.twoPow 8 t
    | .scrum t .. => p ||| BitVec.twoPow 8 t
    | _ => p) 0

/-- Discards every queued command: what they would have put in force never will be (R171, R180). -/
def discardMx (c : Core) : Core :=
  dropMarks 17 { c with mx := { c.mx with
    poisoned := c.mx.poisoned ||| lostTiles c.mx.queue
    queue := [], cfgI := c.mx.cfg, fmtI := c.mx.fmt, epI := c.mx.ep } }

/-- Stalls the head command until REPLAY (R180). -/
def stallMx (c : Core) : Core :=
  { c with mx := { c.mx with queue := match c.mx.queue with
    | x :: t => { x with stalled := true } :: t
    | [] => [] } }

/-- The head command has completed. -/
def popMx (n : Nat) : M Unit :=
  change fun s => (s.onCore n fun c => popMarks 17 { c with mx := { c.mx with queue := c.mx.queue.drop 1 } }).engineProgress n

/-- The head command has done some more of its pieces, and waits for a granule or not. -/
def advanceMx (n k : Nat) (g : Option Word) (s : State) : State :=
  s.onCore n fun c => { c with mx := { c.mx with queue := match c.mx.queue with
    | x :: t => { x with done := x.done + k, unread := g } :: t
    | [] => [] } }

/-- A fault of the matrix engine of core n (R180). BARRIER_OVERFLOW of a command's arrival, which R180 does not list,
takes its last way: the queue is discarded and E takes the fault, in a task as elsewhere (log entry 96). -/
def State.mxFault (s : State) (n : Nat) (f : Flt) : State :=
  s.engineFault n .e f (matrixAborts f.cause) stallMx discardMx

/-- Runs the pieces of the head command c from where it stands. -/
def runMx (s : State) (n : Nat) (c : MxCmd) (pieces : List (M Unit)) : Nat × State × Option Stop :=
  runPieces ((entryPoison n 17 :: pieces ++ [popMx n]).drop c.done) 0 s

/-- Performs the pieces of the head command c from where it stands. A piece that waits, or stalls at a fault, leaves the
command to go on at that piece; one that faults leaves what earlier pieces wrote (R180). -/
def performMx (s : State) (n : Nat) (c : MxCmd) (pieces : List (M Unit)) : State :=
  match runMx s n c pieces with
  | (_, t, none) => t
  | (k, t, some (.wait w)) =>
    let t1 := advanceMx n k w.unread t
    (if max c.done 1 < c.done + k then t1.engineProgress n else t1).engineWait (s.coreCtx n) w (whoEngine s n)
  | (k, t, some (.flt f)) => (advanceMx n k none t).mxFault n f

/-- Runs an engine step on the core that the event names, when its head command is of the step's kind. -/
def engineStep (s : State) (pieces : Nat → MxOp → Option (List (M Unit))) : Host.Outcome State Fault Refusal :=
  match s.arg with
  | .core n =>
    match headMx s n with
    | some c => match pieces n c.op with
      | some ps => .next (performMx s n c ps)
      | none => .next s
    | none => .next s
  | _ => .next s

/-- ENGINE_MCFG (R144): the configuration comes into force and every tile is zeroed. -/
def execEngineMcfg (s : State) : Host.Outcome State Fault Refusal :=
  engineStep s fun n op => match op with
    | .mcfg c => some [change fun s => s.onCore n fun x =>
        { x with
          mx := { x.mx with cfg := some c, tiles := [], poisoned := 0 }
          poison := { x.poison with granules := x.poison.granules.filter (·.1 ≠ Space.tiles) } }]
    | _ => none

/-- ENGINE_EPCFG (R148). -/
def execEngineEpcfg (s : State) : Host.Outcome State Fault Refusal :=
  engineStep s fun n op => match op with
    | .epcfg e => some [onMx n fun x => { x with ep := some e }]
    | _ => none

/-- Copies one piece of a source row into the canvas. -/
def canvasPiece (n : Nat) (src : Word) (off : Nat) : M Unit := do
  let via ← gets fun s => viaMx s n
  let bs ← pieceRead via src.toNat 16 .read
  change fun s => s.onCore n fun c => poolWrite c .canvas off bs

/-- The pieces of a CVLD, its arrival last (R145). -/
def cvldPieces (n : Nat) (op : MxOp) : Option (List (M Unit)) :=
  match op with
  | .cvld src coff rows rbytes sstride cstride bar =>
    some (((List.range rows).flatMap fun i => (List.range (rbytes / 16)).map fun j =>
        canvasPiece n (src + BitVec.ofNat 64 (i * sstride + 16 * j)) (coff + i * cstride + 16 * j)) ++
      [do
        let via ← gets fun s => viaMx s n
        arrive via bar (rows * rbytes)])
  | _ => none

/-- ENGINE_CVLD (R145). -/
def execEngineCvld (s : State) : Host.Outcome State Fault Refusal := engineStep s cvldPieces

/-- Reads bytes of a core's canvas; a poisoned granule meets POISON with its offset (log entry 15). -/
def canvasRead (n off len : Nat) : M (List Byte) := do
  poolPoison n .canvas off len .read (BitVec.ofNat 64 off)
  gets fun s => poolRead (s.core n) .canvas off len

/-- Reads rows of the canvas. -/
def canvasRows (n stride len : Nat) : List Nat → Nat → M (List (List Byte))
  | [], _ => pure []
  | i :: t, base => do
    let r ← canvasRead n (base + i * stride) len
    let rs ← canvasRows n stride len t base
    pure (r :: rs)

/-- The pieces of an MWLD, its arrival last (R146, R169, R173): rows at and beyond K, and columns at and beyond N, latch
as zero. -/
def mwldPieces (n : Nat) (op : MxOp) : Option (List (M Unit)) :=
  match op with
  | .mwld coff cstride cols soff k fmt bar =>
    let t := tyOf fmt
    let rb := t.rowBytes cols
    some [do
      let rows ← canvasRows n cstride rb (List.range k) coff
      let scales ← if mxFormat fmt then canvasRead n soff (64 * ceilDiv k 32) else pure []
      onMx n fun x => { x with
        fmt := some fmt
        weights := Tab.run 0 0 (rows.flatMap fun r => (List.range 64).map fun j =>
          if j < cols then BitVec.ofNat 32 (rowElem t r j) else 0)
        wscales := Tab.run 0 0 scales
        latched := k },
     do
      let via ← gets fun s => viaMx s n
      arrive via bar (k * rb)]
  | _ => none

/-- ENGINE_MWLD (R146). -/
def execEngineMwld (s : State) : Host.Outcome State Fault Refusal := engineStep s mwldPieces

/-- An operand of the array with its scale (R170). -/
def arrayValue (fmt : BitVec 5) (fpm : Byte) (code scale : Nat) : FVal :=
  if mxFormat fmt then mxValue fmt (fpm.getLsbD 0) scale code else (tyOf fmt).value fpm code

/-- The integer of an array code. -/
def arrayInt (fmt : BitVec 5) (code : Nat) : Int :=
  match tyOf fmt with
  | .int s w => intDecode s w code
  | _ => 0

/-- One addition of the array, integer class: exact, then clamped (R162). -/
def accInt (acc : Acc40) (p : Int) : Acc40 := BitVec.ofNat 40 (intClamp true 40 (sextNat 40 acc.toNat + p))

/-- A product as the array adds it: rounded once where ACC40 does not hold it (R161, R170). -/
def accProduct (p : FVal) : FVal := fmtAcc.decode (rndAcc p)

/-- One addition of the array, float class: the running value flushed by accin, the product rounded, the sum rounded
(R147, R161, R170). -/
def accFloat (fpm : Byte) (acc : Acc40) (p : FVal) : Acc40 :=
  BitVec.ofNat 40 (rndAcc ((fmtAcc.decode (fmtAcc.flush (fpm.getLsbD 6) acc.toNat)).add (accProduct p)))

/-- The K sums of one element in increasing k (R147). A row beyond those that the last MWLD latched has products of
value +0, whatever the element (R173). -/
def streamElem (mx : Matrix) (ints : Bool) (k : Nat) (fmt : BitVec 5) (fpm : Byte) (row : List Byte) (n : Nat)
    (acc : Acc40) : Acc40 :=
  let wf := mx.fmt.getD 0
  (List.range k).foldl (fun a i =>
    let wc := (mx.weights.get 0 (64 * i + n)).toNat
    let sc := if mxFormat fmt then mxElem fmt row i else rowElem (tyOf fmt) row i
    if ints then accInt a (arrayInt fmt sc * arrayInt wf wc)
    else if mx.latched ≤ i then accFloat fpm a FVal.zero
    else
      let sa := (byteAt row (mxRowBytes fmt k + i / 32)).toNat
      let sw := (mx.wscales.get 0 (64 * (i / 32) + n)).toNat
      accFloat fpm a ((arrayValue fmt fpm sc sa).mul (arrayValue wf fpm wc sw))) acc

/-- The rows of a tile after a stream (R147). -/
def streamTile (mx : Matrix) (t : Nat) (fmt : BitVec 5) (fpm : Byte) (rows : List (List Byte)) : Matrix :=
  let ints := cfgInt mx.cfg t
  let k := cfgK mx.cfg
  let vals := (List.range rows.length).flatMap fun m =>
    (List.range 64).map fun n =>
      streamElem mx ints k fmt fpm ((rows[m]?).getD []) n (mx.tiles.get 0 (tileRow t m + n))
  { mx with tiles := mx.tiles.splice 0 (tileRow t 0) vals }

/-- Reads m stream rows in the own scratchpad of core n. -/
def streamRows (n : Nat) (len stride : Nat) (a : Word) : Nat → Nat → M (List (List Byte))
  | 0, _ => pure []
  | m + 1, i => do
    let via ← gets fun s => viaMx s n
    let r ← engineRead via (a + BitVec.ofNat 64 (i * stride)) len .read
    let rs ← streamRows n len stride a m (i + 1)
    pure (r :: rs)

/-- A tile that a command reads is not poisoned (R180). Log entry 39. -/
def tileCheck (n t m : Nat) : M Unit := do
  let bad ← gets fun s => tilePoisoned (s.core n) t 0 m
  check (!bad) cPoison (BitVec.ofNat 64 t)

/-- ENGINE_MSTR (R147). -/
def execEngineMstr (s : State) : Host.Outcome State Fault Refusal :=
  engineStep s fun n op => match op with
    | .mstr t a stride fmt fpm =>
      some [do
        let m ← gets fun s => cfgRows (s.core n).mx.cfg t
        tileCheck n t m
        let k ← gets fun s => cfgK (s.core n).mx.cfg
        let rows ← streamRows n (streamRow fmt k) stride a m 0
        onMx n fun x => streamTile x t fmt fpm rows]
    | _ => none

/-- ENGINE_MZERO (R172). -/
def execEngineMzero (s : State) : Host.Outcome State Fault Refusal :=
  engineStep s fun n op => match op with
    | .mzero t => some [change fun s => s.onCore n fun c => clearGranules (rowGranules t 0 128)
        { c with mx := { c.mx with
          tiles := c.mx.tiles.clearRange (tileRow t 0) 8192
          poisoned := c.mx.poisoned &&& ~~~(BitVec.twoPow 8 t) } }]
    | _ => none

/-! ## The epilogue -/

/-- An activation on an f32 code (R148, R177). -/
def activate (e : Epilogue) (y : BitVec 32) : BitVec 32 :=
  match e.act with
  | 1 => rndF32 (FVal.max (valF32 y) .zero)
  | 2 => rndF32 (geluLast fmtF32 (valF32 y))
  | 3 => rndF32 (siluLast fmtF32 (valF32 y))
  | 4 => rndF32 (FVal.min (valF32 (rndF32 (FVal.max (valF32 y) (valF32 e.clo)))) (valF32 e.chi))
  | _ => y

/-- A bias or scale word flushed by f32in (R177). -/
def flushWord (fpm : Byte) (x : BitVec 32) : BitVec 32 := BitVec.ofNat 32 (fmtF32.flush (fpm.getLsbD 4) x.toNat)

/-- y of one element before its last rounding (R148). -/
def drainElem (e : Epilogue) (ints : Bool) (fpm : Byte) (n : Nat) (acc : Acc40) : BitVec 32 :=
  let v := if ints then FVal.ofInt (sextNat 40 acc.toNat)
    else fmtAcc.decode (fmtAcc.flush (fpm.getLsbD 7) acc.toNat)
  let sc := match e.scale with
    | some l => (l[n]?).getD 0
    | none => e.tscale
  let y1 := f32Mul (rndF32 v) (flushWord fpm sc)
  let y2 := match e.bias with
    | some l => f32Add y1 (flushWord fpm ((l[n]?).getD 0))
    | none => y1
  activate e y2

/-- Packs codes granule by granule (R23). -/
def packRow (t : Ty) : Nat → List Nat → List Byte
  | 0, _ => []
  | g + 1, cs => leBytes 16 (pack t.width (cs.take t.lanes)).toNat ++ packRow t g (cs.drop t.lanes)

/-- An output row, and its two block scales under MX quantisation (R148, R178). -/
def drainOut (e : Epilogue) (fpm : Byte) (ys : List (BitVec 32)) : List Byte × List Byte :=
  let t := tyOf e.otype
  if e.mx then
    let b0 := mxQuantise e.otype (fpm.getLsbD 1) ((ys.take 32).map valF32)
    let b1 := mxQuantise e.otype (fpm.getLsbD 1) ((ys.drop 32).map valF32)
    (((mxPack e.otype b0.2 ++ mxPack e.otype b1.2).flatMap fun r => leBytes 16 r.toNat),
      leBytes 1 b0.1 ++ leBytes 1 b1.1)
  else (packRow t (ceilDiv 64 t.lanes) (ys.map fun y => t.encode fpm .rne false (valF32 y)), [])

/-- The output of tile row m. -/
def drainTileRow (mx : Matrix) (e : Epilogue) (t : Nat) (fpm : Byte) (m : Nat) : List Byte × List Byte :=
  drainOut e fpm ((List.range 64).map fun n =>
    drainElem e (cfgInt mx.cfg t) fpm n (mx.tiles.get 0 (tileRow t m + n)))

/-- The pieces of an MDRN, its arrival last (R148, R177, R178). -/
def mdrnPieces (s : State) (n : Nat) (op : MxOp) : Option (List (M Unit)) :=
  match op with
  | .mdrn t a bar fpm =>
    match (s.core n).mx.ep with
    | none => some []
    | some e =>
      let mx := (s.core n).mx
      let m := cfgRows mx.cfg t
      let rb := drainRow e
      let outs := (List.range m).map (drainTileRow mx e t fpm)
      let scales := outs.flatMap (·.2)
      some (tileCheck n t m ::
        ((List.range m).map fun i => do
          let via ← gets fun s => viaMx s n
          engineWrite via (a + BitVec.ofNat 64 (i * rb)) ((outs[i]?).getD ([], [])).1) ++
        [do
          let via ← gets fun s => viaMx s n
          if e.mx then
            engineWrite via (a + BitVec.ofNat 64 (m * rb))
              (scales ++ List.replicate (drainScales e m - 2 * m) 0)
          else pure (),
         do
          let via ← gets fun s => viaMx s n
          arrive via bar (m * rb)])
  | _ => none

/-- ENGINE_MDRN (R148). -/
def execEngineMdrn (s : State) : Host.Outcome State Fault Refusal := engineStep s (mdrnPieces s)

/-- The pieces of a command that arrives on a barrier. -/
def arrivalPieces (s : State) (n : Nat) (op : MxOp) : Option (List (M Unit)) :=
  match op with
  | .mwld .. => mwldPieces n op
  | .mdrn .. => mdrnPieces s n op
  | _ => cvldPieces n op

/-! ## The gang (R175, R176, R181) -/

/-- What a SCRUM at a queue head gives the meeting: format, tile rows, K and stride. -/
def meetingWord (c : Core) : Option (BitVec 5 × Nat × Nat × Nat) :=
  match c.mx.queue with
  | x :: _ => match x.op with
    | .scrum t _ _ stride _ fmt _ => some (fmt, cfgRows c.mx.cfg t, cfgK c.mx.cfg, stride)
    | _ => none
  | [] => none

/-- The cores of a dispatch in the unit of level i that a core belongs to, in increasing order in the unit. -/
def gangOf (d : Dispatch) (lvl : Word) (i : Nat) : List DCore :=
  (List.range (unitCores d i)).filterMap fun k =>
    d.cores.find? fun y => unitOf y.lvl i = unitOf lvl i && coreInUnit d y.lvl i = k

/-- The SCRUM at a core's queue head: its level, and whether a POISON marks its entry. -/
def scrumHead (c : Core) : Option Nat :=
  match c.mx.queue with
  | x :: _ => match x.op with
    | .scrum _ _ _ _ lvl _ _ => if x.stalled then none else some lvl
    | _ => none
  | [] => none

/-- A member's deferred fault of the meeting: ILLEGAL_OPERAND with its gang word (R176). No element of a tile changes;
the discarded SCRUM's tile is marked poisoned by R180 (log entry 16). -/
def gangFault (s : State) (n : Nat) : State :=
  match (s.core n).mx.queue with
  | x :: _ => match x.op with
    | .scrum _ _ gang _ _ _ _ => s.mxFault n ⟨cIllegalOperand, gang, none⟩
    | _ => s
  | [] => s

/-- Whether a member is at the meeting for the level of the acting member's SCRUM: a member whose SCRUM names another
level is not, so members that name different levels wait for one another (log entry 77). -/
def atMeeting (s : State) (lvl : Nat) (y : DCore) : Bool := !y.retired && scrumHead (s.core y.cur) = some lvl

/-- The stream of one member, with the leader's rows (R176). -/
def memberStream (rows : List (List Byte)) (n : Nat) : M Unit := do
  match ← gets fun s => (s.core n).mx.queue with
  | x :: _ =>
    match x.op with
    | .scrum t _ _ _ _ fmt fpm => onMx n fun m => streamTile m t fmt fpm rows
    | _ => pure ()
  | [] => pure ()

/-- The tile of the SCRUM at a queue head. -/
def scrumTile (c : Core) : Nat :=
  match c.mx.queue with
  | x :: _ => match x.op with
    | .scrum t .. => t
    | _ => 0
  | [] => 0

/-- A member's own POISON before the stream: its queue entry, or a tile whose mark is set (R348, R180). -/
def memberCheck (n : Nat) : M Unit := do
  entryPoison n 17
  let c ← gets fun s => s.core n
  check (!c.mx.poisoned.getLsbD (scrumTile c)) cPoison (BitVec.ofNat 64 (scrumTile c))

/-- Whether a member's tile holds an uncorrectable error (R181). -/
def memberBad (s : State) (n : Nat) : Bool :=
  let c := s.core n
  tilePoisoned { c with mx := { c.mx with poisoned := 0 } } (scrumTile c) 0 (cfgRows c.mx.cfg (scrumTile c))

/-- The rows that the leader reads. -/
def leaderRows (n : Nat) : M (List (List Byte)) := do
  match ← gets fun s => (s.core n).mx.queue with
  | x :: _ =>
    match x.op with
    | .scrum t a _ stride _ fmt _ => do
      let m ← gets fun s => cfgRows (s.core n).mx.cfg t
      let k ← gets fun s => cfgK (s.core n).mx.cfg
      streamRows n (streamRow fmt k) stride a m 0
    | _ => pure []
  | [] => pure []

/-- Marks the tile of a core's SCRUM as poisoned. -/
def poisonScrum (s : State) (n : Nat) : State :=
  s.onCore n fun c => { c with mx := { c.mx with poisoned := c.mx.poisoned ||| lostTiles (c.mx.queue.take 1) } }

/-- A member takes GANG_ABORT, with the tile number of its SCRUM (R181). -/
def scrumAbort (s : State) (n : Nat) : State :=
  s.engineFault n .e ⟨cGangAbort, BitVec.ofNat 64 (scrumTile (s.core n)), none⟩ true stallMx discardMx

/-- The meeting of some members is over for all of them: none has a turn of its own for it (R344). -/
def State.metAll (s : State) (ms : List Nat) : State :=
  { s with agenda := s.agenda.filter fun t =>
    match t with
    | .event .scrumMeeting (.core n) => !(n ∈ ms)
    | _ => true }

/-- GANG_ABORT (R181): every member's tile is poisoned and every member raises it; in a task the task aborts. -/
def gangAbort (s : State) (ms : List Nat) : State :=
  let s1 := (ms.foldl poisonScrum s).metAll ms
  match ms with
  | [] => s1
  | n :: _ =>
    match s1.dispOf n with
    | none => s1
    | some (i, d) =>
      if d.liveTask then
        ((s1.abortTask i (whoEngine s1 n) cGangAbort (BitVec.ofNat 64 (scrumTile (s1.core n))) false).onDisp
          s1.floor.nextDisp fun x => { x with avoid := some (n / 16) }).countFaults d.ctx (ms.length - 1)
      else faultEach i d.ctx scrumAbort s1 ms s1

/-- The own POISON of a member at a meeting. -/
def memberFault (s : State) (n : Nat) : State :=
  match memberCheck n s with
  | .error (.flt f) => s.mxFault n f
  | _ => s

/-- What a meeting comes to. -/
inductive Meeting where
  /-- A member is not yet at it. -/
  | waits
  /-- The members disagree, or one has retired (R176). -/
  | differs
  /-- The own POISON of some members (R180). It is tested when all are at the meeting and is theirs alone: the others
  wait on (log entry 97). -/
  | refused
  /-- An uncorrectable error in a part of the gang (R181). -/
  | aborts
  /-- The stream, with the state after it. -/
  | streams (t : State)

/-- What the meeting of a gang comes to whose every member is at it. -/
def gangMeets (s : State) (ms : List Nat) : Meeting :=
  match ms with
  | [] => .waits
  | lead :: _ =>
    let words := ms.map fun n => meetingWord (s.core n)
    if !words.all (· = words.head?.getD none) then .differs
    else
      match allOf (ms.map memberCheck) s with
      | .error _ => .refused
      | .ok _ =>
        if ms.any (memberBad s) then .aborts
        else
          match (do
            let rows ← leaderRows lead
            allOf (ms.map (memberStream rows))
            allOf (ms.map popMx)) s with
          | .ok (_, t) => .streams t
          | .error (.flt _) => .aborts
          | .error (.wait _) => .waits

/-- The meeting of the gang of a core: its members there, and what it comes to (R176). -/
def meetingOf (s : State) (n : Nat) : List Nat × Meeting :=
  match scrumHead (s.core n), s.dispOf n with
  | some lvl, some (_, d) =>
    let members := gangOf d (s.core n).lvl lvl
    if members.any (·.retired) then ((members.filter (atMeeting s lvl)).map (·.cur), .differs)
    else if members.all (atMeeting s lvl) then (members.map (·.cur), gangMeets s (members.map (·.cur)))
    else ([], .waits)
  | _, _ => ([], .waits)

/-- The fault that a meeting gives a member. -/
def Meeting.fault (m : Meeting) (s : State) (n : Nat) : State :=
  match m with
  | .differs => gangFault s n
  | .refused => memberFault s n
  | .aborts => scrumAbort s n
  | _ => s

/-- The state after a meeting of some members of dispatch k. -/
def Meeting.ends (m : Meeting) (s : State) (k ctx : Nat) (ms : List Nat) : State :=
  match m with
  | .waits => s
  | .streams t => t
  | .aborts => gangAbort s ms
  | _ => faultEach k ctx m.fault (s.metAll ms) ms (s.metAll ms)

/-- SCRUM_MEETING (R176): with every member of the unit at its SCRUM all start together, or all take the deferred
fault; a member that has retired ends the meeting for those that wait. -/
def execScrumMeeting (s : State) : Host.Outcome State Fault Refusal :=
  match s.arg with
  | .core n =>
    match s.dispOf n with
    | some (k, d) =>
      let (ms, m) := meetingOf s n
      .next (m.ends s k d.ctx ms)
    | none => .next s
  | _ => .next s

end Sys2Proof.Machine
end

