-- ==== Sys2Proof/Machine/Exchange.lean ====
section
/-!
DEFINITION. Global barriers and exchange windows (spec/17_routed_expert_layer.md R303, R304;
spec/18_umpire_supersteps_exchange.md R315 to R322; spec/03_cores_strands_launches.md R52, R53).
-/
namespace Sys2Proof.Machine

open Sys2Proof

/-! ## Global barriers -/

/-- The level of a global barrier that a launch holds (R303, R315): gb0 the outermost, gbi level i. -/
def gbarLevel (d : Dispatch) (id : Nat) : Option Nat :=
  let n := d.levels.length
  let lv := if id = 0 then n - 1 else id
  match d.levels[lv]? with
  | none => none
  | some l =>
    if id ≠ 0 ∧ (n < id + 2 ∨ l.kind < 3) then none
    else if unitCores d lv ≤ 1 then some lv
    else match coLevel d with
      | some j => if lv ≤ j then some lv else none
      | none => none

/-- The acting core's dispatch and the level of a barrier; ILLEGAL_OPERAND at A without one (R315). -/
def gbarHere (w : Norom) (id : Nat) : M (Nat × Dispatch × Nat) := do
  match ← gets fun s => s.dispOf s.me with
  | none => badA w
  | some (k, d) =>
    match gbarLevel d id with
    | none => badA w
    | some lv => pure (k, d, lv)

/-- A global barrier; one not yet touched has phase 0 and no arrivals. -/
def gbarOf (d : Dispatch) (id unit : Nat) : GBarrier :=
  match d.gbars.find? fun b => b.id == id && b.unit == unit with
  | some b => b
  | none => ⟨id, unit, false, [], none⟩

/-- Replaces a global barrier. -/
def putGbar (d : Dispatch) (b : GBarrier) : Dispatch :=
  { d with gbars := b :: d.gbars.filter fun x => !(x.id == b.id && x.unit == b.unit) }

/-- Releases the cores of a unit that wait for the phase of a global barrier to leave p (R61, R303). -/
def latchGlobal (s : State) (k : Nat) (d : Dispatch) (lv unit id : Nat) (p : Bool) : State :=
  latchUnit s k d lv unit (.globalBarrier id p)

/-- Transfers of a core's dispatch that are not yet delivered (R304). -/
def undelivered (s : State) (n : Nat) : Nat :=
  (s.floor.transfers.filter fun t => t.away.isNone && t.src = n && t.disp = (s.core n).disp).length

/-- Core i of a unit arrives at a global barrier: the last arrival flips the phase (R316). -/
def State.gbarArrive (s : State) (k : Nat) (d : Dispatch) (id lv unit i : Nat) : State :=
  let b := gbarOf d id unit
  let arrived := insertNat i b.arrived
  if arrived.length = unitCores d lv then
    latchGlobal (s.onDisp k fun d => putGbar d ⟨id, unit, !b.phase, [], none⟩) k d lv unit id b.phase
  else
    s.onDisp k fun d => putGbar d ⟨id, unit, b.phase, arrived, if b.arrived = [] then some s.time.toNat else b.since⟩

/-- GBARR (R303, R316). -/
def execGbarr (w : Norom) (s : State) : Host.Outcome State Fault Refusal :=
  outcome (lineE ⟨anyMod, fGd, fSp .gbar, fNo⟩ w fun v => do
    let id := v.a.toNat
    let (k, d, lv) ← gbarHere w id
    let sent ← gets fun s => undelivered s s.me
    await (decide (sent = 0)) .sends
    let lvl ← gets fun s => s.my.lvl
    let unit := unitOf lvl lv
    let b := gbarOf d id unit
    let i := coreInUnit d lvl lv
    check (!(i ∈ b.arrived)) cBarrierOverflow (BitVec.ofNat 64 id)
    change fun s => s.gbarArrive k d id lv unit i
    putW w (boolWord b.phase)) s

/-- GBWAIT (R303). -/
def execGbwait (w : Norom) (s : State) : Host.Outcome State Fault Refusal :=
  outcome (lineE ⟨anyMod, fNo, fSp .gbar, fGI⟩ w fun v => do
    let id := v.a.toNat
    let (_, d, lv) ← gbarHere w id
    let lvl ← gets fun s => s.my.lvl
    let p := (low v.b).getLsbD 0
    let r ← released (.globalBarrier id p)
    await (r || (gbarOf d id (unitOf lvl lv)).phase != p) (.globalBarrier id p)) s

/-- GLOBAL_BARRIER_TIMEOUT (R317): a phase of a running dispatch that has counted its context's watchdog. -/
def execGlobalBarrierTimeout (s : State) : Host.Outcome State Fault Refusal :=
  match s.arg with
  | .barrier k id unit =>
    match s.disp k with
    | some d =>
      match s.ctxOf d.ctx, (gbarOf d id unit).since, gbarLevel d id with
      | some c, some t, some lv =>
        if !(s.unitAway k lv unit) ∧ t + c.gbwd * 1000 ≤ s.time.toNat then
          .next (s.failDisp k ⟨7, 65536 * s.domain.index, noPc⟩ cBarrierTimeout
            (leBytes 8 0 ++ leBytes 1 id ++ leBytes 1 lv ++ leBytes 2 (gbarOf d id unit).arrived.length))
        else .next s
      | _, _, _ => .next s
    | none => .next s
  | _ => .next s

/-! ## Exchange windows -/

/-- Alignment, then aperture, of n bytes in the own scratchpad: two rows of XPOST's table (R318). -/
def ownBlock (a : Word) (n : Nat) : M Unit := do
  check (decide (a.toNat % 16 = 0)) cMisaligned a
  check (inArea .own a n) cBadAperture a

/-- Aperture, then alignment, of n bytes in the own scratchpad: one row of XSEND's table, in the order of R28 (R319). -/
def ownAddr (a : Word) (n : Nat) : M Unit := do
  check (inArea .own a n) cBadAperture a
  check (decide (a.toNat % 16 = 0)) cMisaligned a

/-- A transfer that a window does not take: a mismatch (R304). -/
def XWindow.refuses (x : XWindow) (t : Transfer) : Bool :=
  decide (x.slots ≤ t.slot) || decide (x.slotBytes < t.data.length) || decide (t.slot ∈ x.written)

/-- Changes the open window of a number. -/
def onWindow (seq : Nat) (f : XWindow → XWindow) (c : Core) : Core :=
  { c with windows := c.windows.map fun x => if x.seq = seq then f x else x }

/-- The open window of a number. -/
def windowOf (c : Core) (seq : Nat) : Option XWindow := c.windows.find? (·.seq == seq)

/-- Puts a transfer in a core's open window: its bytes are written and counted, or it is a mismatch (R304). -/
def State.putTransfer (s : State) (n : Nat) (x : XWindow) (t : Transfer) : State :=
  if x.refuses t then s.onCore n (onWindow x.seq fun x => { x with mismatch := true })
  else
    (orKeep (engineWrite (viaCore s n .e true) (x.base + BitVec.ofNat 64 (t.slot * x.slotBytes)) t.data) s).onCore n
      (onWindow x.seq fun x => { x with written := insertNat t.slot x.written })

/-- Writes the transfers that a port holds for a number, in arrival order (R318). -/
def State.drainPort (s : State) (n seq : Nat) : List Transfer → State
  | [] => s
  | t :: rest =>
    if t.seq = seq then
      match windowOf (s.core n) seq with
      | some x => (s.putTransfer n x t).drainPort n seq rest
      | none => s.drainPort n seq rest
    else s.drainPort n seq rest

/-- The POISON of a transfer that the port holds for a number: XPOST, which would write it, meets it (R348). The port
has no endpoint id, so that xinfo is free. Log entry 90. -/
def heldPoison (c : Core) (seq : Nat) : M Unit :=
  if c.held.any fun t => t.seq = seq && t.bad then do
    let i ← draw Config.freePortInfo
    fault cPoison (BitVec.ofNat 64 i)
  else pure ()

/-- XPOST (R304, R318). -/
def execXpost (w : Norom) (s : State) : Host.Outcome State Fault Refusal :=
  outcome (lineE ⟨anyMod, fNo, fG, fNo⟩ w fun v => do
    ownBlock (low v.a) 32
    let bs ← readJob (low v.a) 32
    let base := wordAt bs 0
    let slotBytes := fieldAt bs 8 4
    let slots := fieldAt bs 12 4
    let expected := fieldAt bs 16 4
    let seq := fieldAt bs 20 4
    ownBlock base (slots * slotBytes)
    let c ← gets State.my
    orBadA w (decide (16 ≤ slotBytes) && decide (slotBytes ≤ 4096) && slotBytes % 16 = 0 && decide (1 ≤ slots) &&
      decide (slots ≤ 4096) && decide (expected ≤ slots) && (windowOf c seq).isNone && decide (c.windows.length < 4))
    heldPoison c seq
    change fun s =>
      let n := s.me
      let held := (s.core n).held
      (s.onCore n fun c => { c with
        windows := c.windows ++ [⟨seq, base, slotBytes, slots, expected, [], false⟩]
        held := held.filter (·.seq ≠ seq) }).drainPort n seq held) s

/-- XSEND (R304, R319). -/
def execXsend (w : Norom) (s : State) : Host.Outcome State Fault Refusal :=
  outcome (lineE ⟨anyMod, fNo, fG, fNo⟩ w fun v => do
    ownAddr (low v.a) 32
    let bs ← readJob (low v.a) 32
    let src := wordAt bs 0
    let dst := wordAt bs 8
    let n := fieldAt bs 16 4
    ownAddr src n
    let size ← gets fun s => s.domain.size
    orBadA w (decide (16 ≤ n) && decide (n ≤ 4096) && n % 16 = 0 && decide (destPkg dst < size))
    let k ← gets fun s => undelivered s s.me
    await (decide (k < 16)) .sendRoom
    let via ← gets viaMe
    let data ← engineRead via src n .read
    let id ← freshItem
    change fun s => s.onFloor fun f => { f with transfers := f.transfers ++ [{
      id := id, src := s.me, dst := dst, slot := fieldAt bs 20 4, seq := fieldAt bs 24 4, data := data
      sent := s.time.toNat, ctx := s.coreCtx s.me, disp := s.my.disp, away := none, bad := false }] }) s

/-- XCLOSE (R304, R320): an EXCHANGE_COUNT fault keeps the window closed and D written. -/
def execXclose (w : Norom) (s : State) : Host.Outcome State Fault Refusal :=
  outcome (instrKeep ⟨anyMod, fGd, fGI, fNo⟩ w fun v => do
    let seq := (low v.a).toNat
    match ← gets fun s => windowOf s.my seq with
    | none => badA w
    | some x => do
      await (x.mismatch || decide (x.expected ≤ x.written.length)) (.window seq)
      change fun s => s.onMy fun c => { c with windows := c.windows.filter (·.seq ≠ seq) }
      putW w (BitVec.ofNat 64 x.written.length)
      if x.mismatch || decide (x.written.length ≠ x.expected) then do
        change fun s => s.raise ⟨cExchangeCount, low v.a, none⟩
        pure none
      else do
        let r ← goOn
        pure (some r)) s

/-! ## The fabric -/

/-- A transfer leaves the fabric. -/
def State.endTransfer (s : State) (id : Nat) : State :=
  s.onFloor fun f => { f with transfers := f.transfers.filter (·.id ≠ id) }

/-- A member of a dispatch raises EXCHANGE_TIMEOUT at core n (R319, R322, R323): a task aborts, a restartable launch
starts again, and in every other case E of the core takes it. -/
def State.exchangeFault (s : State) (d n : Nat) (info : Word) : State :=
  match s.disp d with
  | none => s
  | some x =>
    if x.liveTask then s.abortTask d (whoEngine s n) cExchangeTimeout info false
    else if x.stalls then s.restartLaunch d
    else if (s.core n).disp = some d then s.deliver n .e ⟨cExchangeTimeout, info, none⟩
    else s.deliverAway d (rankOf x n) (whoFloor s) ⟨cExchangeTimeout, info, none⟩

/-- A transfer dropped for lifetime is counted and raises EXCHANGE_TIMEOUT in its sender (R52, R319), which another
package does for a core of its own. -/
def State.expireTransfer (s : State) (t : Transfer) : State :=
  let dropped := (s.endTransfer t.id).dropMsg t.ctx
  match t.away, t.disp with
  | none, some d => dropped.exchangeFault d t.src t.dst
  | _, _ => dropped

/-- TRANSFER_ARRIVE (R304, R319): the oldest transfer of its sender to its target is written into its window, held at
the port, refused, or dropped; one that has outlived its lifetime is dropped (R52). What another package does with one
is free; one from a core of another enters the fabric here (log entry 11). -/
def execTransferArrive (s : State) : Host.Outcome State Fault Refusal :=
  match s.arg with
  | .item id =>
    match s.floor.transfers.find? (·.id == id) with
    | none => .next s
    | some t =>
      if s.tooOld t.sent then .next (s.expireTransfer t)
      else if s.floor.transfers.any fun o => goesBefore o.away o.src o.disp o.dst o.id t.away t.src t.disp t.dst t.id
      then .next s
      else if t.away.isNone && s.destAway t.disp t.dst then
        let k := Config.freeRemote s.draws % 2
        let s1 := (({ s with draws := s.draws + 1 }).endTransfer id).depart (destPkg t.dst) t.data.length
        .next (if s.domain.joined && decide (destPkg t.dst ∈ s.domain.live) && k = 0 then s1 else s1.dropMsg t.ctx)
      else match s.reaches t.disp t.dst with
        | none => .next ((s.endTransfer id).dropMsg t.ctx)
        | some n =>
          match windowOf (s.core n) t.seq with
          | some x => .next ((s.endTransfer id).putTransfer n x t)
          | none =>
            if (s.core n).held.length < 64 then
              .next ((s.endTransfer id).onCore n fun c => { c with held := c.held ++ [t] })
            else .next s
  | .transfer f slot seq data =>
    .next (if s.comesHere f then s.onFloor fun fl => { fl with
      nextItem := fl.nextItem + 1
      transfers := fl.transfers ++ [{
        id := fl.nextItem, src := f.core, dst := f.dst, slot := slot, seq := seq, data := data, sent := f.sent
        ctx := f.ctx, disp := f.disp, away := some f.pkg, bad := false }] } else s)
  | _ => .next s

/-- MESSAGE_LIFETIME (R52, R319): a message or transfer still undelivered 1 ms after it was sent is dropped and
counted; a transfer raises EXCHANGE_TIMEOUT in its sender. -/
def execMessageLifetime (s : State) : Host.Outcome State Fault Refusal :=
  match s.arg with
  | .item id =>
    match s.floor.messages.find? (·.id == id) with
    | some m =>
      if s.tooOld m.sent then .next ((s.endMessage id).dropMsg m.ctx) else .next s
    | none =>
      match s.floor.transfers.find? (·.id == id) with
      | none => .next s
      | some t => if s.tooOld t.sent then .next (s.expireTransfer t) else .next s
  | _ => .next s

/-- EXCHANGE_WATCHDOG (R320): XCLOSE faults when the watchdog elapses; its window stays open. -/
def execExchangeWatchdog (s : State) : Host.Outcome State Fault Refusal :=
  match s.arg with
  | .core n =>
    match (s.core n).e.run, s.ctxOf (s.coreCtx n) with
    | .waiting (.window seq) _ t, some c =>
      match windowOf (s.core n) seq with
      | some x =>
        if !(x.mismatch || decide (x.expected ≤ x.written.length)) && decide (t + c.xwd * 1000 ≤ s.time.toNat) then
          .next (s.raiseE n ⟨cExchangeTimeout, BitVec.ofNat 64 seq, none⟩)
        else .next s
      | none => .next s
    | _, _ => .next s
  | _ => .next s

end Sys2Proof.Machine
end

