-- ==== Sys2Proof/Machine/Shake.lean ====
section
/-!
DEFINITION. SHAKE256 with an output of 512 bits (spec/21_host_fabric_firmware.md R365, R366). The manual names the
function and does not define it: it is taken from FIPS 202 (log entry 23). A state is five planes of five lanes, and
no table is copied: the rotations come from the walk over the lanes, the round constants from their shift register.
-/
namespace Sys2Proof.Machine

open Sys2Proof

/-- A plane turned by k lanes: lane x of the result is lane x + k of p, modulo 5. -/
def planeTurn (k : Nat) (p : List Word) : List Word := p.drop k ++ p.take k

/-- Two planes, lane by lane. -/
def planeXor : List Word → List Word → List Word := List.zipWith fun u v => u ^^^ v

/-- The parities of the columns of a state, one lane a column. -/
def spongeParity (planes : List (List Word)) : List Word := planes.foldl planeXor (List.replicate 5 0)

/-- Every lane of a state with the parities of its two neighbouring columns. -/
def spongeTheta (planes : List (List Word)) : List (List Word) :=
  let p := spongeParity planes
  planes.map (planeXor (planeXor (planeTurn 4 p) ((planeTurn 1 p).map (BitVec.rotateLeft · 1))))

/-- Lane (x, y) of a state. -/
def spongeLane (planes : List (List Word)) (x y : Nat) : Word := (planes.getD y []).getD x 0

/-- The place of lane (x, y) in the walk (x, y) to (y, 2x + 3y) from (1, 0): the t-th lane it meets turns by the
triangular number of t. The lane (0, 0) is not met and does not turn. -/
def spongeWalk : Nat → Nat → Nat × Nat → Nat × Nat → Nat
  | 0, _, _, _ => 0
  | left + 1, t, here, lane =>
    if here = lane then t * (t + 1) / 2
    else spongeWalk left (t + 1) (here.2, (2 * here.1 + 3 * here.2) % 5) lane

/-- Every lane turned and moved: place (x, y) takes the lane (x + 3y, x). -/
def spongeMove (planes : List (List Word)) : List (List Word) :=
  (List.range 5).map fun y => (List.range 5).map fun x =>
    let u := (x + 3 * y) % 5
    (spongeLane planes u x).rotateLeft (spongeWalk 24 1 (1, 0) (u, x) % 64)

/-- The one step that is not linear, in every plane. -/
def spongeChi (planes : List (List Word)) : List (List Word) :=
  planes.map fun p =>
    planeXor p (List.zipWith (fun next after => after &&& ~~~next) (planeTurn 1 p) (planeTurn 2 p))

/-- The shift register x^8 + x^6 + x^5 + x^4 + 1, one step on. -/
def spongeShift (r : Nat) : Nat := if r < 128 then 2 * r else (2 * r) ^^^ 0x171

/-- The constant of a round from the register at its first step, over n powers of two, and the register after it: step j
gives bit 2^j - 1. -/
def spongeConst : Nat → Nat → Nat → Nat × Nat
  | 0, _, r => (0, r)
  | n + 1, j, r =>
    let rest := spongeConst n (j + 1) (spongeShift r)
    (r % 2 * 2 ^ (2 ^ j - 1) + rest.1, rest.2)

/-- The first lane with the constant of the round. -/
def spongeIota (c : Nat) : List (List Word) → List (List Word)
  | (w :: p) :: planes => ((w ^^^ BitVec.ofNat 64 c) :: p) :: planes
  | planes => planes

/-- n rounds from a state of the shift register. -/
def spongeRounds : Nat → Nat → List (List Word) → List (List Word)
  | 0, _, planes => planes
  | n + 1, r, planes =>
    let c := spongeConst 7 0 r
    spongeRounds n c.2 (spongeIota c.1 (spongeChi (spongeMove (spongeTheta planes))))

/-- n planes of five words read from bytes, zeros past their end. -/
def spongePlanes : Nat → List Byte → List (List Word)
  | 0, _ => []
  | n + 1, bs => ((List.range 5).map fun x => BitVec.ofNat 64 (fieldAt bs (8 * x) 8)) :: spongePlanes n (bs.drop 40)

/-- Takes in n blocks of 136 bytes, 24 rounds after each. -/
def spongeTake : Nat → List Byte → List (List Word) → List (List Word)
  | 0, _, planes => planes
  | n + 1, bs, planes =>
    spongeTake n (bs.drop 136) (spongeRounds 24 1 (List.zipWith planeXor planes (spongePlanes 5 (bs.take 136))))

/-- The closing bytes of a message of so many bytes: 1111, then 1, zeros and 1 to the end of the block. -/
def spongeEnd (length : Nat) : List Byte :=
  let room := 136 - length % 136
  (List.range room).map fun i => BitVec.ofNat 8 ((if i = 0 then 0x1F else 0) + (if i + 1 = room then 0x80 else 0))

/-- The first 64 bytes of SHAKE256 of a message. -/
def shake256 (bs : List Byte) : List Byte :=
  let msg := bs ++ spongeEnd bs.length
  let out := spongeTake (msg.length / 136) msg (List.replicate 5 (List.replicate 5 0))
  (out.flatten.take 8).flatMap fun w => leBytes 8 w.toNat

end Sys2Proof.Machine
end

