-- ==== Sys2Proof/Machine/Rv.lean ====
section
/-!
DEFINITION. L, S and the umpire as RV64 harts, and the queue extension of L and S
(spec/11_access_strands_queues.md R187 to R199; spec/10_three_stage_pipeline.md R184;
spec/18_umpire_supersteps_exchange.md R306).
-/
namespace Sys2Proof.Machine

open Sys2Proof

/-! ## The shape of an instruction -/

/-- Whether the umpire acts. -/
def State.onUmpireHart (s : State) : Bool :=
  match s.cur with
  | .umpire _ => true
  | _ => false

/-- Bytes of an instruction. -/
def lenBytes : RvLen → Nat
  | .four => 4
  | .two _ => 2

/-- The illegal-instruction exception at a word (R191). -/
def illegalWord {α : Type} (w : BitVec 32) : M α := fault cIllegalOpcode (w.setWidth 64)

/-- The word of an instruction. -/
def wordOf (i : Instr) : BitVec 32 := (encodeRv i).getD 0

/-- A 16-bit encoding is illegal on L and S (R187). Log entry 34. -/
def lenCheck (len : RvLen) : M Unit := do
  let u ← gets State.onUmpireHart
  match len with
  | .four => pure ()
  | .two p => if u then pure () else illegalWord (p.setWidth 32)

/-- An instruction that goes on in line after its effect. -/
def lineRv (n : Nat) (body : M Unit) : M Unit := do
  body
  let pc ← gets fun s => s.hart.pc
  completeRv (pc + BitVec.ofNat 64 n) .running

/-- Legal on one strand only (R193). -/
def onlyOn (p : State → Bool) (i : Instr) : M Unit := do
  let ok ← gets p
  if ok then pure () else illegalWord (wordOf i)

/-- The strand tests of R193. -/
def isL (s : State) : Bool := s.cur = .strand s.me .l
def isS (s : State) : Bool := s.cur = .strand s.me .s
def isLS (s : State) : Bool := isL s || isS s

/-- ILLEGAL_OPERAND of an extension instruction: its word (R191). -/
def badWord {α : Type} (i : Instr) : M α := fault cIllegalOperand ((wordOf i).setWidth 64)

/-- The access of the hart that acts. -/
def viaHart (s : State) : Via := if s.onUmpireHart then viaUmpire s else viaMe s

/-! ## Integer operations (R187) -/

/-- The low 32 bits of a word, zero-extended. -/
def low32 (x : Word) : Word := (x.setWidth 32).setWidth 64

/-- A 32-bit result, sign-extended. -/
def sext32 (x : BitVec 32) : Word := x.signExtend 64

def rvAlu (op : RvAlu) (a b : Word) : Word :=
  match op with
  | .add => a + b
  | .sub => a - b
  | .sll => valShl a b
  | .slt => valSlt a b
  | .sltu => valSltu a b
  | .xor => a ^^^ b
  | .srl => valShr a b
  | .sra => valSar a b
  | .or => a ||| b
  | .and => a &&& b
  | .mul => a * b
  | .mulh => valMulhs a b
  | .mulhsu => BitVec.ofInt 64 (a.toInt * (b.toNat : Int) / 2 ^ 64)
  | .mulhu => valMulhu a b
  | .div => valDivs a b
  | .divu => valDivu a b
  | .rem => valRems a b
  | .remu => valRemu a b
  | .sh1add => (a <<< 1) + b
  | .sh2add => (a <<< 2) + b
  | .sh3add => (a <<< 3) + b
  | .andn => a &&& ~~~b
  | .orn => a ||| ~~~b
  | .xnor => ~~~(a ^^^ b)
  | .max => valMax a b
  | .maxu => valMaxu a b
  | .min => valMin a b
  | .minu => valMinu a b
  | .rol => a.rotateLeft (b.toNat % 64)
  | .ror => a.rotateRight (b.toNat % 64)

/-- Signed 32-bit quotient and remainder with the fixed results of the M extension. -/
def divw (a b : BitVec 32) : BitVec 32 :=
  if b = 0 then BitVec.allOnes 32
  else if a.toInt = -(2 ^ 31) ∧ b.toInt = -1 then a
  else BitVec.ofInt 32 (a.toInt.tdiv b.toInt)
def remw (a b : BitVec 32) : BitVec 32 :=
  if b = 0 then a
  else if a.toInt = -(2 ^ 31) ∧ b.toInt = -1 then 0
  else BitVec.ofInt 32 (a.toInt - a.toInt.tdiv b.toInt * b.toInt)

def rvAluW (op : RvAluW) (x y : Word) : Word :=
  let a : BitVec 32 := x.setWidth 32
  let b : BitVec 32 := y.setWidth 32
  match op with
  | .addw => sext32 (a + b)
  | .subw => sext32 (a - b)
  | .sllw => sext32 (a <<< (b.toNat % 32))
  | .srlw => sext32 (a >>> (b.toNat % 32))
  | .sraw => sext32 (a.sshiftRight (b.toNat % 32))
  | .mulw => sext32 (a * b)
  | .divw => sext32 (divw a b)
  | .divuw => sext32 (if b = 0 then BitVec.allOnes 32 else BitVec.ofNat 32 (a.toNat / b.toNat))
  | .remw => sext32 (remw a b)
  | .remuw => sext32 (if b = 0 then a else BitVec.ofNat 32 (a.toNat % b.toNat))
  | .adduw => low32 x + y
  | .sh1adduw => (low32 x <<< 1) + y
  | .sh2adduw => (low32 x <<< 2) + y
  | .sh3adduw => (low32 x <<< 3) + y
  | .rolw => sext32 (a.rotateLeft (b.toNat % 32))
  | .rorw => sext32 (a.rotateRight (b.toNat % 32))

def rvAluI (op : RvAluI) (a : Word) (imm : BitVec 12) : Word :=
  let b : Word := imm.signExtend 64
  match op with
  | .addi => a + b
  | .slti => valSlt a b
  | .sltiu => valSltu a b
  | .xori => a ^^^ b
  | .ori => a ||| b
  | .andi => a &&& b

def rvShI (op : RvShI) (a : Word) (sh : BitVec 6) : Word :=
  match op with
  | .slli => a <<< sh.toNat
  | .srli => a >>> sh.toNat
  | .srai => a.sshiftRight sh.toNat
  | .rori => a.rotateRight sh.toNat
  | .slliuw => low32 a <<< sh.toNat

def rvShIW (op : RvShIW) (x : Word) (sh : BitVec 5) : Word :=
  let a : BitVec 32 := x.setWidth 32
  match op with
  | .slliw => sext32 (a <<< sh.toNat)
  | .srliw => sext32 (a >>> sh.toNat)
  | .sraiw => sext32 (a.sshiftRight sh.toNat)
  | .roriw => sext32 (a.rotateRight sh.toNat)

/-- Each byte of a word all ones where it is not zero. -/
def orcb (x : Word) : Word :=
  BitVec.ofNat 64 (leNat ((leBytes 8 x.toNat).map fun b => if b = 0 then 0 else 0xFF))

def rvUn (op : RvUn) (x : Word) : Word :=
  let a : BitVec 32 := x.setWidth 32
  match op with
  | .clz => valClz x
  | .ctz => valCtz x
  | .cpop => valPopc x
  | .sextb => sextWord 8 x.toNat
  | .sexth => sextWord 16 x.toNat
  | .zexth => BitVec.ofNat 64 (x.toNat % 65536)
  | .orcb => orcb x
  | .rev8 => valBswap x
  | .clzw => BitVec.ofNat 64 (leadZeros a 32)
  | .ctzw => BitVec.ofNat 64 (trailZeros a 0 32)
  | .cpopw => BitVec.ofNat 64 (popCount a)

def rvCond (c : RvCond) (a b : Word) : Bool :=
  match c with
  | .eq => a = b
  | .ne => a ≠ b
  | .lt => a.slt b
  | .ge => !a.slt b
  | .ltu => a.ult b
  | .geu => !a.ult b

/-- A jump or taken branch: its target is a multiple of 4, or of 2 on the umpire (R191, R306). -/
def jumpTo (target : Word) : M Unit := do
  let u ← gets State.onUmpireHart
  check (decide (target.toNat % (if u then 2 else 4) = 0)) cMisaligned target
  completeRv target .running

/-- The effect of an ordinary instruction. -/
def rvIntE (n : Nat) (op : RvInt) : M Unit := do
  let pc ← gets fun s => s.hart.pc
  match op with
  | .lui imm rd => lineRv n (writeX rd (((imm ++ (0 : BitVec 12)) : BitVec 32).signExtend 64))
  | .auipc imm rd => lineRv n (writeX rd (pc + ((imm ++ (0 : BitVec 12)) : BitVec 32).signExtend 64))
  | .jal off rd => do
    writeX rd (pc + BitVec.ofNat 64 n)
    jumpTo (pc + ((off ++ (0 : BitVec 1)) : BitVec 21).signExtend 64)
  | .jalr imm rs1 rd => do
    let a ← readX rs1
    writeX rd (pc + BitVec.ofNat 64 n)
    jumpTo ((a + imm.signExtend 64) &&& ~~~1)
  | .branch c off rs2 rs1 => do
    let a ← readX rs1
    let b ← readX rs2
    if rvCond c a b then jumpTo (pc + ((off ++ (0 : BitVec 1)) : BitVec 13).signExtend 64)
    else completeRv (pc + BitVec.ofNat 64 n) .running
  | .alu op rs2 rs1 rd => lineRv n do
    let a ← readX rs1
    let b ← readX rs2
    writeX rd (rvAlu op a b)
  | .aluW op rs2 rs1 rd => lineRv n do
    let a ← readX rs1
    let b ← readX rs2
    writeX rd (rvAluW op a b)
  | .aluI op imm rs1 rd => lineRv n do
    let a ← readX rs1
    writeX rd (rvAluI op a imm)
  | .addiw imm rs1 rd => lineRv n do
    let a ← readX rs1
    writeX rd (sext32 ((a + imm.signExtend 64).setWidth 32))
  | .shI op sh rs1 rd => lineRv n do
    let a ← readX rs1
    writeX rd (rvShI op a sh)
  | .shIW op sh rs1 rd => lineRv n do
    let a ← readX rs1
    writeX rd (rvShIW op a sh)
  | .un op rs1 rd => lineRv n do
    let a ← readX rs1
    writeX rd (rvUn op a)
  | .illegal w => illegalWord w
  | .outOfImage => fault cFetchLimit pc

/-- RV64_INTEGER_INSTRUCTION (R187, R191, R206, R306). -/
def execRv64IntegerInstruction (len : RvLen) (op : RvInt) (s : State) : Host.Outcome State Fault Refusal :=
  outcome (do
    lenCheck len
    rvIntE (lenBytes len) op) s

/-! ## Loads, stores, FENCE, control registers, system instructions -/

/-- The serial of a read of LQ.GPUSH that has not performed. -/
def LqEntry.unread : LqEntry → Option Nat
  | .reserved _ _ id => some id
  | .pending _ _ id => some id
  | _ => none

/-- The serials of a core's reads of LQ.GPUSH that have not performed. -/
def Core.unread (c : Core) : List Nat := (c.q.lq0 ++ c.q.lq1).filterMap LqEntry.unread

/-- An access of L performs after every earlier read of LQ.GPUSH (R194): it waits for one that has not performed
(log entry 91). -/
def afterReads : M Unit := do
  let o ← gets fun s => isL s && s.my.unread ≠ []
  await (!o) .queues

/-- A standard load: n bytes, sign-extended or not (R189). -/
def loadRv (imm : BitVec 12) (rs1 rd : BitVec 5) (n : Nat) (signed : Bool) : M Unit := do
  let a ← readX rs1
  afterReads
  let via ← gets viaHart
  let bs ← load via (a + imm.signExtend 64) n
  writeX rd (if signed then sextWord (8 * n) (leNat bs) else BitVec.ofNat 64 (leNat bs))

/-- A standard store (R189). -/
def storeRv (imm : BitVec 12) (rs2 rs1 : BitVec 5) (n : Nat) : M Unit := do
  let a ← readX rs1
  let v ← readX rs2
  afterReads
  let via ← gets viaHart
  store via (a + imm.signExtend 64) (leBytes n v.toNat)

/-- The effect of a load or store. -/
def memRv : RvMem → M Unit
  | .lb imm rs1 rd => loadRv imm rs1 rd 1 true
  | .lh imm rs1 rd => loadRv imm rs1 rd 2 true
  | .lw imm rs1 rd => loadRv imm rs1 rd 4 true
  | .ld imm rs1 rd => loadRv imm rs1 rd 8 true
  | .lbu imm rs1 rd => loadRv imm rs1 rd 1 false
  | .lhu imm rs1 rd => loadRv imm rs1 rd 2 false
  | .lwu imm rs1 rd => loadRv imm rs1 rd 4 false
  | .sb imm rs2 rs1 => storeRv imm rs2 rs1 1
  | .sh imm rs2 rs1 => storeRv imm rs2 rs1 2
  | .sw imm rs2 rs1 => storeRv imm rs2 rs1 4
  | .sd imm rs2 rs1 => storeRv imm rs2 rs1 8

/-- RV_LOAD_STORE (R189, R306). -/
def execRvLoadStore (len : RvLen) (op : RvMem) (s : State) : Host.Outcome State Fault Refusal :=
  outcome (do
    lenCheck len
    lineRv (lenBytes len) (memRv op)) s

/-- Whether L has a global read that has not performed or not arrived. -/
def readsOpen (s : State) : Bool := isL s && (s.my.q.lq0.any LqEntry.open || s.my.q.lq1.any LqEntry.open)

/-- RV_FENCE (R189): loads and stores have performed when they issued; L waits for its outstanding LQ.GPUSH reads. -/
def execRvFence (_imm : BitVec 12) (_rs1 _rd : BitVec 5) (s : State) : Host.Outcome State Fault Refusal :=
  outcome (lineRv 4 do
    let o ← gets readsOpen
    await (!o) .queues) s

/-- The control registers of L, S and the umpire (R188, R306). -/
def rvCsr (s : State) (n : Nat) : Option Word :=
  match s.cur with
  | .umpire c =>
    let u := (s.court c).umpire
    match n with
    | 0xCC0 => some (BitVec.ofNat 64 u.ctx)
    | 0xCC1 => some (BitVec.ofNat 64 (c % 4 * 256 + s.domain.index * 65536))
    | 0xCC2 => some (u.gen.setWidth 64)
    | 0xCC3 => some 0
    | 0xCC4 => some s.time
    | 0xCC5 => some (BitVec.ofNat 64 u.ilen)
    | _ => none
  | _ =>
    match n with
    | 0xCC0 => s.csr 0x000
    | 0xCC1 => s.csr 0x001
    | 0xCC2 => s.csr 0x002
    | 0xCC3 => s.csr 0x003
    | 0xCC4 => some s.time
    | 0xCC5 => some (BitVec.ofNat 64 (if s.myStrand = .l then s.my.stores.llen else s.my.stores.slen))
    | _ => none

/-- Whether an operation only reads: CSRRS, CSRRC, CSRRSI or CSRRCI with a zero source field (R188). -/
def csrReads (op : RvCsrOp) (rs1 : BitVec 5) : Bool :=
  rs1 = 0 && (match op with
    | .csrrw => false
    | .csrrwi => false
    | _ => true)

/-- RV_CSR_ACCESS (R188). -/
def execRvCsrAccess (op : RvCsrOp) (csr : BitVec 12) (rs1 rd : BitVec 5) (s : State) :
    Host.Outcome State Fault Refusal :=
  outcome (lineRv 4 do
    let v ← gets fun s => rvCsr s csr.toNat
    match v with
    | some x => if csrReads op rs1 then writeX rd x else illegalWord (wordOf (.rvCsrAccess op csr rs1 rd))
    | none => illegalWord (wordOf (.rvCsrAccess op csr rs1 rd))) s

/-- A hart halts; the umpire stays held by its launch (R190, R297). -/
def haltRv : M Unit := do
  let pc ← gets fun s => s.hart.pc
  completeRv (pc + 4) .stopped
  change fun s => match s.cur with
    | .umpire c => s.onUmpire c fun u => { u with mode := .halted }
    | _ => s

/-- ECALL (R190). -/
def execEcall (s : State) : Host.Outcome State Fault Refusal :=
  outcome (do
    let k ← readX 17
    if k = 0 then haltRv
    else if k = 1 then do
      let a ← readX 10
      fault cTrap a
    else illegalWord 0x73) s

/-- EBREAK (R190). -/
def execEbreak (len : RvLen) (s : State) : Host.Outcome State Fault Refusal :=
  outcome (do
    lenCheck len
    fault cTrap 0) s

/-! ## The queue extension -/

/-- A 128-bit entry from 16 bytes. -/
def entryOf (bs : List Byte) : V128 := BitVec.ofNat 128 (leNat bs)

/-- The load queue that rs2 names (R194). -/
def lqNamed (i : Instr) (q : Word) : M Nat := if q = 0 then pure 0 else if q = 1 then pure 1 else badWord i

/-- Adds an entry to a load queue. -/
def pushLq (q : Nat) (e : LqEntry) : M Unit :=
  change fun s => s.onMy fun c => { c with q := if q = 0 then { c.q with lq0 := c.q.lq0 ++ [e] }
    else { c.q with lq1 := c.q.lq1 ++ [e] } }

/-- LQ_VPUSH (R194). A bad queue number in rs2 is reported before a bad address in rs1 (log entry 100). -/
def execLqVpush (rs2 rs1 rd : BitVec 5) (s : State) : Host.Outcome State Fault Refusal :=
  outcome (lineRv 4 do
    onlyOn isL (.lqVpush rs2 rs1 rd)
    let a ← readX rs1
    let q ← readX rs2
    let k ← lqNamed (.lqVpush rs2 rs1 rd) q
    check (inArea .own a 16) cBadAperture a
    check (decide (a.toNat % 16 = 0)) cMisaligned a
    let room ← gets fun s => s.room k
    await room .queues
    afterReads
    let via ← gets viaMe
    let bs ← load via a 16
    pushLq k (.data (entryOf bs))) s

/-- LQ_SPUSH (R194). -/
def execLqSpush (rs2 rs1 rd : BitVec 5) (s : State) : Host.Outcome State Fault Refusal :=
  outcome (lineRv 4 do
    onlyOn isL (.lqSpush rs2 rs1 rd)
    let a ← readX rs1
    let q ← readX rs2
    let k ← lqNamed (.lqSpush rs2 rs1 rd) q
    let room ← gets fun s => s.room k
    await room .queues
    pushLq k (.data (wide a))) s

/-- Whether n bytes at an address are global. -/
def inGlobal (a : Word) (n : Nat) : Bool := decide (a.toNat + n ≤ 2 ^ 57)

/-- The stall of a read of LQ.GPUSH, which L does not wait with, is reported (R275). -/
def State.gpushWait (s : State) (n : Nat) (pc : Word) (w : Wait) : State :=
  s.engineWait (s.coreCtx n) w { whoStrand s n .l with pc := pc.toNat }

/-- LQ_GPUSH (R194): the entry is reserved, and its read performs at once where it can: where every earlier read has
performed and nothing holds it up. A bad queue number is reported before a bad address (log entry 100). -/
def execLqGpush (rs2 rs1 rd : BitVec 5) (s : State) : Host.Outcome State Fault Refusal :=
  outcome (do
    onlyOn isL (.lqGpush rs2 rs1 rd)
    let a ← readX rs1
    let q ← readX rs2
    let k ← lqNamed (.lqGpush rs2 rs1 rd) q
    check (inGlobal a 16) cBadAperture a
    check (decide (a.toNat % 16 = 0)) cMisaligned a
    let room ← gets fun s => s.room k
    await room .queues
    let pc ← gets fun s => s.hart.pc
    let via ← gets viaMe
    let first ← gets fun s => decide (s.my.unread = [])
    let tried ← gets fun s => load via a 16 s
    match first, tried with
    | true, .ok (bs, t) => do
      change fun _ => t
      pushLq k (.arriving (entryOf bs))
    | true, .error (.wait w) => do
      change fun s => s.gpushWait s.me pc w
      let id ← freshItem
      pushLq k (.reserved a pc id)
    | _, _ => do
      let id ← freshItem
      pushLq k (.reserved a pc id)
    completeRv (pc + 4) .running) s

/-- Replaces the entry at a place of a load queue of a core. -/
def State.setLq (s : State) (n : Nat) (q : Bool) (i : Nat) (e : LqEntry) : State :=
  s.onCore n fun c => { c with q := if q then { c.q with lq1 := c.q.lq1.set i e } else { c.q with lq0 := c.q.lq0.set i e } }

/-- A fault of a read of LQ.GPUSH, raised in L with the pc of the push (R194). -/
def State.gpushFault (s : State) (n : Nat) (q : Bool) (i : Nat) (addr pc : Word) (id : Nat) (f : Flt) : State :=
  match s.dispOf n with
  | none => s
  | some (k, d) =>
    let s1 := s.recordFault d.ctx (some d) f
    let who : Who := { whoStrand s n .l with pc := pc.toNat }
    if f.cause = cTranslation ∧ d.liveTask then s1.abortTask k who f.cause f.info true
    else if f.cause = cTranslation ∧ d.restartable then s1.setLq n q i (.pending addr pc id)
    else if f.cause = cPoison ∧ d.liveTask then s1.abortTask k who f.cause f.info false
    else s1.failInfo k who f.cause f.info

/-- Whether a read of LQ.GPUSH is the oldest of its core that has not performed. -/
def Core.oldestRead (c : Core) (id : Nat) : Bool := c.unread.all (id ≤ ·)

/-- Fills the first reserved entry of a list whose data can arrive, or raises its fault. Reads perform in the order of
their pushes. -/
def arriveFrom (s : State) (n : Nat) (q : Bool) : Nat → List LqEntry → State
  | _, [] => s
  | i, .arriving v :: _ => (s.setLq n q i (.data v)).engineProgress n
  | i, .reserved a pc id :: t =>
    if !(s.core n).oldestRead id then arriveFrom s n q (i + 1) t
    else match load (viaCore s n .l false) a 16 s with
      | .ok (bs, u) => (u.setLq n q i (.data (entryOf bs))).engineProgress n
      | .error (.wait w) => arriveFrom (s.gpushWait n pc w) n q (i + 1) t
      | .error (.flt f) => s.gpushFault n q i a pc id f
  | i, _ :: t => arriveFrom s n q (i + 1) t

/-- GPUSH_READ_ARRIVE (R194): data of an outstanding read of a load queue arrives. -/
def execGpushReadArrive (s : State) : Host.Outcome State Fault Refusal :=
  match s.arg with
  | .coreQueue n q => .next (arriveFrom s n q 0 (if q then (s.core n).q.lq1 else (s.core n).q.lq0))
  | _ => .next s

/-- Writes the popped entry of sq, held until its store has performed (R195). The store of a held entry that waits or
stalls keeps S at the instruction, with the entry popped. -/
def storeHeld (a : Word) (v : V128) : M Unit := fun s =>
  let via := viaMe s
  match store via a (leBytes 16 v.toNat) s with
  | .ok (_, t) => .ok ((), (t.onHart fun h => { h with held := none, pc := h.pc + 4, run := .running }).onMy fun c =>
      ({ c with progress := s.time.toNat }).settle)
  | .error (.wait w) => .ok ((), (s.onHart fun h => { h with held := some v }).enterWait w)
  | .error (.flt f) => .ok ((), (s.onHart fun h => { h with held := some v }).raise f)

/-- A pop of sq that stores its entry at an address that passes a check. A bad address faults without waiting for an
entry, which is the model's choice (log entry 100). -/
def popStore (i : Instr) (rs1 : BitVec 5) (ok : Word → Bool) : M Unit := do
  onlyOn isS i
  let a ← readX rs1
  check (ok a) cBadAperture a
  check (decide (a.toNat % 16 = 0)) cMisaligned a
  let held ← gets fun s => s.hart.held
  let v ← match held with
    | some v => pure v
    | none => popEntry 2
  storeHeld a v

/-- Whether 16 bytes lie in the own or remote scratchpad aperture. -/
def inScratch (a : Word) : Bool :=
  match aperture a.toNat 16 with
  | some (.own _) => true
  | some (.remote _ _) => true
  | _ => false

/-- SQ_VPOP (R195). -/
def execSqVpop (rs2 rs1 rd : BitVec 5) (s : State) : Host.Outcome State Fault Refusal :=
  outcome (popStore (.sqVpop rs2 rs1 rd) rs1 inScratch) s

/-- SQ_GPOP (R195). -/
def execSqGpop (rs2 rs1 rd : BitVec 5) (s : State) : Host.Outcome State Fault Refusal :=
  outcome (popStore (.sqGpop rs2 rs1 rd) rs1 fun a => inGlobal a 16) s

/-- SQ_XPOP (R195). -/
def execSqXpop (rs2 rs1 rd : BitVec 5) (s : State) : Host.Outcome State Fault Refusal :=
  outcome (lineRv 4 do
    onlyOn isS (.sqXpop rs2 rs1 rd)
    let v ← popEntry 2
    writeX rd (low v)) s

/-- BO_POP (R196). -/
def execBoPop (rs2 rs1 rd : BitVec 5) (s : State) : Host.Outcome State Fault Refusal :=
  outcome (lineRv 4 do
    onlyOn isLS (.boPop rs2 rs1 rd)
    let l ← gets isL
    let v ← popEntry (if l then 3 else 4)
    writeX rd (low v)) s

/-- BO_PUSH (R196). -/
def execBoPush (rs2 rs1 rd : BitVec 5) (s : State) : Host.Outcome State Fault Refusal :=
  outcome (lineRv 4 do
    onlyOn isL (.boPush rs2 rs1 rd)
    let a ← readX rs1
    let room ← gets fun s => s.room 5
    await room .queues
    pushEntry 5 (wide a)) s

/-- The queues whose state a strand may read (R197). -/
def qStatIds (s : State) : List Nat := if isL s then [0, 1, 3, 5] else [2, 4]

/-- Q_STAT (R197). -/
def execQStat (rs2 rs1 rd : BitVec 5) (s : State) : Host.Outcome State Fault Refusal :=
  outcome (lineRv 4 do
    onlyOn isLS (.qStat rs2 rs1 rd)
    let a ← readX rs1
    let ids ← gets qStatIds
    if a.toNat ∈ ids then do
      let c ← gets State.my
      let pend := if a = 0 then (c.q.lq0.filter LqEntry.open).length
        else if a = 1 then (c.q.lq1.filter LqEntry.open).length else 0
      writeX rd (BitVec.ofNat 64 (pend * 65536 + queueDepth a.toNat * 256 + c.holds a.toNat))
    else badWord (.qStat rs2 rs1 rd)) s

/-- CP_ISSUE (R198). A bad operation in rs2 is reported before a bad card address in rs1, which is the model's choice (log
entry 100). -/
def execCpIssue (rs2 rs1 rd : BitVec 5) (s : State) : Host.Outcome State Fault Refusal :=
  outcome (lineRv 4 do
    onlyOn isLS (.cpIssue rs2 rs1 rd)
    let a ← readX rs1
    let op ← readX rs2
    if op.toNat < 4 then do
      afterReads
      issueCopy a op.toNat (badWord (.cpIssue rs2 rs1 rd))
    else badWord (.cpIssue rs2 rs1 rd)) s

/-- The arrival of a BB.ARR (R199). -/
def arriveRv (rs2 rs1 rd : BitVec 5) : M Unit :=
  lineRv 4 do
    onlyOn isLS (.bbArr rs2 rs1 rd)
    let b ← readX rs1
    let n ← readX rs2
    barrierArg b
    afterReads
    let via ← gets viaMe
    arrive via b n.toNat

/-- BB_ARR (R199). -/
def execBbArr (rs2 rs1 rd : BitVec 5) (s : State) : Host.Outcome State Fault Refusal := outcome (arriveRv rs2 rs1 rd) s

/-- BB_WAIT (R199). -/
def execBbWait (rs2 rs1 rd : BitVec 5) (s : State) : Host.Outcome State Fault Refusal :=
  outcome (lineRv 4 do
    onlyOn isLS (.bbWait rs2 rs1 rd)
    let b ← readX rs1
    let x ← readX rs2
    check (inArea .own b 16) cBadAperture b
    check (decide (b.toNat % 16 = 0)) cMisaligned b
    afterReads
    let via ← gets viaMe
    let p := x.getLsbD 0
    let r ← released (.barrier b p)
    let ph ← barrierPhase via b
    await (r || ph != p) (.barrier b p)) s

end Sys2Proof.Machine
end

