-- ==== Sys2Proof/Machine/Umpire.lean ====
section
/-!
DEFINITION. The umpire: its extension instructions, its atomics, and the ROM routing program
(spec/17_routed_expert_layer.md R297 to R302; spec/18_umpire_supersteps_exchange.md R306 to R314).
-/
namespace Sys2Proof.Machine

open Sys2Proof

/-! ## The umpire's scratchpad -/

/-- Offsets of the route header and of the capacity board (R300). -/
def routeHeader : Nat := 0x3E000
def boardBase : Nat := 0x3F000

/-- The scratchpad of the acting umpire. -/
def State.uscratch (s : State) : Tab Byte := (s.court s.myCourt).umpire.scratch

/-- n bytes of it, as a number. -/
def State.uNat (s : State) (off n : Nat) : Nat := leNat (tabRead s.uscratch off n)

/-- Writes bytes to it. -/
def State.uWrite (s : State) (off : Nat) (bs : List Byte) : State :=
  s.onUmpire s.myCourt fun u => { u with scratch := tabWrite u.scratch off bs }

/-- The offset of an own-scratchpad address. -/
def ownOff (a : Word) : Nat := a.toNat - 0xF000000000000000

/-- Whether n bytes at an address lie in the umpire's scratchpad (R306). -/
def inUmpire (a : Word) (n : Nat) : Bool :=
  match aperture a.toNat n with
  | some (.own off) => decide (off + n ≤ Config.umpireScratch)
  | _ => false

/-- The address check of a record: aperture, then alignment (R314). -/
def recordAddr (a : Word) (n : Nat) : M Unit := do
  check (inUmpire a n) cBadAperture a
  check (decide (a.toNat % 16 = 0)) cMisaligned a

/-! ## GQ.POP (R299) -/

/-- The record that a gate queue hands over next. -/
def Gate.next (g : Gate) : Option GateRecord := g.records.find? (·.token == g.expected)

/-- Takes the expected record out of the acting umpire's queue, or waits for it. -/
def takeRecord : M GateRecord := do
  let g ← gets fun s => (s.court s.myCourt).gate
  match g.next with
  | none => block .record
  | some r => do
    change fun s => s.onCourt s.myCourt fun c => { c with gate := { c.gate with
      expected := c.gate.expected + 1, records := c.gate.records.filter (·.token ≠ r.token) } }
    pure r

/-- The bytes of a record. -/
def GateRecord.bytes (r : GateRecord) : List Byte := r.units.flatMap fun v => leBytes 16 v.toNat

/-- GQ_POP (R299, R314). The address is checked for its first 16 bytes before the wait for a record, and for the rest
once the record has come: the model's choice (log entry 100). -/
def execGqPop (rs2 rs1 rd : BitVec 5) (s : State) : Host.Outcome State Fault Refusal :=
  outcome (lineRv 4 do
    onlyOn State.onUmpireHart (.gqPop rs2 rs1 rd)
    let a ← readX rs1
    recordAddr a 16
    let r ← takeRecord
    check (inUmpire a r.bytes.length) cBadAperture a
    change fun s => s.uWrite (ownOff a) r.bytes
    writeX rd (BitVec.ofNat 64 r.token)) s

/-! ## RT.CLAIM (R300, R301, R314) -/

/-- An occupant: tag and score. -/
structure Occupant where
  tag : Nat
  score : BitVec 32
  deriving DecidableEq, Repr

/-- The 8 bytes of an occupant. -/
def Occupant.bytes (o : Occupant) : List Byte := leBytes 4 o.tag ++ leBytes 4 o.score.toNat

/-- The occupants of an array in placement order. -/
def State.occupants (s : State) (array n : Nat) : List Occupant :=
  (List.range n).map fun j => ⟨s.uNat (array + 8 * j) 4, BitVec.ofNat 32 (s.uNat (array + 8 * j + 4) 4)⟩

/-- Whether an occupant goes before another: a lower score, or an equal one with a higher tag. -/
def Occupant.weaker (a b : Occupant) : Bool :=
  (valF32 a.score).lt (valF32 b.score) || ((valF32 a.score).eqv (valF32 b.score) && decide (b.tag < a.tag))

/-- The occupant of least score, NaN scores excluded, with its place. -/
def weakest : Nat → List Occupant → Option (Nat × Occupant)
  | _, [] => none
  | i, o :: os =>
    match weakest (i + 1) os with
    | none => if (valF32 o.score).isNan then none else some (i, o)
    | some r => if !(valF32 o.score).isNan && !r.2.weaker o then some (i, o) else some r

/-- What a claim answers. -/
inductive Claim where
  | placed
  | evicted (tag : Nat)
  | refused
  deriving DecidableEq, Repr

/-- The outcome word of a claim. -/
def Claim.word : Claim → Word
  | .placed => 0
  | .evicted v => BitVec.ofNat 64 (2 ^ 62 + v % 2 ^ 32)
  | .refused => BitVec.ofNat 64 (2 ^ 63)

/-- The slot of an array at which occupant j lies in the scratchpad; beyond it, BAD_APERTURE with the offset. -/
def occupantCheck (array j : Nat) : M Unit :=
  check (decide (array + 8 * j + 8 ≤ Config.umpireScratch)) cBadAperture (BitVec.ofNat 64 (array + 8 * j))

/-- The first slot of an array that does not lie in the scratchpad. -/
def firstOutside (array : Nat) : Nat := (Config.umpireScratch - array) / 8

/-- Applies a claim to the board as its bytes stand (log entry 43). The count is written last, from what was read before:
an occupant that lies over its own entry's count is overwritten, which is the model's choice (log entry 112). -/
def claim (e tag : Nat) (x : BitVec 32) : M Claim := do
  let entry := boardBase + 16 * e
  let s ← gets id
  let array := s.uNat entry 4
  let cap := s.uNat (entry + 4) 4
  let count := s.uNat (entry + 8) 4
  if (valF32 x).isNan || cap = 0 then pure .refused
  else if count < cap then do
    occupantCheck array count
    change fun s => (s.uWrite (array + 8 * count) (Occupant.bytes ⟨tag, x⟩)).uWrite (entry + 8) (leBytes 4 (count + 1))
    pure .placed
  else do
    check (decide (array + 8 * count ≤ Config.umpireScratch)) cBadAperture
      (BitVec.ofNat 64 (array + 8 * firstOutside array))
    let os := s.occupants array count
    match weakest 0 os with
    | none => pure .refused
    | some (j, o) =>
      if (valF32 o.score).lt (valF32 x) then do
        let kept := os.eraseIdx j ++ [⟨tag, x⟩]
        change fun s => s.uWrite array (kept.flatMap Occupant.bytes)
        pure (.evicted o.tag)
      else pure .refused

/-- RT_CLAIM (R301, R314). -/
def execRtClaim (rs2 rs1 rd : BitVec 5) (s : State) : Host.Outcome State Fault Refusal :=
  outcome (lineRv 4 do
    onlyOn State.onUmpireHart (.rtClaim rs2 rs1 rd)
    let a ← readX rs1
    let b ← readX rs2
    let e := natBits a.toNat 63 32
    if 255 < e then badWord (.rtClaim rs2 rs1 rd)
    else do
      let r ← claim e (a.toNat % 2 ^ 32) (b.setWidth 32)
      writeX rd r.word) s

/-! ## RT.EMIT (R302, R314) -/

/-- Emits a routing record of 16 bytes: a drop is counted, any other record stored and counted. -/
def emit (r : List Byte) : M Unit := do
  if natBit (fieldAt r 7 1) 0 then change fun s => s.dropShare (s.court s.myCourt).umpire.ctx
  else do
    let s ← gets id
    let base := s.uNat routeHeader 8
    let count := s.uNat (routeHeader + 8) 4
    store (viaUmpire s) (BitVec.ofNat 64 (base + 16 * count)) r
    change fun s => s.uWrite (routeHeader + 8) (leBytes 4 (count + 1))

/-- RT_EMIT (R302, R314). -/
def execRtEmit (rs2 rs1 rd : BitVec 5) (s : State) : Host.Outcome State Fault Refusal :=
  outcome (lineRv 4 do
    onlyOn State.onUmpireHart (.rtEmit rs2 rs1 rd)
    let a ← readX rs1
    recordAddr a 16
    let r ← gets fun s => tabRead s.uscratch (ownOff a) 16
    emit r) s

/-! ## The A extension (R297) -/

/-- The value that an AMO writes, on n-bit operands. -/
def amoValue (op : RvAmo) {n : Nat} (old x : BitVec n) : BitVec n :=
  match op with
  | .swap => x
  | .add => old + x
  | .xor => old ^^^ x
  | .and => old &&& x
  | .or => old ||| x
  | .min => if old.slt x then old else x
  | .max => if old.slt x then x else old
  | .minu => if old.ult x then old else x
  | .maxu => if old.ult x then x else old

/-- The bytes that an AMO writes over the old ones. -/
def amoBytes (op : RvAmo) (wide : Bool) (x : Word) (old : List Byte) : List Byte :=
  if wide then leBytes 8 (amoValue op (BitVec.ofNat 64 (leNat old)) x).toNat
  else leBytes 4 (amoValue op (BitVec.ofNat 32 (leNat old)) (x.setWidth 32)).toNat

/-- Bytes of an atomic. -/
def amoSize (wide : Bool) : Nat := if wide then 8 else 4

/-- UMPIRE_AMO (R297). -/
def execUmpireAmo (op : RvAmo) (wide aq rl : Bool) (rs2 rs1 rd : BitVec 5) (s : State) :
    Host.Outcome State Fault Refusal :=
  outcome (lineRv 4 do
    onlyOn State.onUmpireHart (.umpireAmo op wide aq rl rs2 rs1 rd)
    let a ← readX rs1
    let x ← readX rs2
    let via ← gets viaUmpire
    let old ← atomicAt via a (amoSize wide) (amoBytes op wide x)
    writeX rd (sextWord (8 * amoSize wide) (leNat old))) s

/-- UMPIRE_LR (R297): a plain load. -/
def execUmpireLr (wide aq rl : Bool) (rs1 rd : BitVec 5) (s : State) : Host.Outcome State Fault Refusal :=
  outcome (lineRv 4 do
    onlyOn State.onUmpireHart (.umpireLr wide aq rl rs1 rd)
    let a ← readX rs1
    let via ← gets viaUmpire
    let bs ← load via a (amoSize wide)
    writeX rd (sextWord (8 * amoSize wide) (leNat bs))) s

/-- UMPIRE_SC (R297): a plain store that always performs. -/
def execUmpireSc (wide aq rl : Bool) (rs2 rs1 rd : BitVec 5) (s : State) : Host.Outcome State Fault Refusal :=
  outcome (lineRv 4 do
    onlyOn State.onUmpireHart (.umpireSc wide aq rl rs2 rs1 rd)
    let a ← readX rs1
    let x ← readX rs2
    let via ← gets viaUmpire
    store via a (leBytes (amoSize wide) x.toNat)
    writeX rd 0) s

/-! ## The placement rule (R309) -/

/-- Changes the record of a token. -/
def onToken (t : Nat) (f : RomToken → RomToken) : M Unit :=
  change fun s => s.onUmpire s.myCourt fun u => { u with tokens := u.tokens.map fun x => if x.token = t then f x else x }

/-- The candidates of a token among n experts: not tried, and not NaN. -/
def RomToken.candidates (x : RomToken) (n : Nat) : List Nat :=
  (List.range (min n x.logits.length)).filter fun e =>
    !(e ∈ x.tried) && !(valF32 (x.logits.getD e 0)).isNan

/-- The expert of greatest logit, the lowest index among equals. -/
def RomToken.best (x : RomToken) : List Nat → Option Nat
  | [] => none
  | e :: es =>
    match x.best es with
    | none => some e
    | some f => if (valF32 (x.logits.getD e 0)).lt (valF32 (x.logits.getD f 0)) then some f else some e

/-- The bytes of a routing record (R302). -/
def routeRecord (token e share : Nat) (drop : Bool) (weight : BitVec 32) (dst slot : Nat) : List Byte :=
  leBytes 4 token ++ leBytes 2 e ++ leBytes 1 share ++ leBytes 1 drop.toNat ++ leBytes 4 weight.toNat ++
    leBytes 2 dst ++ leBytes 2 slot

/-- Counts an outcome of the ROM program. -/
def romCount (f : Umpire → Umpire) : M Unit := change fun s => s.onUmpire s.myCourt f

/-- place(t, s) of R309 over n experts; each round adds an expert to a tried set, or ends. Log entry 42. -/
def place (n : Nat) : Nat → Nat → Nat → M Unit
  | 0, _, _ => pure ()
  | fuel + 1, t, share => do
    let tokens ← gets fun s => (s.court s.myCourt).umpire.tokens
    match tokens.find? (·.token == t) with
    | none => pure ()
    | some x =>
      match x.best (x.candidates n) with
      | none => do
        romCount fun u => { u with drops := u.drops + 1 }
        emit (routeRecord t 0 share true (x.weights.getD share 0) 0 0)
      | some e => do
        onToken t fun x => { x with tried := x.tried ++ [e] }
        match ← claim e ((8 * t + share) % 2 ^ 32) (x.logits.getD e 0) with
        | .placed => pure ()
        | .evicted v => do
          romCount fun u => { u with evictions := u.evictions + 1 }
          place n fuel (v / 8) (v % 8)
        | .refused => do
          romCount fun u => { u with refusals := u.refusals + 1 }
          place n fuel t share

/-- Rounds that suffice for the shares placed so far. -/
def placeFuel (s : State) : Nat := 272 * ((s.court s.myCourt).umpire.tokens.length + 1)

/-- Places the shares of a token in order. -/
def placeAll (n t : Nat) : List Nat → M Unit
  | [] => pure ()
  | k :: ks => do
    let fuel ← gets placeFuel
    place n fuel t k
    placeAll n t ks

/-! ## The ROM routing program (R311 to R313)

Its block and expert table are kept from scratchpad offset 0, below the occupant arrays. -/

/-- Where the program keeps its block and its table. -/
def romBlockAt : Nat := 0
def romTableAt : Nat := 64

/-- A field of the block. -/
def State.romField (s : State) (off n : Nat) : Nat := s.uNat (romBlockAt + off) n

/-- Ends the launch with ILLEGAL_OPERAND at an instruction of the program. -/
def romCheck (p : Bool) : M Unit := do
  if p then pure ()
  else do
    let w ← draw Config.freeRomWord
    fault cIllegalOperand (BitVec.ofNat 64 (w % 2 ^ 32))

/-- Loads n words of 8 bytes. -/
def romLoads (a : Word) : Nat → M (List Byte)
  | 0 => pure []
  | n + 1 => do
    let via ← gets viaUmpire
    let x ← load via a 8
    let y ← romLoads (a + 8) n
    pure (x ++ y)

/-- The board entries of quotas, the arrays one after another. -/
def boardOf (array : Nat) : List Nat → List Byte
  | [] => []
  | q :: qs => leBytes 4 array ++ leBytes 4 q ++ leBytes 8 0 ++ boardOf (array + 8 * q) qs

/-- Moves the program on to its next part. -/
def romPhase (p : Nat) : M Unit := change fun s => s.onHart fun h => { h with pc := BitVec.ofNat 64 p, run := .running }

/-- Part 1: reads the block and the table, and sets up the board and the route header. Log entry 44. -/
def romSetup : M Unit := do
  let a ← readX 10
  let block ← romLoads a 8
  let n := fieldAt block 0x24 2
  romCheck (decide (1 ≤ fieldAt block 0x20 4) && decide (1 ≤ n) && decide (n ≤ 256))
  let table ← romLoads (wordAt block 0x18) n
  let quotas := (List.range n).map fun e => fieldAt table (8 * e + 4) 2
  romCheck (decide (sumNat quotas ≤ 23552))
  change fun s => (((s.uWrite romBlockAt block).uWrite romTableAt table).uWrite boardBase
    (boardOf 0x10000 quotas)).uWrite routeHeader (leBytes 8 (fieldAt block 0 8) ++ leBytes 4 0)
  romPhase 1

/-- The f32 words of a record from a unit on. -/
def recordWords (bs : List Byte) (unit n : Nat) : List (BitVec 32) :=
  (List.range n).map fun i => BitVec.ofNat 32 (fieldAt bs (16 * unit + 4 * i) 4)

/-- Part 2: pops one record and places its shares. -/
def romRoute : M Unit := do
  let r ← takeRecord
  let bs := r.bytes
  let n := fieldAt bs 4 2
  let k := fieldAt bs 8 1
  let x : RomToken := ⟨r.token, recordWords bs 1 n, recordWords bs (1 + ceilDiv n 4) k, []⟩
  romCount fun u => { u with tokens := u.tokens ++ [x] }
  let experts ← gets fun s => s.romField 0x24 2
  placeAll experts r.token (List.range k)
  let last ← gets fun s => s.romField 0x20 4
  romPhase (if last ≤ r.token + 1 then 2 else 1)

/-- The placed shares of n experts in increasing expert, then slot, order: expert, slot, occupant. -/
def State.placedShares (s : State) (n : Nat) : List (Nat × Nat × Occupant) :=
  (List.range n).flatMap fun e =>
    let os := s.occupants (s.uNat (boardBase + 16 * e) 4) (s.uNat (boardBase + 16 * e + 8) 4)
    os.zipIdx.map fun x => (e, x.2, x.1)

/-- The destination of an expert (R312, R313). -/
def State.romDest (s : State) (e : Nat) : Nat :=
  let x := s.uNat (romTableAt + 8 * e) 8
  if natBit x 48 then natBits x 31 16 else natBits x 15 0

/-- Part 3: emits the next placed share. -/
def romEmit : M Unit := do
  let s ← gets id
  let list := s.placedShares (s.romField 0x24 2)
  match list.drop (s.uNat (routeHeader + 8) 4) with
  | [] => romPhase 3
  | (e, slot, o) :: _ => do
    let t := o.tag / 8
    let share := o.tag % 8
    let w := match (s.court s.myCourt).umpire.tokens.find? (·.token == t) with
      | some x => x.weights.getD share 0
      | none => 0
    emit (routeRecord t e share false w (s.romDest e) slot)
    romPhase 2

/-- Writes a word of the program's report in global memory. -/
def romStore (a : Word) (x : Nat) : M Unit := do
  let via ← gets viaUmpire
  store via a (leBytes 8 x)

/-- Parts 4 to 7: write the three counts, then the done word, each in its own turn, so that what is written stays when a
later store faults; the program then serves the launch no more. Log entry 44. -/
def romFinish (part : Nat) : M Unit := do
  let s ← gets id
  let u := (s.court s.myCourt).umpire
  let stat := BitVec.ofNat 64 (s.romField 0x10 8)
  match part with
  | 3 => do
    romStore stat u.evictions
    romPhase 4
  | 4 => do
    romStore (stat + 8) u.refusals
    romPhase 5
  | 5 => do
    romStore (stat + 16) u.drops
    romPhase 6
  | _ => do
    romStore (BitVec.ofNat 64 (s.romField 8 8)) 1
    change fun s => s.onUmpire s.myCourt fun u => { u with mode := .halted, hart := { u.hart with run := .stopped } }

/-- One turn of the ROM routing program of the acting umpire. -/
def romTurn (s : State) : State :=
  let m := match (s.court s.myCourt).umpire.hart.pc.toNat with
    | 0 => romSetup
    | 1 => romRoute
    | 2 => romEmit
    | k => romFinish k
  match m s with
  | .ok (_, t) => t.umpireProgress s.myCourt
  | .error (.flt f) => s.raise f
  | .error (.wait w) => s.enterWait w

end Sys2Proof.Machine
end

