-- ==== Sys2Proof/Machine/Launch.lean ====
section
/-!
DEFINITION. Launch records, task cards and code images as the distributor reads and checks them
(spec/02_instruction_word.md R35 to R37; spec/03_cores_strands_launches.md R41 to R48; spec/06_demand_engine.md R122,
R124; spec/19_scheduling_preemption.md R326, R333; spec/21_host_fabric_firmware.md R360, R361, R366).
-/
namespace Sys2Proof.Machine

open Sys2Proof

/-! ## Reasons of a refusal (R42, R361) -/

def rUnreadable : Nat := 0x40
def rContext : Nat := 0x41
def rAccess : Nat := 0x42
def rQuota : Nat := 0x43
def rImage : Nat := 0x44
def rSignature : Nat := 0x45
def rMapped : Nat := 0x46
def rNotStream : Nat := 0x47
def rSetattr : Nat := 0x48
def rPfOnly : Nat := 0x49
def rDestroyed : Nat := 0x4A
def rTier : Nat := 0x4B
def rLost : Nat := 0x4C
def rWaits : Nat := 0x4D

/-- The package with every frame zeroed. -/
def State.zeroed (s : State) : State :=
  s.onFloor fun f => { f with frames := f.frames.map fun x => (x.1, { x.2 with zeroing := false }) }

/-- Reads memory of a context for the distributor: it posts no record, and answers none where the bytes cannot be read
(R42). A stall for zeroing (R360) ends within the read, which then finds zeros (log entry 31). -/
def State.tryRead (s : State) (ctx : Nat) (va : Word) (n : Nat) : Option (List Byte) :=
  match aperture va.toNat n with
  | some (.global _) =>
    match engineRead (viaHost ctx) va n .read s.zeroed with
    | .ok (bs, _) => some bs
    | .error _ => none
  | _ => none

/-! ## Code images -/

/-- The kinds of image (R35). -/
inductive ImageKind where
  | e | l | s | umpire
  deriving DecidableEq, Repr

/-- The code of a kind in an image header. -/
def ImageKind.code : ImageKind → Nat
  | .e => 1
  | .l => 2
  | .s => 3
  | .umpire => 4

/-- Whether a length is in range for a kind (R35). -/
def ImageKind.lengthOk (k : ImageKind) (n : Nat) : Bool :=
  match k with
  | .e => decide (1 ≤ n) && decide (n ≤ Config.eStoreSize)
  | .umpire => decide (4 ≤ n) && decide (n ≤ Config.umpireStoreSize) && n % 2 = 0
  | _ => decide (4 ≤ n) && decide (n ≤ Config.rvStoreSize) && n % 4 = 0

/-- Bytes of code of an image of a length. -/
def ImageKind.codeBytes (k : ImageKind) (n : Nat) : Nat :=
  match k with
  | .e => 12 * n
  | _ => n

/-- An image as loaded. -/
structure CodeImage where
  length : Nat
  entry : Nat
  code : List Byte
  side : List SideEntry
  deriving DecidableEq, Repr

/-- One side-table entry (R36). -/
def sideEntry (bs : List Byte) : SideEntry where
  index := fieldAt bs 0 4
  spad := BitVec.ofNat 32 (fieldAt bs 4 4)
  gmask := wordAt bs 8
  vfirst := fieldAt bs 16 2
  vcount := fieldAt bs 18 2
  amask := BitVec.ofNat 8 (fieldAt bs 20 1)

/-- The entries of a side table. -/
def sideEntries (bs : List Byte) (n : Nat) : List SideEntry := (List.range n).map fun i => sideEntry (bs.drop (32 * i))

/-- The rules of R37 for the entries of a table: rising indices below the length, and vector ranges in range. -/
def sideOk (length : Nat) : Nat → List SideEntry → Bool
  | _, [] => true
  | lo, e :: t => decide (lo ≤ e.index) && decide (e.index < length) && decide (e.vfirst + e.vcount ≤ 1024) &&
      sideOk length (e.index + 1) t

/-- The checks of R35 on a header. -/
def headerOk (k : ImageKind) (h : List Byte) : Bool :=
  fieldAt h 0 4 = k.code && fieldAt h 4 4 = 1 && k.lengthOk (fieldAt h 8 4) && decide (fieldAt h 12 4 < fieldAt h 8 4) &&
    fieldAt h 16 8 % 16 = 0 && (natBit (fieldAt h 36 4) 0 || fieldAt h 40 8 = 0) &&
    (match k with
      | .e => fieldAt h 24 8 % 16 = 0 && decide (fieldAt h 32 4 ≤ fieldAt h 8 4)
      | _ => fieldAt h 24 8 = 0 && fieldAt h 32 4 = 0)

/-- The exact sum of an address and an offset (R6); one past the address space stays where nothing can be read. -/
def offsetAddr (a off : Word) : Word := BitVec.ofNat 64 (min (a.toNat + off.toNat) (2 ^ 64 - 1))

/-- The bytes that a signature's digest covers (R366). -/
def signedBytes (h code table : List Byte) : List Byte := h.take 40 ++ List.replicate 8 0 ++ h.drop 48 ++ code ++ table

/-- Whether a signature block is good for an image of a function (R366). -/
def blockSigns (f : Vf) (h code table b : List Byte) : Bool :=
  let slot := fieldAt b 4 1
  let digest := (b.drop 8).take 64
  decide (fieldAt b 0 4 = 1) && decide (slot < f.pf.keys.toNat) && decide (digest = shake256 (signedBytes h code table)) &&
    Config.falconVerify (f.keys.getD slot []) (BitVec.ofNat 512 (leNat digest)) ((b.drop 72).take 1280)

/-- Checks the signature block of an image, none when it passes: a block that the header names must be readable (R42),
and a function that demands a signature must find a good one (R366). -/
def signatureFault (s : State) (v ctx : Nat) (a : Word) (h code table : List Byte) : Option Nat :=
  let f := s.vf v
  let at_ := offsetAddr a (wordAt h 40)
  if !natBit (fieldAt h 36 4) 0 then (if f.pf.sign then some rSignature else none)
  else if f.pf.sign && decide (at_.toNat % 16 ≠ 0) then some rSignature
  else match s.tryRead ctx at_ 1352 with
    | none => some rImage
    | some b => if f.pf.sign && !blockSigns f h code table b then some rSignature else none

/-- Reads and checks one image of a dispatch of a function (R35, R37, R42, R366): the image, or the reason. -/
def readImage (s : State) (v ctx : Nat) (k : ImageKind) (a : Word) : Except Nat CodeImage :=
  if a.toNat % 16 ≠ 0 then .error rImage
  else match s.tryRead ctx a 64 with
    | none => .error rImage
    | some h =>
      if !headerOk k h then .error rImage
      else
        let n := fieldAt h 8 4
        let points := fieldAt h 32 4
        match s.tryRead ctx (offsetAddr a (wordAt h 16)) (k.codeBytes n),
            (if points = 0 then some [] else s.tryRead ctx (offsetAddr a (wordAt h 24)) (32 * points)) with
        | some code, some table =>
          let side := sideEntries table points
          if !sideOk n 0 side then .error rImage
          else match signatureFault s v ctx a h code table with
            | some r => .error r
            | none => .ok ⟨n, fieldAt h 12 4, code, side⟩
        | _, _ => .error rImage

/-- The images of a dispatch: E, and L, S and the umpire's where it names them. -/
structure CodeImages where
  e : CodeImage
  l : Option CodeImage
  s : Option CodeImage
  u : Option CodeImage
  deriving DecidableEq, Repr

/-- An image that may be left out. -/
def readOptional (s : State) (v ctx : Nat) (k : ImageKind) (a : Option Word) : Except Nat (Option CodeImage) :=
  match a with
  | none => .ok none
  | some a => match readImage s v ctx k a with
    | .ok x => .ok (some x)
    | .error r => .error r

/-- An image address of which 0 names no image (R41). -/
def nonZero (a : Word) : Option Word := if a = 0 then none else some a

/-- The umpire image that a launch asks for (R360). -/
def Dispatch.umpireImage (d : Dispatch) : Option Word :=
  match d.origin with
  | .launch _ _ u 1 => some u
  | _ => none

/-- Whether a launch asks for an umpire (R307, R360). -/
def Dispatch.asksUmpire (d : Dispatch) : Bool :=
  match d.origin with
  | .launch _ _ _ m => decide (m ≠ 0)
  | _ => false

/-- Reads and checks every image of a dispatch: E, L, S, then the umpire's. The first breach found is the one reported,
so a signature of an earlier image (0x45) stands before another breach of a later one (0x44): log entry 25. -/
def readImages (s : State) (d : Dispatch) : Except Nat CodeImages :=
  if d.eimg = 0 then .error rImage
  else match readImage s d.vf d.ctx .e d.eimg with
    | .error r => .error r
    | .ok e =>
      match readOptional s d.vf d.ctx .l (nonZero d.limg) with
      | .error r => .error r
      | .ok l =>
        match readOptional s d.vf d.ctx .s (nonZero d.simg) with
        | .error r => .error r
        | .ok t =>
          match readOptional s d.vf d.ctx .umpire d.umpireImage with
          | .error r => .error r
          | .ok u => .ok ⟨e, l, t, u⟩

/-! ## Levels and partition (R43 to R48) -/

/-- A level entry, its scope and kind as they stand. -/
def levelOf (x : Nat) : Level := ⟨natBits x 19 8, natBits x 31 20, natBit x 7, natBits x 6 4, natBits x 3 0⟩

/-- Width and height in cores of a unit of a flat level (R44). -/
def unitWidth (d : List Level) (i : Nat) : Nat := ((d.take (i + 1)).map (·.ex)).foldl (· * ·) 1
def unitHeight (d : List Level) (i : Nat) : Nat := ((d.take (i + 1)).map (·.ey)).foldl (· * ·) 1

/-- Cores of a unit of level i. -/
def levelCores (d : List Level) (i : Nat) : Nat := unitWidth d i * unitHeight d i

/-- The least scope of a kind (R44). -/
def leastScope (kind : Nat) : Nat :=
  match kind with
  | 0 => 0
  | 1 => 1
  | 2 => 1
  | 3 => 2
  | 4 => 3
  | _ => 4

/-- The extent rule of a level (R44). -/
def extentOk (ls : List Level) (i : Nat) (l : Level) : Bool :=
  match l.kind with
  | 0 => l.ex = 1 && l.ey = 1 && i = 0
  | 1 => l.ey = 1 && decide (levelCores ls i ≤ 16)
  | 2 => decide (unitWidth ls i ≤ 16) && decide (unitHeight ls i ≤ 16)
  | 3 => l.ey = 1 && decide (levelCores ls i ≤ Config.coresPerCourt)
  | 4 => l.ey = 1 && decide (levelCores ls i ≤ Config.cores)
  | _ => l.ey = 1

/-- Whether kinds go up from one level to the next (R44). -/
def kindsOk : List Level → Bool
  | a :: b :: t => (decide (a.kind < b.kind) || (a.kind = b.kind && (a.kind = 1 || a.kind = 2))) && kindsOk (b :: t)
  | _ => true

/-- The rules of R43 and R44 on a level table in use. -/
def levelsOk (ls : List Level) : Bool :=
  (match ls with
    | a :: _ => a.kind = 0
    | [] => false) && kindsOk ls &&
    ls.zipIdx.all fun x => decide (1 ≤ x.1.ex) && decide (1 ≤ x.1.ey) && decide (x.1.ex * x.1.ey ≤ 256) &&
      decide (x.1.kind ≤ 6) && decide (x.1.scope ≤ 4) && decide (leastScope x.1.kind ≤ x.1.scope) && extentOk ls x.2 x.1

/-- The ranges of a partition word (R47). -/
def partOk (p : BitVec 28) : Bool :=
  let x := p.toNat
  let stk (n : Nat) : Bool := decide (1 ≤ n) && decide (n ≤ 8)
  stk (natBits x 27 24) && stk (natBits x 23 20) && stk (natBits x 19 16) && decide (natBits x 11 8 ≤ 8) &&
    decide (1 ≤ x % 32) && decide (x % 32 ≤ 16)

/-- Cores that a context may ever hold here (R356, R362). -/
def coreQuota (s : State) (ctx : Nat) : Nat :=
  match s.ctxOf ctx with
  | some c => min c.cores (min (s.vf c.vf).pf.cores.toNat Config.cores)
  | none => 0

/-- Cores that a context may ever hold in each of the other packages of its domain: the share of its function there is
free (R356, R362; log entry 94). -/
def awayQuotas (s : State) (ctx : Nat) : List Nat :=
  match s.ctxOf ctx with
  | some c => ((if s.domain.joined then s.domain.live else []).filter (· ≠ s.domain.index)).map fun p =>
      min c.cores (min (Config.freeShare c.vf p) Config.cores)
  | none => []

/-- Cores that a context may ever hold in the other packages together. -/
def awayQuota (s : State) (ctx : Nat) : Nat := sumNat (awayQuotas s ctx)

/-- A co-resident unit larger than the cores its context may ever hold refuses the launch (R46): one of kind node or
domain may spread over the packages of the domain. -/
def coFits (s : State) (d : Dispatch) : Bool :=
  match coLevel d with
  | some i =>
    let wide := match d.levels[i]? with
      | some l => decide (5 ≤ l.kind)
      | none => false
    decide (levelCores d.levels i ≤ coreQuota s d.ctx + (if wide then awayQuota s d.ctx else 0))
  | none => true

/-- Cores of a launch. -/
def launchCores (d : Dispatch) : Nat := levelCores d.levels (d.levels.length - 1)

/-- Whether a launch's save table is large enough (R333). -/
def saveOk (s : State) (d : Dispatch) : Bool :=
  d.save = 0 || match s.tryRead d.ctx d.save 8 with
    | some b => decide (0x40 + launchCores d * Config.imageSlot ≤ fieldAt b 0 8)
    | none => false

/-- The checks of R42 on the fields of a dispatch: the reason of the first that fails. -/
def fieldFault (s : State) (d : Dispatch) : Option Nat :=
  match s.ctxOf d.ctx with
  | none => some rContext
  | some c =>
    if c.vf ≠ d.vf ∨ c.lost then some rContext
    else if d.eimg ≠ 0 ∧ d.budget ≠ 0 ∧ 1 ≤ d.levels.length ∧ d.levels.length ≤ 8 ∧ levelsOk d.levels ∧ partOk d.part ∧
        coFits s d ∧ saveOk s d then none
    else some rImage

/-! ## Making a dispatch from a record or a card -/

/-- The fields of a launch record (R41). -/
def Dispatch.ofRecord (d : Dispatch) (b : List Byte) : Dispatch :=
  let nlev := fieldAt b 0x7E 1
  let energy := fieldAt b 0x70 6
  { d with
    eimg := wordAt b 0
    limg := wordAt b 8
    simg := wordAt b 0x10
    part := BitVec.ofNat 28 (fieldAt b 0x18 4)
    levels := if nlev ≤ 8 then (List.range nlev).map fun i => levelOf (fieldAt b (0x20 + 8 * i) 8) else []
    args := wordAt b 0x60
    save := wordAt b 0x68
    budget := energy
    energy := energy
    cls := fieldAt b 0x7C 1 % 8
    restartable := natBit (fieldAt b 0x7D 1) 0 }

/-- The levels of a dispatch made from a card of n cores (R124). -/
def cardLevels (n : Nat) : List Level :=
  if n = 1 then [⟨1, 1, false, 0, 0⟩] else [⟨1, 1, false, 0, 0⟩, ⟨n, 1, true, 1, 1⟩]

/-- The fields of a card (R122, R124); args and the class stand as they are. -/
def Dispatch.ofCard (d : Dispatch) (s : State) (b : List Byte) : Dispatch :=
  let energy := if fieldAt b 0x64 4 = 0 then (match s.ctxOf d.ctx with | some c => c.energy | none => 0) else fieldAt b 0x64 4
  let n := fieldAt b 0x62 1
  { d with
    eimg := wordAt b 0
    limg := wordAt b 8
    simg := wordAt b 0x10
    part := BitVec.ofNat 28 (fieldAt b 0x18 4)
    levels := if 1 ≤ n ∧ n ≤ 16 then cardLevels n else []
    budget := energy
    energy := energy }

/-- The card that a dispatch is made from, if any. -/
def Dispatch.cardAddr (s : State) (d : Dispatch) : Option Word :=
  match d.origin with
  | .launch _ _ _ _ => none
  | .task h => match s.href d.ctx h with
    | .here _ x => some x.card
    | _ => some 0
  | .resume _ c => some c
  | .stolen _ _ c => some c

/-- Fills a dispatch in from its card and checks it by R42: the dispatch with its images, or the reason; its fields are
checked before its images (log entry 25). -/
def prepare (s : State) (d : Dispatch) : Except Nat (Dispatch × CodeImages) :=
  let filled : Except Nat Dispatch :=
    match d.cardAddr s with
    | none => .ok d
    | some a =>
      match (if a.toNat % 16 = 0 then s.tryRead d.ctx a 128 else none) with
      | some b => .ok (d.ofCard s b)
      | none => .error rUnreadable
  match filled with
  | .error r => .error r
  | .ok x =>
    match fieldFault s x with
    | some r => .error r
    | none =>
      match readImages s x with
      | .error r => .error r
      | .ok im => .ok (x, im)

/-- The event of a refused dispatch (R351). -/
def refuseEvent (s : State) (d : Dispatch) (reason : Nat) (addr : Word) : State :=
  s.ctxEvent ⟨d.ctx, 6, 0, 7, 65536 * s.domain.index, noPc, d.eventId, leBytes 8 reason ++ leBytes 8 addr.toNat⟩

/-- A refused dispatch is reported to its submitter (R326): a launch completes with the reason; a task becomes FAILED,
from RUNNING (R126, R131); a card's dispatch posts an event. -/
def State.refuse (s : State) (k : Nat) (reason : Nat) : State :=
  match s.disp k with
  | none => s
  | some d =>
    let s1 := s.dismantle k d
    match d.origin with
    | .launch _ _ _ _ => s1.finishLaunch d (BitVec.ofNat 8 reason)
    | .task h =>
      let s2 := match s1.href d.ctx h with
        | .here i _ => s1.refuseHandle d.ctx i cIllegalOperand
        | _ => s1
      refuseEvent s2 d reason ((d.cardAddr s).getD 0)
    | .resume _ c => refuseEvent s1 d reason c
    | .stolen _ _ c => refuseEvent (s1.tellHome d (.failed cIllegalOperand)) d reason c

end Sys2Proof.Machine
end

