-- ==== Sys2Proof/Machine/Place.lean ====
section
/-!
DEFINITION. Where a dispatch is placed: the shapes of units, first fit, the cores taken back, and the reservation
(spec/03_cores_strands_launches.md R44 to R46, R52; spec/19_scheduling_preemption.md R324, R325, R328, R336).
-/
namespace Sys2Proof.Machine

open Sys2Proof

/-! ## Shapes (R44, R45) -/

/-- The outermost level of kind core, row or rectangle. -/
def flatTop (ls : List Level) : Nat := (((List.range ls.length).reverse).find? fun i =>
  match ls[i]? with
  | some l => decide (l.kind ≤ 2)
  | none => false).getD 0

/-- The level of kind court, if any. -/
def courtLevel (ls : List Level) : Option Nat := (List.range ls.length).find? fun i =>
  match ls[i]? with
  | some l => l.kind = 3
  | none => false

/-- A cell of a flat unit: its level positions within the unit, its column and its row. -/
structure Cell where
  lvl : Nat
  dx : Nat
  dy : Nat
  deriving DecidableEq, Repr

/-- The cells of a unit of flat level i. -/
def unitCells (ls : List Level) : Nat → List Cell
  | 0 => [⟨0, 0, 0⟩]
  | i + 1 =>
    match ls[i + 1]? with
    | none => unitCells ls i
    | some l =>
      let sub := unitCells ls i
      let w := unitWidth ls i
      let h := unitHeight ls i
      (List.range l.ey).flatMap fun y => (List.range l.ex).flatMap fun x =>
        sub.map fun c => ⟨c.lvl + (y * l.ex + x) * 256 ^ i, x * w + c.dx, y * h + c.dy⟩

/-- The level positions of unit q of level i among all such units of the launch, from byte i up. -/
def upperBits (ls : List Level) : Nat → Nat → Nat → Nat
  | 0, _, _ => 0
  | fuel + 1, i, q =>
    match ls[i + 1]? with
    | none => 0
    | some l =>
      let n := max 1 (l.ex * l.ey)
      q % n * 256 ^ i + upperBits ls fuel (i + 1) (q / n)

/-- The level of the units that are placed whole: the outermost co-resident level, or single cores (R44, R46). -/
def partLevel (d : Dispatch) : Nat := (coLevel d).getD 0

/-- The level of the flat units whose shape a placement keeps: those inside a part (R44). -/
def shapeLevel (d : Dispatch) : Nat := min (flatTop d.levels) (partLevel d)

/-- Flat units of one such part. -/
def partFlats (d : Dispatch) : Nat := levelCores d.levels (partLevel d) / max 1 (levelCores d.levels (shapeLevel d))

/-- The level of a launch's pieces, each of which lies in one package: the outermost level below kind node (R44). -/
def pieceLevel (d : Dispatch) : Nat := (((List.range d.levels.length).reverse).find? fun i =>
  match d.levels[i]? with
  | some l => decide (l.kind ≤ 4)
  | none => false).getD 0

/-- The level of the units whose pieces spread over packages: the co-resident level where it lies above the pieces, else
the whole launch. -/
def spreadLevel (d : Dispatch) : Nat :=
  match coLevel d with
  | some i => if pieceLevel d < i then i else d.levels.length - 1
  | none => d.levels.length - 1

/-- Cores of a piece, and pieces of a unit that spreads. -/
def pieceCores (d : Dispatch) : Nat := max 1 (levelCores d.levels (pieceLevel d))
def spreadPieces (d : Dispatch) : Nat := levelCores d.levels (spreadLevel d) / pieceCores d

/-- Units of a launch that spread. -/
def spreadUnits (d : Dispatch) : Nat := launchCores d / max 1 (levelCores d.levels (spreadLevel d))

/-- The number of a core's unit of level i within its unit of level j, by its level positions (R45). -/
def unitIndex (ls : List Level) (i j lvl : Nat) : Nat :=
  sumNat ((List.range (j - i)).map fun k =>
    lvl / 256 ^ (i + k) % 256 * (levelCores ls (i + k) / max 1 (levelCores ls i)))

/-- Whether this package places the core with some level positions: where a unit spreads over packages, its first pieces
lie here (R325; log entry 94). -/
def Dispatch.placesHere (d : Dispatch) (lvl : Nat) : Bool :=
  match d.share with
  | some m => decide (unitIndex d.levels (pieceLevel d) (spreadLevel d) lvl < m)
  | none => true

/-- Cores of a part that this package places: all, or those of its pieces where the part spreads. -/
def partCores (d : Dispatch) : Nat :=
  match d.share with
  | some m => if pieceLevel d < partLevel d then m * pieceCores d else levelCores d.levels (partLevel d)
  | none => levelCores d.levels (partLevel d)

/-- Cores of a launch that this package places. -/
def hereCores (d : Dispatch) : Nat :=
  match d.share with
  | some m => spreadUnits d * (m * pieceCores d)
  | none => launchCores d

/-- Whether the parts of a dispatch may start: every co-resident part has been placed (R325). -/
def Dispatch.partsPlaced (d : Dispatch) : Bool := (coLevel d).isNone || decide (hereCores d ≤ d.cores.length)

/-- The level positions of the cores of part p that this package places. -/
def partLvls (d : Dispatch) (p : Nat) : List Nat :=
  let f := shapeLevel d
  ((List.range (partFlats d)).flatMap fun q =>
    (unitCells d.levels f).map fun c => c.lvl + upperBits d.levels 8 f (p * partFlats d + q)).filter d.placesHere

/-! ## First fit (R325) -/

/-- Whether a core is in a mask of cores. -/
def inMask (m n : Nat) : Bool := natBit m n

/-- Takes cores out of a mask. -/
def dropMask (m : Nat) (ns : List Nat) : Nat := ns.foldl (fun m n => if inMask m n then m - 2 ^ n else m) m

/-- The mask of a list of cores. -/
def maskOf (ns : List Nat) : Nat := ns.foldl (fun m n => if inMask m n then m else m + 2 ^ n) 0

/-- A core with its level positions and its place. -/
structure Spot where
  lvl : Nat
  core : Nat
  deriving DecidableEq, Repr

/-- The cells of a flat unit, by level positions, put at a row and column of a court; none where one is not free. -/
def spotsAt (m court row col : Nat) (cells : List (Nat × Cell)) : Option (List Spot) :=
  if cells.all fun c => decide (row + c.2.dy < 16) && decide (col + c.2.dx < 16) &&
      inMask m (coreAt court (row + c.2.dy) (col + c.2.dx))
  then some (cells.map fun c => ⟨c.1, coreAt court (row + c.2.dy) (col + c.2.dx)⟩)
  else none

/-- Cores of a mask that lie in a court. -/
def freeIn (m court : Nat) : Nat :=
  ((List.range Config.coresPerCourt).filter fun i => inMask m (court * Config.coresPerCourt + i)).length

/-- Puts flat units in one court, each at the first position, by the row and then the column of its first cell, that
leaves room for the rest, which k puts elsewhere. -/
def fitChunks (court : Nat) (k : Nat → Option (List Spot)) : List (List (Nat × Cell)) → Nat → Option (List Spot)
  | [], m => k m
  | c :: cs, m => (List.range 256).findSome? fun i =>
    match spotsAt m court (i / 16) (i % 16) c with
    | none => none
    | some a => (fitChunks court k cs (dropMask m (a.map (·.core)))).map (a ++ ·)

/-- Puts groups of flat units, each in the first court open to it that leaves room for the rest. -/
def fitGroups : List (List Nat × List (List (Nat × Cell))) → Nat → Option (List Spot)
  | [], _ => some []
  | (courts, g) :: gs, m => courts.findSome? fun c =>
    if freeIn m c < sumNat (g.map (·.length)) then none else fitChunks c (fitGroups gs) g m

/-- The cells of the cores with some level positions that belong to one unit of flat level f. -/
def chunkOf (ls : List Level) (f : Nat) (lvls : List Nat) (key : Nat) : List (Nat × Cell) :=
  (lvls.filter fun x => x / 256 ^ f = key).filterMap fun x =>
    ((unitCells ls f).find? fun c => c.lvl = x % 256 ^ f).map fun c => (x, c)

/-- The groups of the cores with some level positions, whose flat units are of level f: by their unit of level g, each
group in one court. -/
def groupsOf (ls : List Level) (f g : Nat) (courts : Nat → List Nat) (lvls : List Nat) :
    List (List Nat × List (List (Nat × Cell))) :=
  ((lvls.map fun x => x / 256 ^ g).eraseDups).map fun k =>
    let mine := lvls.filter fun x => x / 256 ^ g = k
    (courts k, ((mine.map fun x => x / 256 ^ f).eraseDups).map (chunkOf ls f mine))

/-! ## Free cores (R324, R325) -/

/-- Whether a dispatch goes before another: by class, then by submission. -/
def Dispatch.before (a b : Dispatch) : Bool := decide (a.cls < b.cls) || (a.cls = b.cls && decide (a.order < b.order))

/-- Cores kept for another head than k. -/
def State.keptFrom (s : State) (k : Nat) : List Nat := (s.floor.wanted.filter (·.1 ≠ k)).flatMap (·.2)

/-- Cores kept for head k. -/
def State.keptFor (s : State) (k : Nat) : List Nat := (s.floor.wanted.filter (·.1 = k)).flatMap (·.2)

/-- The cores kept for dispatches that k goes before, and let go: the reservation falls to it (R325; log entry 92). -/
def State.keptAfter (s : State) (k : Nat) (d : Dispatch) : List Nat :=
  ((s.floor.wanted.filter fun x => decide (x.1 ≠ k) && match s.disp x.1 with
    | some y => d.before y
    | none => true).flatMap (·.2)).filter fun n => (s.core n).disp.isNone && s.works n && !(n ∈ s.floor.taken)

/-- The cores that head k may be given: free in the latest reports, and not let go since (R324), or kept for it and let
go, and not on a row that it avoids (R181). -/
def State.freeFor (s : State) (k : Nat) : Nat :=
  let kept := s.keptFor k
  let other := s.keptFrom k
  let shy := match s.disp k with
    | some d => d.avoid
    | none => none
  maskOf ((List.range Config.cores).filter fun n =>
    s.works n && shy ≠ some (n / 16) && !(n ∈ s.floor.taken) && !(n ∈ other) &&
      ((s.court (courtOf n)).report.free.getLsbD (n % Config.coresPerCourt) && !(n ∈ s.floor.released) ||
        (decide (n ∈ kept) && (s.core n).disp.isNone)))

/-- The cores held by dispatches of a class above c (R325). -/
def State.lowerHeld (s : State) (c : Nat) : List Nat :=
  (s.cores.filter fun x =>
    match s.dispOf x.1 with
    | some (_, d) => decide (c < d.cls) && s.works x.1
    | none => false).map (·.1)

/-- Cores that a context, and its function, hold or have reserved here. -/
def State.heldBy (s : State) (p : Dispatch → Bool) : Nat :=
  (s.cores.filter fun x =>
    match s.dispOf x.1 with
    | some (_, d) => p d
    | none => false).length

/-- Whether a dispatch may hold n cores more, beside those that the dispatches of some kind hold (R356, R362). -/
def State.quotaBeside (s : State) (p : Dispatch → Bool) (d : Dispatch) (n : Nat) : Bool :=
  (match s.ctxOf d.ctx with
    | some c => decide (s.heldBy (fun x => p x && x.ctx = d.ctx) + n ≤ c.cores)
    | none => false) &&
  decide (s.heldBy (fun x => p x && x.vf = d.vf) + n ≤ (s.vf d.vf).pf.cores.toNat)

/-- Whether a dispatch may hold n cores more. -/
def State.quotaFor (s : State) (d : Dispatch) (n : Nat) : Bool := s.quotaBeside (fun _ => true) d n

/-- Whether it might, if every dispatch of a numerically higher class were removed (R325). -/
def State.quotaAlone (s : State) (d : Dispatch) (n : Nat) : Bool := s.quotaBeside (fun x => decide (x.cls ≤ d.cls)) d n

/-! ## What waits (R325) -/

/-- The saved cores of a dispatch that resume together with a saved one: the co-resident unit, or the core alone
(R328, R336). -/
def resumeUnit (d : Dispatch) (lvl : Word) : Dispatch → List DCore := fun x =>
  x.cores.filter fun y => !y.retired &&
    match coLevel d with
    | some i => unitOf y.lvl i = unitOf lvl i
    | none => y.lvl = lvl

/-- The first saved core of a dispatch that has no new position yet. -/
def State.savedCore (s : State) (k : Nat) (d : Dispatch) : Option DCore :=
  d.cores.find? fun y => !y.back && !y.retired &&
    s.floor.images.any fun i => i.disp = k && i.core.lvl = y.lvl

/-- Whether a dispatch waits for a placement. -/
def State.waitsHere (s : State) (k : Nat) (d : Dispatch) : Bool :=
  d.phase = .queued || decide (d.cores.length < hereCores d) || (s.savedCore k d).isSome

/-- The head of the numerically lowest class that holds a waiting dispatch. -/
def State.head (s : State) : Option (Nat × Dispatch) :=
  (s.floor.dispatches.filter fun x => s.waitsHere x.1 x.2).foldl (fun best x =>
    match best with
    | none => some x
    | some y => if x.2.before y.2 then some x else some y) none

/-! ## What a head asks for -/

/-- A placement that a head asks for: the level positions, the levels of its flat units and of its groups, the courts
open to a group, and whether it is a resumption. -/
structure Wish where
  lvls : List Nat
  flat : Nat
  group : Nat
  courts : Nat → List Nat
  again : Bool

/-- Every court of the package. -/
def allCourts : List Nat := List.range Config.courts

/-- Courts whose umpire is free (R307). -/
def State.freeUmpires (s : State) : List Nat :=
  allCourts.filter fun c => (s.court c).umpire.disp.isNone && !(c ∈ s.floor.withdrawnDies)

/-- The courts of the cores already placed of a group. -/
def groupCourts (d : Dispatch) (g key : Nat) : List Nat :=
  match d.cores.find? fun y => y.lvl.toNat / 256 ^ g = key with
  | some y => [courtOf y.home]
  | none => allCourts

/-- Whether a dispatch has rows or rectangles outside every co-resident unit, whose cores are placed one by one and
keep their arrangement in the home view alone (R44). -/
def Dispatch.scattered (d : Dispatch) : Bool := decide (partLevel d < flatTop d.levels)

/-- The level of the groups of a home view: the units of kind court, or the flat units. -/
def groupLevel (d : Dispatch) : Nat := (courtLevel d.levels).getD (flatTop d.levels)

/-- The next part of a first placement. The group that holds the core with level positions 0 goes to a court whose
umpire is free, where the launch asks for one. -/
def firstWish (s : State) (d : Dispatch) : Wish :=
  let f := shapeLevel d
  let g := (courtLevel d.levels).getD f
  let size := max 1 (partCores d)
  { lvls := partLvls d (d.cores.length / size)
    flat := f
    group := g
    courts := fun key =>
      let cs := if d.scattered then allCourts else groupCourts d g key
      if d.asksUmpire && key = 0 && d.umpire.isNone then cs.filter (· ∈ s.freeUmpires) else cs
    again := false }

/-- The resumption of the unit of a saved core. -/
def againWish (d : Dispatch) (y : DCore) : Wish :=
  let top := partLevel d
  let f := shapeLevel d
  { lvls := (resumeUnit d y.lvl d).map (·.lvl.toNat)
    flat := f
    group := (match courtLevel d.levels with
      | some c => if c ≤ top then c else f
      | none => f)
    courts := fun _ => allCourts
    again := true }

/-- What a waiting dispatch asks for next. One whose image is not complete is not resumed, so it asks for the rest of
its first placement, if any is left (R329). -/
def State.wish (s : State) (k : Nat) (d : Dispatch) : Option Wish :=
  match s.savedCore k d with
  | some y =>
    if s.imagesComplete k then some (againWish d y)
    else if d.cores.length < hereCores d then some (firstWish s d)
    else none
  | none => some (firstWish s d)

/-- The first position of a wish in a mask of cores. -/
def Wish.fit (w : Wish) (ls : List Level) (m : Nat) : Option (List Spot) :=
  fitGroups (groupsOf ls w.flat w.group w.courts w.lvls) m

/-! ## The home view (R44, R337) -/

/-- The offset of a core from the first cell of its flat unit of level f. -/
def cellOff (ls : List Level) (f lvl : Nat) : Nat :=
  match (unitCells ls f).find? fun c => c.lvl = lvl % 256 ^ f with
  | some c => 16 * c.dy + c.dx
  | none => 0

/-- The cells of the flat units of group key that have no place in the home view yet. -/
def homeChunks (d : Dispatch) (key : Nat) : List (List (Nat × Cell)) :=
  let ls := d.levels
  let f := flatTop ls
  let g := groupLevel d
  (List.range (levelCores ls g / max 1 (levelCores ls f))).filterMap fun q =>
    let base := key * 256 ^ g + upperBits ls 8 f q
    if d.cores.any fun y => y.lvl.toNat / 256 ^ f = base / 256 ^ f then none
    else some ((unitCells ls f).map fun c => (base + c.lvl, c))

/-- The courts open to a group in the home view, when its first core is placed at n: that of its cores placed before;
for the group that takes an umpire the court of n; else that court and then the others. -/
def homeCourts (d : Dispatch) (key n : Nat) : List Nat :=
  match d.cores.find? fun y => y.lvl.toNat / 256 ^ groupLevel d = key with
  | some y => [courtOf y.home]
  | none => if d.asksUmpire && key = 0 then [courtOf n] else courtOf n :: allCourts.filter (· ≠ courtOf n)

/-- Whether a core of a dispatch that has not retired has a place of the home view. -/
def Dispatch.homeTaken (d : Dispatch) (n : Nat) : Bool := d.cores.any fun y => !y.retired && y.home == n

/-- The first place of some courts that the home view has free, by row and then column. -/
def freeHome (d : Dispatch) (courts : List Nat) : Option Nat :=
  courts.findSome? fun c =>
    ((List.range Config.coresPerCourt).map (c * Config.coresPerCourt + ·)).find? fun n => !d.homeTaken n

/-- The home-view position of a core placed at x (R44, R337; log entry 92): the core itself where its flat unit keeps
its shape, or another where a core that has been resumed elsewhere still has that one; else its cell of the position that
its unit has in the home view; none where it finds no room there. -/
def homeFor (d : Dispatch) (x : Spot) : Option Nat :=
  if !d.scattered then
    if d.homeTaken x.core then freeHome d (homeCourts d (x.lvl / 256 ^ groupLevel d) x.core) else some x.core
  else
    let ls := d.levels
    let f := flatTop ls
    match d.cores.find? fun y => y.lvl.toNat / 256 ^ f = x.lvl / 256 ^ f with
    | some y => some (y.home + cellOff ls f x.lvl - cellOff ls f y.lvl.toNat)
    | none =>
      let key := x.lvl / 256 ^ groupLevel d
      let room := dropMask (2 ^ Config.cores - 1) ((d.cores.filter fun y => !y.retired).map (·.home))
      ((fitGroups [(homeCourts d key x.core, homeChunks d key)] room).bind fun spots =>
        spots.find? fun y => y.lvl = x.lvl).map (·.core)

/-- A dispatch with the cores of a part added, or none where one has no room in the home view. -/
def addCores (d : Dispatch) : List Spot → Option Dispatch
  | [] => some d
  | x :: xs =>
    match homeFor d x with
    | none => none
    | some h => addCores { d with
        cores := d.cores ++ [⟨h, x.core, x.core, BitVec.ofNat 64 x.lvl, false, false, false, false⟩] } xs

/-! ## Reserving (R52, R324) -/

/-- The next generation that no dispatch holds (R52). -/
def State.freshGen (s : State) : Nat → BitVec 20 → BitVec 20
  | 0, g => g
  | n + 1, g =>
    if s.floor.dispatches.any fun d => d.2.gen = g || d.2.curGen = g then s.freshGen n (nextGen g) else g

/-- A core given to a dispatch, before it is loaded (R49). -/
def placedCore (s : State) (k : Nat) (d : Dispatch) (y : DCore) : Core :=
  { Core.reset with
    disp := some k
    gen := d.curGen
    pos := BitVec.ofNat 32 (posWord s y.home)
    lvl := y.lvl
    part := d.part
    progress := s.time.toNat }

/-- Gives the umpire of a court to a launch (R297, R307). -/
def State.takeUmpire (s : State) (k : Nat) (d : Dispatch) (c : Nat) : State :=
  (s.onCourt c fun x => { x with
    umpire := { Umpire.reset with disp := some k, gen := d.curGen, ctx := d.ctx }
    gate := .reset }).onDisp k fun d => { d with umpire := some c }

/-- What is kept once some cores have been taken: they are kept for no dispatch any more. -/
def dropKept (ns : List Nat) (l : List (Nat × List Nat)) : List (Nat × List Nat) :=
  l.map fun x => (x.1, x.2.filter fun n => !(n ∈ ns))

/-- The cores kept for a dispatch once it has taken some: the rest stay kept until it is placed whole (R325). -/
def keepRest (k : Nat) (d : Dispatch) (spots : List Spot) (l : List (Nat × List Nat)) : List (Nat × List Nat) :=
  dropKept (spots.map (·.core)) (if hereCores d ≤ d.cores.length then l.filter (·.1 ≠ k) else l)

/-- Gives the cores of a part to a dispatch, and at its first part a generation; an umpire that it asks for is that of
the home court of the core with level positions 0. Nothing where the home view has no room for the part. -/
def State.givePart (s : State) (k : Nat) (d : Dispatch) (spots : List Spot) : Option State :=
  let (s1, d1) :=
    if d.cores = [] then
      let g := s.freshGen (s.floor.dispatches.length + 1) s.floor.nextGen
      (s.onFloor fun f => { f with nextGen := nextGen g },
        { d with pkg := s.domain.index, gen := g, curGen := g, phase := .placed })
    else (s, d)
  (addCores d1 spots).map fun d2 =>
    let part := d2.cores.drop d1.cores.length
    let s2 := s1.onDisp k fun _ => d2
    let s3 := part.foldl (fun t y => t.setCore y.cur (placedCore t k d2 y)) s2
    let s4 := s3.onFloor fun f => { f with
      taken := f.taken ++ spots.map (·.core), wanted := keepRest k d2 spots f.wanted }
    match part.find? (·.lvl == 0) with
    | some y => if d2.asksUmpire && d2.umpire.isNone then s4.takeUmpire k d2 (courtOf y.home) else s4
    | none => s4

/-- The new position of a saved core, if it is given one. -/
def backAt (spots : List Spot) (y : DCore) : DCore :=
  match spots.find? fun x => x.lvl == y.lvl.toNat with
  | some x => { y with cur := x.core, stood := x.core, back := true }
  | none => y

/-- Gives a saved unit its new position (R336). -/
def State.giveBack (s : State) (k : Nat) (spots : List Spot) : State :=
  let s1 := s.onDisp k fun d => { d with cores := d.cores.map (backAt spots) }
  s1.onFloor fun f => { f with
    taken := f.taken ++ spots.map (·.core), wanted := dropKept (spots.map (·.core)) (f.wanted.filter (·.1 ≠ k)) }

/-- The turns that follow a placement: the claim of a task, a load, or a resumption. -/
def placeTurns (s : State) (k : Nat) (d : Dispatch) (again : Bool) : List Turn :=
  if again then [.event .resumeDispatch (.disp k)]
  else match taskIndex s d with
    | some i => if d.phase = .running then [.event .dispatchLoad (.disp k)] else [.event .taskDispatch (.handle d.ctx i)]
    | none => [.event .dispatchLoad (.disp k)]

/-- The cores that leave together with the core at n (R328). -/
def State.unitMates (s : State) (n : Nat) : List Nat :=
  match s.dispOf n with
  | some (_, d) => (d.cores.filter fun y => !y.retired && unitOf y.lvl (partLevel d) = unitOf (s.core n).lvl (partLevel d)).map
      (·.cur)
  | none => [n]

/-- The first position at which a head's cores would be free if every dispatch of a higher class were removed, and with
it what is kept for those that come after it (R325). A head that its quota holds back takes from the dispatches that
share it, where they hold such a position (log entry 92). -/
def State.takenAt (s : State) (k : Nat) (d : Dispatch) (w : Wish) : Option (List Spot) :=
  let held := s.lowerHeld d.cls
  let sharers := held.filter fun n => match s.dispOf n with
    | some (_, y) => y.ctx = d.ctx || y.vf = d.vf
    | none => false
  let whole := maskOf (held ++ s.keptAfter k d ++ (List.range Config.cores).filter (inMask (s.freeFor k)))
  match (if s.quotaFor d w.lvls.length then none else w.fit d.levels (maskOf sharers)) with
  | some spots => some spots
  | none => w.fit d.levels whole

/-- Takes cores back for a head (R325): every dispatch of a higher class that holds a core of the position found is asked
for it, and all the cores that this frees are kept for the head. -/
def State.takeBack (s : State) (k : Nat) (d : Dispatch) (w : Wish) : State :=
  let ask (t : State) (ns : List Nat) : State :=
    t.soon ((ns.filter fun n => (t.core n).disp.isSome && (t.core n).drain = .none).map fun n =>
      .event .preemptRequest (.core n))
  let kept := s.keptFor k
  if kept.any (· ∈ s.lowerHeld d.cls) then ask s kept
  else
    let s1 := s.onFloor fun f => { f with wanted := f.wanted.filter (·.1 ≠ k) }
    match s1.takenAt k d w with
    | none => s1
    | some spots =>
      let ns := (spots.flatMap fun x => s1.unitMates x.core).foldl (fun l n => insertNat n l) []
      ask (s1.onFloor fun f => { f with wanted := dropKept ns f.wanted ++ [(k, ns)] }) ns

/-- Places the next part, or the saved unit, of a head whose fields are filled in. -/
def State.placeHead (s : State) (k : Nat) (d : Dispatch) : State :=
  match s.wish k d with
  | none => s
  | some w =>
    if !s.quotaFor d w.lvls.length then
      if s.quotaAlone d w.lvls.length then s.takeBack k d w else s
    else match w.fit d.levels (s.freeFor k) with
      | some spots =>
        match (if w.again then some (s.giveBack k spots) else s.givePart k d spots) with
        | some s1 => s1.soon (placeTurns s1 k d w.again)
        | none => s
      | none => s.takeBack k d w

/-- A dispatch none of whose pieces lies here runs elsewhere alone (log entry 94). -/
def State.runAway (s : State) (k : Nat) : State :=
  s.onDisp k fun d => { d with phase := .running, progress := s.time.toNat }

/-- Places the next part of a head. One that spreads over packages is placed once the others have placed theirs, which
is free (log entry 94). -/
def State.placeNext (s : State) (k : Nat) (d : Dispatch) : State :=
  if d.share.isNone then s.placeHead k d
  else
    let t := { s with draws := s.draws + 2 }
    if Config.freeRemote (s.draws + 1) % 2 ≠ 0 then t
    else if hereCores d = 0 then t.runAway k
    else t.placeHead k d

/-- Whether a launch has units of kind node or domain, whose pieces may lie in several packages (R44). -/
def Dispatch.wide (d : Dispatch) : Bool := d.levels.any fun l => decide (5 ≤ l.kind)

/-- Pieces of some size that a context may ever hold in the other packages of its domain: a piece lies in one. -/
def awayPieces (s : State) (ctx n : Nat) : Nat := sumNat ((awayQuotas s ctx).map (· / n))

/-- The least and the most pieces of each unit that spreads which this package can place, so that the other packages have
room for the rest. Units of a co-resident launch hold their cores all at once. -/
def shareBounds (s : State) (d : Dispatch) : Nat × Nat :=
  let n := spreadPieces d
  let away := awayPieces s d.ctx (pieceCores d) / max 1 (spreadUnits d)
  if (coLevel d).isSome then (n - away, min n (coreQuota s d.ctx / pieceCores d / max 1 (spreadUnits d)))
  else (if away = 0 then n else 0, n)

/-- How many of the pieces of each unit that spreads this package places, for a launch of kind node or domain that is
larger than the cores its context may hold here: within the bounds free (R46, R325; log entry 94). One that has no room
for all its pieces waits. -/
def shareOf (s : State) (d : Dispatch) : Option Nat :=
  let (least, most) := shareBounds s d
  if !d.wide || decide (launchCores d ≤ coreQuota s d.ctx) || decide (most < least) then none
  else
    let m := least + Config.freeRemote s.draws % (most - least + 1)
    if m = spreadPieces d then none else some m

/-- A dispatch about to be placed, with the share of it that this package places. -/
def State.spread (s : State) (d : Dispatch) : Dispatch :=
  match shareOf s d with
  | some m => { d with share := some m }
  | none => d

/-- PLACE_DISPATCH (R325): the head of the lowest waiting class is refused, placed, or takes cores back. -/
def execPlaceDispatch (s : State) : Host.Outcome State Fault Refusal :=
  match s.head with
  | none => .next s
  | some (k, d) =>
    if d.phase = .queued then
      match prepare s d with
      | .error r => .next (s.refuse k r)
      | .ok (y, _) =>
        let x := s.spread y
        .next ((s.onDisp k fun _ => x).placeNext k x)
    else .next (s.placeNext k d)

end Sys2Proof.Machine
end

