-- ==== Sys2Proof/Machine/Preempt.lean ====
section
/-!
DEFINITION. Pre-emption: the request, the drain, the save, the image in memory, and the resumption
(spec/19_scheduling_preemption.md R328 to R337; spec/02_instruction_word.md R36, R38;
spec/11_access_strands_queues.md R202; spec/09_matrix_engine.md R183).
-/
namespace Sys2Proof.Machine

open Sys2Proof

/-! ## The unit of pre-emption (R328) -/

/-- The cores of a dispatch that leave together with the core at n. -/
def leaveUnit (d : Dispatch) (lvl : Word) : List DCore :=
  d.cores.filter fun y => !y.retired &&
    match coLevel d with
    | some i => unitOf y.lvl i = unitOf lvl i
    | none => y.lvl = lvl

/-- A core begins to drain: E halted or waiting stops at once (R329). -/
def startDrain (now : Nat) (c : Core) : Core :=
  if c.drain ≠ .none then c
  else match c.e.run with
    | .running => { c with drain := .draining 0 now }
    | _ => { c with drain := .stopped none }

/-- Lets go of the cores of a dispatch of which nothing has started: it waits at its place again (R325, R328). -/
def State.unplace (s : State) (k : Nat) : State :=
  ((s.freeCores k).freeUmpire k).onDisp k fun d =>
    { d with phase := .queued, cores := [], umpire := none, gen := 0, curGen := 0, share := none }

/-- PREEMPT_REQUEST (R329): every core of the unit is asked to stop. A dispatch whose parts have not started lets them
go. -/
def execPreemptRequest (s : State) : Host.Outcome State Fault Refusal :=
  match s.arg with
  | .core n =>
    match s.dispOf n with
    | none => .next s
    | some (k, d) =>
      let unit := leaveUnit d (s.core n).lvl
      if unit.all (·.started) then
        .next (unit.foldl (fun t y => (t.onCore y.cur (startDrain s.time.toNat)).pointStop y.cur) s)
      else if d.partsPlaced then .next s
      else .next (s.unplace k)
  | _ => .next s

/-- Nanoseconds of the drain window (R329). -/
def drainWindow : Nat := 23000

/-- PREEMPT_WINDOW (R329): the window of a draining core has passed. -/
def execPreemptWindow (s : State) : Host.Outcome State Fault Refusal :=
  match s.arg with
  | .core n =>
    match (s.core n).drain with
    | .draining _ t =>
      if t + drainWindow ≤ s.time.toNat then .next (s.onCore n fun c => { c with drain := .stopped none }) else .next s
    | _ => .next s
  | _ => .next s

/-! ## The end of the drain -/

/-- Whether L or S stands where R81, R202 and R281 let it stop: at an instruction boundary, before a push, pop or barrier
wait, or before an access that waits on a granule, a page or REPLAY. -/
def Run.stoppable : Run → Bool
  | .stopped => true
  | .running => true
  | .waiting .queues _ _ => true
  | .waiting (.barrier _ _) _ _ => true
  | .waiting .copyRoom _ _ => true
  | .waiting (.page _) _ _ => true
  | .waiting (.granule _) _ _ => true
  | .waiting (.replay _) _ _ => true
  | _ => false

/-- Whether a strand's access waits for REPLAY (R281). -/
def Run.stalls (r : Run) : Bool :=
  match r with
  | .waiting (.replay _) _ _ => true
  | _ => false

/-- Whether the load queues of a core hold data only (R202). -/
def readsDone (c : Core) : Bool := !(c.q.lq0.any LqEntry.open) && !(c.q.lq1.any LqEntry.open)

/-- Whether the matrix queue is performed, up to a SCRUM whose meeting has not completed (R183). -/
def matrixDone (s : State) (n : Nat) : Bool := decide ((s.core n).mx.queue = []) || (scrumHead (s.core n)).isSome

/-- Whether a core has reached the save (R329 steps 1 to 5). -/
def readyToSave (s : State) (n : Nat) : Bool :=
  let c := s.core n
  (match c.drain with
    | .stopped _ => true
    | _ => false) &&
  c.l.run.stoppable && c.s.run.stoppable && (c.s.held.isNone || c.s.run.stalls) && readsDone c && matrixDone s n &&
  decide (c.copy = []) && decide (undelivered s n = 0)

/-! ## What an entry keeps live (R36, R38) -/

/-- Whether a scratchpad byte lies in a live region. -/
def liveByte (p : SideEntry) (size off : Nat) : Bool := p.spad.getLsbD (32 * off / max 1 size)

/-- Keeps what a side-table entry marks live; the rest of what it describes reads zero. The poisoned mark of every tile
is kept always (R168). -/
def keepLive (p : SideEntry) (c : Core) : Core :=
  let size := partScratch c.part
  let liveV (n : Nat) : Bool := decide (p.vfirst ≤ n) && decide (n < p.vfirst + p.vcount)
  { c with
    e := { c.e with g := c.e.g.filter fun x => p.gmask.getLsbD x.1, v := c.e.v.filter fun x => liveV x.1 }
    pool := { c.pool with scratch := c.pool.scratch.filter fun x => liveByte p size x.1 }
    mx := { c.mx with
      tiles := c.mx.tiles.filter fun x => p.amask.getLsbD (x.1 / 8192) }
    poison := { c.poison with
      eRegs := c.poison.eRegs.filter fun n => decide (64 ≤ n) || p.gmask.getLsbD n
      granules := c.poison.granules.filter fun g =>
        match g.1 with
        | .scratch => liveByte p size (16 * g.2) || liveByte p size (16 * g.2 + 15)
        | .vregs => liveV g.2
        | .tiles => p.amask.getLsbD (16 * g.2 / 40960)
        | _ => true } }

/-- The core as it is saved. -/
def savedState (c : Core) (point : Option SideEntry) : Core :=
  match point with
  | some p => keepLive p c
  | none => c

/-- A wait as saved: watchdogs keep their elapsed time (R329, R336), and a FORCE keeps the handle that it waits on, which
stays for it (R126, R130), but no version of it; every other wait is tested afresh (R61, R137). -/
def pauseRun (now : Nat) (r : Run) : Run :=
  match r with
  | .waiting (.window q) _ t => .waiting (.window q) false (now - t)
  | .waiting (.frame b) _ t => .waiting (.frame b) false (now - t)
  | .waiting (.handle h) _ t => .waiting (.handle h) false (now - t)
  | .waiting (.version h _ _) _ t => .waiting (.handle h) false (now - t)
  | .waiting _ _ _ => .running
  | _ => r

/-- A wait as restored. -/
def unpauseRun (now : Nat) (r : Run) : Run :=
  match r with
  | .waiting w b t => .waiting w b (now - t)
  | _ => r

/-- A core as it goes into its image. -/
def pauseCore (now : Nat) (c : Core) : Core :=
  { c with
    e := { c.e with run := pauseRun now c.e.run }
    l := { c.l with run := pauseRun now c.l.run }
    s := { c.s with run := pauseRun now c.s.run }
    drain := .none }

/-! ## Barriers of a saved unit (R244, R316) -/

/-- Whether a barrier's unit of level lv lies in the unit that leaves: of level j, or the core alone. -/
def inLeaving (d : Dispatch) (lvl : Word) (lv unit : Nat) : Bool :=
  match coLevel d with
  | some j => decide (lv ≤ j) && unit / 256 ^ (j - lv) = unitOf lvl j
  | none => false

/-- Turns the start times of a unit's barriers into elapsed times, and back. -/
def turnBarriers (d : Dispatch) (lvl : Word) (now : Nat) : Dispatch :=
  { d with
    hbars := d.hbars.map fun b =>
      if inLeaving d lvl (hbLevel (d.hregs.get 0 b.reg)) b.unit then { b with since := b.since.map (now - ·) } else b
    gbars := d.gbars.map fun b =>
      if inLeaving d lvl ((gbarLevel d b.id).getD 0) b.unit then { b with since := b.since.map (now - ·) } else b }

/-! ## The image in memory (R333 to R335) -/

/-- The payload and code of one block. -/
def blockCode (b : List Byte) : Nat × List Byte :=
  if b.all (· = 0) then (0, [])
  else if (List.range 16).all fun i => (b.drop (4 * i)).take 4 = b.take 4 then (1, b.take 4)
  else (2, b)

/-- One group of up to 64 blocks: its code word, then the payloads. -/
def codeGroup (blocks : List (List Byte)) : List Byte :=
  let cs := blocks.map blockCode
  leBytes 16 (sumNat (cs.zipIdx.map fun x => x.1.1 * 4 ^ x.2)) ++ cs.flatMap (·.2)

/-- Splits bytes into blocks of 64, the last padded with zeros. -/
def blocksOf : Nat → List Byte → List (List Byte)
  | 0, _ => []
  | n + 1, bs => if bs = [] then [] else ((bs ++ List.replicate 64 0).take 64) :: blocksOf n (bs.drop 64)

/-- The repeat coder over blocks. -/
def codeBlocks : Nat → List (List Byte) → List Byte
  | 0, _ => []
  | n + 1, bs => if bs = [] then [] else codeGroup (bs.take 64) ++ codeBlocks n (bs.drop 64)

/-- The payload bytes that a code asks for; none for the reserved code. -/
def payloadBytes (code : Nat) : Option Nat :=
  match code with
  | 0 => some 0
  | 1 => some 4
  | 2 => some 64
  | _ => none

/-- Bytes of the group that a code word begins, for n blocks; none when it holds code 11. -/
def groupBytes (word : Nat) (n : Nat) : Option Nat :=
  (List.range n).foldl (fun acc i =>
    match acc, payloadBytes (word / 4 ^ i % 4) with
    | some a, some b => some (a + b)
    | _, _ => none) (some 16)

/-- Whether a stream decodes to n blocks exactly. -/
def decodesTo : Nat → List Byte → Nat → Bool
  | 0, bs, n => bs = [] && n = 0
  | fuel + 1, bs, n =>
    if n = 0 then bs = []
    else match groupBytes (leNat (bs.take 16)) (min n 64) with
      | none => false
      | some k => decide (k ≤ bs.length) && decodesTo fuel (bs.drop k) (n - min n 64)

/-- Pads a section to whole blocks. -/
def padSection (bs : List Byte) : List Byte := bs ++ List.replicate (roundUp bs.length 64 - bs.length) 0

/-- The live registers of an entry; a full entry marks every one. -/
def liveG (point : Option SideEntry) : List Nat :=
  (List.range 64).filter fun n => n ≠ 0 && (match point with | some p => p.gmask.getLsbD n | none => true)

/-- The live vector registers of an entry, within the partition. -/
def liveVregs (point : Option SideEntry) (part : BitVec 28) : List Nat :=
  (List.range (partVregs part)).filter fun n =>
    match point with
    | some p => decide (p.vfirst ≤ n) && decide (n < p.vfirst + p.vcount)
    | none => true

/-- The live tiles of an entry, within the partition. -/
def liveTiles (point : Option SideEntry) (part : BitVec 28) : List Nat :=
  (List.range (partTiles part)).filter fun t =>
    match point with
    | some p => p.amask.getLsbD t
    | none => true

/-- Sections 1 to 4 of R334: control registers, general registers, vector registers, and tiles, each as 128 rows in the
layout of R179, with the byte of poisoned marks behind them. -/
def firstSections (c : Core) (point : Option SideEntry) : List Byte :=
  padSection ([c.e.xvec.toNat, c.e.xcause.toNat, c.e.xinfo.toNat, c.e.xpc.toNat, c.e.fpm.toNat, c.e.seed.toNat,
      c.pool.oobf.toNat].flatMap (leBytes 8)) ++
    padSection ((liveG point).flatMap fun n => leBytes 8 (c.e.rd n).toNat) ++
    padSection ((liveVregs point c.part).flatMap fun n => leBytes 16 (c.e.rdV n).toNat) ++
    padSection (((liveTiles point c.part).flatMap fun t => (List.range 128).flatMap fun m =>
      (rowRegs (Tab.slice 0 c.mx.tiles (tileRow t m) 64)).flatMap fun r => leBytes 16 r.toNat) ++ [c.mx.poisoned])

/-- The registers and the pc of L or S. -/
def hartBytes (h : RvStrand) : List Byte :=
  ((List.range 32).flatMap fun n => leBytes 8 (h.rd (BitVec.ofNat 5 n)).toNat) ++ leBytes 8 h.pc.toNat

/-- A queue as its number of entries and the entries, oldest first (log entry 87). -/
def queueBytes (es : List V128) : List Byte := leBytes 8 es.length ++ es.flatMap fun e => leBytes 16 e.toNat

/-- Sections 6 and 7 of R334: L and S, then the queues of R202 and R330 and the inbox. The entry of a store that S holds
(R195) stands at the head of sq. -/
def middleSections (c : Core) : List Byte :=
  padSection (hartBytes c.l ++ hartBytes c.s) ++
    padSection ([0, 1, 2, 3, 4, 5, 6, 7, 8, 9, 16].flatMap fun id =>
      queueBytes ((if id = 2 then c.s.held.toList else []) ++ c.entries id))

/-! The layouts of sections 5, 8, 9 and 10 are the model's choice, over the contents that R334 lists: log entry 87. -/

/-- A configuration in the layout of R144; K = 0 for none. -/
def cfgBytes : Option TileCfg → List Byte
  | none => leBytes 64 0
  | some c => leBytes 8 c.k ++ (c.rows.zip c.ints).flatMap (fun x =>
      leBytes 1 x.1 ++ leBytes 1 (if x.1 = 0 then 0 else 64) ++ leBytes 1 x.2.toNat ++ [0]) ++ leBytes 24 0

/-- The bias or scale words of an epilogue block. -/
def wordsBytes : Option (List (BitVec 32)) → List Byte
  | none => []
  | some ws => ws.flatMap fun w => leBytes 4 w.toNat

/-- An epilogue block with its bias and scale values: a first byte with which of them it has, and whether it quantises. -/
def epilogueBytes : Option Epilogue → List Byte
  | none => leBytes 24 0
  | some e => leBytes 1 (1 + 2 * e.bias.isSome.toNat + 4 * e.scale.isSome.toNat + 8 * e.mx.toNat) ++ leBytes 1 e.act ++
      leBytes 2 e.otype.toNat ++ leBytes 4 e.tscale.toNat ++ leBytes 4 e.clo.toNat ++ leBytes 4 e.chi.toNat ++ leBytes 8 0 ++
      wordsBytes e.bias ++ wordsBytes e.scale

/-- The number of a command's kind, its fields, and the block that it carries. -/
def mxOpBytes : MxOp → List Byte
  | .mcfg c => leBytes 8 0 ++ cfgBytes (some c)
  | .epcfg e => leBytes 8 1 ++ epilogueBytes (some e)
  | .cvld src coff rows rbytes sstride cstride bar =>
    [2, src.toNat, coff, rows, rbytes, sstride, cstride, bar.toNat].flatMap (leBytes 8)
  | .mwld coff cstride n soff k fmt bar => [3, coff, cstride, n, soff, k, fmt.toNat, bar.toNat].flatMap (leBytes 8)
  | .mstr tile addr stride fmt fpm => [4, tile, addr.toNat, stride, fmt.toNat, fpm.toNat].flatMap (leBytes 8)
  | .scrum tile addr gang stride level fmt fpm =>
    [5, tile, addr.toNat, gang.toNat, stride, level, fmt.toNat, fpm.toNat].flatMap (leBytes 8)
  | .mzero tile => [6, tile].flatMap (leBytes 8)
  | .mdrn tile addr bar fpm => [7, tile, addr.toNat, bar.toNat, fpm.toNat].flatMap (leBytes 8)

/-- The latched weights, with their format and scales, packed at the bytes that an element takes. -/
def latchBytes (mx : Matrix) : List Byte :=
  match mx.fmt with
  | none => leBytes 8 0
  | some fmt => leBytes 1 1 ++ leBytes 1 fmt.toNat ++ leBytes 6 mx.latched ++
      ((List.range 4096).flatMap fun i => leBytes (ceilDiv (tyOf fmt).width 8) (mx.weights.get 0 i).toNat) ++
      (if mx.wscales = [] then [] else (List.range 128).map fun i => mx.wscales.get 0 i)

/-- Section 5 of R334: the state of the matrix engine that R168 keeps always, and the commands that are kept (R183). -/
def engineBytes (mx : Matrix) : List Byte :=
  cfgBytes mx.cfg ++ latchBytes mx ++ epilogueBytes mx.ep ++ leBytes 8 mx.queue.length ++
    mx.queue.flatMap fun x => leBytes 8 x.stamp ++ leBytes 4 x.done ++ leBytes 4 x.stalled.toNat ++ mxOpBytes x.op

/-- A set of numbers as a bitmap of n bits. -/
def bitmapBytes (n : Nat) (l : List Nat) : List Byte :=
  leBytes ((n + 7) / 8) (((List.range n).filter (· ∈ l)).foldl (fun m x => m + 2 ^ x) 0)

/-- Section 8 of R334: the withdrawn ATTN cards in the layout of R259, each with the triples that are written or stall,
and its query rows. -/
def cardBytes (cards : List AttnCard) : List Byte :=
  if cards = [] then []
  else leBytes 8 cards.length ++ cards.flatMap fun c =>
    leBytes 8 c.win ++ leBytes 2 c.group ++ leBytes 2 c.qh ++ leBytes 4 c.scale.toNat ++ leBytes 8 c.qrows.length ++
      leBytes 4 c.tfirst ++ leBytes 4 c.tcount ++ leBytes 8 c.tri.toNat ++ leBytes 8 c.bar.toNat ++ leBytes 16 0 ++
      bitmapBytes 128 c.done ++ bitmapBytes 128 c.stalled ++ c.qrows

/-- A huddle barrier, with its elapsed watchdog time (R244). -/
def huddleBarBytes (b : HBarrier) : List Byte :=
  leBytes 1 (b.reg % 8) ++ leBytes 1 b.phase.toNat ++ leBytes 2 b.arrived.length ++ leBytes 4 b.unit ++
    leBytes 8 (match b.since with
      | some t => t
      | none => 2 ^ 64 - 1) ++ b.arrived.flatMap (leBytes 2)

/-- The registers of a huddle, and the barriers that they hold. -/
def huddleBlock (d : Dispatch) (keys : List Nat) : List Byte :=
  let bars := d.hbars.filter fun b => b.reg ∈ keys
  keys.flatMap (fun k => leBytes 8 (d.hregs.get 0 k).toNat) ++ leBytes 8 bars.length ++ bars.flatMap huddleBarBytes

/-- Section 9 of R334: every huddle of the cores of a unit, in increasing order (R244). -/
def huddleBytes (d : Dispatch) (unit : List DCore) : List Byte :=
  match huddleLevel d with
  | none => []
  | some i =>
    let huddles := unit.foldl (fun l y => insertNat (huddleKey y.lvl i 0) l) []
    huddles.flatMap fun k => huddleBlock d ((List.range 8).map (k + ·))

/-- An open exchange window, with its counts and the slots written (R304). -/
def windowBytes (w : XWindow) : List Byte :=
  leBytes 8 w.base.toNat ++ [w.slotBytes, w.slots, w.expected, w.seq, w.mismatch.toNat, w.written.length].flatMap (leBytes 4) ++
    w.written.flatMap (leBytes 4)

/-- A held transfer, with its bytes (R304). -/
def heldBytes (t : Transfer) : List Byte :=
  leBytes 8 t.dst.toNat ++ [t.slot, t.seq, t.data.length, t.src].flatMap (leBytes 4) ++ t.data

/-- Section 10 of R334. -/
def portBytes (c : Core) : List Byte :=
  if c.windows = [] ∧ c.held = [] then []
  else leBytes 4 c.windows.length ++ leBytes 4 c.held.length ++ c.windows.flatMap windowBytes ++ c.held.flatMap heldBytes

/-- The granule of 4 KiB at a number of a space, as it stands; zeros stand for what lies past the end of the space. -/
def granuleBytes (c : Core) (sp : Space) (g : Nat) : List Byte := tabRead (spaceTab c sp) (4096 * g) 4096

/-- A bitmap of granules, and the granules behind it: the spaces in the order listed, each from its own base, and no
padding between the bitmap and the granules (log entry 87). -/
def bitmapSection (c : Core) (parts : List (Space × Nat × (Nat → Bool))) : List Byte :=
  let bits := parts.flatMap fun x => (List.range x.2.1).map fun g => decide (g ∈ dirtyGranules c x.1) && x.2.2 g
  let map := (bits.zipIdx.filter (·.1)).foldl (fun m x => m + 2 ^ x.2) 0
  padSection (leBytes ((bits.length + 7) / 8) map ++ parts.flatMap fun x =>
    ((dirtyGranules c x.1).filter fun g => decide (g < x.2.1) && x.2.2 g).flatMap (granuleBytes c x.1))

/-- Whether a 4 KiB granule of the scratchpad overlaps a live region (R36). -/
def liveGranule (point : Option SideEntry) (size g : Nat) : Bool :=
  match point with
  | some p => (List.range 32).any fun r => p.spad.getLsbD r && decide (g * 4096 < (r + 1) * (size / 32)) &&
      decide (r * (size / 32) < (g + 1) * 4096)
  | none => true

/-- Sections 11 and 12 of R334: the written granules of the scratchpad that overlap a live region and of the stacks, and
those of the canvas. The last granule of a space may be a part of one. -/
def lastSections (c : Core) (point : Option SideEntry) : List Byte :=
  let n (sp : Space) : Nat := ceilDiv (spaceSize c sp) 4096
  bitmapSection c [(.scratch, n .scratch, liveGranule point (spaceSize c .scratch)), (.stackE, n .stackE, fun _ => true),
      (.stackL, n .stackL, fun _ => true), (.stackS, n .stackS, fun _ => true)] ++
    bitmapSection c [(.canvas, 256, fun _ => true)]

/-- A side-table entry as bytes; a full entry marks everything (R329). -/
def entryBytes (part : BitVec 28) : Option SideEntry → List Byte
  | some p => leBytes 4 p.index ++ leBytes 4 p.spad.toNat ++ leBytes 8 p.gmask.toNat ++ leBytes 2 p.vfirst ++
      leBytes 2 p.vcount ++ [p.amask] ++ leBytes 11 0
  | none => leBytes 4 0 ++ leBytes 4 (2 ^ 32 - 1) ++ leBytes 8 (2 ^ 64 - 1) ++ leBytes 2 0 ++
      leBytes 2 (partVregs part) ++ leBytes 1 (2 ^ partTiles part - 1) ++ leBytes 11 0

/-- The 64-byte header of an image (R334). -/
def imageHeader (c : Core) (point : Option SideEntry) (len : Nat) : List Byte :=
  leBytes 4 1 ++ leBytes 4 c.e.pc.toNat ++ leBytes 8 c.e.icount.toNat ++ leBytes 4 c.e.serial ++
    leBytes 1 point.isNone.toNat ++ leBytes 3 0 ++ leBytes 8 len ++ entryBytes c.part point

/-- The rank of a core among all the cores of its dispatch, wherever they lie, by its level positions (R333). -/
def imageRank (d : Dispatch) (lvl : Word) : Nat := unitIndex d.levels 0 (d.levels.length - 1) lvl.toNat

/-- Where a core's slot lies in its dispatch's save table. -/
def slotOff (d : Dispatch) (lvl : Word) : Nat := 0x40 + imageRank d lvl * Config.imageSlot

/-- The twelve sections of an image (R334); unit is the unit saved, for its first core, and no core for the others. -/
def imageContent (d : Dispatch) (c : Core) (point : Option SideEntry) (cards : List AttnCard) (unit : List DCore) (now : Nat) :
    List Byte :=
  firstSections c point ++ padSection (engineBytes c.mx) ++ middleSections c ++ padSection (cardBytes cards) ++
    padSection (huddleBytes (turnBarriers d c.lvl now) unit) ++ padSection (portBytes c) ++
    lastSections c point

/-- Writes the image of a core (R334), and answers the blocks that its stream decodes to. -/
def writeImage (d : Dispatch) (c : Core) (point : Option SideEntry) (cards : List AttnCard) (unit : List DCore) : M Nat := do
  let now ← gets fun s => s.time.toNat
  let all := imageContent d c point cards unit now
  let blocks := blocksOf (all.length / 64 + 1) all
  let stream := codeBlocks (blocks.length + 1) blocks
  change fun s => (s.putTable d (slotOff d c.lvl) (imageHeader c point stream.length)).putTable d (slotOff d c.lvl + 64) stream
  pure blocks.length

/-- Reads n bytes at an offset of a dispatch's save table, unless an error lies in them. -/
def State.readTable (s : State) (d : Dispatch) (off n : Nat) : Option (List Byte) :=
  if d.save ≠ 0 then s.tryRead d.ctx (BitVec.ofNat 64 (d.save.toNat + off)) n
  else match d.table with
    | some p => if s.poisoned (p + off) n then none else some (s.physRead (p + off) n)
    | none => none

/-- Whether the image of a core reads back from its save table (R335, R348). -/
def imageReads (s : State) (d : Dispatch) (i : Image) : Bool :=
  !i.bad && ((d.save = 0 && d.table.isNone) ||
    let a := slotOff d i.core.lvl
    match s.readTable d a 64 with
    | none => false
    | some h =>
      let len := fieldAt h 24 8
      decide (len ≤ Config.imageSlot - 64) &&
        match (if len = 0 then some [] else s.readTable d (a + 64) len) with
        | none => false
        | some st => decodesTo (i.blocks + 1) st i.blocks)

/-! ## Saving -/

/-- Renumbers the cards, messages and transfers of a core of a dispatch. -/
def State.renumber (s : State) (k a b : Nat) : State :=
  s.onFloor fun f => { f with
    bulk := f.bulk.map fun c => if c.disp = k ∧ c.core = a then { c with core := b } else c
    messages := f.messages.map fun m => if m.away.isNone ∧ m.disp = some k ∧ m.src = a then { m with src := b } else m
    transfers := f.transfers.map fun t => if t.away.isNone ∧ t.disp = some k ∧ t.src = a then { t with src := b } else t }

/-- Changes the record of a core of a dispatch, by its number. -/
def State.onRank (s : State) (k rank : Nat) (f : DCore → DCore) : State :=
  s.onDisp k fun d => { d with cores := d.cores.modify rank f }

/-- Saves one core (R329 step 6): its ATTN cards are withdrawn and kept with the image. -/
def saveCore (k : Nat) (d : Dispatch) (unit : List DCore) (y : DCore) : M Unit := do
  let n := y.cur
  let rank := rankOf d n
  let now ← gets fun s => s.time.toNat
  let c ← gets fun s => s.core n
  let cards ← gets fun s => s.floor.attn.filter fun a => a.core = n && a.disp = k
  let point := match c.drain with
    | .stopped p => p
    | _ => none
  let blocks ← writeImage d c point cards unit
  change fun s =>
    let image : Image := ⟨k, rank, pauseCore now (savedState c point), point, cards, [], blocks, false⟩
    let s1 := s.onFloor fun f => { f with
      attn := f.attn.filter fun a => !(a.core = n && a.disp = k), images := f.images ++ [image] }
    let s2 := ((s1.renumber k n (awayNumber rank)).freeCore n).onRank k rank fun y =>
      { y with cur := awayNumber rank, started := false }
    match c.e.run with
    | .waiting (.version _ _ p) _ _ => s2.reap d.ctx p
    | _ => s2

/-- Saves the cores of a unit: the first image holds the huddles' state (R334). -/
def saveCores (k : Nat) (d : Dispatch) : List DCore → List DCore → M Unit
  | _, [] => pure ()
  | unit, y :: t => do
    saveCore k d unit y
    saveCores k d [] t

/-- Bytes of the table of n cores, a multiple of 4 KiB (R333). -/
def tableBytes (n : Nat) : Nat := roundUp (0x40 + n * Config.imageSlot) 4096

/-- Bytes that the firmware keeps for the default save area of a context with a quota of n cores, so that the tables of
several dispatches each begin on a page of 4 KiB (R333; log entry 87). -/
def saveRoom (n : Nat) : Nat := n * (Config.imageSlot + 4096)

/-- The first place of n bytes in an area of m bytes at base that none of the rising runs covers. -/
def fitRuns (n hi : Nat) : Nat → List (Nat × Nat) → Option Nat
  | lo, [] => if lo + n ≤ hi then some lo else none
  | lo, r :: t => if lo + n ≤ r.1 then some lo else fitRuns n hi (max lo (r.1 + r.2)) t

/-- The runs of a context's default area that its dispatches' tables take, rising. -/
def State.tableRuns (s : State) (ctx : Nat) : List (Nat × Nat) :=
  (s.floor.dispatches.filterMap fun x => if x.2.ctx = ctx then x.2.table.map fun p => (p, tableBytes (launchCores x.2))
    else none).foldl (fun l r => l.takeWhile (·.1 < r.1) ++ r :: l.dropWhile (·.1 < r.1)) []

/-- Gives a dispatch that names no save table one in its context's default area, with its size (R333; log entry 87). -/
def State.takeTable (s : State) (k : Nat) : State :=
  match s.disp k with
  | none => s
  | some d =>
    if d.save ≠ 0 ∨ d.table.isSome then s
    else match s.ctxOf d.ctx with
      | none => s
      | some c =>
        let n := tableBytes (launchCores d)
        match fitRuns n (c.saveBase + saveRoom c.cores) c.saveBase (s.tableRuns d.ctx) with
        | none => s
        | some p => (s.onDisp k fun d => { d with table := some p }).physWrite p (leBytes 8 n ++ leBytes 56 0)

/-- The head of a save table while its images are written (R333). -/
def State.saving (s : State) (k : Nat) : State :=
  match s.disp k with
  | none => s
  | some d => s.putTable d 12 (leBytes 4 1)

/-- The head of a save table once its images are written or read back (R333). -/
def State.writeTable (s : State) (k : Nat) : State :=
  match s.disp k with
  | none => s
  | some d =>
    let n := (s.floor.images.filter (·.disp == k)).length
    (s.putTable d 8 (leBytes 4 n ++ leBytes 4 0 ++ leBytes 48 0)).markTable k

/-- Whether the cores that other packages hold of a dispatch have drained too, which is free (R328; log entry 94). -/
def State.drainedElsewhere (s : State) (d : Dispatch) : Bool × State :=
  if d.share.isNone then (true, s) else (Config.freeRemote s.draws % 2 = 0, { s with draws := s.draws + 1 })

/-- PREEMPT_SAVE (R329): once every core of the unit has drained, the unit is saved and its cores are released. -/
def execPreemptSave (s : State) : Host.Outcome State Fault Refusal :=
  match s.arg with
  | .core n =>
    match s.dispOf n with
    | none => .next s
    | some (k, d) =>
      let lvl := (s.core n).lvl
      let unit := leaveUnit d lvl
      let (others, s1) := s.drainedElsewhere d
      if others && unit.all fun y => readyToSave s y.cur then
        let u := (s1.takeTable k).saving k
        let t := orKeep (saveCores k ((u.disp k).getD d) unit unit) u
        .next ((t.onDisp k fun x => turnBarriers x lvl s.time.toNat).writeTable k)
      else .next s1
  | _ => .next s

/-! ## Resuming -/

/-- The stores of a core with a dispatch's images (R204). -/
def loadStores (im : CodeImages) : Stores where
  e := Tab.run 0 0 ((List.range im.e.length).map fun i => BitVec.ofNat 96 (fieldAt im.e.code (12 * i) 12))
  l := match im.l with | some x => Tab.run 0 0 x.code | none => []
  s := match im.s with | some x => Tab.run 0 0 x.code | none => []
  ilim := im.e.length
  llen := match im.l with | some x => x.length | none => 0
  slen := match im.s with | some x => x.length | none => 0

/-- Applies the arrivals recorded with an image to the restored barriers (R329); an overflow is E's. -/
def State.applyArrivals (s : State) (n : Nat) : List (Word × Nat) → State
  | [] => s
  | (b, k) :: t =>
    (match arrive (viaCore s n .e true) b k s with
      | .ok (_, u) => u
      | .error (.flt f) => s.deliver n .e f
      | .error (.wait _) => s).applyArrivals n t

/-- Restores one core of a dispatch at its new position (R336, R337). Its stores are loaded again, so that no word of
them is poisoned; every token of an earlier FENCE is complete (R238). -/
def State.restoreCore (s : State) (k : Nat) (im : CodeImages) (i : Image) : State :=
  match s.disp k with
  | none => s
  | some d =>
    match d.cores[i.rank]? with
    | none => s
    | some y =>
      let now := s.time.toNat
      let n := y.cur
      let c := { i.core with
        stores := loadStores im
        gen := d.curGen
        poison := { i.core.poison with words := [] }
        e := { i.core.e with run := unpauseRun now i.core.e.run, fences := [] }
        l := { i.core.l with run := unpauseRun now i.core.l.run }
        s := { i.core.s with run := unpauseRun now i.core.s.run }
        progress := now }
      let s1 := ((s.setCore n c).renumber k (awayNumber i.rank) n).onRank k i.rank fun y => { y with started := true, back := false }
      let s2 := s1.onFloor fun f => { f with
        attn := f.attn ++ i.attn.map fun a => { a with core := n, done := [], stalled := [], unread := [] } }
      s2.applyArrivals n i.arrivals

/-- The images of the cores of a dispatch that have new positions. -/
def State.backImages (s : State) (k : Nat) (d : Dispatch) : List Image :=
  s.floor.images.filter fun i => i.disp = k &&
    match d.cores[i.rank]? with
    | some y => y.back
    | none => false

/-- RESUME_DISPATCH (R336): the images are checked and reloaded, and the unit is restored before any strand runs. An
image that does not read back ends the dispatch's context (R335, R348). -/
def execResumeDispatch (s : State) : Host.Outcome State Fault Refusal :=
  match s.arg with
  | .disp k =>
    match s.disp k with
    | none => .next s
    | some d =>
      match s.backImages k d with
      | [] => .next s
      | i :: is =>
        if !((i :: is).all (imageReads s d)) then .next (s.loseContext d.ctx 7)
        else match readImages s d with
          | .error r => .next (s.refuse k r)
          | .ok im =>
            let s1 := (i :: is).foldl (fun t x => t.restoreCore k im x) s
            let s2 := s1.onFloor fun f => { f with images := f.images.filter fun x => !(x ∈ (i :: is)) }
            .next ((s2.onDisp k fun x => turnBarriers x i.core.lvl s.time.toNat).writeTable k)
  | _ => .next s

end Sys2Proof.Machine
end

