-- ==== Sys2Proof/Machine/Schedule.lean ====
section
/-!
DEFINITION. The life of a dispatch: the claim of a task, the load, the start, retirement, the reports and watchdogs of
the distributor, and stealing across a domain (spec/03_cores_strands_launches.md R49 to R52;
spec/06_demand_engine.md R125, R126, R131; spec/11_access_strands_queues.md R204 to R206;
spec/19_scheduling_preemption.md R324, R327, R331, R338, R339; spec/20_faults_errors.md R345).
-/
namespace Sys2Proof.Machine

open Sys2Proof

/-! ## The claim of a task (R126) -/

/-- Zeroes the output tiles of a task: its result, and the fresh versions that it writes (R125); those of a CELL of
another package are that package's to zero. -/
def State.zeroOutputs (s : State) (ctx : Nat) (x : Handle) : State :=
  let mine (f : FootEntry) : Bool := f.used && f.write && f.named.any fun h => !s.isAway ctx h
  let tiles := if x.effect then (x.foot.filter mine).map (·.tile) else [x.tile]
  tiles.foldl (fun t y => t.zeroVa ctx (y.bytes / 0x200000 + 2) y.base y.bytes) s

/-- The dispatch of a handle that has been placed and may start (R325). -/
def State.placedFor (s : State) (ctx : Nat) (h : Word) : Option Nat :=
  (s.floor.dispatches.find? fun d =>
    d.2.ctx = ctx && d.2.phase = .placed && d.2.partsPlaced && d.2.origin = .task h).map (·.1)

/-- TASK_DISPATCH (R126): a placed dispatch claims its READY handle, once; a handle that is READY no more and not
RUNNING lets the cores go. -/
def execTaskDispatch (s : State) : Host.Outcome State Fault Refusal :=
  match s.arg with
  | .handle ctx i =>
    match s.placedFor ctx (s.hword ctx i), s.hget ctx i with
    | some k, some x =>
      if x.state = .ready then
        .next (((s.claimHandle ctx i).zeroOutputs ctx x).soon [.event .dispatchLoad (.disp k)])
      else if x.state = .running then .next (s.soon [.event .dispatchLoad (.disp k)])
      else match s.disp k with
        | some d => .next (s.dismantle k d)
        | none => .next s
    | _, _ => .next s
  | _ => .next s

/-! ## Loading and starting (R204, R205) -/

/-- Whether a core of a dispatch awaits its code. -/
def awaitsLoad (s : State) (k : Nat) (y : DCore) : Bool :=
  !y.started && !y.retired && (s.core y.cur).disp = some k && !(s.core y.cur).loaded

/-- A core with a dispatch's code; the entries stand in the strands' pcs. -/
def loadCore (im : CodeImages) (c : Core) : Core :=
  { c with
    stores := loadStores im
    loaded := true
    e := { c.e with pc := BitVec.ofNat 13 im.e.entry }
    l := { c.l with pc := match im.l with | some x => BitVec.ofNat 64 x.entry | none => 0 }
    s := { c.s with pc := match im.s with | some x => BitVec.ofNat 64 x.entry | none => 0 } }

/-- The umpire of a launch with its image (R297). -/
def loadUmpire (im : CodeImages) (u : Umpire) : Umpire :=
  match im.u with
  | none => u
  | some x => { u with
      badWords := [], store := Tab.run 0 0 x.code, ilen := x.length, hart := { u.hart with pc := BitVec.ofNat 64 x.entry } }

/-- DISPATCH_LOAD (R204, R325): once its parts may start, the code of the images is sent to every core that awaits it,
then the start messages. A dispatch whose images no longer pass is refused. -/
def execDispatchLoad (s : State) : Host.Outcome State Fault Refusal :=
  match s.arg with
  | .disp k =>
    match s.disp k with
    | none => .next s
    | some d =>
      match if d.partsPlaced then d.cores.filter (awaitsLoad s k) else [] with
      | [] => .next s
      | y :: ys =>
        match readImages s d with
        | .error r => .next (s.refuse k r)
        | .ok im =>
          let s1 := (y :: ys).foldl (fun t z => t.onCore z.cur (loadCore im)) s
          let s2 := s1.onDisp k fun d => { d with phase := .running, side := im.e.side, progress := s.time.toNat }
          let s3 := match d.umpire with
            | some c => if (y :: ys).any (·.lvl == 0) then s2.onUmpire c (loadUmpire im) else s2
            | none => s2
          .next (s3.soon ((y :: ys).map fun z => .event .startMessage (.dispCore k z.cur)))
  | _ => .next s

/-- The registers that E finds (R49). -/
def startE (d : Dispatch) (c : Core) : EStrand :=
  { EStrand.reset with
    run := .running
    pc := c.e.pc
    g := Tab.run 0 1 [d.args, c.pos.setWidth 64, c.lvl, d.gen.setWidth 64] ++
      [(63, BitVec.ofNat 64 (0xF200000000000000 + partStack c.part .e))] }

/-- The registers that L and S find (R50); a strand without an image is halted from the start (R41). -/
def startRv (d : Dispatch) (c : Core) (k : Strand) (h : RvStrand) (len : Nat) : RvStrand :=
  { RvStrand.reset with
    run := if len = 0 then .stopped else .running
    pc := h.pc
    x := (2, BitVec.ofNat 64 (0xF200000000000000 + partStack c.part k)) ::
      Tab.run 0 10 [d.args, c.pos.setWidth 64, c.lvl, d.gen.setWidth 64] }

/-- A core at its start message: no strand observes what an earlier occupant left (R50, R142, R168). -/
def startCore (d : Dispatch) (now : Nat) (c : Core) : Core :=
  { c with
    loaded := false
    e := startE d c
    l := startRv d c .l c.l c.stores.llen
    s := startRv d c .s c.s c.stores.slen
    pool := Core.reset.pool
    mx := .reset
    progress := now }

/-- The umpire at its start message: its image, or the ROM routing program, whose length the manual does not give, with
a0 (R297, R306, R311). -/
def startUmpire (d : Dispatch) (u : Umpire) : Umpire :=
  match d.origin with
  | .launch _ _ _ 1 => { u with mode := .image, hart := { u.hart with run := .running, x := Tab.set 0 [] 10 d.args } }
  | .launch _ _ a 2 => { u with
      mode := .rom a, ilen := Config.freeRomLength 0, hart := { u.hart with run := .running, pc := 0, x := Tab.set 0 [] 10 a } }
  | _ => u

/-- START_MESSAGE (R205, R297): the strands begin; the umpire of a launch follows the core whose level positions are
all 0. -/
def execStartMessage (s : State) : Host.Outcome State Fault Refusal :=
  match s.arg with
  | .dispCore k n =>
    match s.disp k with
    | none => .next s
    | some d =>
      if (s.core n).disp = some k && (s.core n).loaded then
        let s1 := (s.onCore n (startCore d s.time.toNat)).onDisp k fun d =>
          { d with cores := d.cores.map fun y => if y.cur = n then { y with started := true } else y }
        match d.umpire with
        | some c => .next (if (s.core n).lvl = 0 then s1.onUmpire c (startUmpire d) else s1)
        | none => .next s1
      else .next s
  | _ => .next s

/-- STRAIGHT_LINE_FETCH_LIMIT (R19): E runs on to the end of its image. -/
def execStraightLineFetchLimit (s : State) : Host.Outcome State Fault Refusal :=
  outcome (do
    let c ← gets State.my
    if c.stores.ilim ≤ c.e.pc.toNat then fault cFetchLimit (c.e.pc.setWidth 64) else pure ()) s

/-! ## Retirement (R51) -/

/-- Whether a core retires: its strands have stopped, its cards have completed (log entry 24), and its transfers are
delivered or dropped, which is a fault of its E (R319). -/
def retires (s : State) (n : Nat) : Bool :=
  let c := s.core n
  c.disp.isSome && !c.loaded && c.e.run = .stopped && c.l.run = .stopped && c.s.run = .stopped && c.mx.queue = [] &&
    c.copy = [] && undelivered s n = 0 && s.floor.bulk.all (fun b => b.core ≠ n || some b.disp ≠ c.disp) &&
    s.floor.attn.all (fun a => a.core ≠ n || some a.disp ≠ c.disp)

/-- A dispatch whose last core has retired: its launch completes, or its task fails unless every core has executed
TDONE (R131). -/
def State.finishDispatch (s : State) (k : Nat) : State :=
  match s.disp k with
  | none => s
  | some d =>
    if d.cores.all (·.retired) ∧ hereCores d ≤ d.cores.length then
      let s1 := (s.dismantle k d).finishLaunch d 0
      if d.liveTask then s1.taskFails (taskIndex s d) d cEvalFailed else s1
    else s

/-- A core of a dispatch that another package holds arrives at a global barrier of a unit that has a core here, which
this package applies (R316): core i of the unit, where its piece is none of the first m of what spreads. -/
def State.arriveElsewhere (s : State) (k : Nat) (d : Dispatch) (m id i u : Nat) : State :=
  match gbarLevel d id, d.cores[u % max 1 d.cores.length]? with
  | some lv, some y =>
    let ls := d.levels
    let lvl := y.lvl.toNat
    let first := unitIndex ls (pieceLevel d) (spreadLevel d) lvl - unitIndex ls (pieceLevel d) lv lvl
    let j := i % max 1 (unitCores d lv)
    let unit := unitOf y.lvl lv
    if lv ≤ pieceLevel d ∨ first + j / pieceCores d < m ∨ j ∈ (gbarOf d id unit).arrived then s
    else s.gbarArrive k d id lv unit j
  | _, _ => s

/-- What the cores that other packages hold of a dispatch do, which is free (R325; log entry 94): nothing, an arrival at
a global barrier, that all have retired, or a fault that ends the dispatch. -/
def State.elsewhere (s : State) (k : Nat) : State :=
  match s.disp k with
  | none => s
  | some d =>
    match d.share with
    | none => s
    | some m =>
      let free (i : Nat) : Nat := Config.freeRemote (s.draws + i)
      let t := { s with draws := s.draws + 4 }
      if d.phase ≠ .running then s
      else match free 0 % 4 with
        | 0 => t
        | 1 => t.arriveElsewhere k d m (free 1 % 8) (free 2) (free 3)
        | 2 => t.finishDispatch k
        | _ => (t.tearDown k (BitVec.ofNat 8 (1 + free 1 % 27))).noteEnd k

/-- CORE_RETIRE (R51), of a core here, or what becomes of a dispatch's cores on other packages. -/
def execCoreRetire (s : State) : Host.Outcome State Fault Refusal :=
  match s.arg with
  | .disp k => .next (s.elsewhere k)
  | .core n =>
    match s.dispOf n with
    | none => .next s
    | some (k, d) =>
      if retires s n && d.cores.any (fun y => y.cur = n && y.started) then
        let s1 := (s.onDisp k (·.retireAt n)).freeCore n
        .next (if d.share.isSome then s1 else s1.finishDispatch k)
      else .next s
  | _ => .next s

/-! ## Reports, energy, watchdogs -/

/-- The bits of the cores of a court that pass a test. -/
def courtBits (c : Nat) (p : Nat → Bool) : Nat :=
  maskOf ((List.range Config.coresPerCourt).filter fun i => p (c * Config.coresPerCourt + i))

/-- The report of a court as it stands (R324): the umpire of a disabled die is never free (R349). -/
def courtReport (s : State) (c : Nat) : Report :=
  let free := courtBits c s.coreFree
  let n := ((List.range Config.coresPerCourt).filter (natBit free)).length
  { free := BitVec.ofNat 256 free
    drain := BitVec.ofNat 256 (courtBits c fun n => (s.core n).drain ≠ .none)
    flags := BitVec.ofNat 8 ((decide (c ∈ s.freeUmpires)).toNat + 2 * (decide (c ∈ s.floor.withdrawnDies)).toNat)
    rows := ((List.range 16).filter fun r => free / 2 ^ (16 * r) % 2 ^ 16 ≠ 0).length
    tiles := 8 * n
    pool := 768 * n }

/-- COURT_REPORT (R324). -/
def execCourtReport (s : State) : Host.Outcome State Fault Refusal :=
  match s.arg with
  | .court c => .next (if c < Config.courts then
      (s.onCourt c fun x => { x with report := courtReport s c }).onFloor fun f =>
        { f with released := f.released.filter fun n => courtOf n ≠ c }
    else s)
  | _ => .next s

/-- PREEMPT_OVERRUN (R331): the dispatch ends. -/
def execPreemptOverrun (s : State) : Host.Outcome State Fault Refusal :=
  match s.arg with
  | .core n =>
    match s.dispOf n with
    | none => .next s
    | some (k, _) =>
      if 65536 ≤ (s.core n).e.sincePoint then .next (s.failDisp k (whoStrand s n .e) cPreemptOverrun [])
      else .next s
  | _ => .next s

/-- ENERGY_EXHAUSTED (R327): the class rises and the counter is refilled; at class 7 it stays at 0. -/
def execEnergyExhausted (s : State) : Host.Outcome State Fault Refusal :=
  match s.arg with
  | .disp k =>
    .next (s.onDisp k fun d => if d.energy = 0 ∧ d.cls < 7 then { d with cls := d.cls + 1, energy := d.budget } else d)
  | _ => .next s

/-- Nanoseconds without progress before a report (R345). -/
def stallTime : Nat := 1000000000

/-- When a dispatch last made progress on a resident core. -/
def lastProgress (s : State) (k : Nat) (d : Dispatch) : Nat :=
  (s.cores.filter fun x => x.2.disp = some k).foldl (fun m x => max m x.2.progress) d.progress

/-- STALL_REPORT (R345): one event for each stall of a resident dispatch. -/
def execStallReport (s : State) : Host.Outcome State Fault Refusal :=
  match s.arg with
  | .disp k =>
    match s.disp k with
    | none => .next s
    | some d =>
      let last := lastProgress s k d
      let resident := s.cores.any fun x => x.2.disp = some k && !x.2.loaded
      let told := match d.told with
        | some t => decide (last ≤ t)
        | none => false
      if d.phase = .running && resident && !told && decide (last + stallTime ≤ s.time.toNat) then
        .next ((s.onDisp k fun d => { d with told := some s.time.toNat }).ctxEvent
          ⟨d.ctx, 7, 0, 7, 65536 * s.domain.index, noPc, d.eventId, [5]⟩)
      else .next s
  | _ => .next s

/-! ## Stealing across a domain (R338, R339) -/

/-- Whether every page of a tile is global memory and not PRIV (R339). -/
def tileShippable (s : State) (ctx : Nat) (t : Tile) : Bool :=
  decide (t.base + t.bytes ≤ 2 ^ 57) && (List.range (t.bytes / 4096 + 2)).all fun i =>
    let va := t.base + min (i * 4096) (t.bytes - 1)
    match s.walk ctx va with
    | .leaf _ pte _ _ => pteCt pte ≠ 3
    | _ => false

/-- Whether the READY task of a queued dispatch may be stolen for a context, 0 for any. -/
def stealable (s : State) (ctx : Nat) (d : Dispatch) : Bool :=
  d.phase = .queued && (ctx = 0 || d.ctx = ctx) &&
    match taskIndex s d with
    | some i => match s.hget d.ctx i with
      | some x => x.state = .ready && !x.effect && !x.neverStolen && tileShippable s d.ctx x.tile &&
          x.slots.all fun a => tileShippable s d.ctx (s.argTile d.ctx a)
      | none => false
    | none => false

/-- The queued dispatches whose tasks may be stolen, oldest first. -/
def State.stealables (s : State) (ctx : Nat) : List (Nat × Dispatch) :=
  (s.floor.dispatches.filter fun x => stealable s ctx x.2).foldl (fun l x =>
    l.takeWhile (fun y => y.2.order < x.2.order) ++ x :: l.dropWhile (fun y => y.2.order < x.2.order)) []

/-- Ships a task to a package: a claim made here, its result tile zeroed (R125), with its handle, card address and
class. -/
def State.ship (s : State) (pkg : Nat) (x : Nat × Dispatch) : State :=
  let ctx := x.2.ctx
  match taskIndex s x.2 with
  | none => s
  | some i =>
    match s.hget ctx i with
    | none => s
    | some y =>
      let s1 := ((s.claimHandle ctx i).zeroOutputs ctx y).onFloor fun f => { f with dispatches := f.dispatches.del x.1 }
      { s1 with domain := { s1.domain with
          shipped := s1.domain.shipped ++ [⟨pkg, ctx, s.hword ctx i, y.card, x.2.cls⟩] } }

/-- Serves the requests of other packages. -/
def serveAll (me : Nat) : List RallyReq → State → List RallyReq × State
  | [], s => ([], s)
  | r :: t, s =>
    let xs := if r.pkg = me then [] else (s.stealables r.ctx).take (r.wanted - r.served)
    let s1 := xs.foldl (fun u x => u.ship r.pkg x) s
    let (rest, s2) := serveAll me t s1
    ({ r with served := r.served + xs.length } :: rest, s2)

/-- Whether the package has a waiting dispatch that it can place. -/
def State.canPlace (s : State) : Bool :=
  match s.head with
  | none => false
  | some (k, d) =>
    match (if d.phase = .queued then prepare s d else .ok (d, ⟨⟨0, 0, [], []⟩, none, none, none⟩)) with
    | .error _ => false
    | .ok (x, _) => ((s.wish k (s.spread x)).bind fun w => w.fit x.levels (s.freeFor k)).isSome

/-- The numerically lowest class that holds a waiting dispatch, 7 without one. -/
def State.lowestClass (s : State) : Nat :=
  match s.head with
  | some (_, d) => d.cls
  | none => 7

/-- The word of a package's summary (R338). -/
def sumWord (x : RallySum) : Nat := x.free % 2 ^ 16 + x.ready % 2 ^ 16 * 2 ^ 16 + x.lowClass % 8 * 2 ^ 32 + 2 ^ 35

/-- The summary that a word holds, if it is valid. -/
def sumOf (p w : Nat) : Option RallySum :=
  if natBit w 35 then some ⟨p, natBits w 15 0, natBits w 31 16, natBits w 34 32⟩ else none

/-- The 16 bytes of a request (R338). -/
def reqBytes (r : RallyReq) : List Byte :=
  leBytes 2 r.pkg ++ leBytes 1 r.wanted ++ leBytes 1 r.served ++ leBytes 4 r.ctx ++ leBytes 8 0

/-- Reads a request. -/
def reqOf (bs : List Byte) : RallyReq := ⟨fieldAt bs 0 2, fieldAt bs 2 1, fieldAt bs 3 1, fieldAt bs 4 4⟩

/-- Packages that the token has room for, and requests. -/
def tokenPackages : Nat := 256
def tokenRequests : Nat := 16

/-- The 2,336 bytes of the token (R338). -/
def tokenBytes (t : RallyToken) : List Byte :=
  leBytes 8 t.lap ++ leBytes 1 (min t.reqs.length tokenRequests) ++ leBytes 23 0 ++
    ((List.range tokenPackages).flatMap fun p => leBytes 8 (match t.sums.find? (·.pkg == p) with
      | some x => sumWord x
      | none => 0)) ++
    (t.reqs.take tokenRequests).flatMap reqBytes ++
    leBytes (16 * (tokenRequests - t.reqs.length)) 0

/-- Reads a token: the valid summaries, and the requests in use, at most 16. -/
def tokenOf (bs : List Byte) : RallyToken where
  lap := fieldAt bs 0 8
  sums := (List.range tokenPackages).filterMap fun p => sumOf p (fieldAt bs (0x20 + 8 * p) 8)
  reqs := (List.range (min (fieldAt bs 8 1) tokenRequests)).map fun r => reqOf (bs.drop (0x820 + 16 * r))

/-- The package after this one in increasing index, wrapping at the end (R338). -/
def nextPackage (s : State) : Nat :=
  let me := s.domain.index
  let least (l : List Nat) (d : Nat) : Nat := match l with
    | [] => d
    | p :: t => t.foldl min p
  least (s.domain.live.filter (me < ·)) (least s.domain.live me)

/-- What a package does with the token while it holds it: it removes requests that are met or its own, serves the
others, asks for itself, rewrites its summary, and sends the token to the next package. -/
def rallyHold (t : RallyToken) (s : State) : State :=
  let me := s.domain.index
  let open_ := t.reqs.filter fun r => r.pkg ≠ me && r.served ≠ r.wanted
  let (served, s1) := serveAll me open_ s
  let left := served.filter fun r => r.served ≠ r.wanted
  let free := s1.freeCoreCount
  let ask := decide (0 < free) && !s1.canPlace && decide (left.length < tokenRequests)
  let reqs := if ask then left ++ [⟨me, min free 16, 0, 0⟩] else left
  let sums := t.sums.filter (·.pkg ≠ me) ++ [⟨me, free % 65536, min (s1.stealables 0).length 65535, s1.lowestClass⟩]
  let s2 := { s1 with domain := { s1.domain with
      token := some (tokenBytes ⟨t.lap, sums, reqs⟩), tokenTo := nextPackage s1, tokenSeen := s1.time.toNat, requested := ask } }
  s2.depart (nextPackage s1) 2336

/-- Whether this package is the lowest-numbered live one, where a circuit of the token ends. -/
def State.leadsDomain (s : State) : Bool := s.domain.live.all (s.domain.index ≤ ·)

/-- RALLY_TOKEN_HOP (R338, R339): the token reaches this package and goes on as domain.token holds it. -/
def execRallyTokenHop (s : State) : Host.Outcome State Fault Refusal :=
  match s.arg with
  | .token bs =>
    let t := tokenOf bs
    .next (rallyHold { t with lap := if s.leadsDomain then t.lap + 1 else t.lap } s)
  | _ => .next s

/-- Nanoseconds without the token after which the lowest live package makes a new one (R338). -/
def tokenLife : Nat := 2048000

/-- RALLY_TOKEN_REGEN (R338): a new token, which its maker holds first. -/
def execRallyTokenRegen (s : State) : Host.Outcome State Fault Refusal :=
  if s.domain.joined && s.leadsDomain && decide (s.domain.tokenSeen + tokenLife ≤ s.time.toNat)
  then .next (rallyHold ⟨0, [], []⟩ s)
  else .next s

/-- The dispatch of a task shipped from another package (R339). What its argument record holds lies with the home
package (log entry 11). -/
def stolenDispatch (s : State) (home : Nat) (h card : Word) (ctx cls : Nat) (args : Word) : Dispatch :=
  { taskDispatch s ctx Handle.blank h with
    origin := .stolen home h card
    args := args
    cls := cls }

/-- A task shipped from here has left the cores of its thief (R126, R128, R339). -/
def State.takeBackTask (s : State) (ctx : Nat) (h : Word) (how : TaskEnd) : State :=
  let mine (x : Shipped) : Bool := x.ctx = ctx && x.handle = h
  if !s.domain.shipped.any mine then s
  else
    let s1 := { s with domain := { s.domain with shipped := s.domain.shipped.filter fun x => !mine x } }
    match s1.href ctx h with
    | .here i y =>
      match how with
      | .done => s1.completeHandle ctx i
      | .failed cause => s1.failHandle ctx i cause
      | .aborted cause info hold =>
        if poisonAgain y cause info then s1.failHandle ctx i cause else s1.returnHandle ctx i cause info hold
    | _ => s1

/-- A handle of another package has become VALUE, or FAILED with a cause: the dependants here that awaited it follow
(R126). -/
def State.settleAway (s : State) (ctx : Nat) (h : Word) (cause : Option Byte) : State :=
  match s.ctxOf ctx with
  | none => s
  | some c =>
    let deps := (c.handles.filter fun x => x.2.state = .demanded && h ∈ x.2.awaits).map (·.1)
    let s1 := deps.foldl (fun t i => t.onHandle ctx i fun y => { y with
      pending := y.pending - y.awaits.count h, awaits := y.awaits.filter (· ≠ h) }) s
    deps.foldl (fun t i => match cause with
      | some b => t.failHandle ctx i b
      | none => t.tryReady ctx i) s1

/-- STEAL_SHIPMENT_ARRIVAL (R339): what the engine of another package sends about tasks. A stolen task waits in its
class queue; a task shipped from here comes back done, aborted or failed; a handle that a slot here names has settled.
-/
def execStealShipmentArrival (s : State) : Host.Outcome State Fault Refusal :=
  match s.arg with
  | .stealEnd ctx h how => .next (s.takeBackTask ctx h how)
  | .settled ctx h cause => .next (if s.isAway ctx h then s.settleAway ctx h cause else s)
  | .steal home h card ctx cls =>
    let args := BitVec.ofNat 64 (Config.freeRemote s.draws)
    .next (({ s with draws := s.draws + 1 }).addDispatch (stolenDispatch s home h card ctx (cls % 8) args))
  | _ => .next s

end Sys2Proof.Machine
end

