-- ==== Sys2Proof/Machine/Waiting.lean ====
section
/-!
DEFINITION. The end of a blocking wait (spec/03_cores_strands_launches.md R61, R62).
-/
namespace Sys2Proof.Machine

open Sys2Proof

/-- What a strand or an umpire does. -/
def State.runOf (s : State) (a : Agent) : Run :=
  match a with
  | .strand n .e => (s.core n).e.run
  | .strand n .l => (s.core n).l.run
  | .strand n .s => (s.core n).s.run
  | .umpire c => (s.court c).umpire.hart.run
  | .floor => .stopped

/-- Changes what a strand or an umpire does. -/
def State.setRun (s : State) (a : Agent) (r : Run) : State :=
  match a with
  | .strand n .e => s.onCore n fun c => { c with e := { c.e with run := r } }
  | .strand n .l => s.onCore n fun c => { c with l := { c.l with run := r } }
  | .strand n .s => s.onCore n fun c => { c with s := { c.s with run := r } }
  | .umpire c => s.onUmpire c fun u => { u with hart := { u.hart with run := r } }
  | .floor => s

/-- Whether the phase of a byte barrier of a core differs from p. -/
def phaseLeft (s : State) (n : Nat) (k : Strand) (b : Word) (p : Bool) : Bool :=
  match barrierPhase (viaCore s n k false) b s with
  | .ok (ph, _) => ph != p
  | .error _ => true

/-- Whether the phase of a core's huddle register differs from p (R242). -/
def huddleLeft (s : State) (n reg : Nat) (p : Bool) : Bool :=
  match s.dispOf n with
  | none => true
  | some (_, d) =>
    match huddleLevel d with
    | none => true
    | some i =>
      let key := huddleKey (s.core n).lvl i reg
      (hbarOf d key (unitOf (s.core n).lvl (hbLevel (d.hregs.get 0 key)))).phase != p

/-- Whether the phase of a core's global barrier differs from p (R303). -/
def globalLeft (s : State) (n id : Nat) (p : Bool) : Bool :=
  match s.dispOf n with
  | none => true
  | some (_, d) =>
    match gbarLevel d id with
    | none => true
    | some lv => (gbarOf d id (unitOf (s.core n).lvl lv)).phase != p

/-- Whether a handle of a core's context is neither in evaluation nor suspended (R137). -/
def handleLeft (s : State) (n : Nat) (h : Word) : Bool :=
  match s.href (s.coreCtx n) h with
  | .here _ x => x.state = .value || x.state = .failed || x.state = .cell
  | _ => true

/-- Whether the condition of a wait of strand k of core n holds. A wait on queues, events, a page, the arena, a
version, a frame or a stage is tested by its instruction, which then runs again or waits again. -/
def waitOver (s : State) (n : Nat) (k : Strand) (w : Wait) : Bool :=
  let c := s.core n
  match w with
  | .queues => true
  | .conditions _ => true
  | .barrier b p => phaseLeft s n k b p
  | .huddle reg p => huddleLeft s n reg p
  | .globalBarrier id p => globalLeft s n id p
  | .page _ => true
  | .granule _ => true
  | .replay _ => false
  | .matrixRoom => decide (c.mx.queue.length < 2)
  | .matrixIdle => c.mx.queue = []
  | .copyRoom => decide (c.copy.length < 2)
  | .bulkRoom => true
  | .depRoom => decide (s.depUsed < Config.depEntries)
  | .attnRoom => true
  | .messageRoom => true
  | .inbox => c.q.inbox ≠ []
  | .handle h => handleLeft s n h
  | .version _ _ _ => true
  | .arena => true
  | .drain => s.drained n
  | .fence t => s.fenceDone n t
  | .window q => match windowOf c q with
    | some x => x.mismatch || decide (x.expected ≤ x.written.length)
    | none => true
  | .sendRoom => decide (undelivered s n < 16)
  | .sends => undelivered s n = 0
  | .frame _ => true
  | .promotion => true
  | .gateRoom => true
  | .record => true

/-- Whether the wait of an agent is over. -/
def agentOver (s : State) (a : Agent) (w : Wait) (released : Bool) : Bool :=
  match a with
  | .strand n k => (released && w ≠ .queues) || waitOver s n k w
  | .umpire c => match w with
    | .record => ((s.court c).gate.next).isSome
    | .replay _ => false
    | _ => true
  | .floor => false

/-- BLOCKING_WAIT_END (R62): a waiting strand whose condition holds executes its next instruction. A wait that has
ended stays released (R61). -/
def execBlockingWaitEnd (s : State) : Host.Outcome State Fault Refusal :=
  match s.arg with
  | .agent a =>
    match s.runOf a with
    | .waiting w b t =>
      if agentOver s a w b then .next ((s.setRun a (.waiting w true t)).soon [.agent a]) else .next s
    | _ => .next s
  | _ => .next s

end Sys2Proof.Machine
end

