-- ==== Sys2Proof/Machine/Commands.lean ====
section
/-!
DEFINITION. The firmware's commands but for QUERY: when they start, what they refuse and what they do
(spec/21_host_fabric_firmware.md R358 to R366; spec/12_ordering_by_page_type.md R222, R228, R229;
spec/15_translation_paging.md R271 to R273, R277, R282; spec/16_sequences_attention_dugout.md R283, R291, R294). The
order in which refusals are tested is log entry 25.
-/
namespace Sys2Proof.Machine

open Sys2Proof

/-! ## Starting and ending (R358, R359) -/

/-- The command of a function's queue that may start: the first not yet started; with a full fence only once every
earlier LAUNCH has completed. Every other command completes as it starts, so none is waited for. -/
def State.startable (s : State) (v : Nat) : Option Command :=
  let cs := (s.vf v).commands
  match cs.find? fun c => !c.submitted with
  | none => none
  | some c => if c.fence && cs.any (·.submitted) then none else some c

/-- A command leaves the queue with its status and value. -/
def State.endCommand (s : State) (v : Nat) (c : Command) (status : Nat) (value : Word) : State :=
  (s.onVf v fun f => { f with commands := f.commands.filter (·.slot ≠ c.slot) }).complete v
    ⟨c.tag, BitVec.ofNat 8 status, value⟩

/-- What a command does: the state and its value, or the code of its refusal. -/
abbrev Effect := Except Nat (State × Word)

/-- Performs the command that the event names, if it may start and is of a kind: its effect and its completion. A
refused command has no effect (R361). -/
def performCommand (p : Command → Bool) (f : Nat → Command → State → Effect) (s : State) :
    Host.Outcome State Fault Refusal :=
  match s.arg with
  | .cmd v slot =>
    match s.startable v with
    | some c =>
      if c.slot = slot ∧ p c then
        match f v c s with
        | .ok (t, x) => .next (t.endCommand v c 0 x)
        | .error r => .next (s.endCommand v c r 0)
      else .next s
    | none => .next s
  | _ => .next s

/-- Commands of one code. -/
def codeIs (n : Nat) (c : Command) : Bool := c.op.toNat = n

/-- Refuses unless p holds. -/
def orRefuse (p : Bool) (r : Nat) : Except Nat Unit := if p then .ok () else .error r

/-- The context that a command names, live and of the function (R361). -/
def ctxNamed (s : State) (v ctx : Nat) (lostOk : Bool) : Except Nat Context :=
  match s.ctxOf ctx with
  | none => .error (if ctx ∈ (s.vf v).gone then rDestroyed else rContext)
  | some x => if x.vf ≠ v then .error rContext else if x.lost && !lostOk then .error rLost else .ok x

/-! ## CTX_CREATE, CTX_DESTROY (R360, R362) -/

/-- Maps a page at the place that pick gives. -/
def mapPage (ctx va bits ct : Nat) (w zeroing : Bool) (pick : State → Option Nat) (s : State) : Option State :=
  (pick s).map fun p => (s.putFrame p (.fresh bits (BitVec.ofNat 2 ct) ctx zeroing)).putLeaf ctx va bits p w ct

/-- Maps n pages from va on. -/
def mapPages (ctx bits ct : Nat) (w zeroing : Bool) (pick : State → Option Nat) : Nat → Nat → State → Option State
  | 0, _, s => some s
  | n + 1, va, s =>
    match mapPage ctx va bits ct w zeroing pick s with
    | none => none
    | some t => mapPages ctx bits ct w zeroing pick n (va + 2 ^ bits) t

/-- A page's place on the first stack from st on with room. -/
def pickFrom (st bits : Nat) (s : State) : Option Nat := (s.stackFrom st bits).map (·.2)

/-- A field of which 0 selects a default. -/
def orDefault (x dflt : Nat) : Nat := if x = 0 then dflt else x

/-- The fields of a creation block (R362). Log entry 68. -/
def blockContext (s : State) (v : Nat) (b : List Byte) : Except Nat Context := do
  let arena := fieldAt b 0 8
  let lh := orDefault (fieldAt b 8 8) arena
  let hw := orDefault (fieldAt b 0x10 8) (lh / 2)
  let hquota := fieldAt b 0x18 4
  let dquota := fieldAt b 0x1C 4
  let cores := fieldAt b 0x20 4
  let gbwd := orDefault (fieldAt b 0x28 4) 100000
  let xwd := orDefault (fieldAt b 0x2C 4) 10000
  orRefuse (arena % 0x200000 = 0 && decide (arena + 0x400000 ≤ 2 ^ 57) && decide (lh ≤ arena) && decide (hw ≤ lh) &&
    decide (1 ≤ hquota) && decide (hquota ≤ 2 ^ 24) && decide (1 ≤ dquota) && decide (dquota ≤ 65536) &&
    decide (1 ≤ cores) && decide (cores ≤ (s.vf v).pf.cores.toNat) && decide (1000 ≤ gbwd) && decide (gbwd ≤ 10000000) &&
    decide (10 ≤ xwd) && decide (xwd ≤ 10000000)) rUnreadable
  pure {
    vf := v, lost := false, root := 0, arenaBase := 0, awayArenas := [], arena := arena, lh := lh, hw := hw
    hquota := hquota, dquota := dquota, cores := cores, energy := orDefault (fieldAt b 0x24 4) 1000000, gbwd := gbwd, xwd := xwd
    saveArea := saveBytes cores, saveBase := 0, dmsg := false, dshare := false, dmsgCount := 0, dshareCount := 0
    faultCount := 0, tcount := 0, handles := [], hgens := [], sparks := [], allocs := [], orphans := [], merged := [] }

/-- A fresh context id, of those that no live context has; never 0, which names no context (R339, R350). -/
def State.newContextId (s : State) : Nat :=
  let used := 0 :: s.floor.contexts.map (·.1)
  Tab.nthFree used (Config.freeContextId s.draws % (2 ^ 32 - used.length))

/-- Where the firmware puts an arena of n bytes in a new context's space: 2 MiB aligned (R129), above 0 (log entry
26). -/
def State.newArenaBase (s : State) (n : Nat) : Nat :=
  0x200000 * (1 + Config.freeArenaBase s.draws % ((2 ^ 57 - n) / 0x200000 - 1))

/-- Where the firmware puts the arenas, of n bytes each, of a new context on the other packages of the domain: 2 MiB
aligned, and clear of its own arena at a base and of each other (R129). -/
def State.newAwayArenas (s : State) (n own : Nat) : List (Nat × Nat) :=
  let size := max n 0x200000
  ((List.range s.domain.size).filter (· ≠ s.domain.index)).foldl (fun l p =>
    let taken := (l.map (·.2)).foldl (fun t b => insertAlloc (b, size) t) [(own, size)]
    match freePlace 0x200000 size (Config.freeArenaBase (s.draws + 1 + p)) (gapsFrom 0x200000 (2 ^ 57) taken) with
    | none => l
    | some b => l ++ [(p, b)]) []

/-- CTX_CREATE (R129, R360, R362). -/
def createContext (v : Nat) (c : Command) (s : State) : Effect := do
  let x ← blockContext s v (s.hostRead c.p0.toNat 64)
  orRefuse (s.hbmShare v (x.arena + x.saveArea)) rQuota
  let id := s.newContextId
  let s1 := { s with draws := s.draws + 1 + s.domain.size }
  let (s2, root) := s1.takeReserved 4096
  let (s2, area) := s2.takeReserved (saveRoom x.cores)
  let base := s.newArenaBase x.arena
  let y := { x with root := root, arenaBase := base, awayArenas := s.newAwayArenas x.arena base, saveBase := area }
  let s3 := (s2.onFloor fun f => { f with contexts := f.contexts.put id y }).onVf v fun f =>
    { f with gone := f.gone.filter (· ≠ id) }
  match mapPages id 21 1 true false (pickFrom (Config.freeStack s.draws % Config.hbmStacks) 21) (x.arena / 0x200000)
      y.arenaBase s3 with
  | none => .error rQuota
  | some t => pure (t, BitVec.ofNat 64 id)

/-- CTX_CREATE. -/
def execCtxCreate (s : State) : Host.Outcome State Fault Refusal := performCommand (codeIs 0x01) createContext s

/-- The dugout entries of a context are freed as by SEQ_FREE (R291). -/
def State.freeDugs (s : State) (ctx : Nat) : State :=
  (s.floor.dugout.filter fun e => e.2.ctx = ctx).foldl (fun t e => (t.freeDug e.1).dugEvent e.1 e.2 6) s

/-- Tears a context down: every dispatch with status 0x4A, then all that it holds (R360). -/
def State.destroyContext (s : State) (ctx : Nat) : State :=
  let v := s.ctxVf ctx
  let ds := (s.floor.dispatches.filter fun x => x.2.ctx = ctx).map (·.1)
  let s1 := ds.foldl (fun t d => t.tearDown d (BitVec.ofNat 8 rDestroyed)) s
  let s2 := ((s1.freeDugs ctx).dropMoves (·.ctx == ctx)).onFloor fun f => { f with
    contexts := f.contexts.del ctx
    frames := f.frames.filter fun x => x.2.ctx ≠ ctx
    windows := f.windows.filter (·.ctx ≠ ctx)
    out := f.out.filter (·.ctx ≠ ctx) }
  (s2.dropShipped ctx).onVf v fun f => { f with gone := f.gone ++ [ctx] }

/-- CTX_DESTROY (R360). -/
def execCtxDestroy (s : State) : Host.Outcome State Fault Refusal :=
  performCommand (codeIs 0x02) (fun v c s => do
    let _ ← ctxNamed s v c.ctx true
    pure (s.destroyContext c.ctx, 0)) s

/-! ## MAP (R277, R360) -/

/-- Whether [lo, hi) touches one of a context's arena ranges, on whichever package (R129). -/
def Context.touches (x : Context) (lo hi : Nat) : Bool :=
  (x.arenaBase :: x.awayArenas.map (·.2)).any fun b => decide (b < hi) && decide (lo < b + x.arena)

/-- Whether a sequence window of a context meets [lo, hi). -/
def State.windowMeets (s : State) (ctx lo hi : Nat) : Bool :=
  s.floor.windows.any fun w => w.ctx = ctx && decide (w.base < hi) && decide (lo < w.base + 2 ^ 39)

/-- Page size by MAP's code. -/
def mapBits (code : Nat) : Nat :=
  match code with
  | 0 => 12
  | 1 => 16
  | 2 => 21
  | _ => 30

/-- Whether the places of n leaves of 2^bits bytes from va on are free: a range with a valid leaf, and an entry that
names a table where a larger leaf would stand, are valid entries (R361). Log entry 67. -/
def State.unmapped (s : State) (ctx va bits n : Nat) : Bool :=
  match s.ctxOf ctx with
  | none => false
  | some x => s.leaves ctx va (va + n * 2 ^ bits) = [] &&
      (List.range n).all fun i => !s.entryTaken (va + i * 2 ^ bits) (leafLevel bits) 0 x.root

/-- MAP (R360). -/
def mapRange (v : Nat) (c : Command) (s : State) : Effect := do
  let x ← ctxNamed s v c.ctx false
  let p2 := c.p2.toNat
  let bits := mapBits (p2 % 4)
  let va := c.p0.toNat
  let n := c.p1.toNat
  let hi := va + n * 2 ^ bits
  orRefuse (va % 2 ^ bits = 0 && decide (1 ≤ n) && decide (n ≤ 2 ^ 20) && decide (hi ≤ 2 ^ 57)) rUnreadable
  orRefuse (!x.touches va hi && !s.windowMeets c.ctx va hi && s.unmapped c.ctx va bits n) rMapped
  orRefuse (s.hbmShare v (n * 2 ^ bits)) rQuota
  let pick := if natBit p2 8 then fun t => t.hbmFit (natBits p2 7 5) bits
    else pickFrom (Config.freeStack s.draws % Config.hbmStacks) bits
  match mapPages c.ctx bits (natBits p2 3 2) (natBit p2 4) (!natBit p2 9) pick n va { s with draws := s.draws + 1 } with
  | none => .error rQuota
  | some t => pure (t, 0)

/-- MAP (R277, R360). -/
def execMap (s : State) : Host.Outcome State Fault Refusal := performCommand (codeIs 0x03) mapRange s

/-- MAP_ZEROING_DONE (R360). -/
def execMapZeroingDone (s : State) : Host.Outcome State Fault Refusal :=
  match s.arg with
  | .frame p => .next (s.onFrame p fun f => { f with zeroing := false })
  | _ => .next s

/-! ## UNMAP, SETATTR, RECYCLE (R222, R228, R277, R360) -/

/-- The leaves that a range command acts on, with the checks that R360 gives all three. -/
def rangeLeaves (s : State) (v : Nat) (c : Command) : Except Nat (List Leaf) := do
  let x ← ctxNamed s v c.ctx false
  let lo := c.p0.toNat
  let hi := lo + c.p1.toNat * 4096
  orRefuse (lo % 4096 = 0 && decide (1 ≤ c.p1.toNat) && decide (c.p1.toNat ≤ 2 ^ 28) && decide (hi ≤ 2 ^ 57)) rUnreadable
  orRefuse (!x.touches lo hi) rMapped
  let ls := s.leaves c.ctx lo hi
  orRefuse (ls.all fun l => l.within lo hi) rUnreadable
  pure ls

/-- Clears an entry, and with it an error that lay in it. -/
def State.clearEntry (s : State) (a : Nat) : State :=
  (s.physPut a 8 0).onFloor fun f => { f with ptes := f.ptes.filter (· ≠ a) }

/-- The tier moves of a page stop (R277). -/
def State.stopMoves (s : State) (ctx va : Nat) : State :=
  (s.floor.moves.filter fun m => m.ctx = ctx && m.va == va).foldl (fun t m => (t.dropMoves (·.id == m.id)).afterMove m) s

/-- Removes a leaf and frees its frame. -/
def State.unmapLeaf (s : State) (ctx : Nat) (l : Leaf) : State :=
  (((s.freeLeaf ctx l).clearEntry l.entry).stopMoves ctx l.va)

/-- The leaves of a command's range, or none where it is refused. -/
def commandLeaves (s : State) (v : Nat) (c : Command) : List Leaf :=
  match rangeLeaves s v c with
  | .ok ls => ls
  | .error _ => []

/-- A command that changes entries or frames, which begins once every read of its pages that can perform has performed
(R222, R228, R277; log entry 108). -/
def performOnReads (p : Command → Bool) (pages : State → Nat → Command → List Leaf)
    (f : Nat → Command → State → Effect) (s : State) : Host.Outcome State Fault Refusal :=
  let waits := match s.arg with
    | .cmd v slot => match s.startable v with
      | some c => decide (c.slot = slot) && p c && (pages s v c).any (s.readPends c.ctx)
      | none => false
    | _ => false
  if waits then .next s else performCommand p f s

/-- UNMAP (R277, R360). -/
def execUnmap (s : State) : Host.Outcome State Fault Refusal :=
  performOnReads (codeIs 0x04) commandLeaves (fun v c s => do
    let ls ← rangeLeaves s v c
    pure (ls.foldl (fun t l => t.unmapLeaf c.ctx l) s, 0)) s

/-- Whether a strand waits for an unwritten granule of [lo, hi). -/
def Run.waitsIn (r : Run) (lo hi : Nat) : Bool :=
  match r with
  | .waiting (.granule va) _ _ => decide (lo ≤ va.toNat) && decide (va.toNat < hi)
  | _ => false

/-- Whether an outstanding read of a load queue lies in [lo, hi). One that waits for REPLAY waits on no frame. -/
def LqEntry.readsIn (x : LqEntry) (lo hi : Nat) : Bool :=
  match x with
  | .reserved a _ _ => decide (lo ≤ a.toNat) && decide (a.toNat < hi)
  | _ => false

/-- Whether pieces come to wait for an unwritten granule of [lo, hi). -/
def piecesWaitIn (s : State) (ps : List (M Unit)) (lo hi : Nat) : Bool :=
  match runPieces ps 0 s with
  | (_, _, some (.wait (.granule va))) => decide (lo ≤ va.toNat) && decide (va.toNat < hi)
  | _ => false

/-- Whether a core's strands or engines read a page of [lo, hi) that makes them wait. -/
def coreReadsIn (s : State) (n : Nat) (c : Core) (lo hi : Nat) : Bool :=
  c.e.run.waitsIn lo hi || c.l.run.waitsIn lo hi || c.s.run.waitsIn lo hi ||
    (c.q.lq0 ++ c.q.lq1).any (fun x => x.readsIn lo hi) ||
    (match c.copy with
      | x :: _ => !x.stalled && piecesWaitIn s ((cardPieces n x).drop (x.done - 1)) lo hi
      | [] => false) ||
    (match c.mx.queue with
      | x :: _ => !x.stalled && (piecesWaitIn s (((cvldPieces n x.op).getD []).drop (x.done - 1)) lo hi ||
          ((scrumHead c).isSome && piecesWaitIn s [do
            let _ ← leaderRows n
            pure ()] lo hi))
      | [] => false)

/-- Whether a read of a context waits at a resident page (R219, R229). -/
def readWaits (s : State) (ctx : Nat) (l : Leaf) : Bool :=
  let lo := l.va
  let hi := l.va + 2 ^ l.shift
  pteTier l.pte = 0 &&
    ((s.cores.any fun x => s.coreCtx x.1 = ctx && coreReadsIn s x.1 x.2 lo hi) ||
      (s.courts.any fun x => x.2.umpire.ctx = ctx && x.2.umpire.hart.run.waitsIn lo hi) ||
      (s.floor.bulk.any fun b => !b.stalled && b.preds = [] && (viaBulk s b).ctx = ctx &&
        piecesWaitIn s ((bulkPieces b).drop b.done) lo hi) ||
      (s.floor.attn.any fun a => s.coreCtx a.core = ctx &&
        (attnLeft a).any fun p => p.1 ∉ a.stalled && piecesWaitIn s [p.2] lo hi))

/-- Whether some granules of a frame are written and others are not (R229). -/
def Frame.mixed (f : Frame) : Bool := f.written ≠ [] && decide (f.written.length < 2 ^ f.bits / 16)

/-- The check of R229 on a leaf whose frame would change away from STREAM. No read waits on a frame whose granules are
all written. -/
def attrOk (s : State) (ctx : Nat) (ct : BitVec 2) (l : Leaf) : Bool :=
  match s.leafFrame ctx l with
  | none => true
  | some f => f.ct ≠ 2 || ct = 2 || (!f.mixed && (f.written ≠ [] || f.zeroing || !readWaits s ctx l))

/-- Gives the frame of a leaf another type (R228): a frame that has it already is left as it stands. -/
def State.retype (s : State) (ctx : Nat) (ct : BitVec 2) (l : Leaf) : State :=
  match s.leafFrame ctx l with
  | none => s
  | some f =>
    if f.ct = ct then s
    else (s.onLeafFrame ctx l fun f => { f with ct := ct, owner := none, written := [] }).physPut l.entry 8
      (setCt (s.physNat l.entry 8) ct.toNat)

/-- SETATTR (R228, R229, R360). -/
def execSetattr (s : State) : Host.Outcome State Fault Refusal :=
  performOnReads (codeIs 0x05) commandLeaves (fun v c s => do
    let ls ← rangeLeaves s v c
    let ct := BitVec.ofNat 2 (c.p2.toNat % 4)
    orRefuse (ls.all (attrOk s c.ctx ct)) rSetattr
    pure (ls.foldl (fun t l => t.retype c.ctx ct l) s, 0)) s

/-- RECYCLE (R222, R360). -/
def execRecycle (s : State) : Host.Outcome State Fault Refusal :=
  performOnReads (codeIs 0x06) commandLeaves (fun v c s => do
    let ls ← rangeLeaves s v c
    orRefuse (ls.all fun l => match s.leafFrame c.ctx l with
      | some f => f.ct = 2
      | none => pteCt l.pte = 2) rNotStream
    pure (ls.foldl (fun t l => t.onLeafFrame c.ctx l fun f => { f with written := [], sgen := f.sgen + 1 }) s, 0)) s

/-! ## LAUNCH (R41, R326, R360) -/

/-- What p1 of a LAUNCH means: 0 nothing, 1 an image, 2 a routing block. -/
def umpireMode (p2 : Nat) : Nat := p2 % 4

/-- The dispatch of a host LAUNCH, its record not yet read in. -/
def launchDispatch (s : State) (v : Nat) (c : Command) : Dispatch where
  origin := .launch c.slot c.p0 c.p1 (umpireMode c.p2.toNat)
  phase := .queued
  vf := v
  ctx := c.ctx
  order := s.floor.nextDisp
  pkg := 0
  gen := 0
  curGen := 0
  eimg := 0
  limg := 0
  simg := 0
  part := 0
  levels := []
  args := 0
  save := 0
  budget := 0
  energy := 0
  cls := 0
  restartable := false
  cores := []
  side := []
  umpire := none
  hregs := []
  hbars := []
  gbars := []
  poisonSeen := []
  progress := s.time.toNat
  told := none
  avoid := none
  share := none
  table := none

/-- Reads the record of a LAUNCH; the checks of its fields come when it is placed (R42). -/
def launchOf (s : State) (v : Nat) (c : Command) : Except Nat Dispatch := do
  let _ ← ctxNamed s v c.ctx false
  orRefuse (decide (umpireMode c.p2.toNat ≤ 2) && c.p0.toNat % 64 = 0) rUnreadable
  match s.tryRead c.ctx c.p0 256 with
  | none => .error rUnreadable
  | some b => do
    orRefuse (fieldAt b 0x78 4 = c.ctx) rContext
    pure ((launchDispatch s v c).ofRecord b)

/-- Marks a command as started. -/
def State.submit (s : State) (v slot : Nat) : State :=
  s.onVf v fun f => { f with commands := f.commands.map fun c => if c.slot = slot then { c with submitted := true } else c }

/-- LAUNCH (R326, R359, R360): the launch is submitted; the command completes when it ends. -/
def execLaunch (s : State) : Host.Outcome State Fault Refusal :=
  match s.arg with
  | .cmd v slot =>
    match s.startable v with
    | some c =>
      if c.slot = slot ∧ codeIs 0x07 c then
        match launchOf s v c with
        | .ok d => .next ((s.submit v slot).addDispatch d)
        | .error r => .next (s.endCommand v c r 0)
      else .next s
    | none => .next s
  | _ => .next s

/-! ## REPLAY (R282) -/

/-- A strand that waits for REPLAY tries again. -/
def Run.replay (r : Run) : Run :=
  match r with
  | .waiting (.replay _) _ _ => .running
  | _ => r

/-- A pending read of a load queue is tried again. -/
def LqEntry.replay (x : LqEntry) : LqEntry :=
  match x with
  | .pending a pc id => .reserved a pc id
  | _ => x

/-- Every pending access of a core is tried again. -/
def Core.replay (c : Core) : Core :=
  { c with
    e := { c.e with run := c.e.run.replay }
    l := { c.l with run := c.l.run.replay }
    s := { c.s with run := c.s.run.replay }
    q := { c.q with lq0 := c.q.lq0.map LqEntry.replay, lq1 := c.q.lq1.map LqEntry.replay }
    mx := { c.mx with queue := c.mx.queue.map fun x => { x with stalled := false } }
    copy := c.copy.map fun x => { x with stalled := false } }

/-- The context of a dispatch. -/
def State.dispCtx (s : State) (k : Nat) : Nat :=
  match s.disp k with
  | some d => d.ctx
  | none => 0

/-- Whether a fault record of a task waits to be posted: a REPLAY issued before then does not release the task (R281).
-/
def State.recordWaits (s : State) (ctx : Nat) (h : Word) : Bool :=
  (s.vf (s.ctxVf ctx)).faults.any fun r => r.ctx = ctx && r.task == h

/-- Held tasks of a context return to READY (R281, R282). -/
def State.releaseHeld (s : State) (ctx : Nat) : State :=
  match s.ctxOf ctx with
  | none => s
  | some c => ((c.handles.filter fun x => x.2.held && !s.recordWaits ctx (s.hword ctx x.1)).map (·.1)).foldl
      (fun t i => (t.onHandle ctx i fun x => { x with held := false }).queueTask ctx i) s

/-- Every pending access of an umpire of a context is tried again. -/
def Court.replayFor (ctx : Nat) (c : Court) : Court :=
  if c.umpire.ctx = ctx then { c with umpire := { c.umpire with hart := { c.umpire.hart with run := c.umpire.hart.run.replay } } }
  else c

/-- REPLAY of one context. -/
def State.replayContext (s : State) (ctx : Nat) : State :=
  let mine (k : Nat) : Bool := s.dispCtx k = ctx
  let cores : Tab Core := s.cores.map fun x => if s.coreCtx x.1 = ctx then (x.1, x.2.replay) else x
  let courts : Tab Court := s.courts.map fun x => (x.1, x.2.replayFor ctx)
  let bulk : List BulkCard := s.floor.bulk.map fun c => if mine c.disp then { c with stalled := false } else c
  let attn : List AttnCard := s.floor.attn.map fun c => if mine c.disp then { c with stalled := [] } else c
  let images : List Image := s.floor.images.map fun i => if mine i.disp then { i with core := i.core.replay } else i
  let s1 := { s with cores := cores, courts := courts }
  let s2 := s1.onFloor fun f => { f with bulk := bulk, attn := attn, images := images }
  (s2.onCtx ctx fun c => { c with merged := [] }).releaseHeld ctx

/-- REPLAY (R282, R360). -/
def execReplay (s : State) : Host.Outcome State Fault Refusal :=
  performCommand (codeIs 0x08) (fun v c s =>
    if natBit c.p0.toNat 0 then
      let ids := (s.floor.contexts.filter fun x => x.2.vf = v && !x.2.lost).map (·.1)
      .ok (ids.foldl State.replayContext s, 0)
    else do
      let _ ← ctxNamed s v c.ctx false
      pure (s.replayContext c.ctx, 0)) s

/-! ## SEQ_CREATE, SEQ_FREE (R271 to R273, R291) -/

/-- The group policy in 16 bytes, as the header keeps it: len zero, the default of sglen (R273). -/
def groupHeader (b : List Byte) : List Byte :=
  leBytes 2 (fieldAt b 0 2) ++ leBytes 1 (fieldAt b 2 1) ++ leBytes 1 (fieldAt b 3 1 % 4) ++
    leBytes 1 (orDefault (fieldAt b 4 1) 16) ++ leBytes 1 (fieldAt b 5 1) ++ leBytes 2 (fieldAt b 6 2) ++
    leBytes 2 (fieldAt b 8 2) ++ leBytes 1 (fieldAt b 10 1 % 4) ++ leBytes 5 0

/-- The ranges of a policy (R256, R273, R283). -/
def policyOk (b : List Byte) : Bool :=
  let leaflen := fieldAt b 0 2
  let kv := fieldAt b 2 1
  let heads := fieldAt b 5 1
  let dh := fieldAt b 6 2
  let tpp := fieldAt b 8 2
  decide (1 ≤ leaflen) && decide (leaflen ≤ 16384) && (kv = 0x09 || kv = 0x0A || kv = 0x0C) && decide (1 ≤ heads) &&
    decide (heads ≤ 16) && decide (16 ≤ dh) && decide (dh ≤ 512) && dh % 16 = 0 && decide (1 ≤ tpp) &&
    decide (tpp ≤ 256) && decide (heads * rowStored kv dh * tpp ≤ 0x8000)

/-- Makes the leaf tables of the groups, and enters them in a directory. -/
def makeGroups (dir : Nat) : Nat → List (List Byte) → State → State
  | _, [], s => s
  | g, b :: bs, s =>
    let (s1, t) := s.takeReserved (64 + 8 * fieldAt b 0 2)
    makeGroups dir (g + 1) bs ((s1.physWrite t (groupHeader b)).physPut (dir + 8 * g) 8 (tableEntry t))

/-- SEQ_CREATE. -/
def createWindow (v : Nat) (c : Command) (s : State) : Effect := do
  let x ← ctxNamed s v c.ctx false
  let base := c.p0.toNat
  let n := c.p2.toNat
  orRefuse (base % 2 ^ 39 = 0 && decide (base + 2 ^ 39 ≤ 2 ^ 57) && decide (1 ≤ n) && decide (n ≤ 512)) rUnreadable
  let bs := (List.range n).map fun g => s.hostRead (c.p1.toNat + 16 * g) 16
  orRefuse (bs.all policyOk) rUnreadable
  let hi := base + 2 ^ 39
  orRefuse (!x.touches base hi && !s.windowMeets c.ctx base hi && s.leaves c.ctx base hi = []) rMapped
  let (s1, dir) := s.takeReserved 4096
  let s2 := makeGroups dir 0 bs s1
  match s2.entryAt base 1 0 x.root with
  | (_, none) => .error rMapped
  | (s3, some a) =>
    pure ((s3.physPut a 8 (windowEntry dir)).onFloor fun f => { f with
      windows := f.windows ++ [⟨c.ctx, base, n, dir⟩] }, 0)

/-- SEQ_CREATE (R271 to R273, R360). -/
def execSeqCreate (s : State) : Host.Outcome State Fault Refusal := performCommand (codeIs 0x09) createWindow s

/-- SEQ_FREE of a window (R291): its entry goes, without a resume; its frames in every tier are freed; the window
entry is removed. -/
def State.freeWindow (s : State) (ctx : Nat) (x : Context) (w : Window) : State :=
  let s1 := match s.dugOf ctx w.base with
    | some (i, e) => (s.freeDug i).dugEvent i e 6
    | none => s
  let ls := s1.leaves ctx w.base (w.base + 2 ^ 39)
  let s2 := ls.foldl (fun t l => t.freeLeaf ctx l) s1
  let s3 := match s2.entryAt w.base 1 0 x.root with
    | (t, some a) => t.clearEntry a
    | (_, none) => s2
  (s3.dropMoves fun m => m.ctx = ctx && m.va / 2 ^ 39 == w.base / 2 ^ 39).onFloor fun f => { f with
    windows := f.windows.filter fun y => !(y.ctx = ctx && y.base == w.base) }

/-- The leaves of the window that a SEQ_FREE names, or none where it is refused. -/
def seqFreeLeaves (s : State) (v : Nat) (c : Command) : List Leaf :=
  match ctxNamed s v c.ctx false, s.windowAt c.ctx c.p0.toNat with
  | .ok _, some w => s.leaves c.ctx w.base (w.base + 2 ^ 39)
  | _, _ => []

/-- SEQ_FREE (R277, R291, R360). -/
def execSeqFree (s : State) : Host.Outcome State Fault Refusal :=
  performOnReads (codeIs 0x0A) seqFreeLeaves (fun v c s => do
    let x ← ctxNamed s v c.ctx false
    match s.windowAt c.ctx c.p0.toNat with
    | none => .error rUnreadable
    | some w => pure (s.freeWindow c.ctx x w, 0)) s

/-! ## PARK_POLICY, WAKE (R290, R294, R363) -/

/-- Whether an entry of a function's contexts is PARKED. -/
def State.anyParked (s : State) (v : Nat) : Bool := s.floor.dugout.any fun e => s.ctxVf e.2.ctx = v && e.2.state = .parked

/-- PARK_POLICY (R290, R363). Log entry 69. -/
def execParkPolicy (s : State) : Host.Outcome State Fault Refusal :=
  performCommand (codeIs 0x0B) (fun v c s => do
    let b := s.hostRead c.p2.toNat 32
    let n := fieldAt b 0x16 2
    orRefuse (decide (64 ≤ n) && decide (n ≤ 4096) && Config.nvmeFormatOk b) rUnreadable
    orRefuse (!s.anyParked v) rMapped
    orRefuse (decide (c.p1.toNat ≤ (s.vf v).pf.cxl.toNat)) rQuota
    pure (s.onVf v fun f => { f with
      cxlOff := c.p0.toNat, cxlBytes := c.p1.toNat, nvme := b, flashLbas := fieldAt b 0x18 8
      nvmeSq := [], nvmeTail := 0, nvmeHead := 0 }, 0)) s

/-- WAKE by the host (R294): like the instruction, it has no effect unless it names a PARKED entry. -/
def execWakeCmd (s : State) : Host.Outcome State Fault Refusal :=
  performCommand (codeIs 0x0C) (fun v c s => do
    let _ ← ctxNamed s v c.ctx false
    match s.dugNamed c.ctx c.p0 with
    | some i => pure (s.wakeDug i, 0)
    | none => pure (s, 0)) s

/-! ## DOMAIN_JOIN, ATTEST, SET_ENERGY (R360, R364, R365) -/

/-- The PF's own queue (log entry 20). -/
def pfNumber : Nat := 64

/-- DOMAIN_JOIN (R364): a route table of 4-byte entries (log entry 27). -/
def execDomainJoin (s : State) : Host.Outcome State Fault Refusal :=
  performCommand (codeIs 0x0D) (fun v c s => do
    orRefuse (v = pfNumber) rPfOnly
    let n := c.p1.toNat
    orRefuse (decide (1 ≤ n) && decide (n ≤ 256) && decide (c.p0.toNat < n)) rUnreadable
    let routes := (List.range n).map fun i => BitVec.ofNat 18 (leNat (s.hostRead (c.p2.toNat + 4 * i) 4))
    pure (({ s with domain := { s.domain with
      joined := true, index := c.p0.toNat, size := n, routes := routes, live := List.range n, cut := [], unreached := []
      token := none, tokenSeen := s.time.toNat, requested := false } } : State).noteRoutes, 0)) s

/-- The signed part of an attestation report. -/
def reportBody (v : Nat) (nonce : List Byte) : List Byte :=
  leBytes 4 1 ++ leBytes 4 v ++ leBytes 16 Config.serialNumber.toNat ++ leBytes 64 Config.romDigest.toNat ++
    leBytes 64 Config.fuseDigest.toNat ++ nonce ++ leBytes 1793 Config.identityKey ++ leBytes 7 0

/-- ATTEST (R365). -/
def execAttest (s : State) : Host.Outcome State Fault Refusal :=
  performCommand (codeIs 0x0E) (fun v c s =>
    let body := reportBody v (s.hostRead c.p0.toNat 32)
    let sig := Config.identitySign (BitVec.ofNat 512 (leNat (shake256 body))) s.draws
    .ok (({ s with draws := s.draws + 1 }).hostWrite c.p1.toNat (body ++ leBytes 1280 sig), 0)) s

/-- SET_ENERGY (R360). -/
def execSetEnergy (s : State) : Host.Outcome State Fault Refusal :=
  performCommand (codeIs 0x0F) (fun v c s => do
    let x ← ctxNamed s v c.ctx false
    orRefuse (decide (1 ≤ c.p0.toNat) && decide (c.p0.toNat < 2 ^ 48)) rUnreadable
    pure (s.onCtx c.ctx fun y => { y with energy := c.p0.toNat }, BitVec.ofNat 64 x.energy)) s

end Sys2Proof.Machine
end

