-- ==== Sys2Proof/Machine/Query.lean ====
section
/-!
DEFINITION. QUERY (spec/21_host_fabric_firmware.md R360; spec/06_demand_engine.md R120;
spec/19_scheduling_preemption.md R324; spec/20_faults_errors.md R352). R324 and R120 lay out the records of selectors
1 and 4; the others are 8-byte words in the order of R360 (log entry 28).
-/
namespace Sys2Proof.Machine

open Sys2Proof

/-- A QUERY of one selector: it writes as much of the record as the command asks for, and its value is the bytes
written. -/
def performQuery (sel : Nat) (f : Nat → Command → State → Except Nat (State × List Byte)) (s : State) :
    Host.Outcome State Fault Refusal :=
  performCommand (fun c => codeIs 0x10 c && c.p0.toNat = sel) (fun v c s => do
    let (t, bs) ← f v c s
    let out := bs.take c.p2.toNat
    pure (t.hostWrite c.p1.toNat out, BitVec.ofNat 64 out.length)) s

/-- 8-byte words. -/
def wordsOf (l : List Nat) : List Byte := l.flatMap (leBytes 8)

/-- The bytes of a court's report (R324). -/
def Report.bytes (r : Report) : List Byte :=
  leBytes 32 r.free.toNat ++ leBytes 32 r.drain.toNat ++ [r.flags] ++ leBytes 1 r.rows ++ leBytes 2 r.tiles ++
    leBytes 4 r.pool ++ leBytes 8 0

/-- Selector 1: the latest court reports (R324). -/
def execQueryCourtReports (s : State) : Host.Outcome State Fault Refusal :=
  performQuery 1 (fun _ _ s => .ok (s, (List.range Config.courts).flatMap fun c => (s.court c).report.bytes)) s

/-- Free numbers, one for each of n. -/
def drawn (f : Nat → Nat) (s : State) (n : Nat) : State × List Nat :=
  ({ s with draws := s.draws + n }, (List.range n).map fun i => f (s.draws + i))

/-- A value for each package of the domain: this one's, and free ones of the others (log entry 11). -/
def perPackage (s : State) (x : Nat) : State × List Nat :=
  let (t, l) := drawn Config.freeRemote s s.domain.size
  (t, l.zipIdx.map fun y => if y.2 = s.domain.index then x else y.1 % 2 ^ 64)

/-- Selector 2: dropped messages, dropped shares, faults, and each package's task count (R53, R302, R344, R88). -/
def execQueryCounts (s : State) : Host.Outcome State Fault Refusal :=
  performQuery 2 (fun v c s => do
    let x ← ctxNamed s v c.ctx true
    let (t, ts) := perPackage s x.tcount
    pure (t, wordsOf ([x.dmsgCount, x.dshareCount, x.faultCount] ++ ts))) s

/-- Corrected and uncorrected errors of a structure (R352). -/
def errorTotals (s : State) (code : Nat) : List Nat :=
  let l := s.floor.errors.filter (·.unit.code == code)
  [sumNat (l.map (·.corrected)), sumNat (l.map (·.uncorrected))]

/-- Selector 3: the error counts of structures 1 to 9 (R352). -/
def execQueryErrorCounts (s : State) : Host.Outcome State Fault Refusal :=
  performQuery 3 (fun _ _ s => .ok (s, wordsOf ((List.range 9).flatMap fun i => errorTotals s (i + 1)))) s

/-- The handle that the strand of a task that has waited longest in FORCE waits on (R120). -/
def oldestWait (s : State) (ctx : Nat) (h : Word) : Word :=
  match (s.forceWaits ctx h).foldl (fun b x => match b with
    | none => some x
    | some y => if x.1 < y.1 then some x else b) none with
  | some x => x.2
  | none => 0

/-- The 64 bytes of a live handle table entry (R120). How the waiters are chained is free. -/
def handleEntry (s : State) (ctx i : Nat) (x : Handle) (waiters : Nat) : List Byte :=
  let (tile, owned) := match x.state, x.versions with
    | .cell, v :: _ => (v.tile, v.owned)
    | _, _ => (x.tile, x.owned)
  leBytes 4 x.gen.toNat ++ leBytes 1 x.state.code ++
    leBytes 1 (x.sparked.toNat + 2 * x.effect.toNat + 4 * owned.toNat + 8 * x.neverStolen.toNat) ++
    leBytes 2 x.depth ++ leBytes 4 x.refs ++ [x.cause] ++ leBytes 1 x.cls ++ leBytes 2 x.pending ++ tile.desc ++
    leBytes 8 x.card.toNat ++ leBytes 8 waiters ++ leBytes 8 x.chain.toNat ++
    leBytes 8 (if x.state = .running then (oldestWait s ctx (handleWord x.gen s.domain.index i)).toNat else 0)

/-- The 64 bytes of an EMPTY entry: its generation and zeros (R120, R121). -/
def emptyEntry (gen : Nat) : List Byte := leBytes 4 gen ++ List.replicate 60 0

/-- Selector 4: the handle table entry at the home and index of p3 (R120). -/
def execQueryHandleEntry (s : State) : Host.Outcome State Fault Refusal :=
  performQuery 4 (fun v c s => do
    let x ← ctxNamed s v c.ctx true
    let i := handleIndex c.p3
    if handleHome c.p3 ≠ s.domain.index then
      let (t, l) := drawn Config.freeRemote s 8
      pure (t, wordsOf l)
    else match x.handles.find i with
      | some h =>
        let (t, l) := drawn Config.freeWaiters s 1
        pure (t, handleEntry s c.ctx i h (sumNat l))
      | none => match x.hgens.find i with
        | some g => pure (s, emptyEntry g.toNat)
        | none =>
          let (t, l) := drawn Config.freeHandleGen s 1
          let g := BitVec.ofNat 20 (sumNat l % 0xFFFFF + 1)
          pure (t.onCtx c.ctx fun y => { y with hgens := y.hgens.put i g }, emptyEntry g.toNat)) s

/-- Selector 5: the stream generation of the page at p3 (R222). -/
def execQueryStreamGeneration (s : State) : Host.Outcome State Fault Refusal :=
  performQuery 5 (fun v c s => do
    let _ ← ctxNamed s v c.ctx true
    match (s.leaves c.ctx c.p3.toNat (c.p3.toNat + 1)).head? with
    | none => .error rUnreadable
    | some l => match s.leafFrame c.ctx l with
      | none => .error rUnreadable
      | some f => pure (s, wordsOf [f.sgen.toNat])) s

/-- The state of a dugout entry as a number: 0 FREE, 1 PARKED, 1 + k in stage k of PROMOTING. -/
def DugState.number : DugState → Nat
  | .parked => 1
  | .promoting k => 1 + k

/-- Selector 6: the dugout entry with id p3; an id that names none shows a FREE entry, all zeros (R291). -/
def execQueryDugoutEntry (s : State) : Host.Outcome State Fault Refusal :=
  performQuery 6 (fun v c s => do
    let _ ← ctxNamed s v c.ctx true
    match (s.dugNamed c.ctx c.p3).bind s.floor.dugout.find with
    | none => pure (s, wordsOf (List.replicate 12 0))
    | some e => pure (s, wordsOf [c.p3.toNat, e.state.number, e.ctx, e.win, e.rcard.toNat, e.rargs.toNat,
          e.mbox, e.tcxl, e.tflash, e.order, e.cls, e.parkedAt])) s

/-- Selector 7: the region set aside for the NVMe queues (R363). -/
def execQueryNvmeRegion (s : State) : Host.Outcome State Fault Refusal :=
  performQuery 7 (fun _ _ s => .ok (s, wordsOf [Config.nvmeRegion.1.toNat, Config.nvmeRegion.2.toNat])) s

/-- The base of a context's arena on each package of the domain; that on a package which has joined since the context
was made is free (R129; log entry 11). -/
def arenaBases (s : State) (x : Context) : State × List Nat :=
  let (t, l) := drawn Config.freeRemote s s.domain.size
  (t, l.zipIdx.map fun y =>
    if y.2 = s.domain.index then x.arenaBase
    else match x.awayArenas.find? (·.1 == y.2) with
      | some a => a.2
      | none => y.1 % 2 ^ 36 * 0x200000)

/-- Selector 8: base and size of the arena on each package (R129). -/
def execQueryArena (s : State) : Host.Outcome State Fault Refusal :=
  performQuery 8 (fun v c s => do
    let x ← ctxNamed s v c.ctx true
    let (t, bs) := arenaBases s x
    pure (t, wordsOf (bs.flatMap fun b => [b, x.arena]))) s

end Sys2Proof.Machine
end

