-- ==== Sys2Proof/Machine/Registers.lean ====
section
/-!
DEFINITION. The host's registers, the resets and power (spec/21_host_fabric_firmware.md R355, R356, R367, R368;
spec/15_translation_paging.md R280).
-/
namespace Sys2Proof.Machine

open Sys2Proof

/-- Whether the registers of a function can be reached: a VF's while it is enabled, the PF's always (log entry 20). -/
def State.vfLive (s : State) (v : Nat) : Bool := v = pfNumber || (decide (v < 64) && (s.vf v).enabled)

/-- Changes the registers of a function that can be reached. -/
def State.onRegs (s : State) (v : Nat) (f : VfRegs → VfRegs) : State :=
  if s.vfLive v then s.onVf v fun x => { x with regs := f x.regs } else s

/-! ## Queue pointers and STAT (R355) -/

/-- CMDTAIL_WRITE (R355). -/
def execCmdtailWrite (s : State) : Host.Outcome State Fault Refusal :=
  match s.arg with
  | .vfVal v x => .next (s.onRegs v fun r => { r with cmdTail := x.setWidth 16 })
  | _ => .next s

/-- CPLHEAD_WRITE (R355): held completions are posted as room appears. -/
def execCplheadWrite (s : State) : Host.Outcome State Fault Refusal :=
  match s.arg with
  | .vfVal v x =>
    if s.vfLive v then
      let t := s.onRegs v fun r => { r with cplHead := x.setWidth 16 }
      .next (postHeld v ((t.vf v).heldCpl.length + 1) t)
    else .next s
  | _ => .next s

/-- Nanoseconds from the oldest held fault record to its batch (R280). -/
def batchTime : Nat := 4000

/-- Whether the held records of a function make a batch (R280). -/
def State.batchDue (s : State) (v : Nat) : Bool :=
  match (s.vf v).faults with
  | [] => false
  | x :: t => decide (64 ≤ (x :: t).length) || decide (x.time.toNat + batchTime ≤ s.time.toNat)

/-- FAULT_BATCH_POST (R280). -/
def execFaultBatchPost (s : State) : Host.Outcome State Fault Refusal :=
  match s.arg with
  | .vf v => .next (if s.batchDue v then s.postBatch v else s)
  | _ => .next s

/-- FLTHEAD_WRITE (R280, R355): records held while the ring was full are posted. -/
def execFltheadWrite (s : State) : Host.Outcome State Fault Refusal :=
  match s.arg with
  | .vfVal v x =>
    let t := s.onRegs v fun r => { r with fltHead := x.setWidth 16 }
    .next (if t.batchDue v then t.postBatch v else t)
  | _ => .next s

/-- STAT_WRITE (R355): a 1 clears an overflow bit. -/
def execStatWrite (s : State) : Host.Outcome State Fault Refusal :=
  match s.arg with
  | .vfVal v x => .next (s.onRegs v fun r => { r with stat := r.stat &&& ~~~(x.setWidth 3 &&& 6) })
  | _ => .next s

/-! ## Plain registers (R355, R356) -/

/-- The fields of a queue base register. -/
def baseField (x : Word) : Word := x &&& 0xFFFFFFFFFFFFF03F

/-- A queue base is written only while its queue is disabled. -/
def writeBase (old x : Word) : Word := if ringOn old then old else baseField x

/-- A write to a register of BAR0 that only stores. -/
def VfRegs.write (r : VfRegs) (off : Nat) (x : Word) : VfRegs :=
  match off with
  | 0x008 => { r with cmdBase := writeBase r.cmdBase x }
  | 0x020 => { r with cplBase := writeBase r.cplBase x }
  | 0x040 => { r with fltBase := writeBase r.fltBase x }
  | 0x060 => { r with evBase := writeBase r.evBase x }
  | 0x070 => { r with evHead := x.setWidth 16 }
  | 0x080 => { r with intMask := x.setWidth 4 }
  | 0x088 => { r with winCtx := x.setWidth 32 }
  | 0x090 => { r with winVa := x &&& 0x01FFFFFFC0000000 }
  | _ => r

/-- A write to the PF's block of a disabled VF. -/
def PfBlock.write (b : PfBlock) (off : Nat) (x : Word) : PfBlock :=
  match off with
  | 0x00 => { b with hbm := x }
  | 0x08 => { b with cxl := x }
  | 0x10 => { b with cores := x.setWidth 16 }
  | 0x18 => { b with sign := x.getLsbD 0, keys := (x >>> 8).setWidth 4 }
  | 0x20 => { b with keytab := x }
  | _ => b

/-- REGISTER_WRITE (R355, R356). A completion queue that it enables takes what was held. -/
def execRegisterWrite (s : State) : Host.Outcome State Fault Refusal :=
  match s.arg with
  | .reg (.vf v) off x =>
    if s.vfLive v then
      let t := s.onRegs v fun r => r.write off x
      .next (postHeld v ((t.vf v).heldCpl.length + 1) t)
    else .next s
  | .reg .pf off x =>
    let v := (off - 0x1000) / 64
    if 0x1000 ≤ off ∧ v < 64 ∧ !(s.vf v).enabled then
      .next (s.onVf v fun f => { f with pf := f.pf.write (off % 64) x })
    else .next s
  | _ => .next s

/-! ## Enabling, resets, power (R356, R367, R368) -/

/-- The keys that the firmware reads from a function's key table (R356). -/
def State.readKeys (s : State) (b : PfBlock) : List (List Byte) :=
  (List.range (min b.keys.toNat 8)).map fun i => s.hostRead (b.keytab.toNat + 2048 * i) 1793

/-- VF_ENABLE (R356): a VF that comes up has its keys read and STAT.ready set. -/
def execVfEnable (s : State) : Host.Outcome State Fault Refusal :=
  match s.arg with
  | .enable v on =>
    if 64 ≤ v then .next s
    else if on then
      .next (s.onVf v fun f =>
        { f with enabled := true, keys := s.readKeys f.pf, regs := { f.regs with stat := f.regs.stat ||| 1 } })
    else .next (s.onVf v fun f => { f with enabled := false, regs := { f.regs with stat := f.regs.stat &&& 6 } })
  | _ => .next s

/-- FUNCTION_LEVEL_RESET (R367): CTX_DESTROY on each of the function's contexts, and its registers at their resets;
what its queues held is gone with them. -/
def execFunctionLevelReset (s : State) : Host.Outcome State Fault Refusal :=
  match s.arg with
  | .vf v =>
    if 64 ≤ v then .next s
    else
      let ids := (s.floor.contexts.filter fun x => x.2.vf = v).map (·.1)
      let t := ids.foldl State.destroyContext s
      .next (t.onVf v fun f => { f with
        regs := .reset, commands := [], heldCpl := [], cplPhase := true, faults := [], evDropped := 0, irqs := [0, 0, 0, 0] })
  | _ => .next s

/-- COLD_RESET (R367): the part comes up through its steps. Host memory is not the part's. -/
def execColdReset (s : State) : Host.Outcome State Fault Refusal :=
  .next { State.reset with hostMem := s.hostMem, draws := s.draws }

/-- POWER_SAMPLE (R368): 100 samples make a millisecond; above 2,600 W the clock falls by 50 MHz, below 2,400 W it is
restored. -/
def execPowerSample (s : State) : Host.Outcome State Fault Refusal :=
  match s.arg with
  | .watts w =>
    let l := (w :: s.power).take 100
    let t := { s with power := l }
    if l.length < 100 then .next t
    else if 2600 * 100 < sumNat l then .next { t with clock := t.clock - 50 }
    else if sumNat l < 2400 * 100 then .next { t with clock := Config.clockMHz }
    else .next t
  | _ => .next s

end Sys2Proof.Machine
end

