-- ==== Sys2Proof/Machine/Fabric.lean ====
section
/-!
DEFINITION. Accesses of the host and of peers, and flits that arrive (spec/12_ordering_by_page_type.md R225, R226, R231, R232;
spec/15_translation_paging.md R281; spec/21_host_fabric_firmware.md R357, R364).
-/
namespace Sys2Proof.Machine

open Sys2Proof

/-! ## Host and peers -/

/-- Bytes of a bus access. -/
def busSize (a : BusAccess) : Nat :=
  match a with
  | .read n => n
  | .write bs => bs.length
  | .atomic _ x => x.length

/-- Whether a bus access returns bytes. -/
def busReads (a : BusAccess) : Bool :=
  match a with
  | .write _ => false
  | _ => true

/-- The first n bytes of an access, and what follows them; an atomic is whole. -/
def busFirst (n : Nat) : BusAccess → BusAccess
  | .read m => .read (min n m)
  | .write bs => .write (bs.take n)
  | .atomic f x => .atomic f x
def busRest (n : Nat) : BusAccess → BusAccess
  | .read m => .read (m - n)
  | .write bs => .write (bs.drop n)
  | .atomic _ _ => .write []

/-- What a read of n bytes returns that is not performed. -/
def ones (n : Nat) : List Byte := List.replicate n 0xFF

/-- Hands the bytes of an access to its reader. -/
def State.answer (s : State) (a : BusAccess) (bs : List Byte) : State := if busReads a then { s with busData := bs } else s

/-- The event of an access that is refused or not performed: a reason and the cause that it met (R351). -/
def State.busEvent (s : State) (v ctx va reason : Nat) (cause : Byte) : State :=
  s.postEvent v ⟨ctx, 6, cause, 7, 65536 * s.domain.index, noPc, 0, leBytes 8 reason ++ leBytes 8 va⟩

/-- An access that is refused or not performed, whole. -/
def State.busRefused (s : State) (v ctx va reason : Nat) (cause : Byte) (a : BusAccess) : State :=
  (s.answer a (ones (busSize a))).busEvent v ctx va reason cause

/-- Reason codes of such an event (R361). -/
def reasonAccess : Nat := rAccess
def reasonWaits : Nat := rWaits

/-- The new bytes that an atomic of the bus forms from the old ones (R225, R234; log entry 93). -/
def busAmo (op : RvAmo) (x old : List Byte) : List Byte :=
  leBytes old.length (amoValue op (BitVec.ofNat (8 * old.length) (leNat old)) (BitVec.ofNat (8 * old.length) (leNat x))).toNat

/-- Performs an access of the bus inside one page, whole; answers the bytes that it returns. -/
def busPerform (ctx va : Nat) (a : BusAccess) : M (List Byte) := do
  let via := viaHost ctx
  let ea := BitVec.ofNat 64 va
  match a with
  | .read n => engineRead via ea n .read
  | .write bs => do
    engineWrite via ea bs
    pure []
  | .atomic (.amo op) x => atomicAt via ea x.length (busAmo op x)
  | .atomic (.cas e) x => do
    let l ← accessAt via ea x.length .atomic
    let old ← gets fun s => locRead s l x.length
    if old = e then change fun s => locWrite s l x else pure ()
    pure old

/-- Performs an access of the bus inside one page, or one page's part of an access that crosses pages (R226). -/
def busPart (split : Bool) (ctx va : Nat) (a : BusAccess) : M (List Byte) :=
  match split, a with
  | true, .read n => partRead (viaHost ctx) va n .read
  | true, .write bs => do
    partCheck (viaHost ctx) va bs.length .write
    busPerform ctx va a
  | _, _ => busPerform ctx va a

/-- Whether a stall at an address ends by itself: at a page in transit or one whose zeroing is not done (R231). -/
def shortStall (s : State) (ctx va : Nat) : Bool :=
  match s.walk ctx va with
  | .leaf _ pte shift _ =>
    pteTier pte = 3 || (pteTier pte = 0 && match s.frameAt (leafPhys pte shift va) with
      | some (_, f) => f.zeroing
      | none => false)
  | _ => false

/-- Bytes of an access that are one part of it: those that lie in the page where it starts. -/
def partSize (s : State) (ctx va : Nat) (a : BusAccess) : Nat :=
  match a with
  | .atomic _ x => x.length
  | _ => min (busSize a) (toPageEnd s ctx va)

/-- How an access of the bus ends: whole, or stalled for a moment with the part that is left and the bytes so far. -/
inductive BusEnd where
  | all (s : State)
  | stalls (s : State) (va : Nat) (rest : BusAccess) (got : List Byte)

/-- Performs an access of the bus page by page (R226, R231, R281): a part that faults, or that would wait, does so
alone, and the parts performed stay. It is never retried after a translation fault. got holds the bytes so far. -/
def busParts (v ctx : Nat) : Nat → Nat → BusAccess → List Byte → State → BusEnd
  | 0, _, _, _, s => .all s
  | fuel + 1, va, a, got, s =>
    let k := partSize s ctx va a
    let part := busFirst k a
    let on (t : State) (bs : List Byte) : BusEnd :=
      if busSize a ≤ k then .all (t.answer a (got ++ bs)) else busParts v ctx fuel (va + k) (busRest k a) (got ++ bs) t
    match busPart (decide (k < busSize a) || decide (got ≠ [])) ctx va part s with
    | .ok (bs, t) => on t bs
    | .error (.wait (.page x)) =>
      if shortStall s ctx x.toNat then
        .stalls (s.reportStall ctx x.toNat ⟨7, 65536 * s.domain.index, noPc⟩) va a got
      else on (s.busEvent v ctx va reasonWaits 0) (ones k)
    | .error (.wait _) => on (s.busEvent v ctx va reasonWaits 0) (ones k)
    | .error (.flt f) =>
      match f.tr with
      | some t => on (s.produceFault ctx 0 t 3 true) (ones k)
      | none => on (s.busEvent v ctx va reasonAccess f.cause) (ones k)

/-- A host or peer access of at least one byte, with the bytes of it that are there already. -/
def busTry (v ctx va : Nat) (a : BusAccess) (got : List Byte) (s : State) : BusEnd :=
  if 2 ^ 57 < va + busSize a then .all ((s.answer a (got ++ ones (busSize a))).busEvent v ctx va reasonAccess cBadAperture)
  else busParts v ctx (busSize a + 1) va a got s

/-- Whether an access of the same function or peer stalls. -/
def stallsFor (s : State) (peer : Bool) (src : Nat) : Bool := s.stalled.any fun x => x.peer = peer && x.src == src

/-- An access that arrives. It stalls behind those of its function or peer that stall already, so that they perform in
the order of delivery (R232). -/
def busAccess (peer : Bool) (src v ctx va : Nat) (a : BusAccess) (s : State) : State :=
  let hold (t : State) (va : Nat) (a : BusAccess) (got : List Byte) : State :=
    { t.onFloor (fun f => { f with nextItem := f.nextItem + 1 }) with
      stalled := t.stalled ++ [⟨t.floor.nextItem, peer, src, ctx, va, a, got⟩] }
  if busSize a = 0 then s
  else if stallsFor s peer src then hold s va a []
  else match busTry v ctx va a [] s with
    | .all t => t
    | .stalls t va rest got => hold t va rest got

/-- What becomes of a stalled access whose context is gone, or belongs to another function by now (R357). -/
def busGone (x : Stalled) (s : State) : State :=
  let t := s.answer x.acc (x.got ++ ones (busSize x.acc))
  if x.peer then t else t.busEvent x.src x.ctx x.va reasonAccess 0

/-- A stalled access, the first of its function or peer, goes on. -/
def busAgain (id : Nat) (s : State) : State :=
  match s.stalled.find? (·.id == id) with
  | none => s
  | some x =>
    if stallsFor { s with stalled := s.stalled.takeWhile (·.id ≠ id) } x.peer x.src then s
    else
      let t := { s with stalled := s.stalled.filter (·.id ≠ id) }
      match t.ctxOf x.ctx with
      | none => busGone x t
      | some c =>
        if !x.peer && c.vf ≠ x.src then busGone x t
        else match busTry c.vf x.ctx x.va x.acc x.got t with
          | .all u => u
          | .stalls u va rest got => { u with stalled := s.stalled.map fun y =>
              if y.id = id then { y with va := va, acc := rest, got := got } else y }

/-- HOST_ACCESS (R357): an access at an offset of a VF's window, inside one 64-byte line; or one that has stalled. -/
def execHostAccess (s : State) : Host.Outcome State Fault Refusal :=
  match s.arg with
  | .host v off a =>
    let r := (s.vf v).regs
    let va := r.winVa.toNat + off
    let ctx := r.winCtx.toNat
    if 64 ≤ v ∨ !s.vfLive v ∨ 2 ^ 36 ≤ off ∨ 64 < off % 64 + busSize a then .next s
    else match s.ctxOf ctx with
      | none => .next (s.busRefused v ctx va reasonAccess 0 a)
      | some c =>
        if c.vf ≠ v then .next (s.busRefused v ctx va reasonAccess 0 a)
        else .next (busAccess false v v ctx va a s)
  | .item id => .next (busAgain id s)
  | _ => .next s

/-- PEER_ACCESS (R231): an access of another package of the domain, or one that has stalled. -/
def execPeerAccess (s : State) : Host.Outcome State Fault Refusal :=
  match s.arg with
  | .peer pkg ctx va a =>
    if !(pkg ∈ s.domain.live) ∨ pkg = s.domain.index then .next s
    else match s.ctxOf ctx with
      | none => .next (s.answer a (ones (busSize a)))
      | some c => .next (busAccess true pkg c.vf ctx va a s)
  | .item id => .next (busAgain id s)
  | _ => .next s

/-! ## Links (R364) -/

/-- Replays that fail in a row before a link retrains. -/
def replayLimit : Nat := 8

/-- A bad CRC asks for replay from the last good number; a request that was answered by a bad CRC is a failed replay
(R364). -/
def badFlit (n : Nat) (s : State) : State :=
  let l := s.link n
  let failed := if l.replayAsked.isSome then l.failed + 1 else l.failed
  let t := (s.setLink n { l with failed := failed, replayAsked := some (l.nextSeq - 1) }).askReplay n
  if replayLimit ≤ failed then t.soon [.event .linkRetrain (.link n)] else t

/-- A good request for replay is answered with the flits past its acknowledged number (R364). -/
def replayFlit (n : Nat) (f : Flit) (s : State) : State := (s.setLink n ((s.link n).heed f)).replay n

/-- A good flit in link sequence: the link takes what it tells the sender. One for this package is taken; any other goes
on towards its destination. -/
def goodFlit (n : Nat) (f : Flit) (s : State) : State :=
  let l := (s.link n).heed f
  let t := s.setLink n { l with up := true, nextSeq := f.seq + 1, failed := 0, replayAsked := none, owed := l.owed + 1 }
  (if f.dst.toNat = s.domain.index then t.onDomain (takeFlit f) else t.sendFlit f).flushFlits.noteRoutes

/-- FLIT_RECEIVE (R364). A flit out of link sequence is a repeat, or follows one that is replayed. -/
def execFlitReceive (s : State) : Host.Outcome State Fault Refusal :=
  match s.arg with
  | .flit n f =>
    if linkCount ≤ n then .next s
    else if f.crc ≠ crc64 (flitBytes f) then .next (badFlit n s)
    else if f.kind = Config.replayKind then .next (replayFlit n f s).flushFlits
    else if f.seq ≠ (s.link n).nextSeq then .next s
    else .next (goodFlit n f s)
  | _ => .next s

/-- LINK_RETRAIN (R364): the link's traffic moves to others; it is up again with its next good flit. -/
def execLinkRetrain (s : State) : Host.Outcome State Fault Refusal :=
  match s.arg with
  | .link n => .next (if n < linkCount then (s.moveTraffic n).flushFlits.noteRoutes else s)
  | _ => .next s

/-- PACKAGE_LOST (R364): a package that no path has reached for 10 ms leaves the domain. Every context has tables and an
arena in every package, so every context takes CONTEXT_LOST. A path past the links that fails or comes back is noted. -/
def execPackageLost (s : State) : Host.Outcome State Fault Refusal :=
  match s.arg with
  | .path p up =>
    .next (s.onDomain fun d => { d with cut := if up then d.cut.filter (· ≠ p) else addMark p d.cut }).noteRoutes
  | .pkg p =>
    if p = s.domain.index ∨ !(p ∈ s.domain.live) ∨ !s.lossDue p then .next s
    else
      let ids := (s.floor.contexts.filter (!·.2.lost)).map (·.1)
      let code := Config.freeRemote s.draws % 256
      let t := { s.onDomain (fun d => { d with live := d.live.filter (· ≠ p) }) with draws := s.draws + 1 }.noteRoutes
      .next (ids.foldl (fun u c => u.loseContext c code) t)
  | _ => .next s

end Sys2Proof.Machine
end

