-- ==== Sys2Proof/Machine/Errors.lean ====
section
/-!
DEFINITION. Errors of storage and logic (spec/20_faults_errors.md R346 to R352; spec/09_matrix_engine.md R181;
spec/18_umpire_supersteps_exchange.md R322, R323).
-/
namespace Sys2Proof.Machine

open Sys2Proof

/-! ## Counts (R352) -/

/-- The structure codes of R352. -/
def sPool : Nat := 1
def sCanvas : Nat := 2
def sStore : Nat := 3
def sRegisters : Nat := 4
def sQueues : Nat := 5
def sFloor : Nat := 6
def sHbm : Nat := 7
def sCxl : Nat := 8

/-- The counter of a structure. -/
def State.errCount (s : State) (u : ErrUnit) : ErrCount := (s.floor.errors.find? (·.unit == u)).getD ⟨u, 0, 0, [], none⟩

/-- Writes a counter. -/
def State.putErr (s : State) (x : ErrCount) : State :=
  s.onFloor fun f => { f with errors := f.errors.filter (·.unit ≠ x.unit) ++ [x] }

/-- Nanoseconds in a second. -/
def second : Nat := 1000000000

/-- Whether a structure is one of one core or of one stack (R352). The store and the registers of an umpire, which
belongs to a court, are not (log entry 98). -/
def localUnit (u : ErrUnit) : Bool :=
  (decide (1 ≤ u.code) && decide (u.code ≤ 5) && decide (u.inst < Config.cores)) ||
    (u.code = sHbm && decide (u.inst < Config.hbmStacks))

/-- The where field for a core, for a court, and for the package (R350). -/
def corePlace (s : State) (n : Nat) : Nat := posWord s n
def courtPlace (s : State) (c : Nat) : Nat := 256 * c + 65536 * s.domain.index
def partPlace (s : State) : Nat := 65536 * s.domain.index

/-- The where field for a structure: its core, its umpire's court, or the package. -/
def unitPlace (s : State) (u : ErrUnit) : Nat :=
  if u.code = sHbm ∨ u.code = sFloor ∨ u.code = sCxl then partPlace s
  else if u.inst < Config.cores then corePlace s u.inst
  else courtPlace s (u.inst - Config.cores)

/-- Whether a structure has corrected more than 64 errors within one second, and posted nothing in the last one. -/
def ErrCount.loud (x : ErrCount) (now : Nat) : Bool :=
  (match x.recent[64]? with
    | some t => decide (now < t + second)
    | none => false) &&
    match x.lastPost with
    | some t => decide (t + second ≤ now)
    | none => true

/-- CORRECTED_ERROR (R346, R352): it is corrected and counted, and changes no result. -/
def execCorrectedError (s : State) : Host.Outcome State Fault Refusal :=
  match s.arg with
  | .unit u =>
    let x := s.errCount u
    let now := s.time.toNat
    let y := { x with corrected := x.corrected + 1, recent := (now :: x.recent).take 65 }
    let t := s.putErr y
    .next (if localUnit u && y.loud now then t.soon [.event .correctedErrorThreshold (.unit u)] else t)
  | _ => .next s

/-- CORRECTED_ERROR_THRESHOLD (R351, R352): one record of kind 4, for a structure of one core or one stack, in the
part's own record. -/
def execCorrectedErrorThreshold (s : State) : Host.Outcome State Fault Refusal :=
  match s.arg with
  | .unit u =>
    let x := s.errCount u
    if localUnit u && x.loud s.time.toNat then
      .next ((s.putErr { x with lastPost := some s.time.toNat }).partEvent
        ⟨0, 4, 0, 7, unitPlace s u, noPc, 0, leBytes 8 u.code ++ leBytes 8 x.corrected⟩)
    else .next s
  | _ => .next s

/-- SCRUB_PASS (R346): it reads and corrects; what it finds is an error of its own. -/
def execScrubPass (s : State) : Host.Outcome State Fault Refusal := .next s

/-! ## Uncorrectable errors (R347, R348) -/

/-- Counts an uncorrectable error and reports it, in the part's own record and in that of every affected context
(R352), with the address or the entry index of what is lost (R351). -/
def State.reportError (s : State) (u : ErrUnit) (ctxs : List Nat) (place : Nat) : State :=
  let x := s.errCount u
  let s1 := s.putErr { x with uncorrected := x.uncorrected + 1 }
  let e (c : Nat) : EventRec := ⟨c, 5, 0, 7, unitPlace s u, noPc, 0, leBytes 8 u.code ++ leBytes 8 place⟩
  ctxs.foldl (fun t c => t.ctxEvent (e c)) (s1.partEvent (e 0))

/-- The context of a core, if it runs a dispatch. -/
def coreCtxs (s : State) (n : Nat) : List Nat := (match s.dispOf n with
  | some (_, d) => [d.ctx]
  | none => [])

/-- Marks something of a core as poisoned and reports it. -/
def markCore (s : State) (n code place : Nat) (f : PoisonMarks → PoisonMarks) : State :=
  if n < Config.cores then
    (s.onCore n fun c => { c with poison := f c.poison }).reportError ⟨code, n⟩ (coreCtxs s n) place
  else s

/-- Marks something of an umpire as poisoned and reports it; the structure's number follows those of the cores. -/
def markUmpire (s : State) (c code place : Nat) (f : Umpire → Umpire) : State :=
  if c < Config.courts then
    (s.onUmpire c f).reportError ⟨code, Config.cores + c⟩ (match (s.court c).umpire.disp with
      | some _ => [(s.court c).umpire.ctx]
      | none => []) place
  else s

/-- The page of the CXL tier that holds an offset of the expander range, and the offset in it: a function's pages stand
in its region in the controller's order (log entry 30). -/
def cxlPage (s : State) (off : Nat) : Option (OutPage × Nat) :=
  s.vfs.findSome? fun v =>
    if v.2.cxlOff ≤ off ∧ off < v.2.cxlOff + v.2.cxlBytes then
      (((s.floor.out.filter fun o => s.ctxVf o.ctx = v.1 && o.tier = 1)[(off - v.2.cxlOff) / 65536]?).map fun o =>
        (o, (off - v.2.cxlOff) % 65536))
    else none

/-- The tables below an entry's table, with n levels left, each with its bytes (R265, R271, R272, R273). -/
def tablesFrom (s : State) : Nat → Nat → List (Nat × Nat)
  | 0, t => [(t, 4096)]
  | n + 1, t => (t, 4096) :: ((List.range 512).flatMap fun i =>
      let e := s.physNat (t + 8 * i) 8
      if !natBit e 0 then []
      else if natBits e 2 1 = 0 then tablesFrom s n (pteFrame e)
      else if natBits e 2 1 = 2 then
        (pteFrame e, 4096) :: ((List.range 512).filterMap fun g =>
          let x := s.physNat (pteFrame e + 8 * g) 8
          if natBit x 0 then some (pteFrame x, 64 + 8 * s.physNat (pteFrame x) 2) else none)
      else [])

/-- The contexts that have something of floor-reserved memory in [lo, hi): a table, or their default save area (R333,
R354). -/
def reservedCtxs (s : State) (lo hi : Nat) : List Nat :=
  (s.floor.contexts.filter fun c =>
    ((c.2.saveBase, c.2.saveArea) :: tablesFrom s 4 c.2.root).any fun t => overlap t.1 t.2 lo (hi - lo)).map (·.1)

/-- A line of HBM or CXL memory is poisoned (R347). Affected is the context of its frame, or each one of whose tables or
default save area it is a part (R352). -/
def poisonLine (s : State) (p : Nat) : State :=
  if natBits p 43 42 = 1 then
    match cxlPage s (natBits p 41 0) with
    | none => s.reportError ⟨sCxl, 0⟩ [] p
    | some (o, off) =>
      (s.onOut o.ctx o.va fun x => { x with poison := addMark (off / 64) x.poison }).reportError ⟨sCxl, 0⟩ [o.ctx] p
  else
    let ctxs := match s.frameAt p with
      | some (_, f) => [f.ctx]
      | none => reservedCtxs s (p / 64 * 64) (p / 64 * 64 + 64)
    (s.onFloor fun f => { f with lines := addMark (p / 64) f.lines }).reportError ⟨sHbm, natBits p 38 36⟩ ctxs p

/-- Whether a context has state in a table of the floor (R346, R348). -/
def inTable (s : State) (t : FloorTable) (c : Nat × Context) : Bool :=
  match t with
  | .distributor => s.floor.dispatches.any fun d => d.2.ctx = c.1 && s.waitsHere d.1 d.2
  | .dependence =>
    (c.2.handles.any fun x => x.2.effect && (x.2.state = .demanded || x.2.state = .ready || x.2.state = .running)) ||
      s.floor.bulk.any fun b => match s.disp b.disp with
        | some d => d.ctx = c.1
        | none => false
  | .sparks => c.2.sparks ≠ []
  | .handles => c.2.handles ≠ []
  | .dugout => s.floor.dugout.any fun e => e.2.ctx = c.1
  | .gate => s.courts.any fun x => x.2.umpire.ctx = c.1 && x.2.umpire.disp.isSome && (x.2.gate.records ≠ [] || x.2.gate.parts ≠ [])
  | .barriers => s.floor.dispatches.any fun d => d.2.ctx = c.1 && d.2.gbars ≠ []

/-- The contexts that have state in a table of the floor. -/
def floorCtxs (s : State) (t : FloorTable) : List Nat := (s.floor.contexts.filter (inTable s t)).map (·.1)

/-- Entries that a core's queue holds; 17 and 18 are the engine queues (R254). -/
def entryCount (c : Core) (id : Nat) : Nat :=
  if id = 17 then c.mx.queue.length else if id = 18 then c.copy.length else c.holds id

/-- The gang that streams at a core (R175, R181): its SCRUM runs from the moment that every member is at the meeting. -/
def gangAt (s : State) (n : Nat) : List Nat :=
  match scrumHead (s.core n), s.dispOf n with
  | some lvl, some (_, d) =>
    let ms := gangOf d (s.core n).lvl lvl
    if ms.all (atMeeting s lvl) then ms.map (·.cur) else []
  | _, _ => []

/-- The gang of a core aborts (R181); outside a SCRUM that streams the tile alone is lost. Log entry 65. -/
def gangError (s : State) (n tile : Nat) : State :=
  match gangAt s n with
  | [] => s.onCore n fun c => { c with mx := { c.mx with poisoned := c.mx.poisoned ||| BitVec.ofNat 8 (2 ^ tile) } }
  | m :: ms => gangAbort s (m :: ms)

/-- The address at which a strand names a byte of its scratchpad or of its stack (R54). -/
def poolAddr (_k : Strand) (scratch : Bool) (off : Nat) : Nat :=
  (if scratch then 0xF000000000000000 else 0xF200000000000000) + off

/-- Where the first image of a dispatch lies: its address in the save table, or its number where no table holds it. -/
def imagePlace (s : State) (k : Nat) : Nat :=
  match s.disp k, s.floor.images.find? (·.disp == k) with
  | some d, some i =>
    let off := slotOff d i.core.lvl
    if d.save ≠ 0 then d.save.toNat + off
    else match d.table with
      | some p => p + off
      | none => i.rank
  | _, _ => 0

/-- The outcome of an uncorrectable error by where it lies (R348). -/
def uncorrectable (s : State) (e : ErrSite) : State :=
  match e with
  | .line p => poisonLine s p
  | .pool n k scratch off =>
    markCore s n sPool (poolAddr k scratch off) fun m => { m with
      granules := addMark (if scratch then Space.scratch else stackSpace k, off / 16) m.granules }
  | .canvas n off => markCore s n sCanvas (off / 16) fun m => { m with granules := addMark (Space.canvas, off / 16) m.granules }
  | .vreg n r => markCore s n sPool r fun m => { m with granules := addMark (Space.vregs, r) m.granules }
  | .tile n t g => markCore s n sPool (2560 * t + g) fun m => { m with granules := addMark (Space.tiles, 2560 * t + g) m.granules }
  | .eReg n r => markCore s n sRegisters r fun m => { m with eRegs := addMark r m.eRegs }
  | .eCsr n r => markCore s n sRegisters (0x1000 + r) fun m => { m with eRegs := addMark (0x1000 + r) m.eRegs }
  | .rvReg n k r => markCore s n sRegisters r fun m => { m with rvRegs := addMark (k, r) m.rvRegs }
  | .umpireStore c pc =>
    markUmpire s c sStore pc fun u => { u with badWords := addMark (pc / 4) u.badWords }
  | .umpireReg c n => markUmpire s c sRegisters n fun u => { u with badRegs := addMark n u.badRegs }
  | .heldTransfer n place =>
    if place < (s.core n).held.length then
      (s.onCore n fun c => { c with held := c.held.zipIdx.map fun x =>
        if x.2 = place then { x.1 with bad := true } else x.1 }).reportError ⟨sQueues, n⟩ (coreCtxs s n) place
    else s
  | .store n k i => markCore s n sStore (if k = .e then i else 4 * i) fun m => { m with words := addMark (k, i) m.words }
  | .queueEntry n id place =>
    if place < entryCount (s.core n) id then
      markCore s n sQueues place fun m => { m with entries := addMark (id, place) m.entries }
    else s
  | .floorTable c i => (s.reportError ⟨sFloor, 0⟩ [c] i).loseContext c sFloor
  | .floorUnknown t i =>
    (floorCtxs s t).foldl (fun u c => u.loseContext c sFloor) (s.reportError ⟨sFloor, 0⟩ (floorCtxs s t) i)
  | .pageTable p =>
    (s.onFloor fun f => { f with ptes := addMark p f.ptes }).reportError ⟨sHbm, natBits p 38 36⟩ (reservedCtxs s p (p + 1)) p
  | .savedImage k =>
    let ctxs := match s.disp k with
      | some d => [d.ctx]
      | none => []
    (s.onFloor fun f => { f with images := f.images.map fun i => if i.disp = k then { i with bad := true } else i }).reportError
      ⟨sHbm, 0⟩ ctxs (imagePlace s k)
  | .gang n t => gangError (s.reportError ⟨sPool, n⟩ (coreCtxs s n) t) n t

/-- UNCORRECTABLE_ERROR (R347, R348). -/
def execUncorrectableError (s : State) : Host.Outcome State Fault Refusal :=
  match s.arg with
  | .site e => .next (uncorrectable s e)
  | _ => .next s

/-! ## Withdrawn hardware (R323, R349) -/

/-- Reports withdrawn hardware, in the part's record and in that of every context that ran on it (R351).
Log entry 63. -/
def State.reportWithdrawn (s : State) (kind place : Nat) (ctxs : List Nat) : State :=
  let e (c : Nat) : EventRec := ⟨c, 8, 0, 7, place, noPc, 0, leBytes 1 kind⟩
  ctxs.foldl (fun t c => t.ctxEvent (e c)) (s.partEvent (e 0))

/-- The POISON of a dispatch that ran on a withdrawn core, at the core's E (R349): where E has halted, a live task
aborts and any other dispatch ends (R131, R180). Log entry 64. -/
def poisonCore (s : State) (n : Nat) : State :=
  match s.dispOf n with
  | none => s
  | some (k, d) =>
    let info := (s.core n).pos.setWidth 64
    if (s.core n).e.run ≠ .stopped then s.raiseE n ⟨cPoison, info, none⟩
    else if d.liveTask then s.abortTask k (whoStrand s n .e) cPoison info false
    else s.failInfo k (whoStrand s n .e) cPoison info

/-- The cores of a list that take part in a SCRUM, each gang once. -/
def gangsOf (s : State) (ns : List Nat) : List (List Nat) := ((ns.map (gangAt s)).filter (· ≠ [])).eraseDups

/-- Cores of a row of a court. -/
def rowCores (court row : Nat) : List Nat := (List.range 16).map (coreAt court row)

/-- Cores of a court. -/
def courtCores (court : Nat) : List Nat := (List.range Config.coresPerCourt).map (court * Config.coresPerCourt + ·)

/-- Sets alt in the entries of an expert table whose first destination was placed on a die (R312, R323 step 3). -/
def setAlts (s : State) (d : Dispatch) (die xtab : Nat) : Nat → State
  | 0 => s
  | n + 1 =>
    let t := setAlts s d die xtab n
    match t.tryRead d.ctx (BitVec.ofNat 64 (xtab + 8 * n)) 8 with
    | none => t
    | some b =>
      let e := leNat b
      if !natBit e 48 && d.cores.any (fun y => y.lvl.toNat % 65536 = e % 65536 && courtOf y.stood = die) then
        t.putVa d.ctx (xtab + 8 * n) (leBytes 8 (e + 2 ^ 48))
      else t

/-- Step 3 of R323, for a restartable launch that asked for the ROM router. -/
def rerouteDie (s : State) (d : Dispatch) (die : Nat) : State :=
  match d.origin with
  | .launch _ _ block 2 =>
    if d.restartable then
      match s.tryRead d.ctx block 64 with
      | none => s
      | some b => setAlts s d die (fieldAt b 0x18 8) (fieldAt b 0x24 2)
    else s
  | _ => s

/-- A lost core stops, and leaves its dispatch (R323 step 1). What it had sent goes on under its number there. -/
def stopLost (k : Nat) (s : State) (n : Nat) : State :=
  match s.disp k with
  | none => s
  | some d => ((s.renumber k n (awayNumber (rankOf d n))).onDisp k (·.retireAt n)).freeCore n

/-- The saved cores of a dispatch. -/
def awayCores (s : State) (k : Nat) (d : Dispatch) : List Nat :=
  (d.cores.zipIdx.filter fun y => s.floor.images.any fun i => i.disp = k && i.rank = y.2).map (·.1.cur)

/-- What becomes of a dispatch that had cores on a disabled die (R322, R323): every other core takes
EXCHANGE_TIMEOUT, a saved one too; a dispatch with no other core takes it for a lost one. Log entry 64. -/
def dieFault (die : Nat) (s : State) (k : Nat) : State :=
  match s.disp k with
  | none => s
  | some d =>
    let ns := (s.cores.filter fun x => x.2.disp = some k).map (·.1)
    let lost := ns.filter fun n => courtOf n = die
    let others := (ns.filter fun n => courtOf n ≠ die) ++ awayCores s k d
    match lost with
    | [] => s
    | n :: _ =>
      let info := (s.core n).pos.setWidth 64
      if d.liveTask ∨ d.stalls then
        ((rerouteDie s d die).exchangeFault k n info).countFaults d.ctx (others.length - 1)
      else
        let t := lost.foldl (stopLost k) s
        if others = [] then t.failInfo k (whoEngine s n) cExchangeTimeout info
        else faultEach k d.ctx (fun u m => u.exchangeFault k m info) t others t

/-- Takes a die out of placement, and deals with each dispatch that had cores on it (R323). -/
def disableDie (s : State) (c : Nat) : State :=
  let ks := ((s.cores.filter fun x => courtOf x.1 = c).filterMap (·.2.disp)).eraseDups
  ks.foldl (dieFault c) (s.onFloor fun f => { f with withdrawnDies := addMark c f.withdrawnDies })

/-- HARDWARE_WITHDRAWN (R349): placement stops at once, and each dispatch that ran on the hardware is dealt with: a core
at a SCRUM that streams takes its gang with it. A row's gang wire withdraws the row and disables the die. An error in
logic posts the record of kind 8 alone, none of kind 5, and is counted for no structure. Log entries 64 and 98. -/
def withdraw (s : State) (h : Hardware) : State :=
  match h with
  | .core n =>
    let s1 := s.onFloor fun f => { f with withdrawnCores := addMark n f.withdrawnCores }
    let s2 := s1.reportWithdrawn 0 (corePlace s n) (coreCtxs s n)
    match gangAt s n with
    | [] => poisonCore s2 n
    | m :: ms => gangAbort s2 (m :: ms)
  | .row c r =>
    let ns := rowCores c r
    let s1 := s.onFloor fun f => { f with withdrawnCores := ns.foldl (fun l n => addMark n l) f.withdrawnCores }
    let s2 := s1.reportWithdrawn 1 (courtPlace s c) (ns.flatMap (coreCtxs s)).eraseDups
    disableDie ((gangsOf s ns).foldl gangAbort s2) c
  | .die c =>
    disableDie (s.reportWithdrawn 2 (courtPlace s c) ((courtCores c).flatMap (coreCtxs s)).eraseDups) c

/-- HARDWARE_WITHDRAWN (R323, R349). -/
def execHardwareWithdrawn (s : State) : Host.Outcome State Fault Refusal :=
  match s.arg with
  | .hardware h => .next (withdraw s h)
  | _ => .next s

end Sys2Proof.Machine
end

