-- ==== Sys2Proof/Machine/Dispatch.lean ====
section
/-!
DEFINITION. The meaning of every step of the part: one arm per constructor, each one call of its meaning.
-/
namespace Sys2Proof.Machine

open Sys2Proof

/-- Performs one step of the part for the strand, umpire or event that the state names (R28 and the rule of each row
of spec/opcode_table.json). -/
def exec (i : Instr) (s : State) : Host.Outcome State Fault Refusal :=
  match i with
  | .nop w => Sys2Proof.Machine.execNop w s
  | .hintWord op fn w => Sys2Proof.Machine.execHintWord op fn w s
  | .add w => Sys2Proof.Machine.execAdd w s
  | .addss w => Sys2Proof.Machine.execAddss w s
  | .addus w => Sys2Proof.Machine.execAddus w s
  | .sub w => Sys2Proof.Machine.execSub w s
  | .subss w => Sys2Proof.Machine.execSubss w s
  | .subus w => Sys2Proof.Machine.execSubus w s
  | .mul w => Sys2Proof.Machine.execMul w s
  | .mulhs w => Sys2Proof.Machine.execMulhs w s
  | .mulhu w => Sys2Proof.Machine.execMulhu w s
  | .divs w => Sys2Proof.Machine.execDivs w s
  | .divu w => Sys2Proof.Machine.execDivu w s
  | .rems w => Sys2Proof.Machine.execRems w s
  | .remu w => Sys2Proof.Machine.execRemu w s
  | .and w => Sys2Proof.Machine.execAnd w s
  | .or w => Sys2Proof.Machine.execOr w s
  | .xor w => Sys2Proof.Machine.execXor w s
  | .andn w => Sys2Proof.Machine.execAndn w s
  | .shl w => Sys2Proof.Machine.execShl w s
  | .shr w => Sys2Proof.Machine.execShr w s
  | .sar w => Sys2Proof.Machine.execSar w s
  | .rol w => Sys2Proof.Machine.execRol w s
  | .seq w => Sys2Proof.Machine.execSeq w s
  | .sne w => Sys2Proof.Machine.execSne w s
  | .slt w => Sys2Proof.Machine.execSlt w s
  | .sle w => Sys2Proof.Machine.execSle w s
  | .sltu w => Sys2Proof.Machine.execSltu w s
  | .sleu w => Sys2Proof.Machine.execSleu w s
  | .min w => Sys2Proof.Machine.execMin w s
  | .max w => Sys2Proof.Machine.execMax w s
  | .minu w => Sys2Proof.Machine.execMinu w s
  | .maxu w => Sys2Proof.Machine.execMaxu w s
  | .clz w => Sys2Proof.Machine.execClz w s
  | .ctz w => Sys2Proof.Machine.execCtz w s
  | .popc w => Sys2Proof.Machine.execPopc w s
  | .brev w => Sys2Proof.Machine.execBrev w s
  | .bswap w => Sys2Proof.Machine.execBswap w s
  | .bfx w => Sys2Proof.Machine.execBfx w s
  | .bfi w => Sys2Proof.Machine.execBfi w s
  | .sext w => Sys2Proof.Machine.execSext w s
  | .zext w => Sys2Proof.Machine.execZext w s
  | .mov w => Sys2Proof.Machine.execMov w s
  | .li w => Sys2Proof.Machine.execLi w s
  | .lih w => Sys2Proof.Machine.execLih w s
  | .beq w => Sys2Proof.Machine.execBeq w s
  | .bne w => Sys2Proof.Machine.execBne w s
  | .blt w => Sys2Proof.Machine.execBlt w s
  | .bge w => Sys2Proof.Machine.execBge w s
  | .bltu w => Sys2Proof.Machine.execBltu w s
  | .bgeu w => Sys2Proof.Machine.execBgeu w s
  | .jmp w => Sys2Proof.Machine.execJmp w s
  | .jmpr w => Sys2Proof.Machine.execJmpr w s
  | .call w => Sys2Proof.Machine.execCall w s
  | .callr w => Sys2Proof.Machine.execCallr w s
  | .ret w => Sys2Proof.Machine.execRet w s
  | .halt w => Sys2Proof.Machine.execHalt w s
  | .trap w => Sys2Proof.Machine.execTrap w s
  | .wait w => Sys2Proof.Machine.execWait w s
  | .eret w => Sys2Proof.Machine.execEret w s
  | .ldb w => Sys2Proof.Machine.execLdb w s
  | .ldbu w => Sys2Proof.Machine.execLdbu w s
  | .ldh w => Sys2Proof.Machine.execLdh w s
  | .ldhu w => Sys2Proof.Machine.execLdhu w s
  | .ldw w => Sys2Proof.Machine.execLdw w s
  | .ldwu w => Sys2Proof.Machine.execLdwu w s
  | .ldd w => Sys2Proof.Machine.execLdd w s
  | .stb w => Sys2Proof.Machine.execStb w s
  | .sth w => Sys2Proof.Machine.execSth w s
  | .stw w => Sys2Proof.Machine.execStw w s
  | .std w => Sys2Proof.Machine.execStd w s
  | .vld w => Sys2Proof.Machine.execVld w s
  | .vst w => Sys2Proof.Machine.execVst w s
  | .bbinit w => Sys2Proof.Machine.execBbinit w s
  | .bbexp w => Sys2Proof.Machine.execBbexp w s
  | .bbarr w => Sys2Proof.Machine.execBbarr w s
  | .bbwait w => Sys2Proof.Machine.execBbwait w s
  | .bbtest w => Sys2Proof.Machine.execBbtest w s
  | .csrr w => Sys2Proof.Machine.execCsrr w s
  | .csrw w => Sys2Proof.Machine.execCsrw w s
  | .csrs w => Sys2Proof.Machine.execCsrs w s
  | .csrc w => Sys2Proof.Machine.execCsrc w s
  | .flags w => Sys2Proof.Machine.execFlags w s
  | .flagc w => Sys2Proof.Machine.execFlagc w s
  | .time w => Sys2Proof.Machine.execTime w s
  | .vadd w => Sys2Proof.Machine.execVadd w s
  | .vadds w => Sys2Proof.Machine.execVadds w s
  | .vsub w => Sys2Proof.Machine.execVsub w s
  | .vsubs w => Sys2Proof.Machine.execVsubs w s
  | .vmul w => Sys2Proof.Machine.execVmul w s
  | .vmulh w => Sys2Proof.Machine.execVmulh w s
  | .vfma w => Sys2Proof.Machine.execVfma w s
  | .vfms w => Sys2Proof.Machine.execVfms w s
  | .vmin w => Sys2Proof.Machine.execVmin w s
  | .vmax w => Sys2Proof.Machine.execVmax w s
  | .vabs w => Sys2Proof.Machine.execVabs w s
  | .vneg w => Sys2Proof.Machine.execVneg w s
  | .vand w => Sys2Proof.Machine.execVand w s
  | .vor w => Sys2Proof.Machine.execVor w s
  | .vxor w => Sys2Proof.Machine.execVxor w s
  | .vandn w => Sys2Proof.Machine.execVandn w s
  | .vshl w => Sys2Proof.Machine.execVshl w s
  | .vshr w => Sys2Proof.Machine.execVshr w s
  | .vsar w => Sys2Proof.Machine.execVsar w s
  | .vceq w => Sys2Proof.Machine.execVceq w s
  | .vcne w => Sys2Proof.Machine.execVcne w s
  | .vclt w => Sys2Proof.Machine.execVclt w s
  | .vcle w => Sys2Proof.Machine.execVcle w s
  | .vblend w => Sys2Proof.Machine.execVblend w s
  | .vcvt dst w => Sys2Proof.Machine.execVcvt dst w s
  | .vqmx w => Sys2Proof.Machine.execVqmx w s
  | .vdqmx w => Sys2Proof.Machine.execVdqmx w s
  | .vrsum w => Sys2Proof.Machine.execVrsum w s
  | .vrmax w => Sys2Proof.Machine.execVrmax w s
  | .vrmin w => Sys2Proof.Machine.execVrmin w s
  | .vscan w => Sys2Proof.Machine.execVscan w s
  | .vscanm w => Sys2Proof.Machine.execVscanm w s
  | .vperm w => Sys2Proof.Machine.execVperm w s
  | .vshuf w => Sys2Proof.Machine.execVshuf w s
  | .vbcast w => Sys2Proof.Machine.execVbcast w s
  | .vext w => Sys2Proof.Machine.execVext w s
  | .vins w => Sys2Proof.Machine.execVins w s
  | .vdot4 w => Sys2Proof.Machine.execVdot4 w s
  | .vpopm w => Sys2Proof.Machine.execVpopm w s
  | .vmov w => Sys2Proof.Machine.execVmov w s
  | .vexp2 w => Sys2Proof.Machine.execVexp2 w s
  | .vlog2 w => Sys2Proof.Machine.execVlog2 w s
  | .vrcp w => Sys2Proof.Machine.execVrcp w s
  | .vrsqrt w => Sys2Proof.Machine.execVrsqrt w s
  | .vsqrt w => Sys2Proof.Machine.execVsqrt w s
  | .vtanh w => Sys2Proof.Machine.execVtanh w s
  | .vsigm w => Sys2Proof.Machine.execVsigm w s
  | .vsilu w => Sys2Proof.Machine.execVsilu w s
  | .vgelu w => Sys2Proof.Machine.execVgelu w s
  | .vsin w => Sys2Proof.Machine.execVsin w s
  | .vcos w => Sys2Proof.Machine.execVcos w s
  | .vexp w => Sys2Proof.Machine.execVexp w s
  | .vdiv w => Sys2Proof.Machine.execVdiv w s
  | .susp w => Sys2Proof.Machine.execSusp w s
  | .task w => Sys2Proof.Machine.execTask w s
  | .force w => Sys2Proof.Machine.execForce w s
  | .spark w => Sys2Proof.Machine.execSpark w s
  | .drop w => Sys2Proof.Machine.execDrop w s
  | .hdup w => Sys2Proof.Machine.execHdup w s
  | .hmake w => Sys2Proof.Machine.execHmake w s
  | .hstat w => Sys2Proof.Machine.execHstat w s
  | .tdone w => Sys2Proof.Machine.execTdone w s
  | .mcfg w => Sys2Proof.Machine.execMcfg w s
  | .epcfg w => Sys2Proof.Machine.execEpcfg w s
  | .cvld w => Sys2Proof.Machine.execCvld w s
  | .mwld w => Sys2Proof.Machine.execMwld w s
  | .mstr w => Sys2Proof.Machine.execMstr w s
  | .scrum w => Sys2Proof.Machine.execScrum w s
  | .mzero w => Sys2Proof.Machine.execMzero w s
  | .mdrn w => Sys2Proof.Machine.execMdrn w s
  | .accrd w => Sys2Proof.Machine.execAccrd w s
  | .accwr w => Sys2Proof.Machine.execAccwr w s
  | .engineMcfg => Sys2Proof.Machine.execEngineMcfg s
  | .engineEpcfg => Sys2Proof.Machine.execEngineEpcfg s
  | .engineCvld => Sys2Proof.Machine.execEngineCvld s
  | .engineMwld => Sys2Proof.Machine.execEngineMwld s
  | .engineMstr => Sys2Proof.Machine.execEngineMstr s
  | .scrumMeeting => Sys2Proof.Machine.execScrumMeeting s
  | .engineMzero => Sys2Proof.Machine.execEngineMzero s
  | .engineMdrn => Sys2Proof.Machine.execEngineMdrn s
  | .aadd w => Sys2Proof.Machine.execAadd w s
  | .amin w => Sys2Proof.Machine.execAmin w s
  | .amax w => Sys2Proof.Machine.execAmax w s
  | .aminu w => Sys2Proof.Machine.execAminu w s
  | .amaxu w => Sys2Proof.Machine.execAmaxu w s
  | .aand w => Sys2Proof.Machine.execAand w s
  | .aor w => Sys2Proof.Machine.execAor w s
  | .axor w => Sys2Proof.Machine.execAxor w s
  | .axchg w => Sys2Proof.Machine.execAxchg w s
  | .acas w => Sys2Proof.Machine.execAcas w s
  | .fence w => Sys2Proof.Machine.execFence w s
  | .fwait w => Sys2Proof.Machine.execFwait w s
  | .ftest w => Sys2Proof.Machine.execFtest w s
  | .hbset w => Sys2Proof.Machine.execHbset w s
  | .hbarr w => Sys2Proof.Machine.execHbarr w s
  | .hbwait w => Sys2Proof.Machine.execHbwait w s
  | .gbarr w => Sys2Proof.Machine.execGbarr w s
  | .gbwait w => Sys2Proof.Machine.execGbwait w s
  | .cpy w => Sys2Proof.Machine.execCpy w s
  | .cpys w => Sys2Proof.Machine.execCpys w s
  | .cpyg w => Sys2Proof.Machine.execCpyg w s
  | .cpyx w => Sys2Proof.Machine.execCpyx w s
  | .copyCardPerform => Sys2Proof.Machine.execCopyCardPerform s
  | .bcopy w => Sys2Proof.Machine.execBcopy w s
  | .bulkCardPerform => Sys2Proof.Machine.execBulkCardPerform s
  | .xpost w => Sys2Proof.Machine.execXpost w s
  | .xsend w => Sys2Proof.Machine.execXsend w s
  | .xclose w => Sys2Proof.Machine.execXclose w s
  | .transferArrive => Sys2Proof.Machine.execTransferArrive s
  | .kvapp w => Sys2Proof.Machine.execKvapp w s
  | .attn w => Sys2Proof.Machine.execAttn w s
  | .attnPerform => Sys2Proof.Machine.execAttnPerform s
  | .acomb w => Sys2Proof.Machine.execAcomb w s
  | .park w => Sys2Proof.Machine.execPark w s
  | .wake w => Sys2Proof.Machine.execWake w s
  | .msg w => Sys2Proof.Machine.execMsg w s
  | .msgRecv w => Sys2Proof.Machine.execMsgRecv w s
  | .msgDeliver => Sys2Proof.Machine.execMsgDeliver s
  | .qstat w => Sys2Proof.Machine.execQstat w s
  | .boflush w => Sys2Proof.Machine.execBoflush w s
  | .lqVpush rs2 rs1 rd => Sys2Proof.Machine.execLqVpush rs2 rs1 rd s
  | .lqGpush rs2 rs1 rd => Sys2Proof.Machine.execLqGpush rs2 rs1 rd s
  | .gpushReadArrive => Sys2Proof.Machine.execGpushReadArrive s
  | .lqSpush rs2 rs1 rd => Sys2Proof.Machine.execLqSpush rs2 rs1 rd s
  | .sqVpop rs2 rs1 rd => Sys2Proof.Machine.execSqVpop rs2 rs1 rd s
  | .sqGpop rs2 rs1 rd => Sys2Proof.Machine.execSqGpop rs2 rs1 rd s
  | .sqXpop rs2 rs1 rd => Sys2Proof.Machine.execSqXpop rs2 rs1 rd s
  | .boPop rs2 rs1 rd => Sys2Proof.Machine.execBoPop rs2 rs1 rd s
  | .boPush rs2 rs1 rd => Sys2Proof.Machine.execBoPush rs2 rs1 rd s
  | .qStat rs2 rs1 rd => Sys2Proof.Machine.execQStat rs2 rs1 rd s
  | .cpIssue rs2 rs1 rd => Sys2Proof.Machine.execCpIssue rs2 rs1 rd s
  | .bbArr rs2 rs1 rd => Sys2Proof.Machine.execBbArr rs2 rs1 rd s
  | .bbWait rs2 rs1 rd => Sys2Proof.Machine.execBbWait rs2 rs1 rd s
  | .gqPop rs2 rs1 rd => Sys2Proof.Machine.execGqPop rs2 rs1 rd s
  | .rtClaim rs2 rs1 rd => Sys2Proof.Machine.execRtClaim rs2 rs1 rd s
  | .rtEmit rs2 rs1 rd => Sys2Proof.Machine.execRtEmit rs2 rs1 rd s
  | .ecall => Sys2Proof.Machine.execEcall s
  | .ebreak len => Sys2Proof.Machine.execEbreak len s
  | .rvLoadStore len op => Sys2Proof.Machine.execRvLoadStore len op s
  | .rvFence imm rs1 rd => Sys2Proof.Machine.execRvFence imm rs1 rd s
  | .rvCsrAccess op csr rs1 rd => Sys2Proof.Machine.execRvCsrAccess op csr rs1 rd s
  | .umpireAmo op wide aq rl rs2 rs1 rd => Sys2Proof.Machine.execUmpireAmo op wide aq rl rs2 rs1 rd s
  | .umpireLr wide aq rl rs1 rd => Sys2Proof.Machine.execUmpireLr wide aq rl rs1 rd s
  | .umpireSc wide aq rl rs2 rs1 rd => Sys2Proof.Machine.execUmpireSc wide aq rl rs2 rs1 rd s
  | .blockingWaitEnd => Sys2Proof.Machine.execBlockingWaitEnd s
  | .dispatchLoad => Sys2Proof.Machine.execDispatchLoad s
  | .startMessage => Sys2Proof.Machine.execStartMessage s
  | .coreRetire => Sys2Proof.Machine.execCoreRetire s
  | .courtReport => Sys2Proof.Machine.execCourtReport s
  | .placeDispatch => Sys2Proof.Machine.execPlaceDispatch s
  | .preemptRequest => Sys2Proof.Machine.execPreemptRequest s
  | .preemptWindow => Sys2Proof.Machine.execPreemptWindow s
  | .preemptSave => Sys2Proof.Machine.execPreemptSave s
  | .resumeDispatch => Sys2Proof.Machine.execResumeDispatch s
  | .preemptOverrun => Sys2Proof.Machine.execPreemptOverrun s
  | .energyExhausted => Sys2Proof.Machine.execEnergyExhausted s
  | .taskDispatch => Sys2Proof.Machine.execTaskDispatch s
  | .arenaAllocation => Sys2Proof.Machine.execArenaAllocation s
  | .sparkTake => Sys2Proof.Machine.execSparkTake s
  | .huddleBarrierTimeout => Sys2Proof.Machine.execHuddleBarrierTimeout s
  | .globalBarrierTimeout => Sys2Proof.Machine.execGlobalBarrierTimeout s
  | .exchangeWatchdog => Sys2Proof.Machine.execExchangeWatchdog s
  | .messageLifetime => Sys2Proof.Machine.execMessageLifetime s
  | .stallReport => Sys2Proof.Machine.execStallReport s
  | .kvappFrameWaitReport => Sys2Proof.Machine.execKvappFrameWaitReport s
  | .demotionTimer => Sys2Proof.Machine.execDemotionTimer s
  | .pageMoveComplete => Sys2Proof.Machine.execPageMoveComplete s
  | .mailboxWake => Sys2Proof.Machine.execMailboxWake s
  | .stageResident => Sys2Proof.Machine.execStageResident s
  | .faultBatchPost => Sys2Proof.Machine.execFaultBatchPost s
  | .rallyTokenHop => Sys2Proof.Machine.execRallyTokenHop s
  | .rallyTokenRegen => Sys2Proof.Machine.execRallyTokenRegen s
  | .hostAccess => Sys2Proof.Machine.execHostAccess s
  | .peerAccess => Sys2Proof.Machine.execPeerAccess s
  | .ctxCreate => Sys2Proof.Machine.execCtxCreate s
  | .ctxDestroy => Sys2Proof.Machine.execCtxDestroy s
  | .map => Sys2Proof.Machine.execMap s
  | .unmap => Sys2Proof.Machine.execUnmap s
  | .setattr => Sys2Proof.Machine.execSetattr s
  | .recycle => Sys2Proof.Machine.execRecycle s
  | .launch => Sys2Proof.Machine.execLaunch s
  | .replay => Sys2Proof.Machine.execReplay s
  | .seqCreate => Sys2Proof.Machine.execSeqCreate s
  | .seqFree => Sys2Proof.Machine.execSeqFree s
  | .parkPolicy => Sys2Proof.Machine.execParkPolicy s
  | .wakeCmd => Sys2Proof.Machine.execWakeCmd s
  | .domainJoin => Sys2Proof.Machine.execDomainJoin s
  | .attest => Sys2Proof.Machine.execAttest s
  | .setEnergy => Sys2Proof.Machine.execSetEnergy s
  | .queryCourtReports => Sys2Proof.Machine.execQueryCourtReports s
  | .queryCounts => Sys2Proof.Machine.execQueryCounts s
  | .queryErrorCounts => Sys2Proof.Machine.execQueryErrorCounts s
  | .queryHandleEntry => Sys2Proof.Machine.execQueryHandleEntry s
  | .queryStreamGeneration => Sys2Proof.Machine.execQueryStreamGeneration s
  | .queryDugoutEntry => Sys2Proof.Machine.execQueryDugoutEntry s
  | .queryNvmeRegion => Sys2Proof.Machine.execQueryNvmeRegion s
  | .queryArena => Sys2Proof.Machine.execQueryArena s
  | .cmdtailWrite => Sys2Proof.Machine.execCmdtailWrite s
  | .cplheadWrite => Sys2Proof.Machine.execCplheadWrite s
  | .statWrite => Sys2Proof.Machine.execStatWrite s
  | .registerWrite => Sys2Proof.Machine.execRegisterWrite s
  | .functionLevelReset => Sys2Proof.Machine.execFunctionLevelReset s
  | .coldReset => Sys2Proof.Machine.execColdReset s
  | .powerSample => Sys2Proof.Machine.execPowerSample s
  | .flitReceive => Sys2Proof.Machine.execFlitReceive s
  | .linkRetrain => Sys2Proof.Machine.execLinkRetrain s
  | .packageLost => Sys2Proof.Machine.execPackageLost s
  | .correctedError => Sys2Proof.Machine.execCorrectedError s
  | .correctedErrorThreshold => Sys2Proof.Machine.execCorrectedErrorThreshold s
  | .scrubPass => Sys2Proof.Machine.execScrubPass s
  | .uncorrectableError => Sys2Proof.Machine.execUncorrectableError s
  | .hardwareWithdrawn => Sys2Proof.Machine.execHardwareWithdrawn s
  | .rv64IntegerInstruction len op => Sys2Proof.Machine.execRv64IntegerInstruction len op s
  | .illegalOpcodeWord op fn w => Sys2Proof.Machine.execIllegalOpcodeWord op fn w s
  | .straightLineFetchLimit => Sys2Proof.Machine.execStraightLineFetchLimit s
  | .mapZeroingDone => Sys2Proof.Machine.execMapZeroingDone s
  | .fltheadWrite => Sys2Proof.Machine.execFltheadWrite s
  | .vfEnable => Sys2Proof.Machine.execVfEnable s
  | .stealShipmentArrival => Sys2Proof.Machine.execStealShipmentArrival s

end Sys2Proof.Machine
end

