-- ==== Sys2Proof/Machine/Fetch.lean ====
section
/-!
DEFINITION. What the next step of an agent is, and a round of turns (spec/02_instruction_word.md R19;
spec/03_cores_strands_launches.md R51, R62; spec/11_access_strands_queues.md R187, R202, R205, R206;
spec/19_scheduling_preemption.md R329, R331; spec/20_faults_errors.md R348; spec/21_host_fabric_firmware.md R355,
R359). Which turns a round holds is free, and in what order, but where the manual orders what one instant holds (log
entries 5 and 88).
-/
namespace Sys2Proof.Machine

open Sys2Proof

/-! ## Fetch -/

/-- What a turn of an agent comes to. -/
inductive Fetched where
  /-- An instruction. -/
  | run (i : Instr)
  /-- Something other than an instruction, with the state after it. -/
  | other (s : State)
  /-- Nothing: the agent does not run. -/
  | idle

/-- Whether an agent executes: it runs, or its wait is over. -/
def Run.active (r : Run) : Bool :=
  match r with
  | .running => true
  | .waiting _ b _ => b
  | .stopped => false

/-- Raises POISON in an agent for a word of its store (R348). -/
def State.storePoison (s : State) (a : Agent) (info : Word) : State :=
  ({ s with cur := a }).raise ⟨cPoison, info, none⟩

/-- E (R19, R180, R329, R331, R348). -/
def fetchE (s : State) (n : Nat) : Fetched :=
  let c := s.core n
  if c.e.run = .stopped ∨ c.drain.isStopped then .idle
  else if c.e.deferred ≠ [] then .other (s.takeDeferred n)
  else if !c.e.run.active then .idle
  else if 65536 ≤ c.e.sincePoint then .other (s.soon [.event .preemptOverrun (.core n)])
  else if c.stores.ilim ≤ c.e.pc.toNat then .run .straightLineFetchLimit
  else if (Strand.e, c.e.pc.toNat) ∈ c.poison.words then .other (s.storePoison (.strand n .e) (c.e.pc.setWidth 64))
  else .run (decodeNorom (c.stores.e.get 0 c.e.pc.toNat))

/-- The instruction that a store of bytes gives at a pc of an image (R206): an encoding whose last bytes lie at or
beyond the length is out of it. -/
def fetchRv (store : Tab Byte) (len : Nat) (pc : Word) : Instr :=
  let w := leNat (tabRead store pc.toNat 4)
  if len ≤ pc.toNat ∨ (w % 4 = 3 ∧ len < pc.toNat + 4) then .rv64IntegerInstruction .four .outOfImage
  else decodeRvParcel (BitVec.ofNat 32 w)

/-- L or S of a core (R202, R206, R348). While its core is stopped for a save it goes on only with a store that it
holds, or where it may not stop. -/
def fetchLS (s : State) (n : Nat) (k : Strand) (h : RvStrand) (store : Tab Byte) (len : Nat) : Fetched :=
  let c := s.core n
  if !h.run.active ∨ (c.drain.isStopped ∧ h.run.stoppable ∧ h.held = none) then .idle
  else if h.pc.toNat < len ∧ (k, h.pc.toNat / 4) ∈ c.poison.words then .other (s.storePoison (.strand n k) h.pc)
  else .run (fetchRv store len h.pc)

/-- Whether the fetch of an instruction of an umpire's image touches a word with an uncorrectable error (R346, R348):
the word of its first two bytes, or that of its last two. -/
def Umpire.badFetch (u : Umpire) : Bool :=
  let pc := u.hart.pc.toNat
  decide (pc < u.ilen) && (decide (pc / 4 ∈ u.badWords) ||
    (leNat (tabRead u.store pc 2) % 4 = 3 && decide (pc + 4 ≤ u.ilen) && decide ((pc + 2) / 4 ∈ u.badWords)))

/-- An umpire: its image, or the ROM routing program (R306, R313, R348). -/
def fetchUmpire (s : State) (c : Nat) : Fetched :=
  let u := (s.court c).umpire
  if !u.hart.run.active then .idle
  else match u.mode with
    | .image =>
      if u.badFetch then .other (s.storePoison (.umpire c) u.hart.pc)
      else .run (fetchRv u.store u.ilen u.hart.pc)
    | .rom _ => .other (romTurn { s with cur := .umpire c })
    | _ => .idle

/-- What a turn of an agent comes to. -/
def State.fetch (s : State) (a : Agent) : Fetched :=
  match a with
  | .strand n .e => fetchE s n
  | .strand n .l => fetchLS s n .l (s.core n).l (s.core n).stores.l (s.core n).stores.llen
  | .strand n .s => fetchLS s n .s (s.core n).s (s.core n).stores.s (s.core n).stores.slen
  | .umpire c => fetchUmpire s c
  | .floor => .idle

/-- Whether the part has an agent (R1). -/
def agentExists (a : Agent) : Bool :=
  match a with
  | .strand n _ => decide (n < Config.cores)
  | .umpire c => decide (c < Config.courts)
  | .floor => true

/-! ## The commands of the host's queues (R355, R358) -/

/-- A command as it stands in its 64 bytes. -/
def commandOf (bs : List Byte) (slot : Nat) : Command where
  slot := slot
  op := byteAt bs 0
  fence := natBit (byteAt bs 1).toNat 0
  tag := BitVec.ofNat 32 (fieldAt bs 4 4)
  ctx := fieldAt bs 8 4
  p0 := wordAt bs 0x10
  p1 := wordAt bs 0x18
  p2 := wordAt bs 0x20
  p3 := wordAt bs 0x28
  submitted := false

/-- Reads a function's new commands up to its tail. -/
def readCommands (v : Nat) : Nat → State → State
  | 0, s => s
  | n + 1, s =>
    let r := (s.vf v).regs
    if !s.vfLive v ∨ !ringOn r.cmdBase ∨ r.cmdHead.toNat = r.cmdTail.toNat % ringSize r.cmdBase then s
    else
      let bs := s.hostRead (ringBase r.cmdBase + 64 * r.cmdHead.toNat) 64
      readCommands v n (s.onVf v fun f => { f with
        commands := f.commands ++ [commandOf bs f.nextSlot], nextSlot := f.nextSlot + 1
        regs := { f.regs with cmdHead := ringNext r.cmdBase r.cmdHead } })

/-- The step of a command; none for a code or a selector that R360 does not list. -/
def Command.instr (c : Command) : Option Instr :=
  match c.op.toNat with
  | 0x01 => some .ctxCreate
  | 0x02 => some .ctxDestroy
  | 0x03 => some .map
  | 0x04 => some .unmap
  | 0x05 => some .setattr
  | 0x06 => some .recycle
  | 0x07 => some .launch
  | 0x08 => some .replay
  | 0x09 => some .seqCreate
  | 0x0A => some .seqFree
  | 0x0B => some .parkPolicy
  | 0x0C => some .wakeCmd
  | 0x0D => some .domainJoin
  | 0x0E => some .attest
  | 0x0F => some .setEnergy
  | 0x10 => match c.p0.toNat with
    | 1 => some .queryCourtReports
    | 2 => some .queryCounts
    | 3 => some .queryErrorCounts
    | 4 => some .queryHandleEntry
    | 5 => some .queryStreamGeneration
    | 6 => some .queryDugoutEntry
    | 7 => some .queryNvmeRegion
    | 8 => some .queryArena
    | _ => none
  | _ => none

/-- Refuses a command that R360 does not list as malformed. -/
def rejectCommand (s : State) (v : Nat) : State :=
  match s.startable v with
  | some c => if c.instr = none then s.endCommand v c rUnreadable 0 else s
  | none => s

/-- Takes in the commands of every function. -/
def State.takeCommands (s : State) : State :=
  (s.vfs.map (·.1)).foldl (fun t v => rejectCommand (readCommands v 65536 t) v) s

/-! ## A round of turns -/

/-- Turns from a condition. -/
def turnIf (p : Bool) (t : Turn) : List Turn := if p then [t] else []

/-- The turn of an agent that runs or waits. -/
def agentTurns (a : Agent) (r : Run) (more : Bool) : List Turn :=
  match r with
  | .stopped => []
  | .running => [.agent a]
  | .waiting _ b _ => if b || more then [.agent a] else [.event .blockingWaitEnd (.agent a)]

/-- The step that performs the command at the head of a matrix engine's queue. -/
def MxOp.instr (op : MxOp) : Instr :=
  match op with
  | .mcfg _ => .engineMcfg
  | .epcfg _ => .engineEpcfg
  | .cvld .. => .engineCvld
  | .mwld .. => .engineMwld
  | .mstr .. => .engineMstr
  | .scrum .. => .scrumMeeting
  | .mzero _ => .engineMzero
  | .mdrn .. => .engineMdrn

/-- The turns of a core. -/
def coreTurns (s : State) (n : Nat) (c : Core) : List Turn :=
  agentTurns (.strand n .e) c.e.run (decide (c.e.deferred ≠ [])) ++ agentTurns (.strand n .l) c.l.run false ++
    agentTurns (.strand n .s) c.s.run false ++
    (match c.mx.queue with
      | x :: _ => turnIf (!x.stalled) (.event x.op.instr (.core n))
      | [] => []) ++
    turnIf (decide (c.copy ≠ [])) (.event .copyCardPerform (.core n)) ++
    turnIf (c.q.lq0.any LqEntry.open) (.event .gpushReadArrive (.coreQueue n false)) ++
    turnIf (c.q.lq1.any LqEntry.open) (.event .gpushReadArrive (.coreQueue n true)) ++
    turnIf (c.drain ≠ .none) (.event .preemptWindow (.core n)) ++ turnIf (c.drain ≠ .none) (.event .preemptSave (.core n)) ++
    turnIf (c.e.run ≠ .running) (.event .exchangeWatchdog (.core n)) ++
    turnIf (c.e.run ≠ .running) (.event .kvappFrameWaitReport (.core n)) ++ turnIf (retires s n) (.event .coreRetire (.core n))

/-- The turns of a court. -/
def courtTurns (s : State) (c : Nat) : List Turn :=
  agentTurns (.umpire c) (s.court c).umpire.hart.run false ++ [.event .courtReport (.court c)]

/-- The turns of a dispatch: its watchdogs, its energy, and what other packages do to one that spreads over them (log
entry 94). -/
def dispTurns (k : Nat) (d : Dispatch) : List Turn :=
  turnIf (d.energy = 0 && decide (d.cls < 7) && d.phase = .running) (.event .energyExhausted (.disp k)) ++
    (d.hbars.filter (·.since.isSome)).map (fun b => .event .huddleBarrierTimeout (.barrier k b.reg b.unit)) ++
    (d.gbars.filter (·.since.isSome)).map (fun b => .event .globalBarrierTimeout (.barrier k b.id b.unit)) ++
    [.event .stallReport (.disp k)] ++
    turnIf d.share.isSome (.event .coreRetire (.disp k)) ++
    (match d.cores.find? fun y => y.started && !y.retired with
      | some y => turnIf d.share.isSome (.event .preemptRequest (.core y.cur))
      | none => [])

/-- The turns of the demand engine for a context. -/
def ctxTurns (k : Nat) (c : Context) : List Turn :=
  (c.handles.filter fun x => x.2.state = .demanded && x.2.pending = 0).map (fun x => .event .arenaAllocation (.handle k x.1)) ++
    turnIf (decide (c.sparks ≠ [])) (.event .sparkTake (.ctx k))

/-- The turns of the fabric and of the floor's engines. -/
def itemTurns (s : State) : List Turn :=
  (s.floor.bulk.filter (!·.stalled)).map (fun c => .event .bulkCardPerform (.item c.id)) ++
    s.floor.attn.map (fun c => .event .attnPerform (.item c.id)) ++
    s.floor.messages.flatMap (fun m => [.event .msgDeliver (.item m.id), .event .messageLifetime (.item m.id)]) ++
    s.floor.transfers.flatMap (fun t => [.event .transferArrive (.item t.id), .event .messageLifetime (.item t.id)]) ++
    (s.cores.flatMap (·.2.held)).map (fun t => .event .messageLifetime (.item t.id))

/-- The turns of the park controller: timers, then moves, then stages (R296). -/
def dugTurns (s : State) : List Turn :=
  (s.floor.dugout.filter (·.2.state = .parked)).map (fun e => .event .demotionTimer (.entry e.1)) ++
    s.floor.moves.map (fun m => .event .pageMoveComplete (.move m.id (Config.freeFlashError (s.draws + m.id) % 2 = 1))) ++
    s.floor.loose.map (fun c => .event .pageMoveComplete (.move c.id false)) ++
    (s.floor.dugout.filter (·.2.state ≠ .parked)).map (fun e => .event .stageResident (.entry e.1))

/-- The turns of the firmware. -/
def hostTurns (s : State) : List Turn :=
  (s.vfs.map (·.1)).flatMap (fun v =>
      (match s.startable v with
        | some c => (c.instr.map fun i => Turn.event i (.cmd v c.slot)).toList
        | none => []) ++
      turnIf (s.batchDue v) (.event .faultBatchPost (.vf v))) ++
    s.stalled.map (fun x => .event (if x.peer then .peerAccess else .hostAccess) (.item x.id)) ++
    (s.floor.frames.filter (·.2.zeroing)).map (fun f => .event .mapZeroingDone (.frame f.1)) ++
    turnIf (s.domain.joined && decide (s.domain.tokenSeen + tokenLife ≤ s.time.toNat)) (.event .rallyTokenRegen .none) ++
    ((s.domain.unreached.map (·.1)).filter s.lossDue).map fun p => .event .packageLost (.pkg p)

/-- Every turn that can come next. -/
def State.turns (s : State) : List Turn :=
  s.cores.flatMap (fun x => coreTurns s x.1 x.2) ++ (List.range Config.courts).flatMap (courtTurns s) ++
    s.floor.dispatches.flatMap (fun x => dispTurns x.1 x.2) ++ s.floor.contexts.flatMap (fun x => ctxTurns x.1 x.2) ++
    itemTurns s ++ dugTurns s ++ hostTurns s ++ turnIf s.head.isSome (.event .placeDispatch .none)

/-- Puts a turn at place j of a list; beyond its end it stays out. -/
def placeTurn (t : Turn) : Nat → List Turn → List Turn
  | 0, l => t :: l
  | j + 1, x :: l => x :: placeTurn t j l
  | _ + 1, [] => []

/-- The turns of a round in a free order, each taking part or not as it falls out. -/
def arrange (k : Nat) : List Turn → List Turn
  | [] => []
  | t :: l =>
    let rest := arrange (k + 1) l
    placeTurn t (Config.freeOrder k % (rest.length + 2)) rest

/-- The barrier at which a turn of a core is to arrive, as the state stands, with the core (R60): the operand of a BBARR
or BB_ARR, or the barrier of the command at the head of an engine's queue. -/
def State.arrivalOf (s : State) (t : Turn) : Option (Nat × Word) :=
  match t with
  | .agent (.strand n k) =>
    let u := { s with cur := .strand n k, arg := .none }
    match s.fetch (.strand n k) with
    | .run (.bbarr w) => match readField fG w.a u with
      | .ok (x, _) => some (n, low x)
      | .error _ => none
    | .run (.bbArr _ rs1 _) => match readX rs1 u with
      | .ok (x, _) => some (n, x)
      | .error _ => none
    | _ => none
  | .event .copyCardPerform (.core n) => (s.core n).copy.head?.map fun c => (n, c.bar)
  | .event _ (.core n) => match (headMx s n).map MxCmd.op with
    | some (MxOp.cvld _ _ _ _ _ _ bar) => some (n, bar)
    | some (.mwld _ _ _ _ _ _ bar) => some (n, bar)
    | some (.mdrn _ _ bar _) => some (n, bar)
    | _ => none
  | _ => none

/-- Whether such a turn arrives, with no fault and no wait, as the state stands. -/
def State.arrives (s : State) (t : Turn) : Bool :=
  let ends (x : Except Stop (Unit × State)) : Bool := match x with
    | .ok _ => true
    | .error _ => false
  match t with
  | .agent (.strand n k) =>
    let u := { s with cur := .strand n k, arg := .none }
    match s.fetch (.strand n k) with
    | .run (.bbarr w) => ends (arriveE w u)
    | .run (.bbArr rs2 rs1 rd) => ends (arriveRv rs2 rs1 rd u)
    | _ => false
  | .event .copyCardPerform (.core n) => match (s.core n).copy with
    | c :: _ => (runCopy s n c).2.2.isNone
    | [] => false
  | .event _ (.core n) => match headMx s n with
    | some c => match arrivalPieces s n c.op with
      | some ps => (runMx s n c ps).2.2.isNone
      | none => false
    | none => false
  | _ => false

/-- The core whose turn arrives on a barrier of another core's scratchpad. -/
def State.arrivesFar (s : State) (t : Turn) : Option Nat :=
  match s.arrivalOf t with
  | none => none
  | some (n, b) =>
    match aperture b.toNat 16, (s.core n).disp with
    | some (.remote i _), some d =>
      match s.relocate d (homeCourt (s.core n) * Config.coresPerCourt + i) with
      | some m => if m ≠ n && s.arrives t then some n else none
      | none => none
    | _, _ => none

/-- The place of an agent among those of one instant: E, L and S before the umpires, each kind by core (R198, R344). -/
def agentRank (a : Agent) : Nat :=
  match a with
  | .strand n .e => 2 * 65536 + n
  | .strand n .l => 3 * 65536 + n
  | .strand n .s => 4 * 65536 + n
  | .umpire c => 9 * 65536 + c
  | .floor => 10 * 65536

/-- The place of a turn among those of one instant: what frees a sequence and what wakes one before what moves its pages
(R296); faults of E, L, S, the core's engines, the floor's engines and the umpire in this order, by core (R344), a core's
copy engine before its matrix engine (R60). A wait ends where its agent has its turn (R198). -/
def Turn.rank (t : Turn) : Nat :=
  match t with
  | .agent a => agentRank a
  | .event .blockingWaitEnd (.agent a) => agentRank a
  | .event .ctxDestroy _ => 0
  | .event .seqFree _ => 0
  | .event .wakeCmd _ => 65536
  | .event .hostAccess _ => 65536
  | .event .peerAccess _ => 65536
  | .event .exchangeWatchdog (.core n) => 2 * 65536 + n
  | .event .gpushReadArrive (.coreQueue n _) => 3 * 65536 + n
  | .event .copyCardPerform (.core n) => 5 * 65536 + 2 * n
  | .event .bulkCardPerform _ => 8 * 65536
  | .event .attnPerform _ => 8 * 65536
  | .event .demotionTimer _ => 11 * 65536
  | .event .pageMoveComplete _ => 12 * 65536
  | .event .stageResident _ => 12 * 65536
  | .event _ (.core n) => 5 * 65536 + 2 * n + 1
  | .event _ _ => 10 * 65536

/-- Whether an instruction of E that goes on in line comes to its own effect, as the state stands (R28). -/
def State.comesTo (s : State) (n : Nat) (sh : Shape) (w : Norom) : Bool :=
  match lineE sh w (fun _ => pure ()) { s with cur := .strand n .e, arg := .none } with
  | .ok _ => true
  | .error _ => false

/-- The place of an instruction of E whose effect the manual puts apart from those of the other strands in the same
cycle: the clear of FLAGC before every event that sets a flag (R92), the flush of BOFLUSH after every push and pop of
L and S (R255). -/
def State.apart (s : State) (t : Turn) : Option Nat :=
  match t with
  | .agent (.strand n .e) => match s.fetch (.strand n .e) with
    | .run (.flagc w) => if s.comesTo n ⟨anyMod, fNo, fGI, fNo⟩ w then some 1 else none
    | .run (.boflush w) => if s.comesTo n ⟨anyMod, fNo, fGI, fNo⟩ w then some (4 * 65536 + Config.cores + n) else none
    | _ => none
  | _ => none

/-- The place of a turn of an instant that begins at s. One that arrives at another core's barrier comes after the turns
of every core's strands and engines and before the floor's engines, by its own core and then by the strand or engine
(R60; log entry 88); one that is to fault there keeps its place among the faults (R344). -/
def State.rank (s : State) (t : Turn) : Nat :=
  match s.apart t with
  | some r => r
  | none => match s.arrivesFar t with
    | some n => 7 * 65536 + 16 * n + 2 * (t.rank / 65536) + (t.rank - 5 * 65536) % 2
    | none => t.rank

/-- Puts a turn before the first of a higher place. -/
def insertTurn (x : Nat × Turn) : List (Nat × Turn) → List (Nat × Turn)
  | [] => [x]
  | y :: l => if x.1 ≤ y.1 then x :: y :: l else y :: insertTurn x l

/-- The turns of an instant that begins at s in the order of the manual, and otherwise as they stand. -/
def orderTurns (s : State) (l : List Turn) : List Turn :=
  ((l.map fun t => (s.rank t, t)).foldr insertTurn []).map (·.2)

/-- The time after some nanoseconds: the time base never falls (R93; log entry 89). -/
def timeAfter (t : Word) (n : Nat) : Word := BitVec.ofNat 64 (min (t.toNat + n) (2 ^ 64 - 1))

/-- Charges the energy of a round to the dispatches that run (R327). -/
def chargeAll (k : Nat) : List (Nat × Dispatch) → List (Nat × Dispatch)
  | [] => []
  | x :: l =>
    (x.1, if x.2.phase = .running then { x.2 with energy := x.2.energy - Config.freeCharge k % (x.2.energy + 1) } else x.2) ::
      chargeAll (k + 1) l

/-- A new round: time passes, energy is charged, commands are read, and the turns to come are set out. -/
def State.round (s : State) : State :=
  let k := s.draws
  let n := s.floor.dispatches.length
  let s1 := s.onFloor fun f => { f with dispatches := chargeAll (k + 1) f.dispatches }
  let s2 := ({ s1 with
    time := timeAfter s.time (Config.freeElapsed k), ended := [], draws := k + 1 + n }).takeCommands
  let ts := s2.turns
  { s2 with agenda := orderTurns s2 (arrange s2.draws ts), draws := s2.draws + ts.length + s2.floor.nextItem }

/-! ## Placing one instruction (the host's probe) -/

/-- The partition of a core that the probe gives a dispatch: 1 stack page a strand, 8 tiles, 1,024 vector registers. -/
def probePart : BitVec 28 := 0x1110810

/-- A plain launch of core 0 and umpire 0, as the distributor would have placed it. -/
def probeDispatch : Dispatch where
  origin := .launch 0 0 0 1
  phase := .running
  vf := 0
  ctx := 0
  order := 0
  pkg := 0
  gen := 1
  curGen := 1
  eimg := 0
  limg := 0
  simg := 0
  part := probePart
  levels := [⟨1, 1, false, 0, 0⟩]
  args := 0
  save := 0
  budget := 1
  energy := 1
  cls := 0
  restartable := false
  cores := [⟨0, 0, 0, 0, false, false, true, false⟩]
  side := []
  umpire := some 0
  hregs := []
  hbars := []
  gbars := []
  poisonSeen := []
  progress := 0
  told := none
  avoid := none
  share := none
  table := none

/-- Core 0 and umpire 0 run a dispatch: the one they run, or the probe's. -/
def State.withDispatch (s : State) : State :=
  match (s.core 0).disp with
  | some _ => s
  | none =>
    let k := s.floor.nextDisp
    let s1 := s.addDispatch probeDispatch
    let s2 := s1.onCore 0 fun c => { c with disp := some k, gen := 1, part := probePart }
    s2.onUmpire 0 fun u => { u with disp := some k, gen := 1 }

/-- A pc at which n bytes fit below a length. -/
def probePc (pc : Word) (n size align : Nat) : Word := if pc.toNat % align = 0 ∧ pc.toNat + n ≤ size then pc else 0

/-- Puts a Norom word where E of core 0 fetches. -/
def State.placeE (s : State) (w : Nat) : State :=
  s.onCore 0 fun c =>
    let pc := if c.e.pc.toNat < Config.eStoreSize then c.e.pc else 0
    { c with
      e := { c.e with run := .running, pc := pc, deferred := [], sincePoint := 0 }
      stores := { c.stores with e := c.stores.e.set 0 pc.toNat (BitVec.ofNat 96 w), ilim := max c.stores.ilim (pc.toNat + 1) }
      drain := .none
      poison := { c.poison with words := [] } }

/-- Puts a word where L of core 0 fetches. -/
def State.placeL (s : State) (w : Nat) : State :=
  s.onCore 0 fun c =>
    let pc := probePc c.l.pc 4 Config.rvStoreSize 4
    { c with
      l := { c.l with run := .running, pc := pc }
      stores := { c.stores with l := tabWrite c.stores.l pc.toNat (leBytes 4 w), llen := max c.stores.llen (pc.toNat + 4) }
      drain := .none
      poison := { c.poison with words := [] } }

/-- Puts a word where S of core 0 fetches. -/
def State.placeS (s : State) (w : Nat) : State :=
  s.onCore 0 fun c =>
    let pc := probePc c.s.pc 4 Config.rvStoreSize 4
    { c with
      s := { c.s with run := .running, pc := pc }
      stores := { c.stores with s := tabWrite c.stores.s pc.toNat (leBytes 4 w), slen := max c.stores.slen (pc.toNat + 4) }
      drain := .none
      poison := { c.poison with words := [] } }

/-- Puts a word where umpire 0 fetches, in an umpire image. -/
def State.placeU (s : State) (w : Nat) : State :=
  s.onUmpire 0 fun u =>
    let pc := probePc u.hart.pc 4 Config.umpireStoreSize 2
    { u with
      mode := .image
      hart := { u.hart with run := .running, pc := pc }
      store := tabWrite u.store pc.toNat (leBytes 4 w)
      ilen := max u.ilen (pc.toNat + 4)
      badWords := [] }

/-- The strand that an RV64 instruction is legal on: S for the store-queue pops, the umpire for its own instructions,
its atomics and every 16-bit encoding, else L (R187, R193, R306). -/
def probeAgent (i : Option Instr) : Agent :=
  match i with
  | some (.sqVpop ..) => .strand 0 .s
  | some (.sqGpop ..) => .strand 0 .s
  | some (.sqXpop ..) => .strand 0 .s
  | some (.gqPop ..) => .umpire 0
  | some (.rtClaim ..) => .umpire 0
  | some (.rtEmit ..) => .umpire 0
  | some (.umpireAmo ..) => .umpire 0
  | some (.umpireLr ..) => .umpire 0
  | some (.umpireSc ..) => .umpire 0
  | some (.rv64IntegerInstruction (.two _) _) => .umpire 0
  | some (.rvLoadStore (.two _) _) => .umpire 0
  | some (.ebreak (.two _)) => .umpire 0
  | _ => .strand 0 .l

/-- Whose next instruction the host's probe places. -/
def probeOf (nbits w : Nat) : Agent := if 32 < nbits then .strand 0 .e else probeAgent (decodeTableWord nbits w)

/-- Stores an instruction where an agent of core 0 or court 0 fetches its next one. -/
def State.placeAt (s : State) (a : Agent) (w : Nat) : State :=
  match a with
  | .strand _ .e => s.placeE w
  | .strand _ .l => s.placeL w
  | .strand _ .s => s.placeS w
  | _ => s.placeU w

end Sys2Proof.Machine
end

