-- ==== Sys2Proof/Machine/Rounds.lean ====
section
/-!
DEFINITION. One turn of a round, and the faults that come too late (spec/20_faults_errors.md R344).
-/
namespace Sys2Proof.Machine

open Sys2Proof

/-- Performs one turn. -/
def performTurn (t : Turn) (s : State) : Host.Outcome State Fault Refusal :=
  match t with
  | .event i arg => exec i { s with cur := .floor, arg := arg }
  | .agent a =>
    if !agentExists a then .fault .noSuchAgent
    else match s.fetch a with
      | .run i => exec i { s with cur := a, arg := .none }
      | .other u => .next u
      | .idle => .next s

/-- Whether a turn, performed at s, ends a dispatch by a fault, itself or by a turn that it brings about at once: the
instruction whose wait it ends, the overrun that it finds. Of a meeting it is the fault of the member whose turn it is. -/
def endsIn : Nat → State → Nat → Turn → Bool
  | 0, _, _, _ => false
  | fuel + 1, s, k, t =>
    match t with
    | .event .scrumMeeting (.core n) => decide (k ∈ ((meetingOf s n).2.fault { s with cur := .floor } n).ended)
    | _ => match performTurn t { s with agenda := [] } with
      | .next u => decide (k ∈ u.ended) || u.agenda.any (endsIn fuel u k)
      | _ => false

/-- A wait that ends at an instruction that finds an overrun is the longest such chain. -/
def endsAt (s : State) (k : Nat) (t : Turn) : Bool := endsIn 3 s k t

/-- Counts the faults of the turns still to come in this round that would have ended a dispatch which a turn, performed
at s with outcome u, has ended (R344). A turn that the outcome has taken out of the round is none of them: a meeting
counts its own members. Log entry 71. -/
def State.countLate (s u : State) : State :=
  (u.ended.filter fun k => !(k ∈ s.ended)).foldl (fun w k =>
    w.countFaults (s.dispCtx k) (s.agenda.filter fun t => decide (t ∈ u.agenda) && endsAt s k t).length) u

/-- The state after a turn performed at s. -/
def State.afterTurn (s : State) (o : Host.Outcome State Fault Refusal) : Host.Outcome State Fault Refusal :=
  match o with
  | .next u => .next (s.countLate u)
  | _ => o

end Sys2Proof.Machine
end

