-- ==== Sys2Proof/Machine/Step.lean ====
section
/-!
DEFINITION. One step of the package: the next turn of the agenda, or a new round when none is left (log entry 5).
-/
namespace Sys2Proof.Machine

open Sys2Proof

/-- One step. -/
def step (s : State) : Host.Outcome State Fault Refusal :=
  match s.agenda with
  | [] => .next s.round
  | t :: rest => ({ s with agenda := rest }).afterTurn (performTurn t { s with agenda := rest })

/-- The state with an instruction stored where the next step fetches it: on core 0 or the umpire of court 0, which run
a dispatch, with their turn the next one. Log entry 19. -/
def State.withFetchWord (s : State) (nbits w : Nat) : State :=
  let a := probeOf nbits w
  let t := s.withDispatch.placeAt a w
  { t with agenda := .agent a :: t.agenda }

end Sys2Proof.Machine
end

