-- ==== Sys2Proof/Safety.lean ====
section
/-!
DEFINITION. What statements about the part are said in: when an instruction of E issues and completes, its operand
values, where its result goes, what it leaves alone, and the invariant that every step keeps
(spec/02_instruction_word.md R16, R17, R24 to R28).
-/
namespace Sys2Proof.Machine

open Sys2Proof

/-! ## The issue of an instruction of E -/

/-- E of some core acts. -/
def State.turnE (s : State) : Bool :=
  match s.cur with
  | .strand _ .e => true
  | _ => false

/-- The guard lets the instruction take effect, and the register it reads carries no poison (R26, R348). -/
def State.guardHolds (s : State) (w : Norom) : Bool :=
  !w.g.getLsbD 7 ||
    (!decide (w.g.toNat % 64 ∈ s.my.poison.eRegs) && (decide (s.my.e.rd (w.g.toNat % 64) ≠ 0) != w.g.getLsbD 6))

/-- The guard reads a register without poison and does not hold (R26). -/
def State.guardSkips (s : State) (w : Norom) : Bool :=
  s.turnE && w.g.getLsbD 7 && !decide (w.g.toNat % 64 ∈ s.my.poison.eRegs) &&
    (decide (s.my.e.rd (w.g.toNat % 64) ≠ 0) == w.g.getLsbD 6)

/-- A source field carries no poison; k entries of its queue have been popped before (R347, R348). -/
def State.clean (s : State) (f : Fld) (raw : BitVec 16) (k : Nat) : Bool :=
  match f.role, opnd raw with
  | .no, _ => true
  | .dst, _ => true
  | _, .g n => !decide (n ∈ s.my.poison.eRegs)
  | _, .v n => f.vec ≠ 1 || !decide ((Space.vregs, n) ∈ s.my.poison.granules)
  | _, .q id => !decide ((id, k) ∈ s.my.poison.entries)
  | _, _ => true

/-- How many of the entries popped earlier come from the queue that a field pops (R25). -/
def earlierPops (earlier : List Nat) (f : Fld) (raw : BitVec 16) : Nat :=
  match popOf f raw with
  | [id] => earlier.count id
  | _ => 0

/-- The endpoints that an instruction pops, in order (R25). -/
def popsOf (sh : Shape) (w : Norom) : List Nat := popOf sh.d w.d ++ popOf sh.a w.a ++ popOf sh.b w.b

/-- E issues the instruction and nothing stops it before its own effect: its guard holds, its fields and endpoints
are acceptable, its queues are ready and no operand carries poison (R25, R26, R28). -/
def State.issues (s : State) (sh : Shape) (w : Norom) : Bool :=
  s.turnE && s.guardHolds w && sh.mod w.mod && fieldOk s sh.d w.d && fieldOk s sh.a w.a && fieldOk s sh.b w.b &&
    queuesReady s (popsOf sh w) (pushOf sh.d w.d) &&
    s.clean sh.d w.d 0 && s.clean sh.a w.a (earlierPops (popOf sh.d w.d) sh.a w.a) &&
    s.clean sh.b w.b (earlierPops (popOf sh.d w.d ++ popOf sh.a w.a) sh.b w.b)

/-- The value of a source field; k entries of its queue have been popped before (R16, R25). -/
def State.operand (s : State) (f : Fld) (raw : BitVec 16) (k : Nat) : V128 :=
  match f.role, opnd raw with
  | .no, _ => 0
  | .dst, _ => 0
  | _, .g n => wide (s.my.e.rd n)
  | _, .v n => if f.vec = 1 then s.my.e.rdV n else 0
  | _, .imm x => wide x
  | _, .q id => ((s.my.entries id)[k]?).getD 0
  | _, .sp n => BitVec.ofNat 128 n
  | _, .bad => 0

/-- The operand values of an instruction. -/
def State.operands (s : State) (sh : Shape) (w : Norom) : Vals :=
  ⟨s.operand sh.d w.d 0, s.operand sh.a w.a (earlierPops (popOf sh.d w.d) sh.a w.a),
    s.operand sh.b w.b (earlierPops (popOf sh.d w.d ++ popOf sh.a w.a) sh.b w.b)⟩

/-- The state once one entry of the acting core's queue is popped (R25). -/
def State.pop (s : State) (id : Nat) : State := s.onMy fun c => c.popOne id

/-- The state once the operands are read: their queue entries are popped (R25). -/
def State.popped (s : State) (sh : Shape) (w : Norom) : State := (popsOf sh w).foldl State.pop s

/-- The state once a result has gone to D: a general register takes 64 bits and g0 discards, a vector register takes
128, an endpoint takes an entry (R16, R25, R308). -/
def State.put (s : State) (raw : BitVec 16) (x : V128) : State :=
  match opnd raw with
  | .g n => orKeep (writeG n (x.setWidth 64)) s
  | .v n => orKeep (writeV n x) s
  | .q id => if id = 10 then orKeep (pushGate x 0) s else orKeep (pushEntry id x) s
  | _ => s

/-- The gate queue takes the unit, where D names it: a header must be well formed and have room (R308). -/
def State.takes (s : State) (raw : BitVec 16) (x : V128) : Bool :=
  match opnd raw with
  | .q id => id ≠ 10 || (match pushGate x 0 s with | .ok _ => true | .error _ => false)
  | _ => true

/-- The state once E has completed its instruction: it goes on, or stops, at an index (R28, R165, R331). -/
def State.goesOn (s : State) (pc : BitVec 13) (run : Run) : State := orKeep (completeE pc run) s

/-- E goes on in line. -/
def State.inLine (s : State) : State := s.goesOn (s.my.e.pc + 1) .running

/-! ## The guard -/

/-- Every instruction of E that has a guard and is neither VCVT, whose words carry a second type, nor FORCE, which ends
the wait that it is in (R26, R137). -/
def guardedForms : List (Norom → Instr) :=
  [.nop, .add, .addss, .addus, .sub, .subss, .subus, .mul, .mulhs, .mulhu, .divs, .divu, .rems, .remu, .and, .or,
    .xor, .andn, .shl, .shr, .sar, .rol, .seq, .sne, .slt, .sle, .sltu, .sleu, .min, .max, .minu, .maxu, .clz, .ctz,
    .popc, .brev, .bswap, .bfx, .bfi, .sext, .zext, .mov, .li, .lih, .beq, .bne, .blt, .bge] ++
  [.bltu, .bgeu, .jmp, .jmpr, .call, .callr, .ret, .halt, .trap, .wait, .eret, .ldb, .ldbu, .ldh, .ldhu, .ldw,
    .ldwu, .ldd, .stb, .sth, .stw, .std, .vld, .vst, .bbinit, .bbexp, .bbarr, .bbwait, .bbtest, .csrr, .csrw, .csrs,
    .csrc, .flags, .flagc, .time, .vadd, .vadds, .vsub, .vsubs, .vmul, .vmulh, .vfma, .vfms, .vmin, .vmax, .vabs,
    .vneg] ++
  [.vand, .vor, .vxor, .vandn, .vshl, .vshr, .vsar, .vceq, .vcne, .vclt, .vcle, .vblend, .vqmx, .vdqmx, .vrsum,
    .vrmax, .vrmin, .vscan, .vscanm, .vperm, .vshuf, .vbcast, .vext, .vins, .vdot4, .vpopm, .vmov, .vexp2, .vlog2,
    .vrcp, .vrsqrt, .vsqrt, .vtanh, .vsigm, .vsilu, .vgelu, .vsin, .vcos, .vexp, .vdiv, .susp, .task, .spark, .drop,
    .hdup, .hmake, .hstat, .tdone] ++
  [.mcfg, .epcfg, .cvld, .mwld, .mstr, .scrum, .mzero, .mdrn, .accrd, .accwr, .aadd, .amin, .amax, .aminu, .amaxu,
    .aand, .aor, .axor, .axchg, .acas, .fence, .fwait, .ftest, .hbset, .hbarr, .hbwait, .gbarr, .gbwait, .cpy,
    .cpys, .cpyg, .cpyx, .bcopy, .xpost, .xsend, .xclose, .kvapp, .attn, .acomb, .park, .wake, .msg, .msgRecv,
    .qstat, .boflush]

/-! ## Rows of instructions that write one result to D -/

/-- D, A and B of a scalar instruction of two sources, and of A alone (R63). -/
def scalarShape2 : Shape := ⟨anyMod, fGQd, fGIQ, fGIQ⟩
def scalarShape1 : Shape := ⟨anyMod, fGQd, fGIQ, fNo⟩

/-- D, A and B of BFI, whose D is read and written (R67). -/
def insertShape : Shape := ⟨anyMod, fGb, fGIQ, fGIQ⟩

/-- D and A of MOV (R69). -/
def moveShape : Shape := ⟨anyMod, ⟨.dst, true, 1, false, true, none⟩, ⟨.src, true, 1, true, true, none⟩, fNo⟩

/-- D of LI, and of LIH, which reads it; A and B are raw (R70). -/
def loadImmShape : Shape := ⟨anyMod, fGd, fNo, fNo⟩
def loadHighShape : Shape := ⟨anyMod, fGb, fNo, fNo⟩

/-- No field is read. -/
def bareShape : Shape := ⟨anyMod, fNo, fNo, fNo⟩

/-- The bits of a word, counted from bit 0. -/
def bitsUp (a : Word) : List Bool := (List.range 64).map a.getLsbD

/-- The bytes of a word, lowest first. -/
def bytesUp (a : Word) : List Nat := (List.range 8).map fun i => a.toNat / 256 ^ i % 256

/-- The number that a list of digits stands for, lowest first. -/
def fromDigits (base : Nat) : List Nat → Nat
  | [] => 0
  | d :: t => d + base * fromDigits base t

/-- Arithmetic instructions with the value that R64 gives D. -/
def arithRows : List ((Norom → Instr) × (Word → Word → Word)) := [
  (.add, fun a b => BitVec.ofInt 64 (a.toInt + b.toInt)),
  (.addss, fun a b => BitVec.ofInt 64 (min (max (a.toInt + b.toInt) (-2 ^ 63)) (2 ^ 63 - 1))),
  (.addus, fun a b => BitVec.ofNat 64 (min (a.toNat + b.toNat) (2 ^ 64 - 1))),
  (.sub, fun a b => BitVec.ofInt 64 (a.toInt - b.toInt)),
  (.subss, fun a b => BitVec.ofInt 64 (min (max (a.toInt - b.toInt) (-2 ^ 63)) (2 ^ 63 - 1))),
  (.subus, fun a b => BitVec.ofInt 64 (max ((a.toNat : Int) - b.toNat) 0)),
  (.mul, fun a b => BitVec.ofInt 64 (a.toInt * b.toInt)),
  (.mulhs, fun a b => BitVec.ofInt 64 (Int.fdiv (a.toInt * b.toInt) (2 ^ 64))),
  (.mulhu, fun a b => BitVec.ofNat 64 (a.toNat * b.toNat / 2 ^ 64)),
  (.divs, fun a b => if b = 0 then 0xFFFFFFFFFFFFFFFF
    else if a.toInt = -2 ^ 63 ∧ b.toInt = -1 then a else BitVec.ofInt 64 (Int.tdiv a.toInt b.toInt)),
  (.divu, fun a b => if b = 0 then 0xFFFFFFFFFFFFFFFF else BitVec.ofNat 64 (a.toNat / b.toNat)),
  (.rems, fun a b => if b = 0 then a
    else if a.toInt = -2 ^ 63 ∧ b.toInt = -1 then 0 else BitVec.ofInt 64 (Int.tmod a.toInt b.toInt)),
  (.remu, fun a b => if b = 0 then a else BitVec.ofNat 64 (a.toNat % b.toNat))]

/-- Logic, shift, comparison and minimum instructions with the value that R65 gives D. -/
def logicRows : List ((Norom → Instr) × (Word → Word → Word)) := [
  (.and, fun a b => a &&& b),
  (.or, fun a b => a ||| b),
  (.xor, fun a b => a ^^^ b),
  (.andn, fun a b => a &&& ~~~b),
  (.shl, fun a b => BitVec.ofNat 64 (a.toNat * 2 ^ (b.toNat % 64))),
  (.shr, fun a b => BitVec.ofNat 64 (a.toNat / 2 ^ (b.toNat % 64))),
  (.sar, fun a b => BitVec.ofInt 64 (Int.fdiv a.toInt (2 ^ (b.toNat % 64)))),
  (.rol, fun a b => BitVec.ofNat 64 (a.toNat * 2 ^ (b.toNat % 64)) |||
    BitVec.ofNat 64 (a.toNat / 2 ^ (64 - b.toNat % 64))),
  (.seq, fun a b => if a = b then 1 else 0),
  (.sne, fun a b => if a = b then 0 else 1),
  (.slt, fun a b => if a.toInt < b.toInt then 1 else 0),
  (.sle, fun a b => if a.toInt ≤ b.toInt then 1 else 0),
  (.sltu, fun a b => if a.toNat < b.toNat then 1 else 0),
  (.sleu, fun a b => if a.toNat ≤ b.toNat then 1 else 0),
  (.min, fun a b => BitVec.ofInt 64 (min a.toInt b.toInt)),
  (.max, fun a b => BitVec.ofInt 64 (max a.toInt b.toInt)),
  (.minu, fun a b => BitVec.ofNat 64 (min a.toNat b.toNat)),
  (.maxu, fun a b => BitVec.ofNat 64 (max a.toNat b.toNat))]

/-- Bit field and extension instructions with the value that R67 and R68 give D. -/
def fieldRows : List ((Norom → Instr) × (Word → Word → Word)) := [
  (.bfx, fun a b => BitVec.ofNat 64 (a.toNat / 2 ^ (b.toNat / 64 % 64) %
    2 ^ (if b.toNat % 64 = 0 then 64 else b.toNat % 64))),
  (.sext, fun a b => BitVec.ofInt 64 (Int.bmod a.toNat (2 ^ (if b.toNat % 64 = 0 then 64 else b.toNat % 64)))),
  (.zext, fun a b => BitVec.ofNat 64 (a.toNat % 2 ^ (if b.toNat % 64 = 0 then 64 else b.toNat % 64)))]

/-- Instructions of A alone with the value that R66 gives D. -/
def unaryRows : List ((Norom → Instr) × (Word → Word)) := [
  (.clz, fun a => BitVec.ofNat 64 ((bitsUp a).reverse.takeWhile (!·)).length),
  (.ctz, fun a => BitVec.ofNat 64 ((bitsUp a).takeWhile (!·)).length),
  (.popc, fun a => BitVec.ofNat 64 ((bitsUp a).count true)),
  (.brev, fun a => BitVec.ofNat 64 (fromDigits 2 ((bitsUp a).reverse.map Bool.toNat))),
  (.bswap, fun a => BitVec.ofNat 64 (fromDigits 256 (bytesUp a).reverse))]

/-! ## Control -/

/-- A and B of a branch; D is raw (R18, R71). -/
def branchShape : Shape := ⟨anyMod, fNo, fGI, fGI⟩

/-- A of a transfer through a register (R72). -/
def jumpShape : Shape := ⟨anyMod, fNo, fG, fNo⟩

/-- A of TRAP and FLAGC (R74, R92). -/
def trapShape : Shape := ⟨anyMod, fNo, fGI, fNo⟩

/-- D and A of WAIT (R75). -/
def waitShape : Shape := ⟨anyMod, fGd, fGI, fNo⟩

/-- D alone: FLAGS and TIME (R92, R93). -/
def readShape : Shape := ⟨anyMod, fGd, fNo, fNo⟩

/-- CSRR, and the control register instructions that write (R87). -/
def csrReadShape : Shape := ⟨anyMod, fGd, fI, fNo⟩
def csrWriteShape : Shape := ⟨anyMod, fGd, fI, fGI⟩

/-- The branches with their conditions (R71). -/
def branchRows : List ((Norom → Instr) × (Word → Word → Bool)) := [
  (.beq, fun a b => decide (a.toNat = b.toNat)),
  (.bne, fun a b => decide (a.toNat ≠ b.toNat)),
  (.blt, fun a b => decide (a.toInt < b.toInt)),
  (.bge, fun a b => decide (b.toInt ≤ a.toInt)),
  (.bltu, fun a b => decide (a.toNat < b.toNat)),
  (.bgeu, fun a b => decide (b.toNat ≤ a.toNat))]

/-- A target that E can go to (R19). -/
def State.inImage (s : State) (target : Int) : Bool := decide (0 ≤ target) && decide (target < s.my.stores.ilim)

/-- What an instruction that transfers to a target does: it goes there, or faults with FETCH_LIMIT (R19). -/
def State.transfers (s : State) (target : Int) : State :=
  if s.inImage target then s.goesOn (BitVec.ofInt 13 target) .running
  else s.raise ⟨0x03, BitVec.ofInt 64 target, none⟩

/-- E has a handler and is outside one, and xvec and xcause, which say so, carry no poison (R90, R348). -/
def State.catches (s : State) : Bool :=
  decide (s.my.e.xvec ≠ 0) && decide (s.my.e.xvec.toNat < s.my.stores.ilim) && !s.my.e.xcause.getLsbD 8 &&
    !decide (0x1010 ∈ s.my.poison.eRegs) && !decide (0x1011 ∈ s.my.poison.eRegs)

/-- The state at the start of E's handler: cause and active, xinfo and xpc written and so without poison, pc at xvec,
all else as before (R90, R348). -/
def State.inHandler (s : State) (cause : Byte) (info : Word) : State :=
  s.onMy fun c => { c with
    e := { c.e with
      run := .running, xcause := BitVec.ofNat 9 (256 + cause.toNat), xinfo := info, xpc := c.e.pc
      pc := BitVec.ofNat 13 c.e.xvec.toNat }
    poison := { c.poison with eRegs := c.poison.eRegs.filter fun r => decide (r ≠ 0x1011 ∧ r ≠ 0x1012 ∧ r ≠ 0x1013) } }

/-- The code that a task's handle records when a fault with a cause finds no handler to enter: the first fault's (R131;
log entry 79). -/
def State.firstCause (s : State) (cause : Byte) : Byte :=
  if s.my.e.xcause.getLsbD 8 then BitVec.ofNat 8 s.my.e.xcause.toNat else cause

/-- The state once oobf is cleared, where that is asked (R92). -/
def State.zeroOobf (s : State) (p : Bool) : State :=
  if p then s.onMy fun c => { c with pool := { c.pool with oobf := 0 } } else s

/-- The readable control registers of E with their values (R88); ebud is a field of its dispatch, and the meter may
charge it before a read. -/
def State.csrRows (s : State) : List (Nat × Word) := [
  (0x000, BitVec.ofNat 64 (s.coreCtx s.me)),
  (0x001, BitVec.ofNat 64 s.my.pos.toNat),
  (0x003, BitVec.ofNat 64 (s.my.part.toNat % 32 + s.my.part.toNat / 2 ^ 8 % 16 * 2 ^ 8 + s.my.part.toNat / 2 ^ 16 * 2 ^ 16)),
  (0x010, BitVec.ofNat 64 s.my.e.xvec.toNat),
  (0x011, BitVec.ofNat 64 s.my.e.xcause.toNat),
  (0x012, s.my.e.xinfo),
  (0x013, BitVec.ofNat 64 s.my.e.xpc.toNat),
  (0x020, BitVec.ofNat 64 s.my.e.fpm.toNat),
  (0x021, s.my.e.seed),
  (0x040, s.my.pool.oobf)] ++
  (match s.dispOf s.me with
   | some (_, d) => [(0x002, BitVec.ofNat 64 d.gen.toNat), (0x031, BitVec.ofNat 64 (d.cls % 8))]
   | none => []) ++
  (if s.my.stores.ilim ≤ 4096 then [(0x004, BitVec.ofNat 64 s.my.stores.ilim)] else []) ++
  (match s.ctxOf (s.coreCtx s.me) with
   | some x => [(0x050, BitVec.ofNat 64 x.tcount)]
   | none => [])

/-- The control register instructions that write, with the value that they give the register from its old value and B
(R87). -/
def csrWriteRows : List ((Norom → Instr) × (Word → Word → Word)) := [
  (.csrw, fun _ b => b),
  (.csrs, fun t b => t ||| b),
  (.csrc, fun t b => t &&& ~~~b)]

/-- The writable control registers, and what writing each does to E: bits outside its field are ignored (R88). -/
def csrWrites : List (Nat × (EStrand → Word → EStrand)) := [
  (0x010, fun e x => { e with xvec := BitVec.ofNat 12 x.toNat }),
  (0x013, fun e x => { e with xpc := BitVec.ofNat 13 x.toNat }),
  (0x020, fun e x => { e with fpm := BitVec.ofNat 8 x.toNat }),
  (0x021, fun e x => { e with seed := x })]

/-! ## Memory -/

/-- D, A and B of plain loads and stores, of VLD and VST, and of the byte barrier instructions (R76 to R79, R82). -/
def loadShape : Shape := ⟨anyMod, fGQd, fG, fGI⟩
def storeShape : Shape := ⟨anyMod, fGIQ, fG, fGI⟩
def loadVecShape : Shape := ⟨anyMod, fVQd, fG, fGI⟩
def storeVecShape : Shape := ⟨anyMod, fVQ, fG, fGI⟩
def barrierShape : Shape := ⟨anyMod, fNo, fG, fGI⟩
def barrierTestShape : Shape := ⟨anyMod, fGd, fG, fGI⟩

/-- The effective address of a form [A + B] (R76). -/
def State.address (s : State) (sh : Shape) (w : Norom) : Word :=
  BitVec.ofNat 64 ((low (s.operands sh w).a).toNat + (low (s.operands sh w).b).toNat)

/-- The little-endian number of a list of bytes. -/
def bytesValue (bs : List Byte) : Nat := fromDigits 256 (bs.map BitVec.toNat)

/-- The low n bytes of a number, lowest first. -/
def bytesOf (n x : Nat) : List Byte := (List.range n).map fun i => BitVec.ofNat 8 (x / 256 ^ i)

/-- The loads of E, with their size and result (R77). -/
def loadRows : List ((Norom → Instr) × Nat × (Nat → Word)) := [
  (.ldb, 1, fun x => BitVec.ofInt 64 (Int.bmod x (2 ^ 8))),
  (.ldbu, 1, fun x => BitVec.ofNat 64 x),
  (.ldh, 2, fun x => BitVec.ofInt 64 (Int.bmod x (2 ^ 16))),
  (.ldhu, 2, fun x => BitVec.ofNat 64 x),
  (.ldw, 4, fun x => BitVec.ofInt 64 (Int.bmod x (2 ^ 32))),
  (.ldwu, 4, fun x => BitVec.ofNat 64 x),
  (.ldd, 8, fun x => BitVec.ofNat 64 x)]

/-- The stores of E, with their size (R78). -/
def storeRows : List ((Norom → Instr) × Nat) := [(.stb, 1), (.sth, 2), (.stw, 4), (.std, 8)]

/-- All n bytes at ea lie in one row of the aperture table (R54). -/
def oneRow (ea n : Nat) : Bool :=
  decide (ea + n ≤ 2 ^ 57) ||
  (decide (0xF000000000000000 ≤ ea) && decide (ea + n ≤ 0xF000000000100000)) ||
  (decide (0xF100000000000000 ≤ ea) && decide (ea + n ≤ 0xF100000010000000)) ||
  (decide (0xF200000000000000 ≤ ea) && decide (ea + n ≤ 0xF200000000100000))

/-- One byte of memory, whichever storage it lies in: physical memory, a space of a core's pool or its canvas, the
scratch of an umpire. -/
inductive BytePlace where
  | mem (a : Nat)
  | pool (core : Nat) (sp : Space) (off : Nat)
  | umpire (court off : Nat)
  deriving DecidableEq, Repr

/-- Reads one byte of memory. -/
def State.byteOf (s : State) : BytePlace → Byte
  | .mem a => s.mem.get 0 a
  | .pool c sp off => (spaceTab (s.core c) sp).get 0 off
  | .umpire c off => (s.court c).umpire.scratch.get 0 off

/-- Which of n bytes stored at a place a byte of memory is, if it is one of them: bytes of a pool at or beyond its
partitioned size are dropped (R55), and a dropped arrival stores nothing (R56). -/
def State.storedAt (s : State) (l : Loc) (n : Nat) (b : BytePlace) : Option Nat :=
  match l, b with
  | .mem p _, .mem a => if p ≤ a ∧ a < p + n then some (a - p) else none
  | .pool c sp off, .pool c' sp' o =>
    if c = c' ∧ sp = sp' ∧ off ≤ o ∧ o < off + n ∧ o < spaceSize (s.core c) sp then some (o - off) else none
  | .umpire c off, .umpire c' o => if c = c' ∧ off ≤ o ∧ o < off + n then some (o - off) else none
  | _, _ => none

/-- The bytes stored at a place are there afterwards and every other byte of memory is as before. -/
def storesOnly (s t : State) (l : Loc) (bs : List Byte) : Prop :=
  ∀ b, t.byteOf b = match s.storedAt l bs.length b with
    | some i => (bs[i]?).getD 0
    | none => s.byteOf b

/-- Every byte of memory is as before. -/
def sameMemory (s t : State) : Prop := ∀ b, t.byteOf b = s.byteOf b

/-- The general, vector and control registers of E of the acting core are as before. -/
def sameRegisters (s t : State) : Prop :=
  (∀ n, t.my.e.rd n = s.my.e.rd n) ∧ (∀ n, t.my.e.rdV n = s.my.e.rdV n) ∧
  t.my.e.xvec = s.my.e.xvec ∧ t.my.e.xcause = s.my.e.xcause ∧ t.my.e.xinfo = s.my.e.xinfo ∧
  t.my.e.xpc = s.my.e.xpc ∧ t.my.e.fpm = s.my.e.fpm ∧ t.my.e.seed = s.my.e.seed

/-- The registers and accumulators of the acting core but for E's, of its other strands and of every other core are as
before. -/
def sameOthers (s t : State) : Prop :=
  (∀ n, n ≠ s.me → (t.core n).e = (s.core n).e) ∧ (∀ n, (t.core n).l = (s.core n).l) ∧
  (∀ n, (t.core n).s = (s.core n).s) ∧ (∀ n, (t.core n).mx = (s.core n).mx) ∧
  (∀ c, (t.court c).umpire.hart = (s.court c).umpire.hart)

/-- The two words of the byte barrier at a place: pending, and phase with rearm (R58). -/
def State.barrierWords (s : State) (l : Loc) : Nat × Nat :=
  (bytesValue ((locRead s l 16).take 8), bytesValue ((locRead s l 16).drop 8))

/-! ## Vector instructions -/

/-- MOD names one of the eight integer types, or f16, bf16 or f32 (R22, R95). -/
def modInt (m : BitVec 6) : Bool := decide (m.toNat % 32 ≤ 7)
def modFloat (m : BitVec 6) : Bool := decide (9 ≤ m.toNat % 32) && decide (m.toNat % 32 ≤ 11)

/-- MOD names one of the types of code 0x00 to 0x11 (R95). -/
def modAny (m : BitVec 6) : Bool := decide (m.toNat % 32 ≤ 17)

/-- D, A and B of vector instructions: two sources, one source, and D read as well (R94). -/
def vecShape2 (m : BitVec 6 → Bool) : Shape := ⟨m, fVQd, fSrc, fSrc⟩
def vecShape1 (m : BitVec 6 → Bool) : Shape := ⟨m, fVQd, fSrc, fNo⟩
def vecShape3 (m : BitVec 6 → Bool) : Shape := ⟨m, fVb, fSrc, fSrc⟩

/-- Lane i of a source: a scalar gives its low bits to every lane (R94). -/
def srcElem (w : Nat) (raw : BitVec 16) (x : V128) (i : Nat) : Nat :=
  match opnd raw with
  | .g _ => x.toNat % 2 ^ w
  | .imm _ => x.toNat % 2 ^ w
  | _ => x.toNat / 2 ^ (w * i) % 2 ^ w

/-- Width and signedness of an integer type code (R22). -/
def intWidth (m : BitVec 6) : Nat := 8 * 2 ^ (m.toNat % 32 / 2)
def intSigned (m : BitVec 6) : Bool := decide (m.toNat % 2 = 0)

/-- The integer that a lane stands for (R151). -/
def intVal (signed : Bool) (w c : Nat) : Int := if signed then Int.bmod c (2 ^ w) else c

/-- The lane of an exact integer: clamped to the type's range, or wrapped (R97). -/
def intCode (signed : Bool) (w : Nat) (sat : Bool) (r : Int) : Nat :=
  let lo : Int := if signed then -2 ^ (w - 1) else 0
  let hi : Int := if signed then 2 ^ (w - 1) - 1 else 2 ^ w - 1
  ((if sat then min (max r lo) hi else r) % 2 ^ w).toNat

/-- Lane-wise arithmetic of two sources: what saturates from MOD[5], and the exact integer result (R98). -/
def intRows2 : List ((Norom → Instr) × (Bool → Bool) × (Nat → Int → Int → Int)) := [
  (.vadd, fun m => m, fun _ a b => a + b),
  (.vadds, fun _ => true, fun _ a b => a + b),
  (.vsub, fun m => m, fun _ a b => a - b),
  (.vsubs, fun _ => true, fun _ a b => a - b),
  (.vmul, fun m => m, fun _ a b => a * b),
  (.vmulh, fun _ => false, fun w a b => Int.fdiv (a * b) (2 ^ w)),
  (.vmin, fun _ => false, fun _ a b => min a b),
  (.vmax, fun _ => false, fun _ a b => max a b)]

/-- Lane-wise arithmetic of A alone (R98). -/
def intRows1 : List ((Norom → Instr) × (Int → Int)) := [
  (.vabs, fun a => if a < 0 then -a else a),
  (.vneg, fun a => -a)]

/-- Fused instructions: the exact integer result (R99). -/
def intRows3 : List ((Norom → Instr) × (Int → Int → Int → Int)) := [
  (.vfma, fun d a b => d + a * b),
  (.vfms, fun d a b => d - a * b)]

/-- Shifts: the lane from the type, MOD[5], the lane of A and the count (R101). -/
def shiftRows : List ((Norom → Instr) × (Bool → Nat → Bool → Nat → Nat → Nat)) := [
  (.vshl, fun sg w sat a c => intCode sg w sat (intVal sg w a * 2 ^ c)),
  (.vshr, fun _ _ _ a c => a / 2 ^ c),
  (.vsar, fun _ w _ a c => intCode true w false (Int.fdiv (intVal true w a) (2 ^ c)))]

/-- Comparisons on integers (R102). -/
def intCmpRows : List ((Norom → Instr) × (Int → Int → Bool)) := [
  (.vceq, fun a b => decide (a = b)),
  (.vcne, fun a b => decide (a ≠ b)),
  (.vclt, fun a b => decide (a < b)),
  (.vcle, fun a b => decide (a ≤ b))]

/-- Lane-wise float arithmetic of two sources: what saturates, and the exact value (R96, R98, R118). -/
def floatRows2 : List ((Norom → Instr) × (Bool → Bool) × (FVal → FVal → FVal)) := [
  (.vadd, fun m => m, FVal.add),
  (.vadds, fun _ => true, FVal.add),
  (.vsub, fun m => m, fun a b => a.add b.neg),
  (.vsubs, fun _ => true, fun a b => a.add b.neg),
  (.vmul, fun m => m, FVal.mul),
  (.vmin, fun _ => false, FVal.min),
  (.vmax, fun _ => false, FVal.max),
  (.vdiv, fun m => m, FVal.div)]

/-- Float arithmetic of A alone: sign changes (R98), and the special functions before their last rounding (R116,
R117). -/
def floatRows1 : List ((Norom → Instr) × (FFmt → FVal → FVal)) := [
  (.vabs, fun _ => FVal.abs), (.vneg, fun _ => FVal.neg),
  (.vexp2, fun _ => fnExp2), (.vlog2, fun _ => fnLog2), (.vrcp, fun _ => FVal.div .one),
  (.vrsqrt, fun _ => fnRsqrt), (.vsqrt, fun _ => fnSqrt), (.vtanh, tanhLast), (.vsigm, sigmLast),
  (.vsilu, siluLast), (.vgelu, geluLast), (.vsin, fun _ => fnSin), (.vcos, fun _ => fnCos), (.vexp, fun _ => fnExp)]

/-- Comparisons on floats (R102). -/
def floatCmpRows : List ((Norom → Instr) × (FVal → FVal → Bool)) := [
  (.vceq, FVal.eqv),
  (.vcne, fun a b => !(FVal.eqv a b)),
  (.vclt, FVal.lt),
  (.vcle, fun a b => FVal.lt a b || FVal.eqv a b)]

/-- A source of an untyped instruction: a scalar fills both halves (R94, R100). -/
def bothHalves (raw : BitVec 16) (x : V128) : V128 :=
  match opnd raw with
  | .g _ => BitVec.ofNat 128 ((low x).toNat * (2 ^ 64 + 1))
  | .imm _ => BitVec.ofNat 128 ((low x).toNat * (2 ^ 64 + 1))
  | _ => x

/-- Untyped instructions on 128 bits (R100). -/
def wholeRows : List ((Norom → Instr) × (V128 → V128 → V128)) := [
  (.vand, fun a b => a &&& b),
  (.vor, fun a b => a ||| b),
  (.vxor, fun a b => a ^^^ b),
  (.vandn, fun a b => a &&& ~~~b)]

/-- Reductions and scans with the lane operation of R98: its exact integer result and its float value (R109, R110). -/
def reduceRows : List ((Norom → Instr) × (Int → Int → Int) × (FVal → FVal → FVal)) := [
  (.vrsum, fun a b => a + b, FVal.add),
  (.vrmax, fun a b => max a b, FVal.max),
  (.vrmin, fun a b => min a b, FVal.min)]
def scanRows : List ((Norom → Instr) × (Int → Int → Int) × (FVal → FVal → FVal)) := [
  (.vscan, fun a b => a + b, FVal.add),
  (.vscanm, fun a b => max a b, FVal.max)]

/-- One lane operation on codes of the type that MOD names (R96, R97). -/
def laneStep (m : BitVec 6) (fpm : Byte) (fi : Int → Int → Int) (ff : FVal → FVal → FVal) (a b : Nat) : Nat :=
  if modInt m then
    intCode (intSigned m) (intWidth m) (m.getLsbD 5)
      (fi (intVal (intSigned m) (intWidth m) a) (intVal (intSigned m) (intWidth m) b))
  else
    let t := tyOf (m.setWidth 5)
    t.encode fpm .rne (m.getLsbD 5) (ff (t.value fpm a) (t.value fpm b))

/-- The result of reducing the lanes i, i + 1, …, i + 2^n - 1 pairwise (R109). -/
def reduceTree (op : Nat → Nat → Nat) (x : Nat → Nat) : Nat → Nat → Nat
  | 0, i => x i
  | n + 1, i => op (reduceTree op x n i) (reduceTree op x n (i + 2 ^ n))

/-- Running results from a carry-in: the result after lane i (R110). -/
def scanAt (op : Nat → Nat → Nat) (c : Nat) (x : Nat → Nat) : Nat → Nat
  | 0 => op c (x 0)
  | i + 1 => op (scanAt op c x i) (x (i + 1))

/-- The bits of a type that MOD names, and its lanes (R22). -/
def modWidth (m : BitVec 6) : Nat := (tyOf (m.setWidth 5)).width
def modLanes (m : BitVec 6) : Nat := 128 / modWidth m

/-- fpm carries no poison (R348). -/
def State.fpmClean (s : State) : Bool := !decide (0x1020 ∈ s.my.poison.eRegs)

/-- What a finite float code is worth. -/
def worth (v : FVal) : Rat :=
  match v with
  | .fin s m => (if s then -1 else 1) * ((m.n : Rat) / (m.d : Rat))
  | _ => 0

/-- The distance of two values. -/
def apart (x y : Rat) : Rat := if x ≤ y then y - x else x - y

/-! ## Synchronisation -/

/-- D, A and B of an atomic and of ACAS (R233, R236). -/
def atomicShape : Shape := ⟨anyMod, fGd, fG, fGI⟩
def casShape : Shape := ⟨anyMod, fGb, fG, fGI⟩

/-- Bytes of an atomic: MOD[2] (R233). -/
def atomicBytes (w : Norom) : Nat := if w.mod.toNat / 4 % 2 = 1 then 8 else 4

/-- The atomics with the new value from the width in bits, the old value and the operand (R233). -/
def atomicRows : List ((Norom → Instr) × (Nat → Nat → Nat → Nat)) := [
  (.aadd, fun _ o x => o + x),
  (.amin, fun n o x => if intVal true n x ≤ intVal true n o then x else o),
  (.amax, fun n o x => if intVal true n x ≤ intVal true n o then o else x),
  (.aminu, fun _ o x => min o x),
  (.amaxu, fun _ o x => max o x),
  (.aand, fun _ o x => o &&& x),
  (.aor, fun _ o x => o ||| x),
  (.axor, fun _ o x => o ^^^ x),
  (.axchg, fun _ _ x => x)]

/-- D and A of FENCE, whose scope code is 0 to 4; A of FWAIT; D and A of FTEST (R237, R238). -/
def fenceShape : Shape := ⟨fun m => decide (m.toNat % 8 ≤ 4), fGd, fGI, fNo⟩
def fenceWaitShape : Shape := ⟨anyMod, fNo, fG, fNo⟩
def fenceTestShape : Shape := ⟨anyMod, fGd, fG, fNo⟩

/-- The huddle and global barrier instructions (R240 to R242, R303). -/
def hbsetShape : Shape := ⟨anyMod, fNo, fSp .huddle, fG⟩
def hbarrShape : Shape := ⟨anyMod, fGd, fSp .huddle, fNo⟩
def hbwaitShape : Shape := ⟨anyMod, fNo, fSp .huddle, fGI⟩
def gbarrShape : Shape := ⟨anyMod, fGd, fSp .gbar, fNo⟩
def gbwaitShape : Shape := ⟨anyMod, fNo, fSp .gbar, fGI⟩

/-- The number of the special operand that a field names (R17). -/
def specialOf (raw : BitVec 16) : Nat := raw.toNat % 256

/-- Messages of the acting core's dispatch that it has sent and that are not delivered (R252). -/
def State.unheard (s : State) (d : Nat) : Nat :=
  (s.floor.messages.filter fun m => m.away.isNone && decide (m.src = s.me) && decide (m.disp = some d)).length

/-! ## Demand instructions -/

/-- D and A of SUSP, TASK, FORCE, HMAKE and HSTAT; A of SPARK, DROP and HDUP (R134). -/
def handleShape : Shape := ⟨anyMod, fGd, fG, fNo⟩
def handleOnlyShape : Shape := ⟨anyMod, fNo, fG, fNo⟩

/-- A handle names a live entry of this package that holds a reference and is no CELL (R135 step 3). -/
def State.liveSlot (s : State) (ctx : Nat) (h : Word) : Bool :=
  match s.href ctx h with
  | .here _ x => decide (x.refs ≠ 0) && decide (x.state ≠ .cell)
  | _ => false

/-- The state once each of some handles of this package has gained a reference (R9). -/
def State.referred (s : State) (ctx : Nat) (l : List Word) : State :=
  l.foldl (fun t a => match t.href ctx a with
    | .here i _ => t.onHandle ctx i fun y => { y with refs := y.refs + 1 }
    | _ => t) s

/-- A context may take another handle, in a table whose indexes a handle word can hold (R119, R129). -/
def State.roomForHandle (s : State) (ctx : Nat) : Bool :=
  match s.ctxOf ctx with
  | some c => decide (c.handles.length < c.hquota) && decide (c.hquota ≤ 2 ^ 24) && decide (s.domain.index < 256)
  | none => false

/-- Cores that a task is placed on have all executed TDONE once this one has (R141). -/
def lastDone (d : Dispatch) (n : Nat) : Bool := d.cores.all fun y => y.tdone || y.cur == n

/-! ## The matrix engine -/

/-- The instructions of the matrix engine (R144 to R148, R172, R174, R179). -/
def cardShape : Shape := ⟨anyMod, fNo, fG, fNo⟩
def cardBarrierShape : Shape := ⟨anyMod, fNo, fG, fG⟩
def mwldShape : Shape := ⟨arrayFormat, fNo, fG, fG⟩
def mstrShape : Shape := ⟨arrayFormat, fSp .tile, fG, fGI⟩
def mzeroShape : Shape := ⟨anyMod, fSp .tile, fNo, fNo⟩
def mdrnShape : Shape := ⟨anyMod, fSp .tile, fG, fG⟩
def accrdShape : Shape := ⟨fun m => decide (m.toNat % 32 = 18), fVd 22, fSp .tile, fGI⟩
def accwrShape : Shape := ⟨fun m => decide (m.toNat % 32 = 18), fSp .tile, fVd 1, fGI⟩

/-- The state once the acting core's engine has taken a command with the next card serial; f is what the command puts
in force for later checks (R143, R171). -/
def State.queueMx (s : State) (op : MxOp) (f : Matrix → Matrix) : State :=
  (s.onFloor fun x => { x with nextItem := x.nextItem + 1 }).onMy fun c =>
    { c with mx := f { c.mx with queue := c.mx.queue ++ [⟨s.floor.nextItem, op, 0, none, false⟩] } }

/-- What an issue does once its checks have passed: it takes a queue entry, or waits for one (R143). -/
def State.issuesMx (s u : State) (op : MxOp) (f : Matrix → Matrix) : State :=
  if u.my.mx.queue.length < 2 then (u.queueMx op f).inLine else s.enterWait .matrixRoom

/-- Rows of a tile in force for the checks at issue, K in force, and the class of a tile (R144, R171). -/
def State.rowsInForce (s : State) (t : Nat) : Nat :=
  match s.my.mx.cfgI with
  | some c => (c.rows[t]?).getD 0
  | none => 0

/-- A barrier address that a card or command accepts (R58). -/
def barrierGood (b : Word) : Bool :=
  decide (b.toNat % 16 = 0) &&
    ((decide (0xF000000000000000 ≤ b.toNat) && decide (b.toNat + 16 ≤ 0xF000000000100000)) ||
     (decide (0xF100000000000000 ≤ b.toNat) && decide (b.toNat + 16 ≤ 0xF100000010000000)))

/-- The stream's format, the latched format and the tile are of one class (R147). -/
def State.oneClass (s : State) (fmt : BitVec 5) (t : Nat) : Bool :=
  match s.my.mx.fmtI, s.my.mx.cfgI with
  | some f, some c => (intFormat f == intFormat fmt) && (intFormat fmt == (c.ints[t]?).getD false)
  | _, _ => false

/-- The state once a core's engine has completed its oldest command (R149, R345). -/
def State.mxDone (s : State) (n : Nat) : State := orKeep (popMx n) s

/-- The event names core n, whose oldest matrix command is ready to be performed from its first piece. -/
def State.mxReady (s : State) (n : Nat) (op : MxOp) : Prop :=
  s.arg = .core n ∧ (∃ k g rest, (s.core n).mx.queue = ⟨k, op, 0, g, false⟩ :: rest) ∧ (17, 0) ∉ (s.core n).poison.entries

/-- The sum of an element over k, integer class: clamped to 40 bits at each addition (R162). -/
def intSum (stream weight : Nat → Int) (k : Nat) (acc : Int) : Int :=
  (List.range k).foldl (fun a i => min (max (a + stream i * weight i) (-2 ^ 39)) (2 ^ 39 - 1)) acc

/-- The sum of an element over k, float class: each product rounded to what ACC40 holds, then one rounding per addition
(R147, R161). -/
def floatSum (flushIn : Bool) (stream weight : Nat → FVal) (k : Nat) (acc : Acc40) : Acc40 :=
  (List.range k).foldl (fun a i => BitVec.ofNat 40 (rndAcc
    ((fmtAcc.decode (fmtAcc.flush flushIn a.toNat)).add (accProduct ((stream i).mul (weight i)))))) acc

/-! ## Job cards -/

/-- Every field of a job card lies in its range (R246), for operation op: 0 CPY, 1 CPYS, 2 CPYG, 3 CPYX. -/
def jobInRange (bs : List Byte) (op : Nat) : Bool :=
  let rows := if op = 0 then 1 else fieldAt bs 0x20 4
  let rbytes := fieldAt bs 0x24 4
  decide (1 ≤ rows) && decide (rows ≤ 65535) && decide (16 ≤ rbytes) && decide (rbytes ≤ 0x100000) &&
    decide (rbytes % 16 = 0) && decide (rows * rbytes ≤ 0x100000) && decide (fieldAt bs 0x30 1 % 8 ≤ 4) &&
    (decide (op = 0) || (decide (fieldAt bs 0x28 4 % 16 = 0) && decide (fieldAt bs 0x2C 4 % 16 = 0))) &&
    (decide (op < 2) || (inArea .own (wordAt bs 0x18) (4 * rows) && decide ((wordAt bs 0x18).toNat % 16 = 0)))

/-- The addresses of a job card are aligned and lie in apertures that it accepts (R246). -/
def jobPlaced (bs : List Byte) (op : Nat) : Bool :=
  let src := wordAt bs 0
  let dst := wordAt bs 8
  let rows := if op = 0 then 1 else fieldAt bs 0x20 4
  let sstride := if op = 0 then 0 else fieldAt bs 0x28 4
  let dstride := if op = 0 then 0 else fieldAt bs 0x2C 4
  let rbytes := fieldAt bs 0x24 4
  decide (src.toNat % 16 = 0) && decide (dst.toNat % 16 = 0) && inArea .plain src 16 && inArea .plain dst 16 &&
    (decide (op = 2) || (List.range rows).all fun i => inAreaAt .plain (src.toNat + i * sstride) rbytes) &&
    (decide (op = 3) || (List.range rows).all fun i => inAreaAt .plain (dst.toNat + i * dstride) rbytes) &&
    (decide (wordAt bs 0x10 = 0) || barrierGood (wordAt bs 0x10))

/-- The command that a job card of a strand becomes (R246). -/
def jobCmd (bs : List Byte) (op : Nat) (issuer : Strand) (stamp : Nat) : CopyCmd :=
  ⟨stamp, issuer, op, wordAt bs 0, wordAt bs 8, wordAt bs 0x10, wordAt bs 0x18,
    if op = 0 then 1 else fieldAt bs 0x20 4, fieldAt bs 0x24 4, if op = 0 then 0 else fieldAt bs 0x28 4,
    if op = 0 then 0 else fieldAt bs 0x2C 4, fieldAt bs 0x30 1 % 8, 0, 0, none, false⟩

/-- The state once the acting core's copy engine has taken a job card with the next card serial (R245). -/
def State.queueJob (s : State) (bs : List Byte) (op : Nat) (issuer : Strand) : State :=
  (s.onFloor fun f => { f with nextItem := f.nextItem + 1 }).onMy fun x =>
    { x with copy := x.copy ++ [jobCmd bs op issuer s.floor.nextItem] }

/-! ## RV64 harts -/

/-- L, S or an umpire acts. -/
def State.turnHart (s : State) : Bool :=
  match s.cur with
  | .strand _ .l => true
  | .strand _ .s => true
  | .umpire _ => true
  | _ => false

/-- L acts; S acts; an umpire acts. -/
def State.turnL (s : State) : Bool := decide (s.cur = .strand s.me .l)
def State.turnS (s : State) : Bool := decide (s.cur = .strand s.me .s)

/-- No read that L has pushed with LQ.GPUSH is unperformed, or it is not L that acts (R194). -/
def State.readsDone (s : State) : Bool := !s.turnL || decide (s.my.unread = [])
def State.turnUmpire (s : State) : Bool :=
  match s.cur with
  | .umpire _ => true
  | _ => false

/-- An integer register of the acting hart carries no poison (R348). -/
def State.cleanX (s : State) (n : BitVec 5) : Bool :=
  match s.cur with
  | .strand c k => !decide ((k, n.toNat) ∈ (s.core c).poison.rvRegs)
  | .umpire c => !decide (n.toNat ∈ (s.court c).umpire.badRegs)
  | .floor => true

/-- An integer register of the acting hart. -/
def State.x (s : State) (n : BitVec 5) : Word := s.hart.rd n

/-- The state once an integer register of the acting hart is written; x0 discards (R187). -/
def State.setX (s : State) (n : BitVec 5) (v : Word) : State := orKeep (writeX n v) s

/-- The acting hart goes on at an address; it goes on behind an instruction of n bytes. -/
def State.hartAt (s : State) (target : Word) : State := orKeep (completeRv target .running) s
def State.hartLine (s : State) (n : Nat) : State := s.hartAt (s.hart.pc + BitVec.ofNat 64 n)

/-- The acting hart takes an instruction of a length: 16-bit forms are the umpire's (R187, R306). -/
def State.takesLen (s : State) (len : RvLen) : Bool :=
  match len with
  | .four => true
  | .two _ => s.turnUmpire

/-- The number that a word stands for modulo 2^w, signed. -/
def signedOf (w : Nat) (x : Nat) : Int := Int.bmod x (2 ^ w)

/-- A 32-bit result, sign-extended (R187). -/
def word32 (x : Int) : Word := BitVec.ofInt 64 (Int.bmod x (2 ^ 32))

/-- Register-register operations with the value of rd (R187). -/
def rvAluRows : List (RvAlu × (Word → Word → Word)) := [
  (.add, fun a b => BitVec.ofInt 64 (a.toInt + b.toInt)),
  (.sub, fun a b => BitVec.ofInt 64 (a.toInt - b.toInt)),
  (.sll, fun a b => BitVec.ofNat 64 (a.toNat * 2 ^ (b.toNat % 64))),
  (.slt, fun a b => if a.toInt < b.toInt then 1 else 0),
  (.sltu, fun a b => if a.toNat < b.toNat then 1 else 0),
  (.xor, fun a b => a ^^^ b),
  (.srl, fun a b => BitVec.ofNat 64 (a.toNat / 2 ^ (b.toNat % 64))),
  (.sra, fun a b => BitVec.ofInt 64 (Int.fdiv a.toInt (2 ^ (b.toNat % 64)))),
  (.or, fun a b => a ||| b),
  (.and, fun a b => a &&& b),
  (.mul, fun a b => BitVec.ofInt 64 (a.toInt * b.toInt)),
  (.mulh, fun a b => BitVec.ofInt 64 (Int.fdiv (a.toInt * b.toInt) (2 ^ 64))),
  (.mulhsu, fun a b => BitVec.ofInt 64 (Int.fdiv (a.toInt * b.toNat) (2 ^ 64))),
  (.mulhu, fun a b => BitVec.ofNat 64 (a.toNat * b.toNat / 2 ^ 64)),
  (.div, fun a b => if b = 0 then 0xFFFFFFFFFFFFFFFF else BitVec.ofInt 64 (Int.tdiv a.toInt b.toInt)),
  (.divu, fun a b => if b = 0 then 0xFFFFFFFFFFFFFFFF else BitVec.ofNat 64 (a.toNat / b.toNat)),
  (.rem, fun a b => if b = 0 then a else BitVec.ofInt 64 (Int.tmod a.toInt b.toInt)),
  (.remu, fun a b => BitVec.ofNat 64 (a.toNat % b.toNat)),
  (.sh1add, fun a b => BitVec.ofNat 64 (2 * a.toNat + b.toNat)),
  (.sh2add, fun a b => BitVec.ofNat 64 (4 * a.toNat + b.toNat)),
  (.sh3add, fun a b => BitVec.ofNat 64 (8 * a.toNat + b.toNat)),
  (.andn, fun a b => a &&& ~~~b),
  (.orn, fun a b => a ||| ~~~b),
  (.xnor, fun a b => ~~~(a ^^^ b)),
  (.max, fun a b => BitVec.ofInt 64 (max a.toInt b.toInt)),
  (.maxu, fun a b => BitVec.ofNat 64 (max a.toNat b.toNat)),
  (.min, fun a b => BitVec.ofInt 64 (min a.toInt b.toInt)),
  (.minu, fun a b => BitVec.ofNat 64 (min a.toNat b.toNat)),
  (.rol, fun a b => BitVec.ofNat 64 (a.toNat * 2 ^ (b.toNat % 64)) ||| BitVec.ofNat 64 (a.toNat / 2 ^ (64 - b.toNat % 64))),
  (.ror, fun a b => BitVec.ofNat 64 (a.toNat / 2 ^ (b.toNat % 64)) ||| BitVec.ofNat 64 (a.toNat * 2 ^ (64 - b.toNat % 64)))]

/-- The 32-bit register-register operations, and the .uw forms of Zba (R187). -/
def rvAluWRows : List (RvAluW × (Word → Word → Word)) := [
  (.addw, fun a b => word32 (a.toNat + b.toNat)),
  (.subw, fun a b => word32 ((a.toNat : Int) - b.toNat)),
  (.sllw, fun a b => word32 (a.toNat * 2 ^ (b.toNat % 32))),
  (.srlw, fun a b => word32 (a.toNat % 2 ^ 32 / 2 ^ (b.toNat % 32))),
  (.sraw, fun a b => word32 (Int.fdiv (signedOf 32 a.toNat) (2 ^ (b.toNat % 32)))),
  (.mulw, fun a b => word32 (a.toNat * b.toNat)),
  (.divw, fun a b => if b.toNat % 2 ^ 32 = 0 then 0xFFFFFFFFFFFFFFFF
    else word32 (Int.tdiv (signedOf 32 a.toNat) (signedOf 32 b.toNat))),
  (.divuw, fun a b => if b.toNat % 2 ^ 32 = 0 then 0xFFFFFFFFFFFFFFFF
    else word32 (a.toNat % 2 ^ 32 / (b.toNat % 2 ^ 32))),
  (.remw, fun a b => if b.toNat % 2 ^ 32 = 0 then word32 a.toNat
    else word32 (Int.tmod (signedOf 32 a.toNat) (signedOf 32 b.toNat))),
  (.remuw, fun a b => word32 (a.toNat % 2 ^ 32 % (b.toNat % 2 ^ 32))),
  (.adduw, fun a b => BitVec.ofNat 64 (a.toNat % 2 ^ 32 + b.toNat)),
  (.sh1adduw, fun a b => BitVec.ofNat 64 (2 * (a.toNat % 2 ^ 32) + b.toNat)),
  (.sh2adduw, fun a b => BitVec.ofNat 64 (4 * (a.toNat % 2 ^ 32) + b.toNat)),
  (.sh3adduw, fun a b => BitVec.ofNat 64 (8 * (a.toNat % 2 ^ 32) + b.toNat)),
  (.rolw, fun a b => word32 (a.toNat * 2 ^ (b.toNat % 32) + a.toNat % 2 ^ 32 / 2 ^ (32 - b.toNat % 32))),
  (.rorw, fun a b => word32 (a.toNat % 2 ^ 32 / 2 ^ (b.toNat % 32) + a.toNat * 2 ^ (32 - b.toNat % 32)))]

/-- The operations with an immediate of 12 bits, with its sign-extended value (R187). -/
def rvAluIRows : List (RvAluI × (Word → Word → Word)) := [
  (.addi, fun a b => BitVec.ofInt 64 (a.toInt + b.toInt)),
  (.slti, fun a b => if a.toInt < b.toInt then 1 else 0),
  (.sltiu, fun a b => if a.toNat < b.toNat then 1 else 0),
  (.xori, fun a b => a ^^^ b),
  (.ori, fun a b => a ||| b),
  (.andi, fun a b => a &&& b)]

/-- Shifts by an amount that the word gives (R187). -/
def rvShIRows : List (RvShI × (Word → Nat → Word)) := [
  (.slli, fun a n => BitVec.ofNat 64 (a.toNat * 2 ^ n)),
  (.srli, fun a n => BitVec.ofNat 64 (a.toNat / 2 ^ n)),
  (.srai, fun a n => BitVec.ofInt 64 (Int.fdiv a.toInt (2 ^ n))),
  (.rori, fun a n => BitVec.ofNat 64 (a.toNat / 2 ^ n) ||| BitVec.ofNat 64 (a.toNat * 2 ^ (64 - n))),
  (.slliuw, fun a n => BitVec.ofNat 64 (a.toNat % 2 ^ 32 * 2 ^ n))]
def rvShIWRows : List (RvShIW × (Word → Nat → Word)) := [
  (.slliw, fun a n => word32 (a.toNat * 2 ^ n)),
  (.srliw, fun a n => word32 (a.toNat % 2 ^ 32 / 2 ^ n)),
  (.sraiw, fun a n => word32 (Int.fdiv (signedOf 32 a.toNat) (2 ^ n))),
  (.roriw, fun a n => word32 (a.toNat % 2 ^ 32 / 2 ^ n + a.toNat * 2 ^ (32 - n)))]

/-- The operations of one source (R187). -/
def rvUnRows : List (RvUn × (Word → Word)) := [
  (.clz, fun a => BitVec.ofNat 64 ((bitsUp a).reverse.takeWhile (!·)).length),
  (.ctz, fun a => BitVec.ofNat 64 ((bitsUp a).takeWhile (!·)).length),
  (.cpop, fun a => BitVec.ofNat 64 ((bitsUp a).count true)),
  (.sextb, fun a => BitVec.ofInt 64 (signedOf 8 a.toNat)),
  (.sexth, fun a => BitVec.ofInt 64 (signedOf 16 a.toNat)),
  (.zexth, fun a => BitVec.ofNat 64 (a.toNat % 65536)),
  (.orcb, fun a => BitVec.ofNat 64 (fromDigits 256 ((bytesUp a).map fun b => if b = 0 then 0 else 255))),
  (.rev8, fun a => BitVec.ofNat 64 (fromDigits 256 (bytesUp a).reverse)),
  (.clzw, fun a => BitVec.ofNat 64 (((bitsUp a).take 32).reverse.takeWhile (!·)).length),
  (.ctzw, fun a => BitVec.ofNat 64 (((bitsUp a).take 32).takeWhile (!·)).length),
  (.cpopw, fun a => BitVec.ofNat 64 (((bitsUp a).take 32).count true))]

/-- Branch conditions (R187). -/
def rvCondRows : List (RvCond × (Word → Word → Bool)) := [
  (.eq, fun a b => decide (a = b)), (.ne, fun a b => decide (a ≠ b)),
  (.lt, fun a b => decide (a.toInt < b.toInt)), (.ge, fun a b => decide (b.toInt ≤ a.toInt)),
  (.ltu, fun a b => decide (a.toNat < b.toNat)), (.geu, fun a b => decide (b.toNat ≤ a.toNat))]

/-- The loads with their size and result, and the stores with their size (R189). -/
def rvLoadRows : List ((BitVec 12 → BitVec 5 → BitVec 5 → RvMem) × Nat × (Nat → Word)) := [
  (.lb, 1, fun x => BitVec.ofInt 64 (signedOf 8 x)), (.lh, 2, fun x => BitVec.ofInt 64 (signedOf 16 x)),
  (.lw, 4, fun x => BitVec.ofInt 64 (signedOf 32 x)), (.ld, 8, fun x => BitVec.ofNat 64 x),
  (.lbu, 1, fun x => BitVec.ofNat 64 x), (.lhu, 2, fun x => BitVec.ofNat 64 x), (.lwu, 4, fun x => BitVec.ofNat 64 x)]
def rvStoreRows : List ((BitVec 12 → BitVec 5 → BitVec 5 → RvMem) × Nat) := [(.sb, 1), (.sh, 2), (.sw, 4), (.sd, 8)]

/-- The atomics of the umpire with the value written, from the width in bits, the old value and rs2 (R297). -/
def amoRows : List (RvAmo × (Nat → Nat → Nat → Nat)) := [
  (.swap, fun _ _ x => x), (.add, fun _ o x => o + x), (.xor, fun _ o x => o ^^^ x), (.and, fun _ o x => o &&& x),
  (.or, fun _ o x => o ||| x),
  (.min, fun w o x => if signedOf w o < signedOf w x then o else x),
  (.max, fun w o x => if signedOf w o < signedOf w x then x else o),
  (.minu, fun _ o x => min o x), (.maxu, fun _ o x => max o x)]

/-- The address that the acting hart's word names lies, with its 16 bytes, in the umpire's scratchpad and is aligned
(R314). -/
def recordAt (a : Word) : Bool :=
  decide (0xF000000000000000 ≤ a.toNat) && decide (a.toNat + 16 ≤ 0xF000000000040000) && decide (a.toNat % 16 = 0)

/-! ## The host -/

/-- Command c of a function may start, and has an operation code: what stands before it in the queue has started, and
with a full fence no LAUNCH is outstanding (R359). -/
def State.ready (s : State) (v : Nat) (c : Command) (op : Nat) : Prop :=
  s.arg = .cmd v c.slot ∧ c.op.toNat = op ∧ c.submitted = false ∧
  (∃ before after, (s.vf v).commands = before ++ c :: after ∧ ∀ x ∈ before, x.submitted = true) ∧
  (c.fence = true → ∀ x ∈ (s.vf v).commands, x.submitted = false)

/-- The commands with their codes (R360). -/
def commandRows : List (Instr × Nat) := [
  (.ctxCreate, 0x01), (.ctxDestroy, 0x02), (.map, 0x03), (.unmap, 0x04), (.setattr, 0x05), (.recycle, 0x06),
  (.launch, 0x07), (.replay, 0x08), (.seqCreate, 0x09), (.seqFree, 0x0A), (.parkPolicy, 0x0B), (.wakeCmd, 0x0C),
  (.domainJoin, 0x0D), (.attest, 0x0E), (.setEnergy, 0x0F)]

/-- The commands that name a live context and are refused without one, with their codes (R360, R361). -/
def contextRows : List (Instr × Nat) := [
  (.map, 0x03), (.unmap, 0x04), (.setattr, 0x05), (.recycle, 0x06), (.launch, 0x07), (.seqCreate, 0x09),
  (.seqFree, 0x0A), (.wakeCmd, 0x0C), (.setEnergy, 0x0F)]

/-- The commands that act on the leaves of a range (R360). -/
def rangeRows : List (Instr × Nat) := [(.unmap, 0x04), (.setattr, 0x05), (.recycle, 0x06)]

/-- The range of such a command, and whether its fields are good (R360). -/
def Command.hi (c : Command) : Nat := c.p0.toNat + c.p1.toNat * 4096
def Command.rangeGood (c : Command) : Bool :=
  decide (c.p0.toNat % 4096 = 0) && decide (1 ≤ c.p1.toNat) && decide (c.p1.toNat ≤ 2 ^ 28) && decide (c.hi ≤ 2 ^ 57)

/-- The words of tables that the walk of an address reads above its last entry (R268, R274): entries, and in a sequence
window the header of the group. -/
def tablesOver (s : State) (va : Nat) : Nat → Nat → List Nat
  | 0, _ => []
  | n + 1, table =>
    let a := table + 8 * (va / 2 ^ (21 + 9 * n) % 512)
    let e := s.physNat a 8
    let d := pteFrame e + 8 * natBits va 38 30
    if natBit e 0 && decide (natBits e 2 1 = 0) then a :: tablesOver s va n (pteFrame e)
    else if natBit e 0 && decide (natBits e 2 1 = 2) then [a, d, pteFrame (s.physNat d 8)]
    else []
def State.tablesAbove (s : State) (ctx va : Nat) : List Nat :=
  match s.ctxOf ctx with
  | some c => tablesOver s va 4 c.root
  | none => []

/-- A live context of a function, which is not lost. -/
def State.holds (s : State) (v ctx : Nat) (x : Context) : Prop := s.ctxOf ctx = some x ∧ x.vf = v ∧ x.lost = false

/-- The part answers a QUERY of one selector: p2 bytes at most of a record go to p1, and their number is the value. -/
def State.answers (t : State) (v : Nat) (c : Command) (record : List Byte) : State :=
  let out := record.take c.p2.toNat
  (t.hostWrite c.p1.toNat out).endCommand v c 0 (BitVec.ofNat 64 out.length)

/-! ## The invariant of memory -/

/-- The canonical form of a memory: addresses strictly rise, and no listed byte is what an unlisted address reads as. -/
def Memory.wf (m : Tab Byte) : Bool := Tab.wf 0 m

/-- The part's memory and the host's are in canonical form. -/
def State.canonical (s : State) : Bool := Memory.wf s.mem && Memory.wf s.hostMem

end Sys2Proof.Machine
end

