-- ==== Sys2Proof/Certificates/Slice0/Obligations.lean ====
section
/-!
DEFINITION. The statements for the provers: what the instructions, the steps of the part and its decoder do, and an invariant
that every step keeps. Each docstring names the rules of spec/ that its statement rests on, and the log entries of
notes/assumptions whose readings it takes.
-/
open Sys2Proof Sys2Proof.Machine

/-! ## Scalar instructions -/

/-- R64: the value that each arithmetic instruction gives D, for every operand and destination form. -/
def Obligations.ArithmeticWritesItsValue : Prop :=
  ∀ p ∈ arithRows, ∀ (w : Norom) (s : State), s.issues scalarShape2 w →
    let v := s.operands scalarShape2 w
    let x := wide (p.2 (low v.a) (low v.b))
    (s.popped scalarShape2 w).takes w.d x →
    exec (p.1 w) s = .next ((s.popped scalarShape2 w).put w.d x).inLine

/-- R65: the value that each logic, shift, comparison and minimum instruction gives D. -/
def Obligations.LogicShiftCompareWriteTheirValue : Prop :=
  ∀ p ∈ logicRows, ∀ (w : Norom) (s : State), s.issues scalarShape2 w →
    let v := s.operands scalarShape2 w
    let x := wide (p.2 (low v.a) (low v.b))
    (s.popped scalarShape2 w).takes w.d x →
    exec (p.1 w) s = .next ((s.popped scalarShape2 w).put w.d x).inLine

/-- R66, R67, R68: the values of the bit count, reversal, field and extension instructions; BFI replaces only the bits
of its field. R69, R70: MOV copies its source; LI gives its 32 bits sign-extended; LIH puts them above the old low half
of D. -/
def Obligations.BitFieldAndMoveInstructionsWriteTheirValue : Prop :=
  ((∀ p ∈ unaryRows, ∀ (w : Norom) (s : State), s.issues scalarShape1 w →
    let x := wide (p.2 (low (s.operands scalarShape1 w).a))
    (s.popped scalarShape1 w).takes w.d x →
    exec (p.1 w) s = .next ((s.popped scalarShape1 w).put w.d x).inLine) ∧
  (∀ p ∈ fieldRows, ∀ (w : Norom) (s : State), s.issues scalarShape2 w →
    let v := s.operands scalarShape2 w
    let x := wide (p.2 (low v.a) (low v.b))
    (s.popped scalarShape2 w).takes w.d x →
    exec (p.1 w) s = .next ((s.popped scalarShape2 w).put w.d x).inLine) ∧
  (∀ (w : Norom) (s : State), s.issues insertShape w →
    ∃ x : Word, exec (.bfi w) s = .next ((s.popped insertShape w).put w.d (wide x)).inLine ∧
      let v := s.operands insertShape w
      let pos := (low v.b).toNat / 64 % 64
      let width := if (low v.b).toNat % 64 = 0 then 64 else (low v.b).toNat % 64
      ∀ i < 64, x.getLsbD i =
        if pos ≤ i ∧ i < pos + width then (low v.a).getLsbD (i - pos) else (low v.d).getLsbD i)) ∧
  ((∀ (w : Norom) (s : State), s.issues moveShape w →
    (s.popped moveShape w).takes w.d (s.operands moveShape w).a →
    exec (.mov w) s = .next ((s.popped moveShape w).put w.d (s.operands moveShape w).a).inLine) ∧
  (∀ (w : Norom) (s : State), s.issues loadImmShape w →
    exec (.li w) s = .next (s.put w.d (wide (BitVec.ofInt 64 (rawAB w).toInt))).inLine) ∧
  (∀ (w : Norom) (s : State), s.issues loadHighShape w →
    exec (.lih w) s = .next (s.put w.d (wide (BitVec.ofNat 64
      ((rawAB w).toNat * 2 ^ 32 + (low (s.operands loadHighShape w).d).toNat % 2 ^ 32)))).inLine))

/-- R30, R31, R26: NOP, a hint word, and every instruction of E that has a guard, when the guard does not hold, only
advance pc (a FORCE that is not in its wait). R16, R25, R28: an
instruction whose one result goes to D changes no general or vector register but D, no control register, no memory,
nothing of the other strands, the accumulators and the other cores; pc goes on by one. -/
def Obligations.InstructionsChangeNothingElse : Prop :=
  ((∀ (w : Norom) (s : State), s.issues bareShape w → exec (.nop w) s = .next s.inLine) ∧
  (∀ (op : BitVec 8) (fn : BitVec 6) (w : Norom) (s : State), exec (.hintWord op fn w) s = .next s.inLine) ∧
  (∀ mk ∈ guardedForms, ∀ (w : Norom) (s : State), s.guardSkips w → exec (mk w) s = .next s.inLine) ∧
  (∀ (dst : BitVec 6) (w : Norom) (s : State), s.guardSkips w → exec (.vcvt dst w) s = .next s.inLine) ∧
  (∀ (w : Norom) (s : State), s.guardSkips w → s.my.e.run = .running → exec (.force w) s = .next s.inLine)) ∧
  (∀ (sh : Shape) (w : Norom) (s : State) (x : V128), s.turnE →
    let t := ((s.popped sh w).put w.d x).inLine
    (∀ n, t.my.e.rd n = if opnd w.d = .g n ∧ n ≠ 0 then x.setWidth 64 else s.my.e.rd n) ∧
    (∀ n, t.my.e.rdV n = if opnd w.d = .v n then x else s.my.e.rdV n) ∧
    t.my.e.xvec = s.my.e.xvec ∧ t.my.e.xcause = s.my.e.xcause ∧ t.my.e.xinfo = s.my.e.xinfo ∧
    t.my.e.xpc = s.my.e.xpc ∧ t.my.e.fpm = s.my.e.fpm ∧ t.my.e.seed = s.my.e.seed ∧
    t.my.e.pc = s.my.e.pc + 1 ∧ sameMemory s t ∧ sameOthers s t)

/-! ## Control -/

/-- R19, R71: where a branch goes. R19, R72: JMP, JMPR, CALL, CALLR and RET go to their target; the calls leave pc + 1
in lk, g62, once the target has been checked. A target past the image is FETCH_LIMIT with the index in xinfo; what a
negative index reads as there is the model's reading: log entry 82 (DESIGN CHOICE). -/
def Obligations.TransfersReachTheirTarget : Prop :=
  (∀ p ∈ branchRows, ∀ (w : Norom) (s : State), s.issues branchShape w →
    let v := s.operands branchShape w
    exec (p.1 w) s = .next (if p.2 (low v.a) (low v.b) then s.transfers (s.my.e.pc.toNat + w.d.toInt) else s.inLine)) ∧
  ((∀ (w : Norom) (s : State), s.issues bareShape w →
    exec (.jmp w) s = .next (s.transfers (w.a.toNat * 65536 + w.b.toNat)) ∧
    (62 ∉ s.my.poison.eRegs → exec (.ret w) s = .next (s.transfers (s.my.e.rd 62).toNat)) ∧
    exec (.call w) s = .next
      (if s.inImage (w.a.toNat * 65536 + w.b.toNat) then
        (orKeep (writeG 62 (BitVec.ofNat 64 (s.my.e.pc.toNat + 1))) s).goesOn
          (BitVec.ofNat 13 (w.a.toNat * 65536 + w.b.toNat)) .running
       else s.transfers (w.a.toNat * 65536 + w.b.toNat))) ∧
  (∀ (w : Norom) (s : State), s.issues jumpShape w →
    let a := (low (s.operands jumpShape w).a).toNat
    exec (.jmpr w) s = .next (s.transfers a) ∧
    exec (.callr w) s = .next
      (if s.inImage a then
        (orKeep (writeG 62 (BitVec.ofNat 64 (s.my.e.pc.toNat + 1))) s).goesOn (BitVec.ofNat 13 a) .running
       else s.transfers a)))

/-- R73, R75: HALT stops E; WAIT answers the requested conditions that hold, at once when none is requested, and waits
while none holds. -/
def Obligations.HaltStopsAndWaitAnswers : Prop :=
  (∀ (w : Norom) (s : State), s.issues bareShape w →
    exec (.halt w) s = .next (s.goesOn (s.my.e.pc + 1) .stopped) ∧
    (s.goesOn (s.my.e.pc + 1) .stopped).my.e.run = .stopped) ∧
  (∀ (w : Norom) (s : State), s.issues waitShape w →
    let a := low (s.operands waitShape w).a
    let asked := [0, 1, 2, 3, 4, 5, 6, 7, 8, 9, 10, 16, 17, 18].filter fun i => a.getLsbD i
    ∃ m : Word, (∀ i < 64, m.getLsbD i = (decide (i ∈ asked) && s.condition i)) ∧
      exec (.wait w) s = .next
        (if asked = [] ∨ m ≠ 0 then (s.put w.d (wide m)).inLine else s.enterWait (.conditions a)))

/-- R90, R74: a TRAP enters the handler with xcause, xinfo and xpc written and pc at xvec, and changes nothing else;
with no handler, or inside one, it ends the dispatch by fail, and a task's handle records the first fault's code. R91:
ERET outside a handler is ILLEGAL_OPCODE; inside one it goes to xpc and clears active; a target outside the image is
FETCH_LIMIT while active is still 1. R348: ERET meets POISON in xcause or xpc. The model's readings here: log entries
13, 79 and 80. -/
def Obligations.TrapEntersTheHandlerAndEretReturns : Prop :=
  (∀ (w : Norom) (s : State) (k : Nat) (d : Dispatch), s.issues trapShape w → s.dispOf s.me = some (k, d) →
    let a := low (s.operands trapShape w).a
    (s.catches → s.my.drain = .none → exec (.trap w) s = .next (s.inHandler 0x14 a)) ∧
    (¬s.catches → exec (.trap w) s = .next
      (s.failFirst k (whoStrand s s.me .e) 0x14 (s.firstCause 0x14) (leBytes 8 a.toNat)))) ∧
  (∀ (w : Norom) (s : State), s.issues bareShape w →
    (0x1011 ∈ s.my.poison.eRegs → exec (.eret w) s = .next (s.raise ⟨0x15, 0x1011, none⟩)) ∧
    (s.my.e.xcause.getLsbD 8 = false → 0x1011 ∉ s.my.poison.eRegs →
      exec (.eret w) s = .next (s.raise ⟨0x01, 0xC1, none⟩)) ∧
    (s.my.e.xcause.getLsbD 8 = true → 0x1011 ∉ s.my.poison.eRegs →
      (0x1013 ∈ s.my.poison.eRegs → exec (.eret w) s = .next (s.raise ⟨0x15, 0x1013, none⟩)) ∧
      (0x1013 ∉ s.my.poison.eRegs → s.my.e.xpc.toNat < s.my.stores.ilim → exec (.eret w) s = .next
        ((s.onE fun e => { e with xcause := BitVec.ofNat 9 (e.xcause.toNat % 256) }).goesOn s.my.e.xpc .running)) ∧
      (0x1013 ∉ s.my.poison.eRegs → s.my.stores.ilim ≤ s.my.e.xpc.toNat →
        exec (.eret w) s = .next (s.raise ⟨0x03, BitVec.ofNat 64 s.my.e.xpc.toNat, none⟩))))

/-- R28, R29, R32, R25: what stops an arithmetic instruction before its effect, in order: MOD is free, D, A and B that
are not acceptable name themselves in xinfo, and unready queues make it wait. An unassigned opcode is ILLEGAL_OPCODE
whatever its guard. -/
def Obligations.ChecksComeInOrder : Prop :=
  (∀ p ∈ arithRows ++ logicRows ++ fieldRows, ∀ (w : Norom) (s : State), s.turnE → s.guardHolds w →
    ¬fieldOk s fGQd w.d → exec (p.1 w) s = .next (s.raise ⟨0x02, BitVec.ofNat 64 (4 * w.d.toNat), none⟩)) ∧
  (∀ p ∈ arithRows ++ logicRows ++ fieldRows, ∀ (w : Norom) (s : State), s.turnE → s.guardHolds w → fieldOk s fGQd w.d →
    (¬fieldOk s fGIQ w.a → exec (p.1 w) s = .next (s.raise ⟨0x02, BitVec.ofNat 64 (1 + 4 * w.a.toNat), none⟩)) ∧
    (fieldOk s fGIQ w.a → ¬fieldOk s fGIQ w.b →
      exec (p.1 w) s = .next (s.raise ⟨0x02, BitVec.ofNat 64 (2 + 4 * w.b.toNat), none⟩)) ∧
    (fieldOk s fGIQ w.a → fieldOk s fGIQ w.b → ¬queuesReady s (popsOf scalarShape2 w) (pushOf fGQd w.d) →
      exec (p.1 w) s = .next (s.enterWait .queues))) ∧
  (∀ (op : BitVec 8) (fn : BitVec 6) (w : Norom) (s : State),
    exec (.illegalOpcodeWord op fn w) s = .next (s.raise ⟨0x01, BitVec.ofNat 64 (op.toNat + 256 * fn.toNat), none⟩))

/-- R87, R88: CSRR gives D the register's value, and for ebud, once the meter has charged what it has to, the energy
left. R87, R88: CSRW, CSRS and CSRC write a writable register, whose reserved bits are ignored, and give D its old
value; any other number is ILLEGAL_OPERAND at A. R92, R93: FLAGS gives the flags word, FLAGC clears the selected flags,
TIME gives the time base. The model's readings here: log entries 6 and 13. -/
def Obligations.ControlRegistersAreReadAndWritten : Prop :=
  (∀ (w : Norom) (s : State), s.issues csrReadShape w →
    let n := (low (s.operands csrReadShape w).a).toNat
    (∀ x, (n, x) ∈ s.csrRows → 0x1000 + n ∉ s.my.poison.eRegs →
      exec (.csrr w) s = .next (s.put w.d (wide x)).inLine) ∧
    (n = 0x030 → 0x1030 ∉ s.my.poison.eRegs → ∀ k d, s.dispOf s.me = some (k, d) →
      ∃ c : Nat, exec (.csrr w) s = .next
        ((({ s with draws := s.draws + 1 }.onDisp k fun x => { x with energy := x.energy - c % (x.energy + 1) }).put w.d
          (wide (BitVec.ofNat 64 (d.energy - c % (d.energy + 1))))).inLine)) ∧
    ((∀ x, (n, x) ∉ s.csrRows) → n ∉ [0x002, 0x004, 0x030, 0x031, 0x050] →
      exec (.csrr w) s = .next (s.raise ⟨0x02, BitVec.ofNat 64 (1 + 4 * w.a.toNat), none⟩))) ∧
  (∀ p ∈ csrWriteRows, ∀ (w : Norom) (s : State), s.issues csrWriteShape w →
    let v := s.operands csrWriteShape w
    let n := (low v.a).toNat
    (∀ q ∈ csrWrites, q.1 = n → 0x1000 + n ∉ s.my.poison.eRegs → ∀ old, (n, old) ∈ s.csrRows →
      exec (p.1 w) s = .next (((s.onE fun e => q.2 e (p.2 old (low v.b))).put w.d (wide old)).inLine)) ∧
    ((∀ q ∈ csrWrites, q.1 ≠ n) →
      exec (p.1 w) s = .next (s.raise ⟨0x02, BitVec.ofNat 64 (1 + 4 * w.a.toNat), none⟩))) ∧
  ((∀ (w : Norom) (s : State), s.issues readShape w →
    exec (.time w) s = .next (s.put w.d (wide s.time)).inLine ∧
    ∀ x, s.ctxOf (s.coreCtx s.me) = some x →
      exec (.flags w) s = .next (s.put w.d (BitVec.ofNat 128
        (x.dmsg.toNat + 2 * (if s.my.pool.oobf = 0 then 0 else 1) + 4 * x.dshare.toNat))).inLine) ∧
  (∀ (w : Norom) (s : State), s.issues trapShape w →
    let a := low (s.operands trapShape w).a
    exec (.flagc w) s = .next
      (((s.onCtx (s.coreCtx s.me) fun c => { c with
          dmsg := c.dmsg && !a.getLsbD 0, dshare := c.dshare && !a.getLsbD 2 }).zeroOobf (a.getLsbD 1)).inLine)))

/-! ## Memory -/

/-- R54, R76: an access whose bytes do not lie in one aperture row is BAD_APERTURE, one that is not aligned is
MISALIGNED, both with the address in xinfo; inside the own scratchpad, and on a mapped page of HBM that is neither
STREAM nor PRIV, an access reaches its bytes. R218, R219, R221: on a STREAM page a write of less than a granule is
MISALIGNED and one of a written granule WRITE_TWICE, a read waits until its granules are written, and an atomic is
STREAM_ATOMIC. R223: a PRIV page admits the core that owns it, another meets PRIV_FOREIGN, and an access to a page that
no core owns makes its core the owner, by the package that placed its dispatch, its generation and its level positions. -/
def Obligations.AccessReachesItsBytes : Prop :=
  (∀ (w : Norom) (s : State),
    (∀ p ∈ loadRows, s.issues loadShape w →
      let ea := s.address loadShape w
      (¬oneRow ea.toNat p.2.1 → exec (p.1 w) s = .next (s.raise ⟨0x0B, ea, none⟩)) ∧
      (oneRow ea.toNat p.2.1 → ea.toNat % p.2.1 ≠ 0 → exec (p.1 w) s = .next (s.raise ⟨0x04, ea, none⟩))) ∧
    (∀ p ∈ storeRows, s.issues storeShape w →
      let ea := s.address storeShape w
      (¬oneRow ea.toNat p.2 → exec (p.1 w) s = .next (s.raise ⟨0x0B, ea, none⟩)) ∧
      (oneRow ea.toNat p.2 → ea.toNat % p.2 ≠ 0 → exec (p.1 w) s = .next (s.raise ⟨0x04, ea, none⟩))) ∧
    (∀ p ∈ [(Instr.vld, loadVecShape), (Instr.vst, storeVecShape)], s.issues p.2 w →
      let ea := s.address p.2 w
      (¬oneRow ea.toNat 16 → exec (p.1 w) s = .next (s.raise ⟨0x0B, ea, none⟩)) ∧
      (oneRow ea.toNat 16 → ea.toNat % 16 ≠ 0 → exec (p.1 w) s = .next (s.raise ⟨0x04, ea, none⟩)))) ∧
  (∀ (s : State) (ea : Word) (n : Nat) (k : Kind), n ∈ [1, 2, 4, 8, 16] → ea.toNat % n = 0 →
    (∀ off, ea.toNat = 0xF000000000000000 + off → off + n ≤ 0x100000 → off + n ≤ partScratch s.my.part →
      (Space.scratch, off / 16) ∉ s.my.poison.granules →
      accessAt (viaMe s) ea n k s = .ok (.pool s.me .scratch off, s)) ∧
    (∀ x pte shift level b f, ea.toNat + n ≤ 2 ^ 57 → s.walk (s.coreCtx s.me) ea.toNat = .leaf x pte shift level →
      pte / 256 % 4 = 0 → (k.writes = true → pte / 16 % 2 = 1) →
      s.frameAt (leafPhys pte shift ea.toNat) = some (b, f) → f.ct = BitVec.ofNat 2 (pte / 64) →
      f.zeroing = false → s.floor.lines = [] →
      let p := leafPhys pte shift ea.toNat
      let gs := granulesOf (p - b) n
      let stops (cause : Byte) : Prop := accessAt (viaMe s) ea n k s = .error (.flt ⟨cause, ea, none⟩)
      (f.ct.toNat < 2 → accessAt (viaMe s) ea n k s = .ok (.mem p none, s)) ∧
      (f.ct = 2 →
        (k = .atomic → stops 0x08) ∧
        (k = .write →
          (n ≠ 16 → stops 0x04) ∧
          (n = 16 → p % 16 = 0 → b % 16 = 0 →
            ((p - b) / 16 ∈ f.written → stops 0x07) ∧
            ((p - b) / 16 ∉ f.written → accessAt (viaMe s) ea n k s = .ok (.mem p (some b), s)))) ∧
        (k = .read →
          ((∀ g ∈ gs, g ∈ f.written) → accessAt (viaMe s) ea n k s = .ok (.mem p (some b), s)) ∧
          ((∃ g ∈ gs, g ∉ f.written) → accessAt (viaMe s) ea n k s = .error (.wait (.granule ea))))) ∧
      (f.ct = 3 → ∀ i d, s.dispOf s.me = some (i, d) →
        let me : Owner := ⟨d.pkg, d.gen, s.my.lvl⟩
        (∀ o, f.owner = some o →
          (o ≠ me → stops 0x06) ∧ (o = me → accessAt (viaMe s) ea n k s = .ok (.mem p none, s))) ∧
        (f.owner = none → accessAt (viaMe s) ea n k s =
          .ok (.mem p none, s.onFrame b fun f => { f with owner := some me })))))

/-- R77, R79: a load that reaches its bytes gives D their value, extended as its row says, and stores nothing. R78, R80:
a store that reaches its bytes writes the low bytes of D there; every other byte of memory, every register of E and
everything of the other strands is as before. The model's readings here: log entry 10. -/
def Obligations.LoadsAndStoresMoveTheirBytes : Prop :=
  ((∀ p ∈ loadRows, ∀ (w : Norom) (s : State) (l : Loc) (u : State), s.issues loadShape w →
    accessAt (viaMe (s.popped loadShape w)) (s.address loadShape w) p.2.1 .read (s.popped loadShape w) = .ok (l, u) →
    let x := wide (p.2.2 (bytesValue (locRead u l p.2.1)))
    u.takes w.d x → exec (p.1 w) s = .next (u.put w.d x).inLine ∧ sameMemory s (u.put w.d x).inLine) ∧
  (∀ (w : Norom) (s : State) (l : Loc) (u : State), s.issues loadVecShape w →
    accessAt (viaMe (s.popped loadVecShape w)) (s.address loadVecShape w) 16 .read (s.popped loadVecShape w) =
      .ok (l, u) →
    let x := BitVec.ofNat 128 (bytesValue (locRead u l 16))
    u.takes w.d x → exec (.vld w) s = .next (u.put w.d x).inLine ∧ sameMemory s (u.put w.d x).inLine)) ∧
  ((∀ p ∈ storeRows, ∀ (w : Norom) (s : State) (l : Loc) (u : State), s.issues storeShape w →
    accessAt (viaMe (s.popped storeShape w)) (s.address storeShape w) p.2 .write (s.popped storeShape w) = .ok (l, u) →
    ∃ t, exec (p.1 w) s = .next t ∧
      storesOnly s t l (bytesOf p.2 (low (s.operands storeShape w).d).toNat) ∧ sameRegisters s t ∧ sameOthers s t ∧
      t.my.e.pc = s.my.e.pc + 1) ∧
  (∀ (w : Norom) (s : State) (l : Loc) (u : State), s.issues storeVecShape w →
    accessAt (viaMe (s.popped storeVecShape w)) (s.address storeVecShape w) 16 .write (s.popped storeVecShape w) =
      .ok (l, u) →
    ∃ t, exec (.vst w) s = .next t ∧
      storesOnly s t l (bytesOf 16 (s.operands storeVecShape w).d.toNat) ∧ sameRegisters s t ∧ sameOthers s t ∧
      t.my.e.pc = s.my.e.pc + 1))

/-- R58, R59, R83, R84, R85: what BBINIT, BBEXP and BBARR leave in the 16 bytes of their barrier, and nowhere else; a
count of none changes nothing, and an overflow faults with the barrier in xinfo. R56, R61, R86: BBTEST answers whether
the phase differs from p[0]; BBWAIT goes on when it does, or when a flip since its wait began has released it, and
waits otherwise. The model's readings here: log entry 73. -/
def Obligations.ByteBarriersCountAndRelease : Prop :=
  ((∀ (w : Norom) (s : State) (l : Loc) (u : State), s.issues barrierShape w →
    let b := low (s.operands barrierShape w).a
    0xF000000000000000 ≤ b.toNat → b.toNat + 16 ≤ 0xF000000000100000 → b.toNat % 16 = 0 →
    accessAt (viaMe s) b 16 .write s = .ok (l, u) →
    let m := (low (s.operands barrierShape w).b).toNat % 2 ^ 63
    exec (.bbinit w) s = .next (locWrite u l (bytesOf 8 m ++ bytesOf 8 m)).inLine) ∧
  (∀ (w : Norom) (s : State) (l : Loc) (u : State), s.issues barrierShape w →
    let b := low (s.operands barrierShape w).a
    let n := (low (s.operands barrierShape w).b).toNat
    barrierArg b s = .ok ((), s) →
    (n = 0 → exec (.bbexp w) s = .next s.inLine ∧ exec (.bbarr w) s = .next s.inLine) ∧
    (n ≠ 0 → barrierAt (viaMe s) b true s = .ok (l, u) → l ≠ .dropped →
      let p := (u.barrierWords l).1
      let ph := (u.barrierWords l).2 / 2 ^ 63
      let ra := (u.barrierWords l).2 % 2 ^ 63
      (p + n < 2 ^ 64 → exec (.bbexp w) s = .next
        (locWrite u l (bytesOf 8 (p + n) ++ (locRead u l 16).drop 8)).inLine) ∧
      (2 ^ 64 ≤ p + n → exec (.bbexp w) s = .next (s.raise ⟨0x19, b, none⟩)) ∧
      (n < p → exec (.bbarr w) s = .next
        (barrierWrite u l (2 ^ 63 * ph + ra) (2 ^ 63 * ph + ra) (p - n)).inLine) ∧
      (p ≤ n → n - p < ra ∨ n = p → exec (.bbarr w) s = .next
        (barrierWrite u l (2 ^ 63 * ph + ra) (2 ^ 63 * (1 - ph) + ra) (ra - (n - p))).inLine) ∧
      (p < n → ra ≤ n - p → exec (.bbarr w) s = .next (s.raise ⟨0x19, b, none⟩))))) ∧
  (∀ (w : Norom) (s : State) (l : Loc) (u : State),
    (s.issues barrierTestShape w →
      let b := low (s.operands barrierTestShape w).a
      let p := (low (s.operands barrierTestShape w).b).toNat % 2
      ownBarrier b s = .ok ((), s) → barrierAt (viaMe s) b false s = .ok (l, u) →
      exec (.bbtest w) s = .next
        (u.put w.d (wide (if (u.barrierWords l).2 / 2 ^ 63 = p then 0 else 1))).inLine) ∧
    (s.issues barrierShape w →
      let b := low (s.operands barrierShape w).a
      let p := (low (s.operands barrierShape w).b).toNat % 2
      let wt := Wait.barrier b (decide (p = 1))
      ownBarrier b s = .ok ((), s) → barrierAt (viaMe s) b false s = .ok (l, u) →
      ((u.barrierWords l).2 / 2 ^ 63 ≠ p ∨ (∃ t, s.my.e.run = .waiting wt true t) →
        exec (.bbwait w) s = .next u.inLine) ∧
      ((u.barrierWords l).2 / 2 ^ 63 = p → (∀ t, s.my.e.run ≠ .waiting wt true t) →
        exec (.bbwait w) s = .next (s.enterWait wt))))

/-! ## Vector instructions -/

/-- R97, R98, R99, R101, R102 on integer lanes: every lane of D is the exact result of its lanes of the sources, wrapped
or clamped as MOD[5] says; shifts take their count modulo the width; comparisons give all ones or zero. -/
def Obligations.IntegerLanesAreExactThenWrappedOrClamped : Prop :=
  ∀ (w : Norom) (s : State), s.fpmClean →
    let n := intWidth w.mod
    let sg := intSigned w.mod
    (∀ p ∈ intRows2, s.issues (vecShape2 modInt) w →
      let v := s.operands (vecShape2 modInt) w
      let u := s.popped (vecShape2 modInt) w
      ∃ x : V128, (∀ i < 128 / n, lane n x i = intCode sg n (p.2.1 (w.mod.getLsbD 5))
          (p.2.2 n (intVal sg n (srcElem n w.a v.a i)) (intVal sg n (srcElem n w.b v.b i)))) ∧
        (u.takes w.d x → exec (p.1 w) s = .next (u.put w.d x).inLine)) ∧
    (∀ p ∈ intRows1, s.issues (vecShape1 modInt) w →
      let v := s.operands (vecShape1 modInt) w
      let u := s.popped (vecShape1 modInt) w
      ∃ x : V128, (∀ i < 128 / n, lane n x i = intCode sg n (w.mod.getLsbD 5)
          (p.2 (intVal sg n (srcElem n w.a v.a i)))) ∧
        (u.takes w.d x → exec (p.1 w) s = .next (u.put w.d x).inLine)) ∧
    (∀ p ∈ intRows3, s.issues (vecShape3 modInt) w →
      let v := s.operands (vecShape3 modInt) w
      let u := s.popped (vecShape3 modInt) w
      ∃ x : V128, (∀ i < 128 / n, lane n x i = intCode sg n (w.mod.getLsbD 5)
          (p.2 (intVal sg n (lane n v.d i)) (intVal sg n (srcElem n w.a v.a i)) (intVal sg n (srcElem n w.b v.b i)))) ∧
        exec (p.1 w) s = .next (u.put w.d x).inLine) ∧
    (∀ p ∈ shiftRows, s.issues (vecShape2 modInt) w →
      let v := s.operands (vecShape2 modInt) w
      let u := s.popped (vecShape2 modInt) w
      ∃ x : V128, (∀ i < 128 / n, lane n x i =
          p.2 sg n (w.mod.getLsbD 5) (srcElem n w.a v.a i) (srcElem n w.b v.b i % n)) ∧
        (u.takes w.d x → exec (p.1 w) s = .next (u.put w.d x).inLine)) ∧
    (∀ p ∈ intCmpRows, s.issues (vecShape2 modInt) w →
      let v := s.operands (vecShape2 modInt) w
      let u := s.popped (vecShape2 modInt) w
      ∃ x : V128, (∀ i < 128 / n, lane n x i =
          if p.2 (intVal sg n (srcElem n w.a v.a i)) (intVal sg n (srcElem n w.b v.b i)) then 2 ^ n - 1 else 0) ∧
        (u.takes w.d x → exec (p.1 w) s = .next (u.put w.d x).inLine))

/-- R96, R98, R99, R102, R116, R117, R118 on float lanes: every lane of D is the exact value of its operation on the
values of the source lanes, flushed as fpm says, rounded once to nearest and flushed again. R154: rounding to nearest
gives, with saturation, the code whose value is nearest to the exact value among all finite codes of the format, and
of two equally near ones the even code. The model's readings here: log entry 9. -/
def Obligations.FloatLanesAreRoundedOnce : Prop :=
  (∀ (w : Norom) (s : State), s.fpmClean →
    let t := tyOf (w.mod.setWidth 5)
    let n := t.width
    let sat := w.mod.getLsbD 5
    let val := t.value s.my.e.fpm
    (∀ p ∈ floatRows2, s.issues (vecShape2 modFloat) w →
      let v := s.operands (vecShape2 modFloat) w
      let u := s.popped (vecShape2 modFloat) w
      ∃ x : V128, (∀ i < 128 / n, lane n x i = t.encode s.my.e.fpm .rne (p.2.1 sat)
          (p.2.2 (val (srcElem n w.a v.a i)) (val (srcElem n w.b v.b i)))) ∧
        (u.takes w.d x → exec (p.1 w) s = .next (u.put w.d x).inLine)) ∧
    (∀ p ∈ floatRows1, s.issues (vecShape1 modFloat) w →
      let v := s.operands (vecShape1 modFloat) w
      let u := s.popped (vecShape1 modFloat) w
      ∃ f, t = .flt f ∧ ∃ x : V128, (∀ i < 128 / n, lane n x i = t.encode s.my.e.fpm .rne sat
          (p.2 f (val (srcElem n w.a v.a i)))) ∧
        (u.takes w.d x → exec (p.1 w) s = .next (u.put w.d x).inLine)) ∧
    (∀ minus : Bool, s.issues (vecShape3 modFloat) w →
      let v := s.operands (vecShape3 modFloat) w
      let u := s.popped (vecShape3 modFloat) w
      ∃ x : V128, (∀ i < 128 / n, lane n x i = t.encode s.my.e.fpm .rne sat
          ((val (lane n v.d i)).add
            (let p := (val (srcElem n w.a v.a i)).mul (val (srcElem n w.b v.b i))
             if minus then p.neg else p))) ∧
        exec (if minus then .vfms w else .vfma w) s = .next (u.put w.d x).inLine) ∧
    (∀ p ∈ floatCmpRows, s.issues (vecShape2 modFloat) w →
      let v := s.operands (vecShape2 modFloat) w
      let u := s.popped (vecShape2 modFloat) w
      ∃ x : V128, (∀ i < 128 / n, lane n x i =
          if p.2 (val (srcElem n w.a v.a i)) (val (srcElem n w.b v.b i)) then 2 ^ n - 1 else 0) ∧
        (u.takes w.d x → exec (p.1 w) s = .next (u.put w.d x).inLine))) ∧
  (∀ f ∈ [fmtF32, fmtBf16, fmtF16, fmtE5m2, fmtE4m3, fmtE3m2, fmtE2m3, fmtE2m1], ∀ (neg : Bool) (m : Mag), m.d ≠ 0 →
    let r := f.encode .rne true (.fin neg m)
    r < 2 ^ f.width ∧ (f.decode r).finite ∧
    ∀ c < 2 ^ f.width, (f.decode c).finite →
      apart (worth (f.decode r)) (worth (.fin neg m)) ≤ apart (worth (f.decode c)) (worth (.fin neg m)) ∧
      (worth (f.decode c) ≠ worth (f.decode r) →
        apart (worth (f.decode r)) (worth (.fin neg m)) = apart (worth (f.decode c)) (worth (.fin neg m)) → r % 2 = 0))

/-- R100, R111, R114: the instructions on 128 bits: bitwise results, VPERM's bytes, VMOV's copy. R103, R104, R112, R113:
the instructions that move lanes of any type: a blend by the top bits of the old D, the word of top bits, a shuffle
from two tables, a broadcast, an extraction and an insertion. -/
def Obligations.WholeRegisterAndLayoutInstructions : Prop :=
  (∀ (w : Norom) (s : State),
    (s.issues (vecShape2 anyMod) w →
      let v := s.operands (vecShape2 anyMod) w
      let u := s.popped (vecShape2 anyMod) w
      let a := bothHalves w.a v.a
      let b := bothHalves w.b v.b
      (∀ p ∈ wholeRows, u.takes w.d (p.2 a b) → exec (p.1 w) s = .next (u.put w.d (p.2 a b)).inLine) ∧
      ∃ x : V128, (∀ i < 16, lane 8 x i = if 128 ≤ lane 8 b i then 0 else lane 8 a (lane 8 b i % 16)) ∧
        (u.takes w.d x → exec (.vperm w) s = .next (u.put w.d x).inLine)) ∧
    (s.issues ⟨anyMod, fVQd, fVQ, fNo⟩ w →
      let v := s.operands ⟨anyMod, fVQd, fVQ, fNo⟩ w
      let u := s.popped ⟨anyMod, fVQd, fVQ, fNo⟩ w
      u.takes w.d v.a → exec (.vmov w) s = .next (u.put w.d v.a).inLine)) ∧
  (∀ (w : Norom) (s : State),
    let n := modWidth w.mod
    let l := modLanes w.mod
    (s.issues (vecShape3 modAny) w →
      let v := s.operands (vecShape3 modAny) w
      let u := s.popped (vecShape3 modAny) w
      (∃ x : V128, (∀ i < l, lane n x i =
          if 2 ^ (n - 1) ≤ lane n v.d i then srcElem n w.a v.a i else srcElem n w.b v.b i) ∧
        exec (.vblend w) s = .next (u.put w.d x).inLine) ∧
      (∃ x : V128, (∀ i < l, lane n x i =
          let k := srcElem n w.b v.b i % (2 * l)
          if k < l then srcElem n w.a v.a k else lane n v.d (k - l)) ∧
        exec (.vshuf w) s = .next (u.put w.d x).inLine)) ∧
    (s.issues (vecShape1 modAny) w →
      let v := s.operands (vecShape1 modAny) w
      let u := s.popped (vecShape1 modAny) w
      ∃ x : V128, (∀ i < l, lane n x i = srcElem n w.a v.a 0) ∧
        (u.takes w.d x → exec (.vbcast w) s = .next (u.put w.d x).inLine)) ∧
    (s.issues ⟨modAny, fGQd, fSrc, fNo⟩ w →
      let v := s.operands ⟨modAny, fGQd, fSrc, fNo⟩ w
      let u := s.popped ⟨modAny, fGQd, fSrc, fNo⟩ w
      ∃ x : Word, (∀ i < 64, x.getLsbD i = (decide (i < l) && decide (2 ^ (n - 1) ≤ srcElem n w.a v.a i))) ∧
        (u.takes w.d (wide x) → exec (.vpopm w) s = .next (u.put w.d (wide x)).inLine)) ∧
    (s.issues ⟨modAny, fGQd, fVQ, fGI⟩ w →
      let v := s.operands ⟨modAny, fGQd, fVQ, fGI⟩ w
      let u := s.popped ⟨modAny, fGQd, fVQ, fGI⟩ w
      let c := lane n v.a ((low v.b).toNat % l)
      let x : Word := if w.mod.toNat % 32 ∈ [0, 2, 4, 6, 8] then BitVec.ofInt 64 (Int.bmod c (2 ^ n)) else BitVec.ofNat 64 c
      u.takes w.d (wide x) → exec (.vext w) s = .next (u.put w.d (wide x)).inLine) ∧
    (s.issues ⟨modAny, fVb, fGIQ, fGI⟩ w →
      let v := s.operands ⟨modAny, fVb, fGIQ, fGI⟩ w
      let u := s.popped ⟨modAny, fVb, fGIQ, fGI⟩ w
      ∃ x : V128, (∀ i < l, lane n x i =
          if i = (low v.b).toNat % l then (low v.a).toNat % 2 ^ n else lane n v.d i) ∧
        exec (.vins w) s = .next (u.put w.d x).inLine))

/-- R109, R110, R115: reductions go pairwise, level by level; scans run from the carry-in; VDOT4 adds four byte products
to each 32-bit lane and wraps or clamps once. A reduction gives a general register, bol or bos 64 bits, and every other
destination 128; that gq, which R109 does not list, is of the latter is the model's reading (log entry 82). -/
def Obligations.ReductionsScansAndDotProducts : Prop :=
  ∀ (w : Norom) (s : State), s.fpmClean →
    let n := modWidth w.mod
    let l := modLanes w.mod
    let fpm := s.my.e.fpm
    let types (m : BitVec 6) : Bool := modInt m || modFloat m
    (∀ p ∈ reduceRows, s.issues ⟨types, ⟨.dst, true, 1, false, true, none⟩, fSrc, fNo⟩ w →
      let v := s.operands ⟨types, ⟨.dst, true, 1, false, true, none⟩, fSrc, fNo⟩ w
      let u := s.popped ⟨types, ⟨.dst, true, 1, false, true, none⟩, fSrc, fNo⟩ w
      let r := reduceTree (laneStep w.mod fpm p.2.1 p.2.2) (srcElem n w.a v.a) (Nat.log2 l) 0
      let x : V128 := if narrowDest w.d then
          wide (if modInt w.mod && intSigned w.mod then BitVec.ofInt 64 (Int.bmod r (2 ^ n)) else BitVec.ofNat 64 r)
        else BitVec.ofNat 128 r
      u.takes w.d x → exec (p.1 w) s = .next (u.put w.d x).inLine) ∧
    (∀ p ∈ scanRows, s.issues (vecShape2 types) w →
      let v := s.operands (vecShape2 types) w
      let u := s.popped (vecShape2 types) w
      ∃ x : V128, (∀ i < l, lane n x i =
          scanAt (laneStep w.mod fpm p.2.1 p.2.2) (srcElem n w.b v.b 0) (srcElem n w.a v.a) i) ∧
        (u.takes w.d x → exec (p.1 w) s = .next (u.put w.d x).inLine)) ∧
    (s.issues (vecShape3 fun m => decide (m.toNat % 32 ≤ 1)) w →
      let v := s.operands (vecShape3 fun m => decide (m.toNat % 32 ≤ 1)) w
      let u := s.popped (vecShape3 fun m => decide (m.toNat % 32 ≤ 1)) w
      let sg := intSigned w.mod
      let prod (k : Nat) : Int := intVal sg 8 (srcElem 8 w.a v.a k) * intVal sg 8 (srcElem 8 w.b v.b k)
      ∃ x : V128, (∀ j < 4, lane 32 x j = intCode sg 32 (w.mod.getLsbD 5)
          (intVal sg 32 (lane 32 v.d j) + prod (4 * j) + prod (4 * j + 1) + prod (4 * j + 2) + prod (4 * j + 3))) ∧
        exec (.vdot4 w) s = .next (u.put w.d x).inLine)

/-- R105, R106, R107, R108: VCVT converts the lanes of its part and keeps the others; VQMX gives B the block scale and D
the codes of the scaled elements, VDQMX expands a block. R107, R157: the scale of a block is 0xFF when an element is not
finite, and else 127 more than the floor of the binary logarithm of the greatest magnitude less the type's emax, within
-127 to 127, and -127 for a block of zeros; an element's code is the element divided by the scale and rounded once. -/
def Obligations.ConversionsOfLanesAndBlocks : Prop :=
  (∀ (dst : BitVec 6) (w : Norom) (s : State), dst.toNat ≤ 17 → s.issues ⟨modAny, fVb, fSrc, fI⟩ w → s.fpmClean →
    0x1021 ∉ s.my.poison.eRegs →
    let v := s.operands ⟨modAny, fVb, fSrc, fI⟩ w
    let u := s.popped ⟨modAny, fVb, fSrc, fI⟩ w
    let st := tyOf (w.mod.setWidth 5)
    let dt := tyOf (dst.setWidth 5)
    let ls := 128 / st.width
    let ld := 128 / dt.width
    let l := min ls ld
    let k := (low v.b).toNat
    let part := k / 4
    k < 64 → k % 4 ≠ 3 → part * l < max ls ld →
    let mode (di : Nat) : RMode := match k % 4 with
      | 0 => .rne
      | 1 => .rz
      | _ => .sr (srDraw s.my.e.seed s.my.lvl s.my.e.icount di)
    let conv (di : Nat) (x : FVal) : Nat := dt.encode s.my.e.fpm (mode di) (w.mod.getLsbD 5) x
    ∃ x : V128, exec (.vcvt dst w) s = .next (u.put w.d x).inLine ∧ ∀ di < ld, lane dt.width x di =
      if ls ≤ ld then
        (if part * l ≤ di ∧ di < part * l + l then
          conv di (st.value s.my.e.fpm (srcElem st.width w.a v.a (di - part * l)))
         else lane dt.width v.d di)
      else if part * l + di < ls then conv di (st.value s.my.e.fpm (srcElem st.width w.a v.a (part * l + di)))
      else conv di .zero) ∧
  (∀ (w : Norom) (s : State), s.fpmClean →
    let ty := w.mod.setWidth 5
    let mx (m : BitVec 6) : Bool := decide (m.toNat % 32 ∈ [12, 13, 15, 16, 17])
    let regs := if ty = 0xF then 1 else 2
    (∀ n m, s.issues ⟨mx, fVd regs, fV 8, fGd⟩ w → opnd w.a = .v n → opnd w.d = .v m →
      (∀ i < 8, (Space.vregs, n + i) ∉ s.my.poison.granules) →
      let x (j : Nat) : FVal := fmtF32.decode (fmtF32.flush (s.my.e.fpm.getLsbD 4)
        (lane 32 (s.my.e.rdV (n + j / 4)) (j % 4)))
      let r := mxQuantise ty (s.my.e.fpm.getLsbD 1) ((List.range 32).map x)
      exec (.vqmx w) s = .next
        (((mxPack ty r.2).zipIdx.foldl (fun t p => orKeep (writeV (m + p.2) p.1) t) s).put w.b
          (wide (BitVec.ofNat 64 r.1))).inLine) ∧
    (∀ n m, s.issues ⟨mx, fVd 8, fV regs, fGI⟩ w → opnd w.a = .v n → opnd w.d = .v m →
      (∀ i < regs, (Space.vregs, n + i) ∉ s.my.poison.granules) →
      let sc := (low (s.operands ⟨mx, fVd 8, fV regs, fGI⟩ w).b).toNat % 256
      let codes := mxUnpack ty ((List.range regs).map fun i => s.my.e.rdV (n + i))
      let y (j : Nat) : Nat := fmtF32.flush (s.my.e.fpm.getLsbD 5)
        (fmtF32.encode .rne (w.mod.getLsbD 5) (mxValue ty (s.my.e.fpm.getLsbD 0) sc ((codes[j]?).getD 0)))
      exec (.vdqmx w) s = .next
        ((List.range 8).foldl (fun t i => orKeep (writeV (m + i)
          (BitVec.ofNat 128 (fromDigits (2 ^ 32) [y (4 * i), y (4 * i + 1), y (4 * i + 2), y (4 * i + 3)]))) t) s).inLine)) ∧
  (∀ q ∈ [((0xC : BitVec 5), (8 : Int)), (0xD, 15), (0xF, 2), (0x10, 2), (0x11, 4)], ∀ (fo : Bool) (xs : List FVal),
    let r := mxQuantise q.1 fo xs
    ((∃ x ∈ xs, x.finite = false) → r = (0xFF, xs.map fun _ => 0)) ∧
    ((∀ x ∈ xs, x.finite = true ∧ x.mag.d ≠ 0) → ∃ e : Int, -127 ≤ e ∧ e ≤ 127 ∧ r.1 = (e + 127).toNat ∧
      ((∀ x ∈ xs, x.mag.n = 0) → e = -127) ∧
      (∀ k : Int, (∀ x ∈ xs, x.mag.lt (Mag.scale 1 (k + 1)) = true) → (∃ x ∈ xs, (Mag.scale 1 k).le x.mag = true) →
        e = max (-127) (min 127 (k - q.2))) ∧
      ∀ f, tyOf q.1 = .flt f → r.2 = xs.map fun x => f.flush fo (f.encode .rne true (x.scale (-e))))) ∧
  (∀ ty ∈ [(0xC : BitVec 5), 0xD, 0xF, 0x10, 0x11], ∀ codes : List Nat, codes.length = 32 →
    (∀ c ∈ codes, c < 2 ^ (tyOf ty).width) → ∀ j < 32,
      lane (tyOf ty).width ((mxPack ty codes).getD (j / (tyOf ty).lanes) 0) (j % (tyOf ty).lanes) = codes.getD j 0)

/-- R116: what the special functions answer at infinities, zeros, negative numbers and NaN. -/
def Obligations.SpecialFunctionsAtSpecialInputs : Prop :=
  ∀ f ∈ [fmtF16, fmtBf16, fmtF32],
    let nz : FVal := .fin true ⟨0, 1⟩
    let pz : FVal := .fin false ⟨0, 1⟩
    let at5 (g : FVal → FVal) : List FVal := [g (.inf true), g nz, g pz, g (.inf false), g .nan].map (rndIn f)
    at5 fnExp2 = [pz, .one, .one, .inf false, .nan].map (rndIn f) ∧
    at5 fnExp = [pz, .one, .one, .inf false, .nan].map (rndIn f) ∧
    at5 fnLog2 = [.nan, .inf true, .inf true, .inf false, .nan].map (rndIn f) ∧
    at5 (FVal.div .one) = [nz, .inf true, .inf false, pz, .nan].map (rndIn f) ∧
    at5 fnRsqrt = [.nan, .inf true, .inf false, pz, .nan].map (rndIn f) ∧
    at5 fnSqrt = [.nan, nz, pz, .inf false, .nan].map (rndIn f) ∧
    at5 fnSin = [.nan, nz, pz, .nan, .nan].map (rndIn f) ∧
    at5 fnCos = [.nan, .one, .one, .nan, .nan].map (rndIn f) ∧
    at5 (tanhLast f) = [.fin true ⟨1, 1⟩, pz, pz, .one, .nan].map (rndIn f) ∧
    at5 (sigmLast f) = [pz, .fin false ⟨1, 2⟩, .fin false ⟨1, 2⟩, .one, .nan].map (rndIn f) ∧
    at5 (siluLast f) = [nz, nz, pz, .inf false, .nan].map (rndIn f) ∧
    at5 (geluLast f) = [nz, nz, pz, .inf false, .nan].map (rndIn f) ∧
    (∀ m : Mag, m.n ≠ 0 → fnLog2 (.fin true m) = .nan ∧ fnSqrt (.fin true m) = .nan ∧ fnRsqrt (.fin true m) = .nan)

/-! ## Synchronisation -/

/-- R233, R234, R236: an atomic writes the new value at its address and nowhere else and gives D the old value; ACAS
writes only when the old value is the one expected. -/
def Obligations.AtomicsReplaceTheOldValue : Prop :=
  (∀ p ∈ atomicRows, ∀ (w : Norom) (s : State) (l : Loc) (u : State), s.issues atomicShape w →
    let n := atomicBytes w
    accessAt (viaMe s) (low (s.operands atomicShape w).a) n .atomic s = .ok (l, u) →
    let old := bytesValue (locRead u l n)
    let new := bytesOf n (p.2 (8 * n) old ((low (s.operands atomicShape w).b).toNat % 2 ^ (8 * n)))
    let t := ((locWrite u l new).put w.d (wide (BitVec.ofNat 64 old))).inLine
    exec (p.1 w) s = .next t ∧ storesOnly s t l new) ∧
  (∀ (w : Norom) (s : State) (l : Loc) (u : State), s.issues casShape w →
    let n := atomicBytes w
    accessAt (viaMe s) (low (s.operands casShape w).a) n .atomic s = .ok (l, u) →
    let old := bytesValue (locRead u l n)
    (old = (low (s.operands casShape w).d).toNat % 2 ^ (8 * n) →
      exec (.acas w) s = .next
        ((locWrite u l (bytesOf n (low (s.operands casShape w).b).toNat)).put w.d (wide (BitVec.ofNat 64 old))).inLine) ∧
    (old ≠ (low (s.operands casShape w).d).toNat % 2 ^ (8 * n) →
      exec (.acas w) s = .next (u.put w.d (wide (BitVec.ofNat 64 old))).inLine ∧
      sameMemory s (u.put w.d (wide (BitVec.ofNat 64 old))).inLine))

/-- R237, R238: FENCE gives D a token of its serial, kinds and scope and never waits; FWAIT goes on and FTEST answers 1
exactly when the token's condition holds; a token of serial 0 or of a scope above 4 is ILLEGAL_OPERAND at A. The
model's readings here: log entry 10. -/
def Obligations.FencesAreNumberedAndAwaited : Prop :=
  (∀ (w : Norom) (s : State), s.issues fenceShape w →
    let k := s.my.e.serial
    exec (.fence w) s = .next ((s.onE fun e => { e with
        serial := if k = 0xFFFFFF then 1 else k + 1
        fences := ⟨k, s.floor.nextItem⟩ :: e.fences.filter (·.serial ≠ k) }).put w.d
      (wide (BitVec.ofNat 64 (k * 256 + (low (s.operands fenceShape w).a).toNat % 16 * 16 + w.mod.toNat % 8)))).inLine) ∧
  (∀ (w : Norom) (s : State), s.issues fenceWaitShape w →
    let t := (low (s.operands fenceWaitShape w).a)
    let good := t.toNat / 256 % 2 ^ 24 ≠ 0 ∧ t.toNat % 8 ≤ 4
    (good → s.fenceDone s.me t → exec (.fwait w) s = .next s.inLine) ∧
    (good → ¬s.fenceDone s.me t → exec (.fwait w) s = .next (s.enterWait (.fence t))) ∧
    (¬good → exec (.fwait w) s = .next (s.raise ⟨0x02, BitVec.ofNat 64 (1 + 4 * w.a.toNat), none⟩))) ∧
  (∀ (w : Norom) (s : State), s.issues fenceTestShape w →
    let t := (low (s.operands fenceTestShape w).a)
    let good := t.toNat / 256 % 2 ^ 24 ≠ 0 ∧ t.toNat % 8 ≤ 4
    (good → exec (.ftest w) s = .next (s.put w.d (if s.fenceDone s.me t then 1 else 0)).inLine) ∧
    (¬good → exec (.ftest w) s = .next (s.raise ⟨0x02, BitVec.ofNat 64 (1 + 4 * w.a.toNat), none⟩))) ∧
  (∀ (s : State) (n : Nat) (t : Word),
    (t.toNat / 128 % 2 = 0 → s.fenceDone n t = true) ∧
    ((∀ f ∈ (s.core n).e.fences, f.serial ≠ t.toNat / 256 % 2 ^ 24) → s.fenceDone n t = true))

/-- R239, R240, R241, R242: a huddle register is set once, the same word changes nothing and another is ILLEGAL_OPERAND
at B, HBARR answers the phase and arrives, the last arrival flips the phase, clears the arrivals and releases the
waiting cores, and HBWAIT goes on once the phase differs. R303, R315, R316: GBARR waits for the core's transfers, then
answers the phase and arrives; the last arrival of its unit flips the phase and releases the waiting cores; GBWAIT goes
on once the phase differs; an id that the launch does not hold is ILLEGAL_OPERAND at A. The model's readings here: log
entry 14. -/
def Obligations.HuddleAndGlobalBarriersCountArrivals : Prop :=
  (∀ (w : Norom) (s : State) (k : Nat) (d : Dispatch) (i : Nat), s.dispOf s.me = some (k, d) → huddleLevel d = some i →
    let reg := specialOf w.a
    let key := huddleKey s.my.lvl i reg
    let x := d.hregs.get 0 key
    (s.issues hbsetShape w →
      let y := low (s.operands hbsetShape w).b
      let z := y &&& 0x0000FFFF01FF0007
      let lv := y.toNat % 8
      (∃ l, d.levels[lv]? = some l ∧ (l.kind = 1 ∨ l.kind = 2)) → 1 ≤ lv → lv ≤ i →
      y.toNat / 65536 % 512 ≤ unitCores d lv →
      (x = 0 → exec (.hbset w) s = .next (s.onDisp k fun d => { d with hregs := d.hregs.put key z }).inLine) ∧
      (x ≠ 0 → x = z → exec (.hbset w) s = .next s.inLine) ∧
      (x ≠ 0 → x ≠ z → exec (.hbset w) s = .next (s.raise ⟨0x02, BitVec.ofNat 64 (2 + 4 * w.b.toNat), none⟩))) ∧
    (s.issues hbarrShape w → x ≠ 0 →
      let lv := x.toNat % 8
      let unit := unitOf s.my.lvl lv
      let b := hbarOf d key unit
      let me := coreInUnit d s.my.lvl lv
      let need := if x.toNat / 65536 % 512 = 0 then unitCores d lv else x.toNat / 65536 % 512
      let phase : V128 := if b.phase then 1 else 0
      (me ∈ b.arrived → exec (.hbarr w) s = .next (s.raise ⟨0x19, BitVec.ofNat 64 reg, none⟩)) ∧
      (me ∉ b.arrived → (insertNat me b.arrived).length = need →
        exec (.hbarr w) s = .next ((latchHuddle (s.onDisp k fun d => putHbar d ⟨key, unit, !b.phase, [], none⟩)
          k d lv unit reg b.phase).put w.d phase).inLine) ∧
      (me ∉ b.arrived → (insertNat me b.arrived).length ≠ need →
        exec (.hbarr w) s = .next ((s.onDisp k fun d => putHbar d ⟨key, unit, b.phase, insertNat me b.arrived,
          if b.arrived = [] then some s.time.toNat else b.since⟩).put w.d phase).inLine)) ∧
    (s.issues hbwaitShape w → x ≠ 0 →
      let p := decide ((low (s.operands hbwaitShape w).b).toNat % 2 = 1)
      let b := hbarOf d key (unitOf s.my.lvl (x.toNat % 8))
      (b.phase ≠ p ∨ (∃ t, s.my.e.run = .waiting (.huddle reg p) true t) → exec (.hbwait w) s = .next s.inLine) ∧
      (b.phase = p → (∀ t, s.my.e.run ≠ .waiting (.huddle reg p) true t) →
        exec (.hbwait w) s = .next (s.enterWait (.huddle reg p))))) ∧
  (∀ (w : Norom) (s : State) (k : Nat) (d : Dispatch), s.dispOf s.me = some (k, d) →
    let id := specialOf w.a
    (gbarLevel d id = none →
      (s.issues gbarrShape w → exec (.gbarr w) s = .next (s.raise ⟨0x02, BitVec.ofNat 64 (1 + 4 * w.a.toNat), none⟩)) ∧
      (s.issues gbwaitShape w → exec (.gbwait w) s = .next (s.raise ⟨0x02, BitVec.ofNat 64 (1 + 4 * w.a.toNat), none⟩))) ∧
    ∀ lv, gbarLevel d id = some lv →
      let unit := unitOf s.my.lvl lv
      let b := gbarOf d id unit
      let me := coreInUnit d s.my.lvl lv
      let phase : V128 := if b.phase then 1 else 0
      (s.issues gbarrShape w →
        (undelivered s s.me ≠ 0 → exec (.gbarr w) s = .next (s.enterWait .sends)) ∧
        (undelivered s s.me = 0 → me ∈ b.arrived →
          exec (.gbarr w) s = .next (s.raise ⟨0x19, BitVec.ofNat 64 id, none⟩)) ∧
        (undelivered s s.me = 0 → me ∉ b.arrived → (insertNat me b.arrived).length = unitCores d lv →
          exec (.gbarr w) s = .next ((latchGlobal (s.onDisp k fun d => putGbar d ⟨id, unit, !b.phase, [], none⟩)
            k d lv unit id b.phase).put w.d phase).inLine) ∧
        (undelivered s s.me = 0 → me ∉ b.arrived → (insertNat me b.arrived).length ≠ unitCores d lv →
          exec (.gbarr w) s = .next ((s.onDisp k fun d => putGbar d ⟨id, unit, b.phase, insertNat me b.arrived,
            if b.arrived = [] then some s.time.toNat else b.since⟩).put w.d phase).inLine)) ∧
      (s.issues gbwaitShape w →
        let p := decide ((low (s.operands gbwaitShape w).b).toNat % 2 = 1)
        (b.phase ≠ p ∨ (∃ t, s.my.e.run = .waiting (.globalBarrier id p) true t) →
          exec (.gbwait w) s = .next s.inLine) ∧
        (b.phase = p → (∀ t, s.my.e.run ≠ .waiting (.globalBarrier id p) true t) →
          exec (.gbwait w) s = .next (s.enterWait (.globalBarrier id p)))))

/-- R52, R53, R252, R253: MSG enters the fabric while fewer than four of its sender's messages are undelivered, and
waits otherwise; a message from a core of another package enters it as an event (log entry 11); delivery puts the oldest
that a sender has sent to a target in its inbox while that has room, and drops and counts what has no target or has
outlived its lifetime; MSG.recv pops the oldest message, and waits for one. R254,
R255: QSTAT answers depth, second and used of a queue id and refuses an id that names none; BOFLUSH empties the outcome
queues that it selects and no other. -/
def Obligations.MessagesAndQueuesKeepTheirOrder : Prop :=
  ((∀ (w : Norom) (s : State) (d : Nat), s.issues ⟨anyMod, fNo, fV 1, fG⟩ w → s.my.disp = some d →
    let v := s.operands ⟨anyMod, fNo, fV 1, fG⟩ w
    (s.unheard d < 4 → exec (.msg w) s = .next (s.onFloor fun f => { f with
        nextItem := f.nextItem + 1
        messages := f.messages ++ [⟨f.nextItem, s.me, low v.b, v.a, s.time.toNat, s.coreCtx s.me, some d, none⟩] }).inLine) ∧
    (4 ≤ s.unheard d → exec (.msg w) s = .next (s.enterWait .messageRoom))) ∧
  (∀ (w : Norom) (s : State), s.issues ⟨anyMod, fVd 1, fNo, fNo⟩ w →
    (s.my.q.inbox = [] → exec (.msgRecv w) s = .next (s.enterWait .inbox)) ∧
    (∀ m rest, s.my.q.inbox = m :: rest → (16, 0) ∉ s.my.poison.entries →
      exec (.msgRecv w) s = .next ((s.pop 16).put w.d m).inLine)) ∧
  (∀ (s : State) (id : Nat) (m : Message), s.arg = .item id → s.floor.messages.find? (·.id == id) = some m →
    let gone := s.onFloor fun f => { f with messages := f.messages.filter (·.id ≠ id) }
    let dropped := gone.onCtx m.ctx fun c => { c with dmsg := true, dmsgCount := c.dmsgCount + 1 }
    (m.sent + 1000000 ≤ s.time.toNat → exec .msgDeliver s = .next dropped) ∧
    (s.time.toNat < m.sent + 1000000 →
      (∀ o ∈ s.floor.messages, o.away = m.away → o.src = m.src → o.disp = m.disp →
        o.dst &&& 0x000FFFFFFFFF03FF = m.dst &&& 0x000FFFFFFFFF03FF → m.id ≤ o.id) →
      destPkg m.dst = s.domain.index →
      (s.reaches m.disp m.dst = none → exec .msgDeliver s = .next dropped) ∧
      (∀ n, s.reaches m.disp m.dst = some n →
        ((s.core n).q.inbox.length < 8 → exec .msgDeliver s = .next (gone.onCore n fun c =>
          { c with q := { c.q with inbox := c.q.inbox ++ [m.payload] } })) ∧
        (8 ≤ (s.core n).q.inbox.length → exec .msgDeliver s = .next s)))) ∧
  (∀ (s : State) (f : FarSend) (x : V128), s.arg = .message f x → f.pkg ∈ s.domain.live → f.pkg ≠ s.domain.index →
    f.disp = none → destPkg f.dst = s.domain.index → exec .msgDeliver s = .next (s.onFloor fun fl => { fl with
      nextItem := fl.nextItem + 1
      messages := fl.messages ++ [⟨fl.nextItem, f.core, f.dst, x, f.sent, f.ctx, none, some f.pkg⟩] }))) ∧
  ((∀ (w : Norom) (s : State), s.issues waitShape w →
    let id := (low (s.operands waitShape w).a).toNat
    (∀ depth second used, queueState s id = some (depth, second, used) → second < 65536 → used < 65536 →
      exec (.qstat w) s = .next
        (s.put w.d (wide (BitVec.ofNat 64 (depth * 2 ^ 32 + second * 2 ^ 16 + used)))).inLine) ∧
    (id ∉ [0, 1, 2, 3, 4, 5, 6, 7, 8, 9, 10, 16, 17, 18] →
      exec (.qstat w) s = .next (s.raise ⟨0x02, BitVec.ofNat 64 (1 + 4 * w.a.toNat), none⟩)) ∧
    queueState s 2 = some (16, 0, s.my.q.sq.length) ∧ queueState s 3 = some (8, 0, s.my.q.bol.length) ∧
    queueState s 16 = some (8, 0, s.my.q.inbox.length) ∧ queueState s 17 = some (2, 0, s.my.mx.queue.length) ∧
    queueState s 18 = some (2, 0, s.my.copy.length)) ∧
  (∀ (w : Norom) (s : State), s.issues trapShape w →
    let a := low (s.operands trapShape w).a
    ∃ t, exec (.boflush w) s = .next t ∧
      t.my.q = { s.my.q with
        bol := if a.getLsbD 3 then [] else s.my.q.bol
        bos := if a.getLsbD 4 then [] else s.my.q.bos
        boi := if a.getLsbD 5 then [] else s.my.q.boi } ∧
      t.my.e.pc = s.my.e.pc + 1 ∧ sameRegisters s t ∧ sameOthers s t ∧ sameMemory s t))

/-! ## Demand instructions -/

/-- R122, R126, R129, R135, R140: SUSP makes a handle that holds the card, its slots and one reference, refers to each
slot once more, and demands it only beyond the high-water mark; HMAKE makes a VALUE handle or a CELL of a descriptor's
tile; both give the handle to D, and the handle names the new entry. R123, R132, R133, R136: TASK, once its card,
footprint, named handles, quota and walks are in order and the dependence table has room, makes a DEMANDED handle
whose pending count is the number of tasks and handles that it waits for, becomes the producer of the versions that it
writes, demands what it reads by name, and gives the handle to D; a full table makes it wait. The model's readings
here: log entries 3, 4, 11, 35, 37 and 38, and 78 for what a handle's count of references does past 0xFFFFFFFF. -/
def Obligations.SuspHmakeAndTaskMakeHandles : Prop :=
  ((∀ (w : Norom) (s u : State) (bs : List Byte), s.issues handleShape w →
    let a := low (s.operands handleShape w).a
    let x := suspHandle a bs
    let ctx := u.myCtx
    readCard a 128 s = .ok (bs, u) → pureCardOk bs → (∀ h ∈ x.slots, u.liveSlot ctx h) → u.roomForHandle ctx →
    ∀ c, u.ctxOf ctx = some c → u.unevaluated ctx [x] ≤ c.lh →
    let r := (u.referred ctx x.slots).newHandle ctx x
    let t := if c.hw < u.unevaluated ctx [x] then r.1.demand ctx r.2 r.1.myClass 0 else r.1
    exec (.susp w) s = .next (t.put w.d (wide r.2)).inLine ∧
      r.1.href ctx r.2 = .here (handleIndex r.2) { x with gen := handleGen r.2 } ∧
      x.state = .suspended ∧ x.refs = 1 ∧ x.card = a) ∧
  (∀ (w : Norom) (s u : State) (bs : List Byte) (tile : Tile), s.issues handleShape w →
    let ctx := u.myCtx
    let cell := decide (w.mod.toNat % 2 = 1)
    readCard (low (s.operands handleShape w).a) 16 s = .ok (bs, u) → tileOf bs = some tile → tile.base < 2 ^ 57 →
    u.roomForHandle ctx →
    ∃ r : State × Word, exec (.hmake w) s = .next (r.1.put w.d (wide r.2)).inLine ∧
      ∃ x, r.1.href ctx r.2 = .here (handleIndex r.2) x ∧ x.refs = 1 ∧ x.tile = tile ∧ x.owned = false ∧
        x.state = (if cell then .cell else .value) ∧
        x.versions = if cell then [⟨tile, none, false, 0⟩] else [])) ∧
  (∀ (w : Norom) (s u v0 v1 v : State) (bs fp : List Byte), s.issues handleShape w →
    let a := low (s.operands handleShape w).a
    let ctx := v0.myCtx
    let es := rawEntries fp
    let reads := namedReads es
    readCard a 128 s = .ok (bs, u) → cardOk bs → readCard (wordAt bs 0x68) 128 u = .ok (fp, v0) →
    forAll (entryCheck ctx w es) es v0 = .ok ((), v1) → v1.roomForHandle ctx →
    forAll (walkCheck ctx) reads v1 = .ok ((), v) →
    (Config.depEntries ≤ v.depUsed → exec (.task w) s = .next (s.enterWait .depRoom)) ∧
    (v.depUsed < Config.depEntries → ∀ foot v', resolveEntries ctx es v = .ok (foot, v') →
      let preds := (overlapPreds v' ctx foot ++ reads.filterMap (namedPred v ctx)).eraseDups
      let told := State.askAway ctx reads.eraseDups v'
      let awaits := told.1.openReads ctx told.2 reads
      let x : Handle := { Handle.blank with
        state := .demanded, effect := true, card := a, cls := fieldAt bs 0x61 1 % 8, neverStolen := true
        foot := foot, preds := preds, awaits := awaits, pending := preds.length + awaits.length }
      told.1.roomForHandle ctx →
      let r := told.1.newHandle ctx x
      let q := awaitReads ctx x.cls told.2 reads ((setProducer ctx r.2 es r.1).sweepVersions ctx)
      let t := match q.2 with
        | some cause => q.1.failHandle ctx (handleIndex r.2) cause
        | none => q.1.tryReady ctx (handleIndex r.2)
      exec (.task w) s = .next (t.put w.d (wide r.2)).inLine ∧
        r.1.href ctx r.2 = .here (handleIndex r.2) { x with gen := handleGen r.2 }))

/-- R12, R138, R139: HSTAT answers the state code, 0 for an invalid handle; HDUP and DROP count references, and freeing
follows the last, once no FORCE waits on the handle; a SUSPENDED handle that is freed gives up the reference to each of
its slots; SPARK queues a spark of a SUSPENDED handle; an invalid handle is HANDLE_STALE. The model's readings
here: log entry 72. -/
def Obligations.HandlesAreReadCountedAndSparked : Prop :=
  (∀ (w : Norom) (s : State), s.issues handleShape w →
    let h := low (s.operands handleShape w).a
    (∀ i x, s.href s.myCtx h = .here i x →
      exec (.hstat w) s = .next (s.put w.d (BitVec.ofNat 128 (match x.state with
        | .empty => 0 | .suspended => 1 | .demanded => 2 | .ready => 3 | .running => 4 | .value => 5 | .failed => 6
        | .cell => 7))).inLine) ∧
    (s.href s.myCtx h = .stale → exec (.hstat w) s = .next (s.put w.d 0).inLine)) ∧
  (∀ (w : Norom) (s : State), s.issues handleOnlyShape w →
    let h := low (s.operands handleOnlyShape w).a
    (s.href s.myCtx h = .stale → ∀ mk ∈ [Instr.spark, Instr.drop, Instr.hdup],
      exec (mk w) s = .next (s.raise ⟨0x17, h, none⟩)) ∧
    (∀ i x, s.href s.myCtx h = .here i x →
      (x.refs = 0 → ∀ mk ∈ [Instr.drop, Instr.hdup], exec (mk w) s = .next (s.raise ⟨0x17, h, none⟩)) ∧
      (x.refs ≠ 0 → x.refs ≠ 0xFFFFFFFF →
        exec (.hdup w) s = .next (s.onHandle s.myCtx i fun y => { y with refs := y.refs + 1 }).inLine) ∧
      (x.refs = 0xFFFFFFFF →
        exec (.hdup w) s = .next (s.raise ⟨0x02, BitVec.ofNat 64 (1 + 4 * w.a.toNat), none⟩)) ∧
      (2 ≤ x.refs → exec (.drop w) s = .next (s.onHandle s.myCtx i fun y => { y with refs := y.refs - 1 }).inLine) ∧
      (x.refs = 1 → x.state = .demanded ∨ x.state = .ready ∨ x.state = .running →
        exec (.drop w) s = .next (s.onHandle s.myCtx i fun y => { y with refs := y.refs - 1 }).inLine) ∧
      (x.refs = 1 → x.state = .value ∨ x.state = .failed ∨ x.state = .cell →
        let s1 := s.onHandle s.myCtx i fun y => { y with refs := y.refs - 1 }
        exec (.drop w) s = .next (if s1.waited s.myCtx h then s1 else s1.freeHandle s.myCtx i).inLine) ∧
      ∀ c, s.ctxOf s.myCtx = some c →
        (x.refs = 1 → x.state = .suspended →
          let s1 := s.onHandle s.myCtx i fun y => { y with refs := y.refs - 1 }
          exec (.drop w) s = .next
            (x.slots.foldl (fun t a => State.dropRef c.handles.length s.myCtx a t) (s1.freeHandle s.myCtx i)).inLine) ∧
        (x.state = .suspended → c.sparks.length < 1024 →
          exec (.spark w) s = .next ((s.onHandle s.myCtx i fun y => { y with sparked := true }).onCtx s.myCtx fun c =>
            { c with sparks := c.sparks ++ [h] }).inLine) ∧
        (x.state ≠ .suspended ∨ 1024 ≤ c.sparks.length → exec (.spark w) s = .next s.inLine)))

/-- R130, R133, R134, R137: FORCE gives D the base of a value, faults with EVAL_FAILED and the cause of a failed handle,
HANDLE_STALE for an invalid one and what the walk finds; otherwise it demands the handle and waits for it, and a CELL
waits for the producer of its current version. The own handle of a task of another package is SELF_DEPENDENCE; where the
walk goes on in another package, what it finds there is free.
The model's readings here: log entries 11, 35 and 72. -/
def Obligations.ForceAnswersOrWaits : Prop :=
  ∀ (w : Norom) (s : State), s.issues handleShape w → s.my.e.run = .running →
    let h := low (s.operands handleShape w).a
    let ctx := s.myCtx
    (s.href ctx h = .stale → exec (.force w) s = .next (s.raise ⟨0x17, h, none⟩)) ∧
    (∀ k d, s.dispOf s.me = some (k, d) → s.isAway d.ctx (d.task.getD 0) = false → s.forcer = d.task.getD 0) ∧
    (s.href ctx h = .away → s.forcer ≠ 0 → h = s.forcer → exec (.force w) s = .next (s.raise ⟨0x0C, h, none⟩)) ∧
    ∀ i x, s.href ctx h = .here i x →
      (x.state = .value → exec (.force w) s = .next (s.put w.d (wide (BitVec.ofNat 64 x.tile.base))).inLine) ∧
      (x.state = .failed → exec (.force w) s = .next (s.raise ⟨0x18, BitVec.ofNat 64 x.cause.toNat, none⟩)) ∧
      (x.state = .cell → ∀ v rest, x.versions = v :: rest → v.cause = 0 →
        (v.producer = none → exec (.force w) s = .next (s.put w.d (wide (BitVec.ofNat 64 v.tile.base))).inLine) ∧
        (∀ p j y, v.producer = some p → s.href ctx p = .here j y →
          (y.state = .value → exec (.force w) s = .next (s.put w.d (wide (BitVec.ofNat 64 v.tile.base))).inLine) ∧
          (y.state = .failed → exec (.force w) s = .next (s.raise ⟨0x18, BitVec.ofNat 64 y.cause.toNat, none⟩)) ∧
          (y.state ≠ .value → y.state ≠ .failed →
            exec (.force w) s = .next (s.enterWait (.version h v.tile.base p))))) ∧
      (x.state = .suspended ∨ x.state = .demanded ∨ x.state = .ready ∨ x.state = .running →
        let d0 := s.parentDepth ctx s.myTask
        (s.myTask = 0 → d0 = 0) ∧ (∀ j y, s.myTask ≠ 0 → s.href ctx s.myTask = .here j y → d0 = y.depth) ∧
        (∀ cause info, s.demandWalk ctx h s.forcer d0 = some (cause, info) →
          exec (.force w) s = .next (s.raise ⟨cause, info, none⟩)) ∧
        (s.demandWalk ctx h s.forcer d0 = none →
          let away := s.walkAway ctx (s.walkLayer ctx) 65 [h]
          let told := { s with draws := s.draws + 2 }
          (away = false →
            exec (.force w) s = .next ((s.demand ctx h s.myClass s.myTask).enterWait (.handle h))) ∧
          (away = true → exec (.force w) s = .next (
            if Config.freeRemote s.draws % 3 = 0 ∧ s.forcer ≠ 0 then
              s.raise ⟨0x0C, BitVec.ofNat 64 (Config.freeRemote (s.draws + 1)), none⟩
            else if Config.freeRemote s.draws % 3 = 1 then
              s.raise ⟨0x0D, BitVec.ofNat 64 (Config.freeRemote (s.draws + 1)), none⟩
            else (told.demand ctx h s.myClass s.myTask).enterWait (.handle h)))))

/-- R11, R125, R126, R138, R141: TDONE waits until the core has drained and marks its part done, and the last core's
makes the handle VALUE; a placed READY handle is claimed once; a handle whose allocation finds no room fails with
ARENA_FULL once no task runs; the oldest live spark demands its handle at class 7 while a core is free. The model's
readings here: log entries 78 (a second TDONE waits for the drain first, and fizzled sparks go when SPARK_TAKE reaches
them) and 95 (which tasks run). -/
def Obligations.TasksAreClaimedAndCompleted : Prop :=
  (∀ (w : Norom) (s : State) (k : Nat) (d : Dispatch), s.issues bareShape w → s.dispOf s.me = some (k, d) →
    (s.myTask = 0 → exec (.tdone w) s = .next (s.raise ⟨0x01, 0x96, none⟩)) ∧
    (s.myTask ≠ 0 → ¬s.drained s.me → exec (.tdone w) s = .next (s.enterWait .drain)) ∧
    (s.myTask ≠ 0 → s.drained s.me → s.my.tdone → exec (.tdone w) s = .next s.inLine) ∧
    (s.myTask ≠ 0 → s.drained s.me → ¬s.my.tdone →
      let marked := (s.onMy fun c => { c with tdone := true }).onDisp k fun x => { x with
        cores := x.cores.map fun y => if y.cur = s.me then { y with tdone := true } else y }
      (¬lastDone d s.me → exec (.tdone w) s = .next marked.inLine) ∧
      (∀ i, lastDone d s.me → taskIndex s d = some i →
        exec (.tdone w) s = .next (marked.completeHandle d.ctx i).inLine))) ∧
  (∀ (s : State) (ctx i k : Nat) (x : Handle), s.arg = .handle ctx i → s.hget ctx i = some x →
    s.placedFor ctx (s.hword ctx i) = some k → x.state = .ready →
    ∃ t : State, exec .taskDispatch s = .next (t.soon [.event .dispatchLoad (.disp k)]) ∧
      t.hget ctx i = some { x with state := .running, claimed := true } ∧
      ∀ c, s.ctxOf ctx = some c → (t.ctxOf ctx).map (·.tcount) = some (if x.claimed then c.tcount else c.tcount + 1)) ∧
  (∀ (s : State) (ctx i : Nat) (x : Handle) (c : Context), s.arg = .handle ctx i → s.hget ctx i = some x →
    s.ctxOf ctx = some c → x.state = .demanded → x.pending = 0 →
    (∀ y, (s.tryReady ctx i).hget ctx i = some y → y.state ≠ .demanded ∨ ¬noneRunning c →
      exec .arenaAllocation s = .next (s.tryReady ctx i)) ∧
    (∀ y, (s.tryReady ctx i).hget ctx i = some y → y.state = .demanded → noneRunning c →
      ∃ e : EventRec, e.ctx = ctx ∧ e.kind = 1 ∧ e.cause = 0x0E ∧ e.id = handleWord x.gen s.domain.index i ∧
        exec .arenaAllocation s = .next ((s.failHandle ctx i 0x0E).ctxEvent e))) ∧
  (∀ (s : State) (ctx : Nat) (c : Context), s.arg = .ctx ctx → s.ctxOf ctx = some c →
    (s.freeCoreCount = 0 ∨ s.taskWaits → exec .sparkTake s = .next s) ∧
    (s.freeCoreCount ≠ 0 → ¬s.taskWaits → ∀ old h rest, c.sparks = old ++ h :: rest →
      (∀ g ∈ old, ¬s.sparkLive ctx g) → s.sparkLive ctx h →
      exec .sparkTake s = .next ((s.onCtx ctx fun c => { c with sparks := rest }).demand ctx h 7 0)))

/-! ## The matrix engine -/

/-- R143, R144, R145, R146, R148, R171: MCFG, EPCFG, CVLD and MWLD, once their blocks, cards and areas are in order,
queue a command with what they have sampled and put in force, or wait for room. R143, R147, R148, R171, R172, R174,
R175: MSTR, SCRUM, MZERO and MDRN name a tile of the configuration in force; once their areas and classes are in order
they queue a command with fpm as sampled, or wait for room; an unused tile is ILLEGAL_OPERAND at D. A SCRUM that does
not lead its unit ignores A. The model's readings here: log entries 75, 76 and 77. -/
def Obligations.MatrixInstructionsQueueCommands : Prop :=
  ((∀ (w : Norom) (s u : State) (bs : List Byte) (c : TileCfg), s.issues cardShape w →
    readBlock (low (s.operands cardShape w).a) 64 s = .ok (bs, u) → tileCfgOf (partTiles u.my.part) bs = some c →
    exec (.mcfg w) s = .next (s.issuesMx u (.mcfg c) fun x => { x with cfgI := some c })) ∧
  (∀ (w : Norom) (s u u1 u2 : State) (bs : List Byte) (bias scale : Option (List (BitVec 32))), s.issues cardShape w →
    readBlock (low (s.operands cardShape w).a) 128 s = .ok (bs, u) →
    let act := (byteAt bs 20).toNat
    let ot := (byteAt bs 21).toNat
    let mx := decide ((byteAt bs 22).toNat % 2 = 1)
    act ≤ 4 → ot ≤ 17 → (mx → mxFormat (BitVec.ofNat 5 ot)) →
    columnWords (wordAt bs 0) u = .ok (bias, u1) → columnWords (wordAt bs 8) u1 = .ok (scale, u2) →
    let e : Epilogue := ⟨bias, scale, BitVec.ofNat 32 (fieldAt bs 16 4), act, BitVec.ofNat 5 ot, mx,
      BitVec.ofNat 32 (fieldAt bs 24 4), BitVec.ofNat 32 (fieldAt bs 28 4)⟩
    exec (.epcfg w) s = .next (s.issuesMx u2 (.epcfg e) fun x => { x with epI := some e })) ∧
  (∀ (w : Norom) (s u : State) (bs : List Byte), s.issues cardBarrierShape w →
    let v := s.operands cardBarrierShape w
    readJob (low v.a) 32 s = .ok (bs, u) → barrierGood (low v.b) →
    let src := wordAt bs 0
    let coff := fieldAt bs 8 4
    let rows := fieldAt bs 12 2
    let rbytes := fieldAt bs 14 2
    let sstride := fieldAt bs 16 4
    let cstride := fieldAt bs 20 4
    1 ≤ rows → rows ≤ 4096 → 16 ≤ rbytes → rbytes ≤ 4096 → rbytes % 16 = 0 → coff % 16 = 0 → sstride % 16 = 0 →
    cstride % 16 = 0 → rbytes ≤ cstride → coff + (rows - 1) * cstride + rbytes ≤ 0x100000 →
    (∀ i < rows, inAreaAt .ownOrGlobal (src.toNat + i * sstride) rbytes) → src.toNat % 16 = 0 →
    exec (.cvld w) s = .next (s.issuesMx u (.cvld src coff rows rbytes sstride cstride (low v.b)) fun x => x)) ∧
  (∀ (w : Norom) (s u : State) (bs : List Byte) (c : TileCfg), s.issues mwldShape w →
    let v := s.operands mwldShape w
    readJob (low v.a) 16 s = .ok (bs, u) → barrierGood (low v.b) → u.my.mx.cfgI = some c →
    let fmt : BitVec 5 := w.mod.setWidth 5
    let coff := fieldAt bs 0 4
    let cstride := fieldAt bs 4 4
    let n := (byteAt bs 8).toNat
    let soff := fieldAt bs 12 4
    coff % 16 = 0 → cstride % 16 = 0 → 1 ≤ n → n ≤ 64 →
    coff + (c.k - 1) * cstride + (tyOf fmt).rowBytes n ≤ 0x100000 →
    (mxFormat fmt → soff % 16 = 0 ∧ soff + 64 * ((c.k + 31) / 32) ≤ 0x100000) →
    exec (.mwld w) s = .next (s.issuesMx u (.mwld coff cstride n soff c.k fmt (low v.b)) fun x =>
      { x with fmtI := some fmt }))) ∧
  (∀ (w : Norom) (s : State), s.fpmClean →
    let t := specialOf w.d
    let fmt : BitVec 5 := w.mod.setWidth 5
    let m := s.rowsInForce t
    let k := match s.my.mx.cfgI with | some c => c.k | none => 0
    (m = 0 →
      let out := Host.Outcome.next (s.raise ⟨0x02, BitVec.ofNat 64 (4 * w.d.toNat), none⟩)
      (s.issues mstrShape w → exec (.mstr w) s = out) ∧ (s.issues (scrumShape w s) w → exec (.scrum w) s = out) ∧
      (s.issues mzeroShape w → exec (.mzero w) s = out) ∧
      (s.issues mdrnShape w → barrierGood (low (s.operands mdrnShape w).b) → exec (.mdrn w) s = out)) ∧
    (m ≠ 0 →
      (s.issues mzeroShape w → exec (.mzero w) s = .next (s.issuesMx s (.mzero t) fun x => x)) ∧
      (s.issues mstrShape w →
        let a := low (s.operands mstrShape w).a
        let stride := (low (s.operands mstrShape w).b).toNat
        strideOk fmt k stride →
        (∀ i < m, inAreaAt .own (a.toNat + i * stride) (streamRow fmt k)) → a.toNat % 16 = 0 →
        s.oneClass fmt t →
        exec (.mstr w) s = .next (s.issuesMx s (.mstr t a stride fmt s.my.e.fpm) fun x => x)) ∧
      (s.issues (scrumShape w s) w →
        let a := low (s.operands (scrumShape w s) w).a
        let gang := low (s.operands (scrumShape w s) w).b
        let stride := gang.toNat / 65536 % 65536
        let lvl := gang.toNat % 8
        gangOk s gang → strideOk fmt k stride →
        (leads s s.me lvl → (∀ i < m, inAreaAt .own (a.toNat + i * stride) (streamRow fmt k)) ∧ a.toNat % 16 = 0) →
        s.oneClass fmt t →
        exec (.scrum w) s = .next (s.issuesMx s (.scrum t a gang stride lvl fmt s.my.e.fpm) fun x => x)) ∧
      (s.issues mdrnShape w → ∀ e, s.my.mx.epI = some e →
        let a := low (s.operands mdrnShape w).a
        let b := low (s.operands mdrnShape w).b
        let rb := (tyOf e.otype).rowBytes 64
        barrierGood b → (∀ i < m, inAreaAt .own (a.toNat + i * rb) rb) → a.toNat % 16 = 0 →
        (e.mx → inArea .own (a + BitVec.ofNat 64 (m * rb)) (drainScales e m)) →
        exec (.mdrn w) s = .next (s.issuesMx s (.mdrn t a b s.my.e.fpm) fun x => x))))

/-- R144, R145, R146, R148, R149, R172: what the engine does with the oldest command of a core: MCFG puts the
configuration in force and zeroes the tiles, EPCFG the epilogue, MZERO zeroes its tile alone; CVLD and MWLD read and
latch, then arrive; each then leaves the queue. MWLD leaves exactly the scales that it latches, as the model reads R169
and R173 (log entry 52, DEDUCED). -/
def Obligations.EngineConfiguresLoadsAndZeroes : Prop :=
  ∀ (s : State) (n : Nat),
    (∀ c, s.mxReady n (.mcfg c) → exec .engineMcfg s = .next ((s.onCore n fun x => { x with
      mx := { x.mx with cfg := some c, tiles := [], poisoned := 0 }
      poison := { x.poison with granules := x.poison.granules.filter (·.1 ≠ Space.tiles) } }).mxDone n)) ∧
    (∀ e, s.mxReady n (.epcfg e) → exec .engineEpcfg s = .next ((s.onCore n fun x => { x with
      mx := { x.mx with ep := some e } }).mxDone n)) ∧
    (∀ t, s.mxReady n (.mzero t) → ∃ u, exec .engineMzero s = .next u ∧
      (∀ i, (u.core n).mx.tiles.get 0 i = if 8192 * t ≤ i ∧ i < 8192 * t + 8192 then 0 else (s.core n).mx.tiles.get 0 i) ∧
      (u.core n).mx.poisoned = (s.core n).mx.poisoned &&& ~~~(BitVec.twoPow 8 t) ∧
      (u.core n).mx.queue = (s.core n).mx.queue.drop 1) ∧
    (∀ src coff rows rbytes sstride cstride bar ps u,
      s.mxReady n (.cvld src coff rows rbytes sstride cstride bar) →
      cvldPieces n (.cvld src coff rows rbytes sstride cstride bar) = some ps → allOf ps s = .ok ((), u) →
      exec .engineCvld s = .next (u.mxDone n)) ∧
    (∀ coff cstride cols soff k fmt bar, s.mxReady n (.mwld coff cstride cols soff k fmt bar) →
      (s.core n).poison.granules = [] → coff + (k - 1) * cstride + (tyOf fmt).rowBytes cols ≤ 0x100000 →
      cols ≤ 64 → 1 ≤ k → (mxFormat fmt → soff + 64 * ((k + 31) / 32) ≤ 0x100000) →
      let row (i : Nat) : List Byte := (List.range ((tyOf fmt).rowBytes cols)).map fun q =>
        s.byteOf (.pool n .canvas (coff + i * cstride + q))
      let scales : List Byte := if mxFormat fmt then (List.range (64 * ((k + 31) / 32))).map fun q =>
        s.byteOf (.pool n .canvas (soff + q)) else []
      let v : State := s.onCore n fun x => { x with mx := { x.mx with
        fmt := some fmt
        weights := Tab.run 0 0 ((List.range k).flatMap fun i => (List.range 64).map fun j =>
          if j < cols then BitVec.ofNat 32 (rowElem (tyOf fmt) (row i) j) else 0)
        wscales := Tab.run 0 0 scales
        latched := k } }
      ∀ u, arrive (viaMx v n) bar (k * (tyOf fmt).rowBytes cols) v = .ok ((), u) →
        exec .engineMwld s = .next (u.mxDone n))

/-- R147, R161, R162, R169, R170, R173: MSTR adds, to every element of its rows, K products in increasing k, clamped to
40 bits at each addition in the integer class and rounded once at each in the float class; a row beyond those that the
last MWLD latched has products of value +0; every other element is unchanged. The model's readings here: log entry 52. -/
def Obligations.EngineStreamsAccumulateInOrder : Prop :=
  ∀ (s u : State) (n t stride k : Nat) (a : Word) (fmt wf : BitVec 5) (fpm : Byte) (c : TileCfg) (rows : List (List Byte)),
    s.mxReady n (.mstr t a stride fmt fpm) → (s.core n).mx.cfg = some c → (s.core n).mx.fmt = some wf → c.k = k →
    tilePoisoned (s.core n) t 0 (cfgRows (some c) t) = false →
    streamRows n (streamRow fmt k) stride a (cfgRows (some c) t) 0 s = .ok (rows, u) → rows.length ≤ 128 →
    ∃ v, exec .engineMstr s = .next v ∧
      (∀ i, (∀ m < rows.length, ∀ j < 64, i ≠ 8192 * t + 64 * m + j) →
        (v.core n).mx.tiles.get 0 i = (u.core n).mx.tiles.get 0 i) ∧
      ∀ m < rows.length, ∀ j < 64,
        let row := (rows[m]?).getD []
        let old := (u.core n).mx.tiles.get 0 (8192 * t + 64 * m + j)
        let code (i : Nat) : Nat := if mxFormat fmt then mxElem fmt row i else rowElem (tyOf fmt) row i
        let weight (i : Nat) : Nat := ((u.core n).mx.weights.get 0 (64 * i + j)).toNat
        (cfgInt (some c) t = true → ((v.core n).mx.tiles.get 0 (8192 * t + 64 * m + j)).toInt =
          intSum (fun i => arrayInt fmt (code i)) (fun i => arrayInt wf (weight i)) k old.toInt) ∧
        (cfgInt (some c) t = false → (v.core n).mx.tiles.get 0 (8192 * t + 64 * m + j) =
          floatSum (fpm.getLsbD 6)
            (fun i => if (u.core n).mx.latched ≤ i then .zero
              else arrayValue fmt fpm (code i) (byteAt row (mxRowBytes fmt k + i / 32)).toNat)
            (fun i => if (u.core n).mx.latched ≤ i then .zero
              else arrayValue wf fpm (weight i) ((u.core n).mx.wscales.get 0 (64 * (i / 32) + j)).toNat) k old)

/-- R148, R177, R178: MDRN checks its tile, writes its rows of outputs and, with MX quantisation, their scales, arrives
on its barrier and leaves the queue; an output without MX is the value scaled, biased, activated and rounded to its
type. -/
def Obligations.EngineDrainsOutputs : Prop :=
  (∀ (s u u1 u2 : State) (n t : Nat) (a bar : Word) (fpm : Byte) (e : Epilogue),
    s.mxReady n (.mdrn t a bar fpm) → (s.core n).mx.ep = some e →
    let mx := (s.core n).mx
    let m := cfgRows mx.cfg t
    let rb := (tyOf e.otype).rowBytes 64
    let out (i : Nat) := drainTileRow mx e t fpm i
    tilePoisoned (s.core n) t 0 m = false →
    allOf ((List.range m).map fun i => do
      let via ← gets fun s => viaMx s n
      engineWrite via (a + BitVec.ofNat 64 (i * rb)) (out i).1) s = .ok ((), u) →
    (e.mx = false → u1 = u) →
    (e.mx = true → engineWrite (viaMx u n) (a + BitVec.ofNat 64 (m * rb))
      (((List.range m).flatMap fun i => (out i).2) ++ List.replicate (drainScales e m - 2 * m) 0) u = .ok ((), u1)) →
    arrive (viaMx u1 n) bar (m * rb) u1 = .ok ((), u2) →
    exec .engineMdrn s = .next (u2.mxDone n)) ∧
  (∀ (mx : Matrix) (e : Epilogue) (t m n : Nat) (fpm : Byte), e.mx = false → n < 64 →
    let acc := mx.tiles.get 0 (8192 * t + 64 * m + n)
    let x : FVal := if cfgInt mx.cfg t then .ofInt acc.toInt else fmtAcc.decode (fmtAcc.flush (fpm.getLsbD 7) acc.toNat)
    let flush (y : BitVec 32) : FVal := fmtF32.decode (fmtF32.flush (fpm.getLsbD 4) y.toNat)
    let y1 := rndF32 ((valF32 (rndF32 x)).mul (flush (match e.scale with | some l => (l[n]?).getD 0 | none => e.tscale)))
    let y2 := match e.bias with
      | some l => rndF32 ((valF32 y1).add (flush ((l[n]?).getD 0)))
      | none => y1
    let y3 := match e.act with
      | 1 => rndF32 (FVal.max (valF32 y2) (.fin false ⟨0, 1⟩))
      | 2 => rndF32 (geluLast fmtF32 (valF32 y2))
      | 3 => rndF32 (siluLast fmtF32 (valF32 y2))
      | 4 => rndF32 (FVal.min (valF32 (rndF32 (FVal.max (valF32 y2) (valF32 e.clo)))) (valF32 e.chi))
      | _ => y2
    e.otype.toNat ≤ 17 →
    rowElem (tyOf e.otype) (drainTileRow mx e t fpm m).1 n = (tyOf e.otype).encode fpm .rne false (valF32 y3))

/-- R175, R176: once every member of a gang is at its SCRUM and all name one format, rows, K and stride, the leader's
rows stream into every member's tile as one step and every SCRUM leaves its queue; members that disagree all take the
deferred ILLEGAL_OPERAND with their gang words, in order until one ends the dispatch, after which those that would have
ended it are counted once (R344): the turns that they had for the meeting are dropped first. The model's readings here:
log entries 16 and 71. -/
def Obligations.GangsMeetAndStreamTogether : Prop :=
  ∀ (s : State) (n lvl k : Nat) (d : Dispatch) (lead : Nat) (rest : List Nat), s.arg = .core n →
    scrumHead (s.core n) = some lvl → s.dispOf n = some (k, d) →
    let members := gangOf d (s.core n).lvl lvl
    members.map (·.cur) = lead :: rest → (∀ y ∈ members, y.retired = false ∧ scrumHead (s.core y.cur) = some lvl) →
    let word (m : Nat) : Option (BitVec 5 × Nat × Nat × Nat) := match (s.core m).mx.queue with
      | ⟨_, .scrum t _ _ stride _ fmt _, _, _, _⟩ :: _ =>
        some (fmt, cfgRows (s.core m).mx.cfg t, cfgK (s.core m).mx.cfg, stride)
      | _ => none
    let fault (t : State) (m : Nat) : State := match (t.core m).mx.queue with
      | ⟨_, .scrum _ _ gang _ _ _ _, _, _, _⟩ :: _ => t.mxFault m ⟨0x02, gang, none⟩
      | _ => t
    ((∃ y ∈ members, word y.cur ≠ word lead) →
      let t := s.metAll (lead :: rest)
      exec .scrumMeeting s = .next (faultEach k d.ctx fault t (lead :: rest) t)) ∧
    ((∀ y ∈ members, word y.cur = word lead) →
      (∀ y ∈ members, memberCheck y.cur s = .ok ((), s) ∧ memberBad s y.cur = false) →
      ∀ rows u v x, leaderRows lead s = .ok (rows, u) →
        allOf ((lead :: rest).map (memberStream rows)) u = .ok ((), v) →
        allOf ((lead :: rest).map popMx) v = .ok ((), x) → exec .scrumMeeting s = .next x)

/-- R179: ACCRD moves the 64 elements of a tile row to 22 vector registers, three to a register, with bits [127:120] of
each and lanes 1 and 2 of the last zero, and ACCWR moves them back; both wait until the engine is idle; what ACCWR does
not name is unchanged. -/
def Obligations.AccumulatorsMoveToAndFromRegisters : Prop :=
  (∀ (w : Norom) (s : State) (m : Nat), s.issues accrdShape w → opnd w.d = .v m →
    let t := specialOf w.a
    let row := (low (s.operands accrdShape w).b).toNat
    row < s.rowsInForce t →
    (s.my.mx.queue ≠ [] → exec (.accrd w) s = .next (s.enterWait .matrixIdle)) ∧
    (s.my.mx.queue = [] → tilePoisoned s.my t row 1 = false →
      ∃ u, exec (.accrd w) s = .next u ∧
        (∀ i < 64, lane 40 (u.my.e.rdV (m + i / 3)) (i % 3) = (s.my.mx.tiles.get 0 (8192 * t + 64 * row + i)).toNat) ∧
        (∀ j < 22, (u.my.e.rdV (m + j)).toNat / 2 ^ 120 = 0) ∧
        lane 40 (u.my.e.rdV (m + 21)) 1 = 0 ∧ lane 40 (u.my.e.rdV (m + 21)) 2 = 0 ∧
        (∀ r, r < m ∨ m + 22 ≤ r → u.my.e.rdV r = s.my.e.rdV r) ∧ (∀ r, u.my.e.rd r = s.my.e.rd r) ∧
        u.my.mx = s.my.mx ∧ u.my.e.pc = s.my.e.pc + 1 ∧ sameMemory s u)) ∧
  (∀ (w : Norom) (s : State) (m : Nat), s.issues accwrShape w → opnd w.a = .v m →
    let t := specialOf w.d
    let row := (low (s.operands accwrShape w).b).toNat
    row < s.rowsInForce t → m + 22 ≤ partVregs s.my.part →
    (s.my.mx.queue ≠ [] → exec (.accwr w) s = .next (s.enterWait .matrixIdle)) ∧
    (s.my.mx.queue = [] → (∀ r < 22, (Space.vregs, m + r) ∉ s.my.poison.granules) →
      ∃ u, exec (.accwr w) s = .next u ∧
        (∀ i < 64, (u.my.mx.tiles.get 0 (8192 * t + 64 * row + i)).toNat = lane 40 (s.my.e.rdV (m + i / 3)) (i % 3)) ∧
        (∀ i, (i < 8192 * t + 64 * row ∨ 8192 * t + 64 * row + 64 ≤ i) →
          u.my.mx.tiles.get 0 i = s.my.mx.tiles.get 0 i) ∧
        sameRegisters s u ∧ u.my.e.pc = s.my.e.pc + 1 ∧ sameMemory s u))

/-! ## Copies and exchange -/

/-- R245, R246: CPY, CPYS, CPYG and CPYX read their job card; once its fields are in range and its addresses in order
they queue it, or wait for room; a field out of range is ILLEGAL_OPERAND at A, and so is a list of CPYG or CPYX that is
misaligned or not in the own scratchpad, which is the model's reading (log entry 45, DEDUCED). R247, R198, R245: the
oldest card runs its rows in order, each row its pieces of 16 bytes in order, CPYG and CPYX taking a row's index from
the list as it stands then; it then arrives with all its bytes and leaves the queue. A piece gives its destination the
bytes of its source and changes no other byte; one whose source lies in no aperture of a card is BAD_APERTURE (log entry
75). -/
def Obligations.JobCardsAreQueuedAndCopyInOrder : Prop :=
  (∀ p ∈ [(Instr.cpy, 0), (Instr.cpys, 1), (Instr.cpyg, 2), (Instr.cpyx, 3)],
  ∀ (w : Norom) (s u : State) (bs : List Byte), s.issues cardShape w →
    let a := low (s.operands cardShape w).a
    inArea .own a 64 → readJob a 64 s = .ok (bs, u) →
    (jobInRange bs p.2 = false →
      exec (p.1 w) s = .next (s.raise ⟨0x02, BitVec.ofNat 64 (1 + 4 * w.a.toNat), none⟩)) ∧
    (jobInRange bs p.2 = true → jobPlaced bs p.2 = true →
      (u.my.copy.length < 2 → exec (p.1 w) s = .next (u.queueJob bs p.2 .e).inLine) ∧
      (2 ≤ u.my.copy.length → exec (p.1 w) s = .next (s.enterWait .copyRoom)))) ∧
  ((∀ (s u : State) (n : Nat) (c : CopyCmd) (rest : List CopyCmd), s.arg = .core n → (s.core n).copy = c :: rest →
    c.stalled = false → c.done = 0 → (18, 0) ∉ (s.core n).poison.entries →
    let pieces := (List.range c.rows).flatMap fun i =>
      (if c.op < 2 then [] else [listPiece n c i]) ++ (List.range (c.rbytes / 16)).map fun j => do
        let t ← gets id
        let ix := match (t.core n).copy with
          | x :: _ => x.ix
          | [] => 0
        copyPiece (viaCopy t n c)
          (c.src.toNat + ((if c.op = 2 then ix else i) * c.sstride + 16 * j))
          (c.dst.toNat + ((if c.op = 3 then ix else i) * c.dstride + 16 * j))
    allOf pieces s = .ok ((), u) →
    let finish (t : State) : State := (t.onCore n fun x => popMarks 18 { x with copy := x.copy.drop 1 }).engineProgress n
    (c.bar = 0 → exec .copyCardPerform s = .next (finish u)) ∧
    (∀ v, c.bar ≠ 0 → arrive (viaCopy u n c) c.bar (c.rows * c.rbytes) u = .ok ((), v) →
      exec .copyCardPerform s = .next (finish v))) ∧
  (∀ (s u v : State) (via : Via) (src dst : Word) (l m : Loc), inArea .plain src 16 → inArea .plain dst 16 →
    accessAt via src 16 .read s = .ok (l, u) → accessAt via dst 16 .write u = .ok (m, v) →
    ∃ t, copyPiece via src.toNat dst.toNat s = .ok ((), t) ∧ storesOnly s t m (locRead u l 16)) ∧
  (∀ (s : State) (via : Via) (src dst : Nat), ¬inAreaAt .plain src 16 →
    copyPiece via src dst s = .error (.flt ⟨0x0B, BitVec.ofNat 64 src, none⟩)) ∧
  (∀ (s : State) (n : Nat), s.arg = .core n →
    ((s.core n).copy = [] ∨ (∃ c rest, (s.core n).copy = c :: rest ∧ c.stalled = true)) →
    exec .copyCardPerform s = .next s))

/-- R249, R250, R251: BCOPY reads its card, and once its segments are in order and do not clash takes one entry of the
dependence table, with an edge to every earlier card of the core whose ranges meet its own; eight cards, or a full
table, make it wait. A card whose predecessors are complete moves its pieces, arrives with its whole length, frees its
entry and its edges; one that stalls, or has a predecessor, does nothing, and none goes on while 24 cards stall (R1, log
entry 104). -/
def Obligations.BulkCardsAreOrderedAndPerformed : Prop :=
  (∀ (w : Norom) (s u : State) (bs : List Byte) (d : Nat), s.issues cardShape w → u.my.disp = some d →
    let a := low (s.operands cardShape w).a
    inArea .ownOrGlobal a 128 → readJob a 128 s = .ok (bs, u) →
    let bar := wordAt bs 0
    let scope := fieldAt bs 8 1 % 8
    let nseg := fieldAt bs 9 1
    let zero := decide (fieldAt bs 10 1 % 2 = 1)
    let segs : List Segment := (List.range nseg).map fun i =>
      ⟨fieldAt bs (0x20 + 24 * i) 8, fieldAt bs (0x28 + 24 * i) 8, fieldAt bs (0x30 + 24 * i) 8⟩
    let meets (a n b m : Nat) : Prop := 0 < n ∧ 0 < m ∧ a < b + m ∧ b < a + n
    scope ≤ 4 → 1 ≤ nseg → nseg ≤ 4 →
    (∀ g ∈ segs, 16 ≤ g.len ∧ g.len % 16 = 0) → (segs.map (·.len)).sum ≤ 0x100000 →
    (∀ i < nseg, ∀ j < nseg, i ≠ j → ∀ g h, segs[i]? = some g → segs[j]? = some h →
      ¬meets g.dst g.len h.dst h.len ∧ (zero = false → ¬meets g.dst g.len h.src h.len)) →
    (∀ g ∈ segs, g.dst % 16 = 0 ∧ g.dst + g.len ≤ 2 ^ 57 ∧
      (zero = false → g.src % 16 = 0 ∧ g.src + g.len ≤ 2 ^ 57)) →
    bar = 0 ∨ barrierGood bar →
    let mine := u.floor.bulk.filter fun c => decide (c.core = u.me) && decide (c.disp = d)
    let reads (z : Bool) (l : List Segment) : List (Nat × Nat) := if z then [] else l.map fun g => (g.src, g.len)
    let writes (l : List Segment) : List (Nat × Nat) := l.map fun g => (g.dst, g.len)
    let meet (x y : List (Nat × Nat)) : Prop := ∃ p ∈ x, ∃ q ∈ y, meets p.1 p.2 q.1 q.2
    (8 ≤ mine.length → exec (.bcopy w) s = .next (s.enterWait .bulkRoom)) ∧
    (mine.length < 8 → Config.depEntries ≤ u.depUsed → exec (.bcopy w) s = .next (s.enterWait .depRoom)) ∧
    (mine.length < 8 → u.depUsed < Config.depEntries → ∃ preds : List Nat,
      (∀ i, i ∈ preds ↔ ∃ y ∈ mine, y.id = i ∧ (meet (writes y.segs) (reads zero segs) ∨
        meet (writes y.segs) (writes segs) ∨ meet (reads y.zero y.segs) (writes segs))) ∧
      exec (.bcopy w) s = .next (u.onFloor fun f => { f with
        nextItem := f.nextItem + 1
        bulk := f.bulk ++ [⟨f.nextItem, u.me, d, bar, scope, zero, segs, preds, 0, none, false⟩] }).inLine)) ∧
  (∀ (s : State) (id : Nat) (c : BulkCard), s.arg = .item id → s.floor.bulk.find? (·.id == id) = some c →
    (c.stalled = true ∨ c.preds ≠ [] ∨ 24 ≤ (s.floor.bulk.filter (·.stalled)).length →
      exec .bulkCardPerform s = .next s) ∧
    (c.stalled = false → c.preds = [] → c.done = 0 → (s.floor.bulk.filter (·.stalled)).length < 24 →
      ∀ u, allOf (bulkPieces c) s = .ok ((), u) →
      let finish (t : State) : State := (t.dropBulk fun x => x.id = id).engineProgress c.core
      (c.bar = 0 → u.cardAway c = false → exec .bulkCardPerform s = .next (finish u)) ∧
      (∀ v, c.bar ≠ 0 → u.cardAway c = false → v.cardAway c = false →
        arrive (viaBulk u c) c.bar (c.segs.map (·.len)).sum u = .ok ((), v) →
        exec .bulkCardPerform s = .next (finish v)) ∧
      (∀ t y, y ∈ (finish t).floor.bulk → y.id ≠ id ∧ id ∉ y.preds ∨ ∀ x ∈ t.floor.bulk, x.id ≠ id)))

/-- R304, R318, R319, R320: XPOST opens a window and writes what the port holds for it; XSEND reads its source and sends
a transfer, or waits at sixteen; XCLOSE waits for the expected count or a mismatch, then closes the window and gives D
the transfers written, and faults when they are not the expected ones. R304, R319, R53: the oldest transfer of its
sender to its target goes to its open window's slot and is counted, is a mismatch when its slot or length does not fit
or was written, waits at the port up to 64, and is dropped and counted when its target is gone; one that has outlived
its lifetime (R52) is not written; one of a core of another package enters the fabric as an event. R348: XPOST meets the
POISON of a transfer that it would write. The model's readings here: log entries 11, 46 and 90. -/
def Obligations.ExchangeWindowsAndTransfers : Prop :=
  ((∀ (w : Norom) (s u : State) (bs : List Byte), s.issues cardShape w →
    let a := low (s.operands cardShape w).a
    a.toNat % 16 = 0 → inArea .own a 32 → readJob a 32 s = .ok (bs, u) →
    let base := wordAt bs 0
    let slotBytes := fieldAt bs 8 4
    let slots := fieldAt bs 12 4
    let expected := fieldAt bs 16 4
    let seq := fieldAt bs 20 4
    let good := 16 ≤ slotBytes ∧ slotBytes ≤ 4096 ∧ slotBytes % 16 = 0 ∧ 1 ≤ slots ∧ slots ≤ 4096 ∧ expected ≤ slots ∧
      (∀ x ∈ u.my.windows, x.seq ≠ seq) ∧ u.my.windows.length < 4
    (base.toNat % 16 ≠ 0 → exec (.xpost w) s = .next (s.raise ⟨0x04, base, none⟩)) ∧
    (base.toNat % 16 = 0 → ¬inArea .own base (slots * slotBytes) →
      exec (.xpost w) s = .next (s.raise ⟨0x0B, base, none⟩)) ∧
    (base.toNat % 16 = 0 → inArea .own base (slots * slotBytes) →
      (¬good → exec (.xpost w) s = .next (s.raise ⟨0x02, BitVec.ofNat 64 (1 + 4 * w.a.toNat), none⟩)) ∧
      (good → (∃ t ∈ u.my.held, t.seq = seq ∧ t.bad = true) → ∃ x, exec (.xpost w) s = .next (s.raise ⟨0x15, x, none⟩)) ∧
      (good → (∀ t ∈ u.my.held, t.seq = seq → t.bad = false) → exec (.xpost w) s = .next ((u.onMy fun c => { c with
          windows := c.windows ++ [⟨seq, base, slotBytes, slots, expected, [], false⟩]
          held := c.held.filter (·.seq ≠ seq) }).drainPort u.me seq u.my.held).inLine))) ∧
  (∀ (w : Norom) (s u v : State) (bs data : List Byte), s.issues cardShape w →
    let a := low (s.operands cardShape w).a
    a.toNat % 16 = 0 → inArea .own a 32 → readJob a 32 s = .ok (bs, u) →
    let src := wordAt bs 0
    let dst := wordAt bs 8
    let n := fieldAt bs 16 4
    let good := 16 ≤ n ∧ n ≤ 4096 ∧ n % 16 = 0 ∧ dst.toNat / 65536 % 65536 < u.domain.size
    (¬inArea .own src n → exec (.xsend w) s = .next (s.raise ⟨0x0B, src, none⟩)) ∧
    (inArea .own src n → src.toNat % 16 ≠ 0 → exec (.xsend w) s = .next (s.raise ⟨0x04, src, none⟩)) ∧
    (inArea .own src n → src.toNat % 16 = 0 →
      (¬good → exec (.xsend w) s = .next (s.raise ⟨0x02, BitVec.ofNat 64 (1 + 4 * w.a.toNat), none⟩)) ∧
      (good → 16 ≤ undelivered u u.me → exec (.xsend w) s = .next (s.enterWait .sendRoom)) ∧
      (good → undelivered u u.me < 16 → engineRead (viaMe u) src n .read u = .ok (data, v) →
        exec (.xsend w) s = .next (v.onFloor fun f => { f with
          nextItem := f.nextItem + 1
          transfers := f.transfers ++ [⟨f.nextItem, v.me, dst, fieldAt bs 20 4, fieldAt bs 24 4, data, v.time.toNat,
            v.coreCtx v.me, v.my.disp, none, false⟩] }).inLine))) ∧
  (∀ (w : Norom) (s : State), s.issues waitShape w →
    let seq := (low (s.operands waitShape w).a).toNat
    (windowOf s.my seq = none →
      exec (.xclose w) s = .next (s.raise ⟨0x02, BitVec.ofNat 64 (1 + 4 * w.a.toNat), none⟩)) ∧
    (∀ x, windowOf s.my seq = some x →
      let closed := (s.onMy fun c => { c with windows := c.windows.filter (·.seq ≠ seq) }).put w.d
        (wide (BitVec.ofNat 64 x.written.length))
      (x.mismatch = false → x.written.length < x.expected →
        exec (.xclose w) s = .next (s.enterWait (.window seq))) ∧
      (x.mismatch = false → x.written.length = x.expected → exec (.xclose w) s = .next closed.inLine) ∧
      (x.mismatch = true ∨ x.expected < x.written.length →
        exec (.xclose w) s = .next (closed.raise ⟨0x13, low (s.operands waitShape w).a, none⟩))))) ∧
  (∀ (s : State) (id : Nat) (t : Transfer), s.arg = .item id → s.floor.transfers.find? (·.id == id) = some t →
    s.time.toNat < t.sent + 1000000 →
    (∀ o ∈ s.floor.transfers, o.away = t.away → o.src = t.src → o.disp = t.disp →
      o.dst &&& 0x000FFFFFFFFF03FF = t.dst &&& 0x000FFFFFFFFF03FF → t.id ≤ o.id) →
    destPkg t.dst = s.domain.index →
    let gone := s.onFloor fun f => { f with transfers := f.transfers.filter (·.id ≠ id) }
    (s.reaches t.disp t.dst = none → exec .transferArrive s = .next (gone.onCtx t.ctx fun c =>
      { c with dmsg := true, dmsgCount := c.dmsgCount + 1 })) ∧
    (∀ n, s.reaches t.disp t.dst = some n →
      (windowOf (s.core n) t.seq = none →
        ((s.core n).held.length < 64 →
          exec .transferArrive s = .next (gone.onCore n fun c => { c with held := c.held ++ [t] })) ∧
        (64 ≤ (s.core n).held.length → exec .transferArrive s = .next s)) ∧
      (∀ x, windowOf (s.core n) t.seq = some x →
        let mark (f : XWindow → XWindow) (c : Core) : Core := { c with
          windows := c.windows.map fun y => if y.seq = t.seq then f y else y }
        (x.slots ≤ t.slot ∨ x.slotBytes < t.data.length ∨ t.slot ∈ x.written →
          exec .transferArrive s = .next (gone.onCore n (mark fun y => { y with mismatch := true }))) ∧
        (t.slot < x.slots → t.data.length ≤ x.slotBytes → t.slot ∉ x.written → ∀ v,
          engineWrite (viaCore gone n .e true) (x.base + BitVec.ofNat 64 (t.slot * x.slotBytes)) t.data gone = .ok ((), v) →
          exec .transferArrive s = .next (v.onCore n (mark fun y =>
            { y with written := insertNat t.slot y.written })))))) ∧
  (∀ (s : State) (f : FarSend) (slot seq : Nat) (data : List Byte), s.arg = .transfer f slot seq data →
    f.pkg ∈ s.domain.live → f.pkg ≠ s.domain.index → f.disp = none → destPkg f.dst = s.domain.index →
    exec .transferArrive s = .next (s.onFloor fun fl => { fl with
      nextItem := fl.nextItem + 1
      transfers := fl.transfers ++ [⟨fl.nextItem, f.core, f.dst, slot, seq, data, f.sent, f.ctx, none, some f.pkg,
        false⟩] }))

/-- R52, R243, R317, R319, R320: the watchdogs and lifetimes fault once their time has passed and do nothing before: a
barrier phase, from its first arrival and only while its unit is resident, ends its dispatch with BARRIER_TIMEOUT; an
XCLOSE that waits faults with EXCHANGE_TIMEOUT and leaves its window; a message or transfer is dropped and counted 1
ms after it was sent, and a transfer raises EXCHANGE_TIMEOUT in its sender, where that is a core of this package. The
model's readings here: log entries 11, 40 and 50. -/
def Obligations.WatchdogsFaultWhenTheirTimeHasPassed : Prop :=
  (∀ (s : State) (k id unit lv t : Nat) (d : Dispatch) (c : Context), s.arg = .barrier k id unit → s.disp k = some d →
    s.ctxOf d.ctx = some c → (gbarOf d id unit).since = some t → gbarLevel d id = some lv →
    (s.time.toNat < t + c.gbwd * 1000 ∨ s.unitAway k lv unit → exec .globalBarrierTimeout s = .next s) ∧
    (t + c.gbwd * 1000 ≤ s.time.toNat → ¬s.unitAway k lv unit → ∃ u detail who,
      exec .globalBarrierTimeout s = .next u ∧ u = s.failDisp k who 0x0F detail ∧
      bytesValue detail = 2 ^ 64 * (id % 256) + 2 ^ 72 * (lv % 256) +
        2 ^ 80 * ((gbarOf d id unit).arrived.length % 65536))) ∧
  (∀ (s : State) (k key unit t : Nat) (d : Dispatch), s.arg = .barrier k key unit → s.disp k = some d →
    let x := d.hregs.get 0 key
    let lv := x.toNat % 8
    let us := if x.toNat / 2 ^ 32 % 65536 = 0 then 10000 else x.toNat / 2 ^ 32 % 65536
    (hbarOf d key unit).since = some t →
    (s.time.toNat < t + us * 1000 ∨ s.unitAway k lv unit → exec .huddleBarrierTimeout s = .next s) ∧
    (t + us * 1000 ≤ s.time.toNat → ¬s.unitAway k lv unit → ∃ e : EventRec,
      exec .huddleBarrierTimeout s = .next ((s.endDisp k 0x0F 0x0F).ctxEvent e) ∧ e.ctx = d.ctx ∧ e.kind = 3 ∧
      e.cause = 0x0F ∧ e.id = BitVec.ofNat 64 (key % 8 + 256 * lv + 65536 * (unit % 256)) ∧
      bytesValue e.detail = ((hbarOf d key unit).arrived.map fun i => 2 ^ (i % 256)).sum % 2 ^ 256)) ∧
  (∀ (s : State) (n seq t : Nat) (c : Context) (x : XWindow), s.arg = .core n →
    s.ctxOf (s.coreCtx n) = some c → (s.core n).e.run = .waiting (.window seq) false t → windowOf (s.core n) seq = some x →
    (x.mismatch = true ∨ x.expected ≤ x.written.length ∨ s.time.toNat < t + c.xwd * 1000 →
      exec .exchangeWatchdog s = .next s) ∧
    (x.mismatch = false → x.written.length < x.expected → t + c.xwd * 1000 ≤ s.time.toNat →
      exec .exchangeWatchdog s = .next (s.raiseE n ⟨0x12, BitVec.ofNat 64 seq, none⟩))) ∧
  (∀ (s : State) (id : Nat), s.arg = .item id →
    (∀ m, s.floor.messages.find? (·.id == id) = some m →
      (s.time.toNat < m.sent + 1000000 → exec .messageLifetime s = .next s) ∧
      (m.sent + 1000000 ≤ s.time.toNat → exec .messageLifetime s = .next
        ((s.onFloor fun f => { f with messages := f.messages.filter (·.id ≠ id) }).onCtx m.ctx fun c =>
          { c with dmsg := true, dmsgCount := c.dmsgCount + 1 }))) ∧
    (∀ t, s.floor.messages.find? (·.id == id) = none → s.floor.transfers.find? (·.id == id) = some t →
      (s.time.toNat < t.sent + 1000000 → exec .messageLifetime s = .next s) ∧
      (t.sent + 1000000 ≤ s.time.toNat →
        let dropped := (s.onFloor fun f => { f with transfers := f.transfers.filter (·.id ≠ id) }).onCtx t.ctx fun c =>
          { c with dmsg := true, dmsgCount := c.dmsgCount + 1 }
        (t.away ≠ none → exec .messageLifetime s = .next dropped) ∧
        (∀ d, t.away = none → t.disp = some d →
          exec .messageLifetime s = .next (dropped.exchangeFault d t.src t.dst)))))

/-! ## Sequences -/

/-- R258, R285, R286: KVAPP checks its group, its source and its window in order; with its stage resident and its block
mapped it writes the rows of every head, counts the token and gives its index to D; it waits for a promotion and for a
frame. A scale is the least that holds the row's magnitude. The model's readings here: log entry 48. -/
def Obligations.KvappAppendsAToken : Prop :=
  (∀ (w : Norom) (s : State) (x : Window), s.issues ⟨anyMod, fGd, fG, fG⟩ w →
    let a := (low (s.operands ⟨anyMod, fGd, fG, fG⟩ w).a).toNat
    let b := low (s.operands ⟨anyMod, fGd, fG, fG⟩ w).b
    let ctx := s.myCtx
    s.windowAt ctx (a / 2 ^ 39 * 2 ^ 39) = some x → a % 2 ^ 30 = 0 →
    let gi := a / 2 ^ 30 % 512
    let g := s.group x gi
    let n := 4 * g.heads * g.dh
    let block := g.len / g.tpp
    (x.groups ≤ gi → exec (.kvapp w) s = .next (s.raise ⟨0x02, BitVec.ofNat 64 (1 + 4 * w.a.toNat), none⟩)) ∧
    (gi < x.groups → b.toNat % 16 ≠ 0 → exec (.kvapp w) s = .next (s.raise ⟨0x04, b, none⟩)) ∧
    (gi < x.groups → b.toNat % 16 = 0 →
      (¬inArea .own b n → exec (.kvapp w) s = .next (s.raise ⟨0x0B, b, none⟩)) ∧
      (inArea .own b n →
        (∀ i e, s.dugOf ctx x.base = some (i, e) → e.state = .parked →
          exec (.kvapp w) s = .next (s.raise ⟨0x02, BitVec.ofNat 64 (1 + 4 * w.a.toNat), none⟩)) ∧
        ((∀ i e, s.dugOf ctx x.base = some (i, e) → e.state ≠ .parked) →
          (g.leaflen ≤ block →
            exec (.kvapp w) s = .next (s.raise ⟨0x16, BitVec.ofNat 64 (a + block * 65536), none⟩)) ∧
          (block < g.leaflen →
            (s.groupResident x gi = false → exec (.kvapp w) s = .next (s.enterWait .promotion)) ∧
            (s.groupResident x gi = true →
              let e := s.physNat (g.table + 64 + 8 * block) 8
              let fit := if s.hbmShare (s.ctxVf ctx) 65536 then s.hbmFit ((block + gi) % 8) 16 else none
              (e % 2 = 0 → fit = none → s.my.e.run = .running →
                exec (.kvapp w) s = .next (s.enterWait (.frame false))) ∧
              ∀ u : State, (e % 2 = 1 → u = s) →
                (e % 2 = 0 → ∃ p, fit = some p ∧ u = (s.putFrame p
                  (Frame.fresh 16 (BitVec.ofNat 2 g.ct) ctx false)).physPut (g.table + 64 + 8 * block) 8
                    (leafEntry p true false g.ct)) →
                ∀ v t src, engineRead (viaMe u) b n .read u = .ok (src, v) →
                  forAll (appendHead (viaMe u) g (a + block * 65536) src) (List.range g.heads) v = .ok ((), t) →
                  exec (.kvapp w) s = .next ((t.physPut (g.table + 12) 4 (g.len + 1)).put w.d
                    (wide (BitVec.ofNat 64 g.len))).inLine)))))) ∧
  (∀ m : Mag, m.d ≠ 0 → (m.n = 0 → rowScale m = 0) ∧
    (m.n ≠ 0 → rowScale m ≤ 254 ∧ (rowScale m < 254 → m.n * 2 ^ 127 ≤ 448 * 2 ^ rowScale m * m.d) ∧
      (0 < rowScale m → 448 * 2 ^ (rowScale m - 1) * m.d < m.n * 2 ^ 127))) ∧
  (∀ (mk mv : Mag) (sglen kc vc c : Nat),
    (c = 0 ∨ c = sglen ∨ (scaleTop kc).lt mk ∨ (scaleTop vc).lt mv →
      headState mk mv sglen kc vc c = (rowScale mk, rowScale mv, 1)) ∧
    (c ≠ 0 → c ≠ sglen → ¬(scaleTop kc).lt mk → ¬(scaleTop vc).lt mv → headState mk mv sglen kc vc c = (kc, vc, c + 1)))

/-- R259, R260, R287, R288: ATTN reads its card and its query rows and queues them, or waits at four; performed, it
forms one triple for each page and query head in order, then arrives with their bytes and is gone; a triple that faults
stalls its engine in a restartable launch, and ends the card otherwise; a card of a core that has stopped for a
pre-emption does nothing (R329). A triple holds the maximum score, the sum of exponentials and, for each element, the
sum of products, one rounding a step. R261, R289: ACOMB checks its shape word and its areas in order, then writes for
each element the weighted sum of the triples' elements divided by the weighted sum of their sums, each step rounded
once. The model's readings here: log entries 9, 49, 104 (the SAEs of a stack, R1) and 109. -/
def Obligations.AttentionFormsAndCombinesTriples : Prop :=
  ((∀ (w : Norom) (s u v : State) (bs rows : List Byte) (x : Window) (d : Nat), s.issues cardShape w →
    let a := low (s.operands cardShape w).a
    issueRead .card false a 64 s = .ok (bs, u) → u.my.disp = some d →
    let win := fieldAt bs 0 8
    let gi := fieldAt bs 8 2
    let qh := fieldAt bs 0x0A 1
    let q := wordAt bs 0x10
    let first := fieldAt bs 0x18 4
    let count := fieldAt bs 0x1C 4
    let tri := wordAt bs 0x20
    let bar := wordAt bs 0x28
    u.windowAt u.myCtx win = some x → gi < x.groups →
    let g := u.group x gi
    let pages := (first + count - 1) / g.tpp - first / g.tpp + 1
    1 ≤ qh → qh ≤ 16 → qh % g.heads = 0 → 1 ≤ count →
    (g.leaflen * g.tpp < first + count →
      exec (.attn w) s = .next (s.raise ⟨0x16, BitVec.ofNat 64 (win + gi * 2 ^ 30), none⟩)) ∧
    (first + count ≤ g.leaflen * g.tpp → a.toNat % 16 ≠ 0 → exec (.attn w) s = .next (s.raise ⟨0x04, a, none⟩)) ∧
    (first + count ≤ g.leaflen * g.tpp → a.toNat % 16 = 0 → q.toNat % 16 = 0 → tri.toNat % 16 = 0 → barrierGood bar →
      inArea .own q (2 * g.dh * qh) → inArea .own tri (pages * qh * (16 + 4 * g.dh)) →
      let mine := u.floor.attn.filter fun c => decide (c.core = u.me) && decide (c.disp = d)
      (4 ≤ mine.length → exec (.attn w) s = .next (s.enterWait .attnRoom)) ∧
      (mine.length < 4 → engineRead (viaMe u) q (2 * g.dh * qh) .read u = .ok (rows, v) →
        exec (.attn w) s = .next (v.onFloor fun f => { f with
          nextItem := f.nextItem + 1
          attn := f.attn ++ [⟨f.nextItem, u.me, v.my.disp.getD 0, win, gi, g.kvtype, g.heads, g.dh, g.tpp, qh,
            BitVec.ofNat 32 (fieldAt bs 0x0C 4), rows, first, count, tri, bar, [], [], []⟩] }).inLine))) ∧
  (∀ (s : State) (id : Nat) (c : AttnCard) (p : Option SideEntry), s.arg = .item id →
    s.floor.attn.find? (·.id == id) = some c → (s.core c.core).drain = .stopped p → exec .attnPerform s = .next s) ∧
  (∀ (s : State) (id i : Nat) (c : AttnCard) (d : Dispatch) (f : Flt), s.arg = .item id →
    s.floor.attn.find? (·.id == id) = some c → c.stalled = [] → c.done = [] → c.unread = [] → c.qh = 1 →
    s.dispOf c.core = some (i, d) → (∀ p, (s.core c.core).drain ≠ .stopped p) → (∀ st, s.saesStalled st < 16) →
    (c.tfirst + c.tcount - 1) / c.tpp = c.tfirst / c.tpp → formTriple c 0 0 s = .error (.flt f) →
    (d.stalls = true → exec .attnPerform s = .next ((s.recordAs d.ctx (some d) f 1).onAttn id fun a =>
      { a with stalled := a.stalled ++ [0] })) ∧
    (d.stalls = false → exec .attnPerform s = .next (s.attnFault c f))) ∧
  (∀ (s u v : State) (id i : Nat) (c : AttnCard) (d : Dispatch), s.arg = .item id →
    s.floor.attn.find? (·.id == id) = some c → c.stalled = [] → c.done = [] → 1 ≤ c.qh →
    s.dispOf c.core = some (i, d) → (∀ p, (s.core c.core).drain ≠ .stopped p) → (∀ st, s.saesStalled st < 16) →
    let pages := (c.tfirst + c.tcount - 1) / c.tpp - c.tfirst / c.tpp + 1
    allOf ((List.range (pages * c.qh)).map fun k => formTriple c (k / c.qh) (k % c.qh)) s = .ok ((), u) →
    let t := (u.onAttn id fun a => { a with done := List.range (pages * c.qh), unread := [] }).engineProgress c.core
    arrive (viaCore t c.core .e true) c.bar (pages * c.qh * (16 + 4 * c.dh)) t = .ok ((), v) →
    exec .attnPerform s = .next
      ((v.onFloor fun f => { f with attn := f.attn.filter (·.id ≠ c.id) }).engineProgress c.core)) ∧
  (∀ (scores : List (BitVec 32)) (vs : List (List FVal)) (dh : Nat), scores.length = vs.length →
    (∀ r ∈ vs, r.length = dh) →
    let t := tripleOf scores vs dh
    let p (x : BitVec 32) : BitVec 32 := rndF32 (fnExp (valF32 (rndF32 ((valF32 x).sub (valF32 t.1)))))
    t.2.1 = scores.foldl (fun sum x => rndF32 ((valF32 sum).add (valF32 (p x)))) 0 ∧ t.2.2.length = dh ∧
    ∀ j < dh, t.2.2[j]? = some ((scores.zip vs).foldl (fun a xv =>
      rndF32 ((valF32 a).add ((valF32 (p xv.1)).mul ((xv.2[j]?).getD (.fin false ⟨0, 1⟩))))) 0))) ∧
  ((∀ (w : Norom) (s : State), s.issues ⟨anyMod, fG, fG, fGI⟩ w →
    let d := low (s.operands ⟨anyMod, fG, fG, fGI⟩ w).d
    let a := low (s.operands ⟨anyMod, fG, fG, fGI⟩ w).a
    let sh := (low (s.operands ⟨anyMod, fG, fG, fGI⟩ w).b).toNat
    let n := sh % 65536
    let dh := sh / 2 ^ 16 % 65536
    let step := if sh / 2 ^ 32 % 65536 = 0 then 1 else sh / 2 ^ 32 % 65536
    let good := 1 ≤ n ∧ n ≤ 16384 ∧ dh % 4 = 0 ∧ 4 ≤ dh ∧ dh ≤ 512 ∧ n * dh ≤ 262144
    let places := (List.range n).map fun i => a + BitVec.ofNat 64 (i * step * (16 + 4 * dh))
    (¬good → exec (.acomb w) s = .next (s.raise ⟨0x02, BitVec.ofNat 64 (2 + 4 * w.b.toNat), none⟩)) ∧
    (good → d.toNat % 16 ≠ 0 → exec (.acomb w) s = .next (s.raise ⟨0x04, d, none⟩)) ∧
    (good → d.toNat % 16 = 0 → a.toNat % 16 ≠ 0 → exec (.acomb w) s = .next (s.raise ⟨0x04, a, none⟩)) ∧
    (good → d.toNat % 16 = 0 → a.toNat % 16 = 0 → (∀ p ∈ places, inArea .own p (16 + 4 * dh)) → inArea .own d (4 * dh) →
      ∀ u v ts, readTriples dh places s = .ok (ts, u) →
        engineWrite (viaMe u) d ((combine ts dh).flatMap fun x => bytesOf 4 x.toNat) u = .ok ((), v) →
        exec (.acomb w) s = .next v.inLine)) ∧
  (∀ (ts : List (BitVec 32 × BitVec 32 × List (BitVec 32))) (dh : Nat), (∀ t ∈ ts, t.2.2.length = dh) →
    let m := maxF32 (ts.map (·.1))
    let f (t : BitVec 32 × BitVec 32 × List (BitVec 32)) : BitVec 32 :=
      rndF32 (fnExp (valF32 (rndF32 ((valF32 t.1).sub (valF32 m)))))
    let sum (x : BitVec 32 × BitVec 32 × List (BitVec 32) → BitVec 32) : BitVec 32 :=
      ts.foldl (fun acc t => rndF32 ((valF32 acc).add ((valF32 (x t)).mul (valF32 (f t))))) 0
    (combine ts dh).length = dh ∧
    ∀ j < dh, (combine ts dh)[j]? =
      some (rndF32 ((valF32 (sum fun t => (t.2.2[j]?).getD 0)).div (valF32 (sum (·.2.1)))))))

/-- R262, R263, R291, R294: PARK, once its card is in order and the quota has room, registers a PARKED entry at an
unused index and gives D its id; WAKE and a write on the mailbox begin stage 1 of a PARKED entry and do nothing else.
R263, R284, R290, R291, R292, R293, R363: a PARKED entry's pages begin to move at each of its two times, once; a move
from or to flash waits for its NVMe command; a demotion that completes gives its page its new tier, and takes its bytes
and its frame out of HBM where it stood there, or leaves it its old tier when flash failed to take it; a promotion that
completes waits for a frame and gives the page its bytes and marks back in it, and after a third failed flash read every
line of it is poisoned and an event tells; a resident stage 1 dispatches the resume card, the last stage frees the entry
and any other starts the next; a long wait for a frame is reported once. The model's readings here: log entries 3, 6,
47, 51, 84, 86, 104 (the engines, R1) and 108 (the reads that perform before a demotion, R228). -/
def Obligations.SequencesParkMoveAndReturn : Prop :=
  ((∀ (w : Norom) (s u v : State) (bs : List Byte) (x : Window) (c : Context), s.issues handleShape w →
    let a := low (s.operands handleShape w).a
    a.toNat % 16 = 0 → inArea .ownOrGlobal a 64 → readJob a 64 s = .ok (bs, u) →
    let win := fieldAt bs 0 8
    let tcxl := if fieldAt bs 0x20 4 = 0 then 2000000 else fieldAt bs 0x20 4
    let tflash := if fieldAt bs 0x24 4 = 0 then 120000000 else fieldAt bs 0x24 4
    let order := fieldAt bs 0x28 1
    let ctx := u.myCtx
    u.windowAt ctx win = some x →
    ((∃ i e, u.dugOf ctx win = some (i, e)) ∨ 1 < order ∨ tflash ≤ tcxl →
      exec (.park w) s = .next (s.raise ⟨0x02, BitVec.ofNat 64 (1 + 4 * w.a.toNat), none⟩)) ∧
    (u.dugOf ctx win = none → order ≤ 1 → tcxl < tflash → mailboxCheck w (wordAt bs 0x18) u = .ok ((), v) →
      v.ctxOf ctx = some c →
      let held := v.floor.dugout.filter fun y => y.2.ctx = ctx
      (c.dquota ≤ held.length → exec (.park w) s = .next (s.raise ⟨0x0E, 1, none⟩)) ∧
      (held.length < c.dquota → (v.floor.dugout.map (·.1)).Pairwise (· < ·) → ∃ i gen, v.floor.dugout.find i = none ∧
        exec (.park w) s = .next ((({ v with draws := v.draws + 1 }).onFloor fun f => { f with
          dugout := f.dugout.put i ⟨gen, .parked, ctx, win, wordAt bs 8, wordAt bs 0x10, fieldAt bs 0x18 8, tcxl, tflash,
            order, fieldAt bs 0x29 1 % 8, v.time.toNat, false, false, none, false, false⟩ }).put w.d
              (wide (dugWord gen i))).inLine))) ∧
  (∀ (s : State) (i : Nat) (e : DugEntry), s.floor.dugout.find i = some e →
    let woken := (s.onFloor fun f => { f with dugout := f.dugout.modify i fun e =>
      { e with state := .promoting 1, due := none } })
    (∀ w : Norom, s.issues handleOnlyShape w → s.dugNamed s.myCtx (low (s.operands handleOnlyShape w).a) = some i →
      (e.state = .parked → exec (.wake w) s = .next (State.endStages i 512 (woken.promoteNext i)).inLine) ∧
      (e.state ≠ .parked → exec (.wake w) s = .next s.inLine)) ∧
    (s.arg = .entry i → (e.state = .parked → exec .mailboxWake s = .next (State.endStages i 512 (woken.promoteNext i))) ∧
      (e.state ≠ .parked → exec .mailboxWake s = .next s))) ∧
  (∀ (w : Norom) (s : State), s.issues handleOnlyShape w →
    s.dugNamed s.myCtx (low (s.operands handleOnlyShape w).a) = none → exec (.wake w) s = .next s.inLine)) ∧
  ((∀ (s : State) (i : Nat) (e : DugEntry), s.arg = .entry i → s.floor.dugout.find i = some e →
    let gone := s.time.toNat - e.parkedAt
    let set (f : DugEntry → DugEntry) : State := s.onFloor fun fl => { fl with dugout := fl.dugout.modify i f }
    (e.state ≠ .parked → exec .demotionTimer s = .next s) ∧
    (∀ target below, e.state = .parked → e.due = some (target, below) →
      exec .demotionTimer s = .next ((set fun e => { e with due := none }).demoteNext i target below)) ∧
    (∀ target below x l rest, e.state = .parked → s.windowAt e.ctx e.win = some x →
      s.ageing x target below = l :: rest → s.tierRoom (s.ctxVf e.ctx) target →
      (s.readPends e.ctx l → s.demoteNext i target below = set fun e => { e with due := some (target, below) }) ∧
      (¬s.readPends e.ctx l → s.demoteNext i target below = s.beginMove i e.ctx l target)) ∧
    (e.state = .parked → e.due = none → e.cxlBegun = false →
      (gone < e.tcxl * 1000 → exec .demotionTimer s = .next s) ∧
      (e.tcxl * 1000 ≤ gone → exec .demotionTimer s =
        .next ((set fun e => { e with cxlBegun := true }).demoteNext i 1 (2 ^ 57)))) ∧
    (e.state = .parked → e.due = none → e.cxlBegun = true → e.flashBegun = false → (∀ m ∈ s.floor.moves, m.entry ≠ i) →
      (gone < e.tflash * 1000 → exec .demotionTimer s = .next s) ∧
      (e.tflash * 1000 ≤ gone → exec .demotionTimer s =
        .next ((set fun e => { e with flashBegun := true }).demoteNext i 2 (2 ^ 57)))) ∧
    (∀ k x, e.state = .promoting k → s.windowAt e.ctx e.win = some x →
      let there := s.groupResident x (if e.order = 0 then k - 1 else x.groups - k)
      let s1 := if k = 1 then s.addDispatch (resumeDispatch s i e) else s
      (there = false → exec .stageResident s = .next s) ∧
      (there = true → x.groups ≤ k → ∃ t, exec .stageResident s = .next t ∧ t.floor.dugout.find i = none ∧
        (∀ m ∈ t.floor.moves, m.entry ≠ i) ∧ t.floor.dispatches = s1.floor.dispatches) ∧
      (there = true → k < x.groups → exec .stageResident s = .next ((s1.onFloor fun f => { f with
        dugout := f.dugout.modify i fun e => { e with state := .promoting (k + 1) } }).promoteNext i)))) ∧
  (∀ (s : State) (id : Nat) (failed : Bool) (m : Move), s.arg = .move id failed →
    s.floor.moves.find? (·.id == id) = some m →
    let flash : Bool := m.source = 2 || m.target = 2
    let begun := if flash then s.completed m else s
    let ended (t : State) : State := t.onFloor fun f => { f with moves := f.moves.filter (·.id ≠ m.id) }
    let tiered (t : State) (tier : Nat) : State := t.physPut m.leaf 8 (setTier (t.physNat m.leaf 8) tier)
    let framed (t : State) (p : Nat) : State := t.physPut m.leaf 8 (setTier (setFramePte (t.physNat m.leaf 8) p) 0)
    (flash → m.cmd = none → exec .pageMoveComplete s = .next (s.queueMove m)) ∧
    (¬flash → 24 ≤ (s.floor.bulk.filter (·.stalled)).length → exec .pageMoveComplete s = .next s) ∧
    ((flash → m.cmd ≠ none) → (¬flash → (s.floor.bulk.filter (·.stalled)).length < 24) →
      (m.target ≠ 0 → (m.target = 2 → failed = false) →
        (m.source ≠ 0 → exec .pageMoveComplete s = .next ((ended (tiered
          (begun.onOut m.ctx m.va fun o => { o with tier := m.target, lba := m.lba }) m.target.toNat)).afterMove m)) ∧
        (m.source = 0 →
          let p := pteFrame (s.physNat m.leaf 8)
          ∀ f, s.floor.frames.find p = some f → ∃ (t : State) (o : OutPage),
            exec .pageMoveComplete s = .next ((ended (tiered t m.target.toNat)).afterMove m) ∧
            t.floor.frames.find p = none ∧ t.floor.out = s.floor.out ++ [o] ∧ o.ctx = m.ctx ∧ o.va = m.va ∧
            o.tier = m.target ∧ o.frame = f ∧ ∀ i < 65536, o.data.get 0 i = s.mem.get 0 (p + i))) ∧
      (m.target = 2 → failed = true → exec .pageMoveComplete s = .next
        (((ended (tiered begun m.source.toNat)).reportMove m.entry).afterMove m)) ∧
      (m.target = 0 → ∀ o, s.outOf m.ctx m.va = some o →
        (s.homeFrame m.ctx o = none → exec .pageMoveComplete s = .next s) ∧
        ∀ p, s.homeFrame m.ctx o = some p →
          (m.source ≠ 2 ∨ failed = false → ∃ t : State, t.floor.frames.find p = some o.frame ∧
            t.mem = o.data.foldl (fun x y => x.set 0 (p + y.1) y.2) (s.putFrame p o.frame).mem ∧
            (∀ l ∈ o.poison, p / 64 + l ∈ t.floor.lines) ∧ t.outOf m.ctx m.va = none ∧
            exec .pageMoveComplete s = .next ((ended (framed t p)).afterMove m)) ∧
          (m.source = 2 → failed = true → m.retries < 2 → exec .pageMoveComplete s = .next
            ((begun.onMove m.id fun x => { x with retries := x.retries + 1 }).queueMove m)) ∧
          (m.source = 2 → failed = true → 2 ≤ m.retries → ∀ e, s.floor.dugout.find m.entry = some e →
            ∃ t : State, t.floor.frames.find p = some o.frame ∧ (∀ l < 1024, p / 64 + l ∈ t.floor.lines) ∧
              t.outOf m.ctx m.va = none ∧
              exec .pageMoveComplete s = .next ((ended ((framed t p).dugEvent m.entry e 3)).afterMove m))))) ∧
  (∀ (s : State) (n k t : Nat) (b told : Bool) (d : Dispatch), s.arg = .core n → s.dispOf n = some (k, d) →
    (s.core n).e.run = .waiting (.frame told) b t →
    (told = true ∨ s.time.toNat ≤ t + 100000 → exec .kvappFrameWaitReport s = .next s) ∧
    (told = false → t + 100000 < s.time.toNat → ∃ e : EventRec, e.ctx = d.ctx ∧ e.kind = 7 ∧ e.detail = [1] ∧
      exec .kvappFrameWaitReport s = .next ((s.onCore n fun c => { c with
        e := { c.e with run := .waiting (.frame true) b t } }).ctxEvent e))))

/-! ## L, S and the umpire -/

/-- R187, R191, R206: the integer instructions of L, S and the umpire give rd the value that RV64 defines and go on;
jumps and taken branches go to an aligned target and are MISALIGNED at any other; a 16-bit word on L or S, and a word
that is no instruction, are ILLEGAL_OPCODE, and a fetch beyond the image is FETCH_LIMIT. The model's readings here: log
entries 1 and 34. -/
def Obligations.Rv64IntegerInstructionsGiveTheirValue : Prop :=
  ∀ (s : State) (len : RvLen) (rs2 rs1 rd : BitVec 5), s.turnHart →
    let n := match len with
      | .four => 4
      | .two _ => 2
    let run (op : RvInt) := exec (.rv64IntegerInstruction len op) s
    let gives (op : RvInt) (v : Word) : Prop := run op = .next ((s.setX rd v).hartLine n)
    let goes (op : RvInt) (t : State) (target : Word) : Prop :=
      (target.toNat % (if s.turnUmpire then 2 else 4) = 0 → run op = .next (t.hartAt target)) ∧
      (target.toNat % (if s.turnUmpire then 2 else 4) ≠ 0 → run op = .next (s.raise ⟨0x04, target, none⟩))
    (∀ p op, len = .two p → ¬s.takesLen len → run op = .next (s.raise ⟨0x01, p.setWidth 64, none⟩)) ∧
    (s.takesLen len →
      (∀ imm, gives (.lui imm rd) (BitVec.ofInt 64 (signedOf 32 (imm.toNat * 4096)))) ∧
      (∀ imm, gives (.auipc imm rd) (s.hart.pc + BitVec.ofInt 64 (signedOf 32 (imm.toNat * 4096)))) ∧
      (∀ off, goes (.jal off rd) (s.setX rd (s.hart.pc + BitVec.ofNat 64 n))
        (s.hart.pc + BitVec.ofInt 64 (signedOf 21 (off.toNat * 2)))) ∧
      (∀ w, run (.illegal w) = .next (s.raise ⟨0x01, w.setWidth 64, none⟩)) ∧
      run .outOfImage = .next (s.raise ⟨0x03, s.hart.pc, none⟩) ∧
      (s.cleanX rs1 →
        (∀ imm : BitVec 12, goes (.jalr imm rs1 rd) (s.setX rd (s.hart.pc + BitVec.ofNat 64 n))
          ((s.x rs1 + imm.signExtend 64) &&& 0xFFFFFFFFFFFFFFFE)) ∧
        (∀ p ∈ rvAluIRows, ∀ imm, gives (.aluI p.1 imm rs1 rd) (p.2 (s.x rs1) (imm.signExtend 64))) ∧
        (∀ imm, gives (.addiw imm rs1 rd) (word32 ((s.x rs1).toNat + imm.toInt))) ∧
        (∀ p ∈ rvShIRows, ∀ sh, gives (.shI p.1 sh rs1 rd) (p.2 (s.x rs1) sh.toNat)) ∧
        (∀ p ∈ rvShIWRows, ∀ sh, gives (.shIW p.1 sh rs1 rd) (p.2 (s.x rs1) sh.toNat)) ∧
        (∀ p ∈ rvUnRows, gives (.un p.1 rs1 rd) (p.2 (s.x rs1))) ∧
        (s.cleanX rs2 →
          (∀ p ∈ rvAluRows, gives (.alu p.1 rs2 rs1 rd) (p.2 (s.x rs1) (s.x rs2))) ∧
          (∀ p ∈ rvAluWRows, gives (.aluW p.1 rs2 rs1 rd) (p.2 (s.x rs1) (s.x rs2))) ∧
          (∀ p ∈ rvCondRows, ∀ off,
            (p.2 (s.x rs1) (s.x rs2) = false → run (.branch p.1 off rs2 rs1) = .next (s.hartLine n)) ∧
            (p.2 (s.x rs1) (s.x rs2) = true →
              goes (.branch p.1 off rs2 rs1) s (s.hart.pc + BitVec.ofInt 64 (signedOf 13 (off.toNat * 2))))))))

/-- R188, R189, R190: loads and stores of L, S and the umpire reach the bytes at rs1 plus the offset, on L once every
earlier read of LQ.GPUSH has performed; FENCE waits for those reads to arrive; the six control registers are read and
every write of one is ILLEGAL_OPCODE; ECALL halts, traps or is illegal by a7, and EBREAK traps with 0. The model's
readings here: log entries 1, 10 and 91. -/
def Obligations.Rv64MemoryAndSystemInstructions : Prop :=
  ∀ (s : State) (len : RvLen) (rs2 rs1 rd : BitVec 5), s.turnHart → s.cleanX rs1 →
    let n := match len with
      | .four => 4
      | .two _ => 2
    (s.takesLen len → ∀ imm : BitVec 12,
      let ea := s.x rs1 + imm.signExtend 64
      (s.readsDone = false → (∀ p ∈ rvLoadRows, exec (.rvLoadStore len (p.1 imm rs1 rd)) s = .next (s.enterWait .queues)) ∧
        (s.cleanX rs2 → ∀ p ∈ rvStoreRows,
          exec (.rvLoadStore len (p.1 imm rs2 rs1)) s = .next (s.enterWait .queues))) ∧
      (∀ p ∈ rvLoadRows, ∀ l u, s.readsDone → accessAt (viaHart s) ea p.2.1 .read s = .ok (l, u) →
        exec (.rvLoadStore len (p.1 imm rs1 rd)) s =
          .next ((u.setX rd (p.2.2 (bytesValue (locRead u l p.2.1)))).hartLine n)) ∧
      (∀ p ∈ rvStoreRows, ∀ l u, s.cleanX rs2 → s.readsDone → accessAt (viaHart s) ea p.2 .write s = .ok (l, u) →
        ∃ t, exec (.rvLoadStore len (p.1 imm rs2 rs1)) s = .next t ∧
          storesOnly s t l (bytesOf p.2 (s.x rs2).toNat) ∧ t.hart.x = s.hart.x)) ∧
    (∀ imm a b, (s.turnL = false ∨ (∀ e ∈ s.my.q.lq0 ++ s.my.q.lq1, ∃ v, e = .data v) →
        exec (.rvFence imm a b) s = .next (s.hartLine 4)) ∧
      (s.turnL = true → (∃ e ∈ s.my.q.lq0 ++ s.my.q.lq1, ∀ v, e ≠ .data v) →
        exec (.rvFence imm a b) s = .next (s.enterWait .queues))) ∧
    (∀ op csr f, (op = .csrrw ∨ op = .csrrwi ∨ f ≠ 0) → exec (.rvCsrAccess op csr f rd) s =
      .next (s.raise ⟨0x01, ((encodeRv (.rvCsrAccess op csr f rd)).getD 0).setWidth 64, none⟩)) ∧
    (∀ op ∈ [RvCsrOp.csrrs, .csrrc, .csrrsi, .csrrci],
      (∀ csr : BitVec 12, csr.toNat < 0xCC0 ∨ 0xCC5 < csr.toNat → exec (.rvCsrAccess op csr 0 rd) s =
        .next (s.raise ⟨0x01, ((encodeRv (.rvCsrAccess op csr 0 rd)).getD 0).setWidth 64, none⟩)) ∧
      exec (.rvCsrAccess op 0xCC4 0 rd) s = .next ((s.setX rd s.time).hartLine 4) ∧
      (s.turnUmpire = false →
        exec (.rvCsrAccess op 0xCC0 0 rd) s = .next ((s.setX rd (BitVec.ofNat 64 (s.coreCtx s.me))).hartLine 4) ∧
        exec (.rvCsrAccess op 0xCC1 0 rd) s = .next ((s.setX rd (BitVec.ofNat 64 s.my.pos.toNat)).hartLine 4) ∧
        (∀ k d, s.dispOf s.me = some (k, d) → exec (.rvCsrAccess op 0xCC2 0 rd) s =
          .next ((s.setX rd (BitVec.ofNat 64 d.gen.toNat)).hartLine 4)) ∧
        exec (.rvCsrAccess op 0xCC3 0 rd) s = .next ((s.setX rd (BitVec.ofNat 64 (s.my.part.toNat % 32 +
          s.my.part.toNat / 2 ^ 8 % 16 * 2 ^ 8 + s.my.part.toNat / 2 ^ 16 * 2 ^ 16))).hartLine 4) ∧
        (s.turnL → exec (.rvCsrAccess op 0xCC5 0 rd) s = .next ((s.setX rd (BitVec.ofNat 64 s.my.stores.llen)).hartLine 4)) ∧
        (s.turnS → exec (.rvCsrAccess op 0xCC5 0 rd) s =
          .next ((s.setX rd (BitVec.ofNat 64 s.my.stores.slen)).hartLine 4))) ∧
      (∀ c, s.cur = .umpire c →
        let u := (s.court c).umpire
        exec (.rvCsrAccess op 0xCC0 0 rd) s = .next ((s.setX rd (BitVec.ofNat 64 u.ctx)).hartLine 4) ∧
        exec (.rvCsrAccess op 0xCC2 0 rd) s = .next ((s.setX rd (BitVec.ofNat 64 u.gen.toNat)).hartLine 4) ∧
        exec (.rvCsrAccess op 0xCC5 0 rd) s = .next ((s.setX rd (BitVec.ofNat 64 u.ilen)).hartLine 4))) ∧
    (s.cleanX 17 → s.x 17 = 0 → ∃ t, exec .ecall s = .next t ∧ t.hart.run = .stopped ∧ t.hart.x = s.hart.x ∧
      sameMemory s t) ∧
    (s.cleanX 17 → s.cleanX 10 → s.x 17 = 1 → exec .ecall s = .next (s.raise ⟨0x14, s.x 10, none⟩)) ∧
    (s.cleanX 17 → s.x 17 ≠ 0 → s.x 17 ≠ 1 → exec .ecall s = .next (s.raise ⟨0x01, 0x73, none⟩)) ∧
    (s.takesLen len → exec (.ebreak len) s = .next (s.raise ⟨0x14, 0, none⟩))

/-- R184, R192, R194: the pushes of L check their queue and address, wait for room, and add an entry that holds the
bytes, the register, or a place for a read of global memory, which fills it when it performs, the reads of L in the
order of their pushes; S and the umpire find them illegal. R184, R195, R196, R197: the pops of S and L wait for an entry
of their queue and store it or give it to rd; BO.PUSH waits for room in boi; Q.STAT answers pend, depth and used of the
queues its strand may name and refuses every other. The model's readings here: log entries 41, 91 and 100 (a bad queue
number comes before a bad address). -/
def Obligations.StrandQueuesPushAndPop : Prop :=
  ((∀ (s : State) (rs2 rs1 rd : BitVec 5), s.turnHart →
    ∀ mk ∈ [Instr.lqVpush, Instr.lqSpush, Instr.lqGpush],
    let word : Word := ((encodeRv (mk rs2 rs1 rd)).getD 0).setWidth 64
    (s.turnL = false → exec (mk rs2 rs1 rd) s = .next (s.raise ⟨0x01, word, none⟩)) ∧
    (s.turnL = true → s.cleanX rs1 → s.cleanX rs2 → 1 < (s.x rs2).toNat →
      exec (mk rs2 rs1 rd) s = .next (s.raise ⟨0x02, word, none⟩))) ∧
  (∀ (s : State) (rs2 rs1 rd : BitVec 5), s.turnL → s.cleanX rs1 → s.cleanX rs2 → (s.x rs2).toNat ≤ 1 →
    let a := s.x rs1
    let q := (s.x rs2).toNat
    let room : Bool := decide ((if q = 0 then s.my.q.lq0 else s.my.q.lq1).length < 16)
    let push (t : State) (e : LqEntry) : State := t.onMy fun c => { c with q :=
      if q = 0 then { c.q with lq0 := c.q.lq0 ++ [e] } else { c.q with lq1 := c.q.lq1 ++ [e] } }
    (room = false → exec (.lqSpush rs2 rs1 rd) s = .next (s.enterWait .queues)) ∧
    (room = true → exec (.lqSpush rs2 rs1 rd) s = .next ((push s (.data (BitVec.ofNat 128 a.toNat))).hartLine 4)) ∧
    (¬inArea .own a 16 → exec (.lqVpush rs2 rs1 rd) s = .next (s.raise ⟨0x0B, a, none⟩)) ∧
    (inArea .own a 16 → a.toNat % 16 ≠ 0 → exec (.lqVpush rs2 rs1 rd) s = .next (s.raise ⟨0x04, a, none⟩)) ∧
    (inArea .own a 16 → a.toNat % 16 = 0 → room = false → exec (.lqVpush rs2 rs1 rd) s = .next (s.enterWait .queues)) ∧
    (inArea .own a 16 → a.toNat % 16 = 0 → room = true → s.my.unread = [] → ∀ l u,
      accessAt (viaMe s) a 16 .read s = .ok (l, u) →
      exec (.lqVpush rs2 rs1 rd) s =
        .next ((push u (.data (BitVec.ofNat 128 (bytesValue (locRead u l 16))))).hartLine 4)) ∧
    (2 ^ 57 < a.toNat + 16 → exec (.lqGpush rs2 rs1 rd) s = .next (s.raise ⟨0x0B, a, none⟩)) ∧
    (a.toNat + 16 ≤ 2 ^ 57 → a.toNat % 16 ≠ 0 → exec (.lqGpush rs2 rs1 rd) s = .next (s.raise ⟨0x04, a, none⟩)) ∧
    (a.toNat + 16 ≤ 2 ^ 57 → a.toNat % 16 = 0 → room = false →
      exec (.lqGpush rs2 rs1 rd) s = .next (s.enterWait .queues)) ∧
    (a.toNat + 16 ≤ 2 ^ 57 → a.toNat % 16 = 0 → room = true →
      let later (t : State) : State := (push (t.onFloor fun f => { f with nextItem := f.nextItem + 1 })
        (.reserved a s.hart.pc t.floor.nextItem)).hartAt (s.hart.pc + 4)
      (∀ l u, s.my.unread = [] → accessAt (viaMe s) a 16 .read s = .ok (l, u) → exec (.lqGpush rs2 rs1 rd) s =
        .next ((push u (.arriving (BitVec.ofNat 128 (bytesValue (locRead u l 16))))).hartAt (s.hart.pc + 4))) ∧
      (∀ x, s.my.unread = [] → accessAt (viaMe s) a 16 .read s = .error (.wait x) →
        exec (.lqGpush rs2 rs1 rd) s = .next (later (s.gpushWait s.me s.hart.pc x))) ∧
      (s.my.unread ≠ [] ∨ (∃ f, accessAt (viaMe s) a 16 .read s = .error (.flt f)) →
        exec (.lqGpush rs2 rs1 rd) s = .next (later s)))) ∧
  (∀ (s : State) (n i : Nat) (old : List LqEntry), s.arg = .coreQueue n false →
    (∀ e ∈ old, (∃ v, e = .data v) ∨ ∃ a p id, e = .pending a p id) → i = old.length →
    let set (t : State) (e : LqEntry) : State := (t.onCore n fun c => { c with q := { c.q with
      lq0 := c.q.lq0.set i e } }).engineProgress n
    ((s.core n).q.lq0 = old → exec .gpushReadArrive s = .next s) ∧
    (∀ v rest, (s.core n).q.lq0 = old ++ .arriving v :: rest → exec .gpushReadArrive s = .next (set s (.data v))) ∧
    (∀ a pc id rest l u, (s.core n).q.lq0 = old ++ .reserved a pc id :: rest → (∀ x ∈ (s.core n).unread, id ≤ x) →
      accessAt (viaCore s n .l false) a 16 .read s = .ok (l, u) →
      exec .gpushReadArrive s = .next (set u (.data (BitVec.ofNat 128 (bytesValue (locRead u l 16)))))))) ∧
  (∀ (s : State) (rs2 rs1 rd : BitVec 5), s.turnHart →
    let word (i : Instr) : Word := ((encodeRv i).getD 0).setWidth 64
    (s.turnS = false → ∀ mk ∈ [Instr.sqVpop, Instr.sqGpop, Instr.sqXpop],
      exec (mk rs2 rs1 rd) s = .next (s.raise ⟨0x01, word (mk rs2 rs1 rd), none⟩)) ∧
    (s.turnS = true →
      (s.my.q.sq = [] → exec (.sqXpop rs2 rs1 rd) s = .next (s.enterWait .queues)) ∧
      (∀ v rest, s.my.q.sq = v :: rest → (2, 0) ∉ s.my.poison.entries →
        exec (.sqXpop rs2 rs1 rd) s = .next (((s.pop 2).setX rd (v.setWidth 64)).hartLine 4)) ∧
      (s.cleanX rs1 →
        let a := s.x rs1
        ∀ p ∈ [(Instr.sqVpop, inArea .own a 16 || (inArea .plain a 16 && decide (2 ^ 57 ≤ a.toNat))),
            (Instr.sqGpop, decide (a.toNat + 16 ≤ 2 ^ 57))],
        (p.2 = false → exec (p.1 rs2 rs1 rd) s = .next (s.raise ⟨0x0B, a, none⟩)) ∧
        (p.2 = true → a.toNat % 16 ≠ 0 → exec (p.1 rs2 rs1 rd) s = .next (s.raise ⟨0x04, a, none⟩)) ∧
        (p.2 = true → a.toNat % 16 = 0 → s.hart.held = none →
          (s.my.q.sq = [] → exec (p.1 rs2 rs1 rd) s = .next (s.enterWait .queues)) ∧
          (∀ v rest, s.my.q.sq = v :: rest → (2, 0) ∉ s.my.poison.entries →
            (∀ l u, accessAt (viaMe (s.pop 2)) a 16 .write (s.pop 2) = .ok (l, u) →
              ∃ t, exec (p.1 rs2 rs1 rd) s = .next t ∧ storesOnly s t l (bytesOf 16 v.toNat) ∧
                t.my.q.sq = rest ∧ t.hart.pc = s.hart.pc + 4 ∧ t.hart.x = s.hart.x ∧ t.hart.held = none) ∧
            (∀ f, accessAt (viaMe (s.pop 2)) a 16 .write (s.pop 2) = .error (.flt f) →
              exec (p.1 rs2 rs1 rd) s =
                .next (((s.pop 2).onHart fun h => { h with held := some v }).raise f)))))) ∧
    (∀ id ∈ [3, 4], (if id = 3 then s.turnL else s.turnS) = true →
      (s.my.entries id = [] → exec (.boPop rs2 rs1 rd) s = .next (s.enterWait .queues)) ∧
      (∀ v rest, s.my.entries id = v :: rest → (id, 0) ∉ s.my.poison.entries →
        exec (.boPop rs2 rs1 rd) s = .next (((s.pop id).setX rd (v.setWidth 64)).hartLine 4))) ∧
    (s.turnL = true → s.cleanX rs1 →
      (8 ≤ s.my.q.boi.length → exec (.boPush rs2 rs1 rd) s = .next (s.enterWait .queues)) ∧
      (s.my.q.boi.length < 8 → exec (.boPush rs2 rs1 rd) s = .next ((s.onMy fun c =>
        { c with q := { c.q with boi := c.q.boi ++ [s.x rs1] } }).hartLine 4))) ∧
    (s.turnUmpire = false → s.cleanX rs1 →
      let id := (s.x rs1).toNat
      (id ∉ (if s.turnL then [0, 1, 3, 5] else [2, 4]) →
        exec (.qStat rs2 rs1 rd) s = .next (s.raise ⟨0x02, word (.qStat rs2 rs1 rd), none⟩)) ∧
      (id ∈ (if s.turnL then [0, 1, 3, 5] else [2, 4]) →
        let lq := if id = 0 then s.my.q.lq0 else if id = 1 then s.my.q.lq1 else []
        let pend := (lq.filter fun e => match e with | .data _ => false | _ => true).length
        let used := if id ≤ 1 then lq.length else (s.my.entries id).length
        exec (.qStat rs2 rs1 rd) s = .next ((s.setX rd (BitVec.ofNat 64
          (pend * 65536 + (if id ≤ 2 then 16 else 8) * 256 + used))).hartLine 4))))

/-- R198, R199, R59, R61: CP.ISSUE queues the job card at rs1 for the operation that rs2 gives, as CPY to CPYX do, and
waits for room also while E, or on S E or L, waits for it; BB.ARR arrives on its barrier and BB.WAIT goes on once the
phase differs from rs2[0]; on L each waits for the earlier reads of LQ.GPUSH. A misaligned or foreign list of CPYG or
CPYX is the model's reading of R246 (log entry 45); the model's reading of the order of L's accesses is log entry 91. -/
def Obligations.StrandsIssueCardsAndUseBarriers : Prop :=
  ∀ (s : State) (rs2 rs1 rd : BitVec 5), s.turnL ∨ s.turnS → s.cleanX rs1 → s.cleanX rs2 →
    let a := s.x rs1
    let op := (s.x rs2).toNat
    let bad := Host.Outcome.next (s.raise ⟨0x02, ((encodeRv (.cpIssue rs2 rs1 rd)).getD 0).setWidth 64, none⟩)
    (4 ≤ op → exec (.cpIssue rs2 rs1 rd) s = bad) ∧
    (op < 4 → s.readsDone → inArea .own a 64 → ∀ bs u, readJob a 64 s = .ok (bs, u) →
      (jobInRange bs op = false → exec (.cpIssue rs2 rs1 rd) s = bad) ∧
      (jobInRange bs op = true → jobPlaced bs op = true →
        let ahead := (∃ b t, u.my.e.run = .waiting .copyRoom b t) ∨
          (u.myStrand = .s ∧ ∃ b t, u.my.l.run = .waiting .copyRoom b t)
        (u.my.copy.length < 2 → ¬ahead →
          exec (.cpIssue rs2 rs1 rd) s = .next ((u.queueJob bs op s.myStrand).hartLine 4)) ∧
        (2 ≤ u.my.copy.length ∨ ahead → exec (.cpIssue rs2 rs1 rd) s = .next (s.enterWait .copyRoom)))) ∧
    (s.readsDone = false → (op < 4 → exec (.cpIssue rs2 rs1 rd) s = .next (s.enterWait .queues)) ∧
      (barrierGood a → exec (.bbArr rs2 rs1 rd) s = .next (s.enterWait .queues)) ∧
      (inArea .own a 16 → a.toNat % 16 = 0 → exec (.bbWait rs2 rs1 rd) s = .next (s.enterWait .queues))) ∧
    (barrierGood a → s.readsDone → ∀ t, arrive (viaMe s) a op s = .ok ((), t) →
      exec (.bbArr rs2 rs1 rd) s = .next (t.hartLine 4)) ∧
    (barrierGood a → s.readsDone → ∀ f, arrive (viaMe s) a op s = .error (.flt f) → exec (.bbArr rs2 rs1 rd) s = .next (s.raise f)) ∧
    (¬inArea .own a 16 → exec (.bbWait rs2 rs1 rd) s = .next (s.raise ⟨0x0B, a, none⟩)) ∧
    (inArea .own a 16 → a.toNat % 16 = 0 → s.readsDone → ∀ phase t, barrierPhase (viaMe s) a s = .ok (phase, t) →
      let p := decide (op % 2 = 1)
      (phase ≠ p → exec (.bbWait rs2 rs1 rd) s = .next (t.hartLine 4)) ∧
      (phase = p → (∀ since, s.hart.run ≠ .waiting (.barrier a p) true since) →
        exec (.bbWait rs2 rs1 rd) s = .next (s.enterWait (.barrier a p))) ∧
      ((∃ since, s.hart.run = .waiting (.barrier a p) true since) →
        exec (.bbWait rs2 rs1 rd) s = .next (t.hartLine 4)))

/-- R299, R300, R301, R302, R308, R314: GQ.POP waits for the expected record, writes it at rs1 and gives rd its token;
RT.CLAIM appends while there is capacity, evicts the weakest occupant for a greater score, and refuses otherwise;
RT.EMIT stores a record in the route list, or counts a drop; all three are illegal off the umpire. R297, R306: the
umpire's atomics give rd the old value, sign-extended, and write the new one; a load-reserved is a load, and a
store-conditional always stores and gives rd 0; all are illegal on L and S. A register that an instruction reads holds no
uncorrectable error (R348). The model's readings here: log entries 1, 33 and 43. -/
def Obligations.UmpireRoutesTokensAndPerformsAtomics : Prop :=
  ((∀ (s : State) (rs2 rs1 rd : BitVec 5), s.turnL ∨ s.turnS →
    ∀ mk ∈ [Instr.gqPop, Instr.rtClaim, Instr.rtEmit], exec (mk rs2 rs1 rd) s =
      .next (s.raise ⟨0x01, ((encodeRv (mk rs2 rs1 rd)).getD 0).setWidth 64, none⟩)) ∧
  (∀ (s : State) (rs2 rs1 rd : BitVec 5) (c : Nat), s.cur = .umpire c →
    let a := s.x rs1
    let g := (s.court c).gate
    s.cleanX rs1 →
    (recordAt a → (∀ r ∈ g.records, r.token ≠ g.expected) →
      exec (.gqPop rs2 rs1 rd) s = .next (s.enterWait .record)) ∧
    (recordAt a → ∀ r, g.records.find? (·.token == g.expected) = some r →
      let bytes := r.units.flatMap fun v => bytesOf 16 v.toNat
      1 ≤ r.units.length → a.toNat + bytes.length ≤ 0xF000000000040000 →
      exec (.gqPop rs2 rs1 rd) s = .next ((((s.onCourt c fun x => { x with gate := { x.gate with
        expected := x.gate.expected + 1
        records := x.gate.records.filter (·.token ≠ r.token) } }).uWrite (a.toNat - 0xF000000000000000) bytes).setX rd
          (BitVec.ofNat 64 r.token)).hartLine 4)) ∧
    (∀ r, recordAt a → r = tabRead (s.court c).umpire.scratch (a.toNat - 0xF000000000000000) 16 →
      ((byteAt r 7).toNat % 2 = 1 → exec (.rtEmit rs2 rs1 rd) s = .next ((s.onCtx (s.court c).umpire.ctx fun x =>
        { x with dshare := true, dshareCount := x.dshareCount + 1 }).hartLine 4)) ∧
      ((byteAt r 7).toNat % 2 = 0 →
        let base := s.uNat 0x3E000 8
        let count := s.uNat 0x3E008 4
        ∀ l u, accessAt (viaUmpire s) (BitVec.ofNat 64 (base + 16 * count)) 16 .write s = .ok (l, u) →
          exec (.rtEmit rs2 rs1 rd) s =
            .next (((locWrite u l r).uWrite 0x3E008 (bytesOf 4 (count + 1))).hartLine 4)))) ∧
  (∀ (s : State) (rs2 rs1 rd : BitVec 5) (c : Nat), s.cur = .umpire c →
    let e := (s.x rs1).toNat / 2 ^ 32
    let tag := (s.x rs1).toNat % 2 ^ 32
    let x : BitVec 32 := BitVec.ofNat 32 (s.x rs2).toNat
    let entry := 0x3F000 + 16 * e
    let array := s.uNat entry 4
    let cap := s.uNat (entry + 4) 4
    let count := s.uNat (entry + 8) 4
    let os : List Occupant := s.occupants array count
    let answers (t : State) (v : Word) : Prop := exec (.rtClaim rs2 rs1 rd) s = .next ((t.setX rd v).hartLine 4)
    s.cleanX rs1 → s.cleanX rs2 →
    (255 < e → exec (.rtClaim rs2 rs1 rd) s =
      .next (s.raise ⟨0x02, ((encodeRv (.rtClaim rs2 rs1 rd)).getD 0).setWidth 64, none⟩)) ∧
    (e ≤ 255 → (valF32 x).isNan ∨ cap = 0 → answers s 0x8000000000000000) ∧
    (e ≤ 255 → ¬(valF32 x).isNan → count < cap → array + 8 * count + 8 ≤ 0x40000 →
      answers ((s.uWrite (array + 8 * count) (bytesOf 4 tag ++ bytesOf 4 x.toNat)).uWrite (entry + 8)
        (bytesOf 4 (count + 1))) 0) ∧
    (e ≤ 255 → ¬(valF32 x).isNan → cap ≠ 0 → cap ≤ count → array + 8 * count ≤ 0x40000 →
      ((∀ o ∈ os, (valF32 o.score).isNan) → answers s 0x8000000000000000) ∧
      (∀ (j : Nat) (o : Occupant), os[j]? = some o → ¬(valF32 o.score).isNan →
        (∀ (i : Nat) (p : Occupant), os[i]? = some p → ¬(valF32 p.score).isNan → i ≠ j →
          (valF32 o.score).lt (valF32 p.score) ∨
          ((valF32 o.score).eqv (valF32 p.score) ∧ (p.tag < o.tag ∨ (p.tag = o.tag ∧ j < i)))) →
        ((valF32 o.score).lt (valF32 x) →
          answers (s.uWrite array ((os.eraseIdx j ++ ([⟨tag, x⟩] : List Occupant)).flatMap fun y =>
            bytesOf 4 y.tag ++ bytesOf 4 y.score.toNat)) (BitVec.ofNat 64 (2 ^ 62 + o.tag))) ∧
        (¬(valF32 o.score).lt (valF32 x) → answers s 0x8000000000000000))))) ∧
  (∀ (s : State) (wide aq rl : Bool) (rs2 rs1 rd : BitVec 5),
    let n := if wide then 8 else 4
    let a := s.x rs1
    (s.turnL ∨ s.turnS → ∀ op, ∀ i ∈ [Instr.umpireAmo op wide aq rl rs2 rs1 rd, .umpireLr wide aq rl rs1 rd,
        .umpireSc wide aq rl rs2 rs1 rd],
      exec i s = .next (s.raise ⟨0x01, ((encodeRv i).getD 0).setWidth 64, none⟩)) ∧
    (s.turnUmpire → s.cleanX rs1 →
      (s.cleanX rs2 → ∀ p ∈ amoRows, ∀ l u, accessAt (viaUmpire s) a n .atomic s = .ok (l, u) →
        let old := bytesValue (locRead u l n)
        exec (.umpireAmo p.1 wide aq rl rs2 rs1 rd) s = .next (((locWrite u l (bytesOf n
          (p.2 (8 * n) old ((s.x rs2).toNat % 2 ^ (8 * n))))).setX rd (BitVec.ofInt 64 (signedOf (8 * n) old))).hartLine 4)) ∧
      (∀ l u, accessAt (viaUmpire s) a n .read s = .ok (l, u) →
        exec (.umpireLr wide aq rl rs1 rd) s =
          .next ((u.setX rd (BitVec.ofInt 64 (signedOf (8 * n) (bytesValue (locRead u l n))))).hartLine 4)) ∧
      (s.cleanX rs2 → ∀ l u, accessAt (viaUmpire s) a n .write s = .ok (l, u) →
        exec (.umpireSc wide aq rl rs2 rs1 rd) s =
          .next (((locWrite u l (bytesOf n (s.x rs2).toNat)).setX rd 0).hartLine 4))))

/-! ## The life of a dispatch -/

/-- R41, R49, R50, R142, R168, R204, R205, R297, R325: once its parts may start, a load puts the code of the E, L and S
images, with their lengths and entries, into every core that awaits it, and that of an umpire image into the umpire of the
launch once the core whose level positions are all 0 is among them, and then sends the start messages; at a start message
E, L and S begin with the registers that the manual lists and all others zero, L or S without an image halted, and the
core with oobf, its scratchpad, its stacks, its canvas and its tiles zero and its matrix engine without configuration,
format, epilogue or commands; the umpire of the launch starts with that first core's message, at its image's entry with a0
:= args and every other register zero. -/
def Obligations.DispatchesLoadAndStart : Prop :=
  (∀ (s : State) (k : Nat) (d : Dispatch) (im : CodeImages) (y : DCore) (rest : List DCore), s.arg = .disp k →
    s.disp k = some d → d.cores.filter (awaitsLoad s k) = y :: rest → readImages s d = .ok im →
    (d.partsPlaced = false → exec .dispatchLoad s = .next s) ∧
    (d.partsPlaced = true → ∃ t : State, exec .dispatchLoad s =
        .next (t.soon ((y :: rest).map fun z => .event .startMessage (.dispCore k z.cur))) ∧
      (∀ z ∈ y :: rest, (t.core z.cur).loaded = true ∧ (t.core z.cur).stores.ilim = im.e.length ∧
        (t.core z.cur).e.pc = BitVec.ofNat 13 im.e.entry ∧
        (∀ i < im.e.length, (t.core z.cur).stores.e.get 0 i = BitVec.ofNat 96 (fieldAt im.e.code (12 * i) 12)) ∧
        (im.l = none → (t.core z.cur).stores.llen = 0) ∧ (im.s = none → (t.core z.cur).stores.slen = 0) ∧
        (∀ x, im.l = some x → (t.core z.cur).stores.llen = x.length ∧
          (t.core z.cur).l.pc = BitVec.ofNat 64 x.entry ∧
          ∀ i < x.length, (t.core z.cur).stores.l.get 0 i = x.code.getD i 0) ∧
        (∀ x, im.s = some x → (t.core z.cur).stores.slen = x.length ∧
          (t.core z.cur).s.pc = BitVec.ofNat 64 x.entry ∧
          ∀ i < x.length, (t.core z.cur).stores.s.get 0 i = x.code.getD i 0)) ∧
      (∀ n, (∀ z ∈ y :: rest, n ≠ z.cur) → t.core n = s.core n) ∧
      (∀ c x, d.umpire = some c → im.u = some x → (∃ z ∈ y :: rest, z.lvl = 0) →
        let u := (t.court c).umpire
        u.ilen = x.length ∧ u.hart.pc = BitVec.ofNat 64 x.entry ∧ (∀ i < x.length, u.store.get 0 i = x.code.getD i 0) ∧
        u.scratch = (s.court c).umpire.scratch) ∧
      (∀ c, d.umpire ≠ some c ∨ im.u = none ∨ (∀ z ∈ y :: rest, z.lvl ≠ 0) → t.court c = s.court c) ∧
      (t.disp k).map (·.phase) = some .running)) ∧
  (∀ (s : State) (k n : Nat) (d : Dispatch), s.arg = .dispCore k n → s.disp k = some d → (s.core n).disp = some k →
    (s.core n).loaded = true →
    let c := s.core n
    ∃ t : State, exec .startMessage s = .next t ∧
      (let e := (t.core n).e
       e.run = .running ∧ e.pc = c.e.pc ∧ e.rd 0 = 0 ∧ e.rd 1 = d.args ∧ e.rd 2 = BitVec.ofNat 64 c.pos.toNat ∧
       e.rd 3 = c.lvl ∧ e.rd 4 = BitVec.ofNat 64 d.gen.toNat ∧
       e.rd 63 = BitVec.ofNat 64 (0xF200000000000000 + 4096 * (c.part.toNat / 2 ^ 16 % 16)) ∧
       (∀ m, m ∉ [1, 2, 3, 4, 63] → e.rd m = 0) ∧ (∀ m, e.rdV m = 0) ∧
       e.xvec = 0 ∧ e.xpc = 0 ∧ e.fpm = 0 ∧ e.seed = 0) ∧
      (∀ k ∈ [Strand.l, Strand.s],
        let h := if k = .l then (t.core n).l else (t.core n).s
        let len := if k = .l then c.stores.llen else c.stores.slen
        let stack := if k = .l then c.part.toNat / 2 ^ 20 % 16 else c.part.toNat / 2 ^ 24 % 16
        h.run = (if len = 0 then .stopped else .running) ∧ h.pc = (if k = .l then c.l.pc else c.s.pc) ∧
        h.rd 10 = d.args ∧ h.rd 11 = BitVec.ofNat 64 c.pos.toNat ∧ h.rd 12 = c.lvl ∧
        h.rd 13 = BitVec.ofNat 64 d.gen.toNat ∧ h.rd 2 = BitVec.ofNat 64 (0xF200000000000000 + 4096 * stack) ∧
        ∀ m, m ∉ [2, 10, 11, 12, 13] → h.rd m = 0) ∧
      (t.core n).loaded = false ∧ (t.core n).pool.oobf = 0 ∧
      (∀ sp off len, poolRead (t.core n) sp off len = List.replicate len 0) ∧
      (let m := (t.core n).mx
       m.cfg = none ∧ m.fmt = none ∧ m.ep = none ∧ m.poisoned = 0 ∧ m.queue = [] ∧
       ∀ i, m.weights.get 0 i = 0 ∧ m.tiles.get 0 i = 0) ∧
      (∀ a slot r x, d.umpire = some a → c.lvl = 0 → d.origin = .launch slot r x 1 →
        let u := (s.court a).umpire
        let h := (t.court a).umpire.hart
        h.run = .running ∧ h.pc = u.hart.pc ∧ h.rd 10 = d.args ∧ (∀ m, m ≠ 10 → h.rd m = 0) ∧
        (t.court a).umpire.store = u.store ∧ (t.court a).umpire.ilen = u.ilen ∧
        (t.court a).umpire.scratch = u.scratch) ∧
      (∀ a, d.umpire ≠ some a ∨ c.lvl ≠ 0 → t.court a = s.court a))

/-- R19, R51, R61, R62, R131, R319, R324: E at the end of its image meets FETCH_LIMIT with its pc; a core whose three
strands have stopped, whose cards are complete and whose transfers are delivered or dropped retires, its registers
standing (R186) and its queues empty (R201), to be free in its court's next report, and the last one ends the dispatch; a
waiting strand, E, L or S, whose condition holds acts again: its queue has room, its handle is done, its barrier's phase
differs, its transfers are gone and so on, and so does one whose instruction tests for itself what it waits for; one whose
condition does not hold waits on, and so does one pending until REPLAY; an umpire goes on with its record or its page. The
model's readings here: log entries 24 and 94 (what the cores of a dispatch do that other packages hold is free). -/
def Obligations.CoresRetireAndWaitsEnd : Prop :=
  (∀ s : State, s.turnE →
    (s.my.stores.ilim ≤ s.my.e.pc.toNat →
      exec .straightLineFetchLimit s = .next (s.raise ⟨0x03, BitVec.ofNat 64 s.my.e.pc.toNat, none⟩)) ∧
    (s.my.e.pc.toNat < s.my.stores.ilim → exec .straightLineFetchLimit s = .next s)) ∧
  (∀ (s : State) (n k : Nat) (d : Dispatch), s.arg = .core n → s.dispOf n = some (k, d) →
    let c := s.core n
    let gone := c.loaded = false ∧ c.e.run = .stopped ∧ c.l.run = .stopped ∧ c.s.run = .stopped ∧ c.mx.queue = [] ∧
      c.copy = [] ∧ undelivered s n = 0 ∧ (∀ b ∈ s.floor.bulk, b.core = n → b.disp ≠ k) ∧
      (∀ a ∈ s.floor.attn, a.core = n → a.disp ≠ k) ∧
      ∃ y ∈ d.cores, y.cur = n ∧ y.started = true
    (¬gone → exec .coreRetire s = .next s) ∧
    (gone → (∃ y ∈ d.cores, y.cur ≠ n ∧ y.retired = false) → ∃ t : State, exec .coreRetire s = .next t ∧
      (t.core n).disp = none ∧ (∀ m, (t.core n).e.rd m = (s.core n).e.rd m) ∧ (t.core n).pool = (s.core n).pool ∧
      (∀ id, (t.core n).entries id = []) ∧
      (t.core n).e.xcause = (s.core n).e.xcause ∧ (∀ m, m ≠ n → t.core m = s.core m) ∧
      n ∈ t.floor.released ∧ t.disp k = some (d.retireAt n)) ∧
    (gone → (∀ y ∈ d.cores, y.cur = n ∨ y.retired = true) → d.share = none → hereCores d ≤ d.cores.length →
      d.liveTask = false →
      exec .coreRetire s = .next
        ((((s.onDisp k fun d => d.retireAt n).freeCore n).dismantle k (d.retireAt n)).finishLaunch (d.retireAt n) 0)) ∧
    (gone → d.share ≠ none → exec .coreRetire s = .next ((s.onDisp k fun d => d.retireAt n).freeCore n)) ∧
    (d.retireAt n).cores.length = d.cores.length ∧
    (∀ (i : Nat) (y : DCore), d.cores[i]? = some y → (d.retireAt n).cores[i]? =
      some (if y.cur = n then { y with retired := true, cur := 1024 + i } else y))) ∧
  (∀ (s : State) (k : Nat) (d : Dispatch), s.arg = .disp k → s.disp k = some d →
    (d.share = none → exec .coreRetire s = .next s) ∧
    (∀ m, d.share = some m → d.phase ≠ .running → exec .coreRetire s = .next s) ∧
    (∀ m, d.share = some m → d.phase = .running →
      let x (i : Nat) : Nat := Config.freeRemote (s.draws + i)
      let t := { s with draws := s.draws + 4 }
      exec .coreRetire s = .next (
        if x 0 % 4 = 0 then t
        else if x 0 % 4 = 1 then t.arriveElsewhere k d m (x 1 % 8) (x 2) (x 3)
        else if x 0 % 4 = 2 then t.finishDispatch k
        else (t.tearDown k (BitVec.ofNat 8 (1 + x 1 % 27))).noteEnd k))) ∧
  (∀ (s : State) (a : Agent) (w : Wait) (b : Bool) (t : Nat), s.arg = .agent a → s.runOf a = .waiting w b t →
    let again := Host.Outcome.next ((s.setRun a (.waiting w true t)).soon [.agent a])
    let ends (p : Bool) : Prop := exec .blockingWaitEnd s = if p then again else .next s
    (∀ n k, a = .strand n k →
      let c := s.core n
      (b = true → w ≠ .queues → ends true) ∧
      (w = .queues ∨ w = .bulkRoom ∨ w = .attnRoom ∨ w = .messageRoom ∨ w = .arena ∨ w = .promotion ∨ w = .gateRoom ∨
        (∃ m, w = .conditions m) ∨ (∃ v, w = .page v) ∨ (∃ v, w = .granule v) ∨ (∃ r, w = .frame r) ∨
        (∃ h x p, w = .version h x p) → ends true) ∧
      (b = false →
        (∀ v, w = .replay v → ends false) ∧
        (w = .matrixIdle → ends (decide (c.mx.queue = []))) ∧
        (w = .matrixRoom → ends (decide (c.mx.queue.length < 2))) ∧
        (w = .copyRoom → ends (decide (c.copy.length < 2))) ∧
        (w = .depRoom → ends (decide (s.depUsed < Config.depEntries))) ∧
        (w = .inbox → ends (decide (c.q.inbox ≠ []))) ∧
        (w = .sendRoom → ends (decide (undelivered s n < 16))) ∧
        (w = .sends → ends (decide (undelivered s n = 0))) ∧
        (w = .drain → ends (s.drained n)) ∧
        (∀ f, w = .fence f → ends (s.fenceDone n f)) ∧
        (∀ q x, w = .window q → windowOf c q = some x → ends (x.mismatch || decide (x.expected ≤ x.written.length))) ∧
        (∀ h i x, w = .handle h → s.href (s.coreCtx n) h = .here i x →
          ends (decide (x.state ∈ [HState.value, .failed, .cell]))) ∧
        (∀ v p, w = .barrier v p →
          (∀ ph u, barrierPhase (viaCore s n k false) v s = .ok (ph, u) → ends (decide (ph ≠ p))) ∧
          (∀ x, barrierPhase (viaCore s n k false) v s = .error x → ends true)) ∧
        (∀ i d reg p lv, w = .huddle reg p → s.dispOf n = some (i, d) → huddleLevel d = some lv →
          let key := huddleKey c.lvl lv reg
          ends (decide ((hbarOf d key (unitOf c.lvl ((d.hregs.get 0 key).toNat % 8))).phase ≠ p))) ∧
        (∀ i d id p lv, w = .globalBarrier id p → s.dispOf n = some (i, d) → gbarLevel d id = some lv →
          ends (decide ((gbarOf d id (unitOf c.lvl lv)).phase ≠ p))))) ∧
    (∀ c, a = .umpire c →
      (w = .record → ends ((s.court c).gate.records.any fun r => r.token == (s.court c).gate.expected)) ∧
      (∀ v, w = .replay v → ends false) ∧
      ((∃ v, w = .page v) ∨ (∃ v, w = .granule v) → ends true)))

/-- R46, R52, R324, R325, R326: the waiting dispatch that comes first by class and then by submission is refused when
its record no longer passes, and is otherwise placed on cores that are free for it and have room in its home view, or
takes cores back, also where its quota alone holds it back and dispatches of higher classes share that quota; a core let
go since its court's last report is not free but for the head that it is kept for. A launch of kind node or domain that is
too large for this package alone is spread over several by whole pieces, within what this one and the others can hold, and
one none of whose pieces lies here runs elsewhere. A court's report
shows its free and draining cores, and no umpire of a disabled die as free (R349). The model's readings here: log entries
31, 92 and 94. -/
def Obligations.DispatchesArePlacedInOrder : Prop :=
  (∀ s : State, (s.head = none → exec .placeDispatch s = .next s) ∧
    ∀ k d, s.head = some (k, d) →
      s.waitsHere k d = true ∧
      (∀ x ∈ s.floor.dispatches, s.waitsHere x.1 x.2 = true →
        d.cls < x.2.cls ∨ (d.cls = x.2.cls ∧ d.order ≤ x.2.order)) ∧
      (d.phase = .queued → ∀ r, prepare s d = .error r → exec .placeDispatch s = .next (s.refuse k r)) ∧
      (d.phase = .queued → ∀ x im, prepare s d = .ok (x, im) →
        exec .placeDispatch s = .next ((s.onDisp k fun _ => s.spread x).placeNext k (s.spread x))) ∧
      (d.phase ≠ .queued → exec .placeDispatch s = .next (s.placeNext k d)) ∧
      (d.share = none → s.placeNext k d = s.placeHead k d) ∧
      (∀ m, d.share = some m →
        let t := { s with draws := s.draws + 2 }
        s.placeNext k d = if Config.freeRemote (s.draws + 1) % 2 ≠ 0 then t
          else if hereCores d = 0 then t.onDisp k fun d => { d with phase := .running, progress := s.time.toNat }
          else t.placeHead k d) ∧
      (s.wish k d = none → s.placeHead k d = s) ∧
      ∀ w : Wish, s.wish k d = some w →
        (s.quotaFor d w.lvls.length = false →
          s.placeHead k d = if s.quotaAlone d w.lvls.length then s.takeBack k d w else s) ∧
        (s.quotaFor d w.lvls.length = true →
          (∀ spots, w.fit d.levels (s.freeFor k) = some spots →
            (∀ x ∈ spots, x.core < 1024 ∧ s.works x.core = true ∧ x.core ∉ s.floor.taken ∧
              (x.core ∈ s.floor.released → x.core ∈ s.keptFor k)) ∧
            (w.again = true ∨ s.givePart k d spots ≠ none → ∃ t : State,
              s.placeHead k d = t.soon (placeTurns t k d w.again) ∧ (∀ x ∈ spots, x.core ∈ t.floor.taken)) ∧
            (d.scattered = false → s.givePart k d spots ≠ none)) ∧
          (w.fit d.levels (s.freeFor k) = none → s.placeHead k d = s.takeBack k d w))) ∧
  (∀ (s : State) (x : Dispatch), s.spread x = { x with share := (s.spread x).share } ∧
    (launchCores x ≤ coreQuota s x.ctx → (s.spread x).share = x.share) ∧
    ((∀ l ∈ x.levels, l.kind ≤ 4) → (s.spread x).share = x.share) ∧
    (x.share = none → (s.spread x).share = none ∨ ∃ m, (s.spread x).share = some m ∧ m < spreadPieces x ∧
      ((coLevel x).isSome → spreadUnits x * m * pieceCores x ≤ coreQuota s x.ctx ∧
        spreadUnits x * (spreadPieces x - m) ≤ awayPieces s x.ctx (pieceCores x)))) ∧
  (∀ (s : State) (c : Nat), s.arg = .court c → c < 4 → ∃ r : Report,
    exec .courtReport s = .next ((s.onCourt c fun x => { x with report := r }).onFloor fun f =>
      { f with released := f.released.filter fun n => n / 256 ≠ c }) ∧
    (∀ i < 256, r.free.getLsbD i = s.coreFree (256 * c + i)) ∧
    (∀ i < 256, r.drain.getLsbD i = decide ((s.core (256 * c + i)).drain ≠ .none)) ∧
    (r.flags.getLsbD 0 = ((s.court c).umpire.disp.isNone && !decide (c ∈ s.floor.withdrawnDies))) ∧
    (r.flags.getLsbD 1 = decide (c ∈ s.floor.withdrawnDies)) ∧
    r.tiles = 8 * ((List.range 256).filter fun i => s.coreFree (256 * c + i)).length ∧
    r.pool = 768 * ((List.range 256).filter fun i => s.coreFree (256 * c + i)).length)

/-- R327, R331, R345: a spent budget raises the class by one step and is refilled, never beyond class 7; 65,536
instructions since a listed index end the dispatch with PREEMPT_OVERRUN; one second without progress of a resident
dispatch is reported once. R338, R339: a package that holds the rally token serves others, drops requests that are met
or its own, asks for itself when it has free cores and nothing to place, rewrites its summary, and sends the token's
bytes to the next live package; its request asks for its free cores, at most 16, of any context, and its summary holds
its free cores, its stealable tasks and the class of its head; the lowest live package counts its laps, and makes a
token, which it holds first, after 2.048 ms; a shipped task waits in its class queue at the thief, and at home it
follows what became of it there. The model's readings here: log entries 11 and 83. -/
def Obligations.BudgetsWatchdogsAndTheRally : Prop :=
  ((∀ (s : State) (k : Nat) (d : Dispatch), s.arg = .disp k → s.disp k = some d → ∃ t : State,
    exec .energyExhausted s = .next t ∧
    t.disp k = some (if d.energy = 0 ∧ d.cls < 7 then { d with cls := d.cls + 1, energy := d.budget } else d) ∧
    t = { s with floor := t.floor } ∧ t.floor = { s.floor with dispatches := t.floor.dispatches }) ∧
  (∀ (s : State) (n k : Nat) (d : Dispatch), s.arg = .core n → s.dispOf n = some (k, d) →
    ((s.core n).e.sincePoint < 65536 → exec .preemptOverrun s = .next s) ∧
    (65536 ≤ (s.core n).e.sincePoint →
      exec .preemptOverrun s = .next (s.failDisp k (whoStrand s n .e) 0x1A []))) ∧
  (∀ (s : State) (k : Nat) (d : Dispatch), s.arg = .disp k → s.disp k = some d →
    let last := lastProgress s k d
    let resident := ∃ x ∈ s.cores, x.2.disp = some k ∧ x.2.loaded = false
    (d.phase ≠ .running ∨ ¬resident ∨ s.time.toNat < last + 1000000000 ∨ (∃ t, d.told = some t ∧ last ≤ t) →
      exec .stallReport s = .next s) ∧
    (d.phase = .running → resident → last + 1000000000 ≤ s.time.toNat → (∀ t, d.told = some t → t < last) →
      ∃ e : EventRec, e.ctx = d.ctx ∧ e.kind = 7 ∧ e.detail = [5] ∧
        exec .stallReport s = .next ((s.onDisp k fun d => { d with told := some s.time.toNat }).ctxEvent e)))) ∧
  ((∀ (s : State) (tok : RallyToken), tok.reqs.length ≤ 16 →
    let t := rallyHold tok s
    ∃ out : RallyToken, t.domain.token = some (tokenBytes out) ∧ t.domain.tokenSeen = s.time.toNat ∧
    (∀ p ∈ s.domain.live, s.domain.index < p → s.domain.index < t.domain.tokenTo ∧ t.domain.tokenTo ≤ p) ∧
    ((∀ p ∈ s.domain.live, p ≤ s.domain.index) → ∀ p ∈ s.domain.live, t.domain.tokenTo ≤ p) ∧
    out.lap = tok.lap ∧ out.reqs.length ≤ 16 ∧
    let me := s.domain.index
    let u := (serveAll me (tok.reqs.filter fun r => r.pkg ≠ me && r.served ≠ r.wanted) s).2
    let asks := 0 < u.freeCoreCount ∧ u.canPlace = false ∧ (out.reqs.filter fun r => r.pkg ≠ me).length < 16
    (∀ x ∈ tok.sums, x.pkg ≠ me → x ∈ out.sums) ∧
    (∃ x ∈ out.sums, x.pkg = me) ∧
    (∀ x ∈ out.sums, x.pkg = me → x.free = u.freeCoreCount ∧ x.ready = min (u.stealables 0).length 65535 ∧
      (u.head = none → x.lowClass = 7) ∧ (∀ k d, u.head = some (k, d) → x.lowClass = d.cls)) ∧
    out.reqs.filter (fun r => r.pkg = me) = (if asks then [⟨me, min u.freeCoreCount 16, 0, 0⟩] else []) ∧
    (∀ r ∈ out.reqs, r.served ≠ r.wanted) ∧
    (∀ r ∈ out.reqs, r.pkg ≠ s.domain.index → ∃ q ∈ tok.reqs, q.pkg = r.pkg ∧ q.wanted = r.wanted ∧ q.ctx = r.ctx ∧
      q.served ≤ r.served)) ∧
  (∀ (s : State) (bs : List Byte), s.arg = .token bs →
    let tok := tokenOf bs
    tok.reqs.length ≤ 16 ∧ exec .rallyTokenHop s = .next (rallyHold
      { tok with lap := if s.domain.live.all fun p => s.domain.index ≤ p then tok.lap + 1 else tok.lap } s)) ∧
  (∀ s : State,
    let due := s.domain.joined = true ∧ (∀ p ∈ s.domain.live, s.domain.index ≤ p) ∧
      s.domain.tokenSeen + 2048000 ≤ s.time.toNat
    (due → exec .rallyTokenRegen s = .next (rallyHold ⟨0, [], []⟩ s)) ∧
    (¬due → exec .rallyTokenRegen s = .next s)) ∧
  (∀ (s : State) (home ctx cls : Nat) (h card : Word), s.arg = .steal home h card ctx cls → ∃ d : Dispatch,
    exec .stealShipmentArrival s = .next (({ s with draws := s.draws + 1 }).addDispatch d) ∧
    d.origin = .stolen home h card ∧ d.ctx = ctx ∧ d.cls = cls % 8 ∧ d.phase = .queued) ∧
  (∀ (s : State) (ctx : Nat) (h : Word) (how : TaskEnd), s.arg = .stealEnd ctx h how →
    ((∀ x ∈ s.domain.shipped, x.ctx = ctx → x.handle ≠ h) → exec .stealShipmentArrival s = .next s) ∧
    ((∃ x ∈ s.domain.shipped, x.ctx = ctx ∧ x.handle = h) → ∀ i y, s.href ctx h = .here i y →
      let t := { s with domain := { s.domain with
        shipped := s.domain.shipped.filter fun x => !(decide (x.ctx = ctx) && decide (x.handle = h)) } }
      exec .stealShipmentArrival s = .next (match how with
        | .done => t.completeHandle ctx i
        | .failed cause => t.failHandle ctx i cause
        | .aborted cause info hold =>
          if cause = 0x15 ∧ info ∈ y.poisonSeen then t.failHandle ctx i cause else t.returnHandle ctx i cause info hold))))

/-- R202, R328, R329, R330, R336: a request makes every core of the unit drain from its time on, E stopping at once
where it waits or has halted, with a full entry, or stands at an index of the side table, with that entry, and lets a
dispatch go of which not every part has been placed; 23 µs later it stops at the next boundary; a core alone in its
unit, once all of it has stopped, is saved with the registers that its point keeps, and freed; a resumption restores the
saved core where it now stands, with every earlier token of a FENCE complete (R238). The model's readings here: log
entries 8, 87, 92 and 102. -/
def Obligations.PreemptionDrainsSavesAndResumes : Prop :=
  (∀ (s : State) (n k : Nat) (d : Dispatch), s.arg = .core n → s.dispOf n = some (k, d) →
    let unit := d.cores.filter fun y => !y.retired && match coLevel d with
      | some i => decide (unitOf y.lvl i = unitOf (s.core n).lvl i)
      | none => decide (y.lvl = (s.core n).lvl)
    ((∃ y ∈ unit, y.started = false) →
      exec .preemptRequest s = .next (if d.partsPlaced then s else s.unplace k)) ∧
    ((∀ y ∈ unit, y.started = true) → ∃ t, exec .preemptRequest s = .next t ∧
      (∀ y ∈ unit, (t.core y.cur).drain ≠ .none) ∧
      (∀ y ∈ unit, s.dispOf y.cur = some (k, d) → (s.core y.cur).drain = .none →
        let e := (s.core y.cur).e
        let point := d.side.find? (·.index == e.pc.toNat)
        (e.run ≠ .running → (t.core y.cur).drain = .stopped none) ∧
        (e.run = .running → point = none → (t.core y.cur).drain = .draining 0 s.time.toNat) ∧
        (∀ p, e.run = .running → point = some p → (t.core y.cur).drain = .stopped (some p))) ∧
      (∀ y ∈ unit, ∀ p, (s.core y.cur).drain = .stopped p → (t.core y.cur).drain = .stopped p) ∧
      (∀ m, (t.core m).e = (s.core m).e ∧ (t.core m).l = (s.core m).l ∧ (t.core m).s = (s.core m).s) ∧
      (∀ m, (∀ y ∈ unit, y.cur ≠ m) → t.core m = s.core m) ∧ sameMemory s t)) ∧
  (∀ (s : State) (n : Nat), s.arg = .core n →
    (∀ i t, (s.core n).drain = .draining i t →
      (s.time.toNat < t + 23000 → exec .preemptWindow s = .next s) ∧
      (t + 23000 ≤ s.time.toNat →
        exec .preemptWindow s = .next (s.onCore n fun c => { c with drain := .stopped none }))) ∧
    ((∀ i t, (s.core n).drain ≠ .draining i t) → exec .preemptWindow s = .next s)) ∧
  (∀ (s : State) (n k : Nat) (d : Dispatch) (y : DCore) (point : Option SideEntry), s.arg = .core n →
    s.dispOf n = some (k, d) → leaveUnit d (s.core n).lvl = [y] → y.cur = n → d.share = none →
    (readyToSave s n = false → exec .preemptSave s = .next s) ∧
    (readyToSave s n = true → (s.core n).drain = .stopped point → ∃ t : State,
      exec .preemptSave s = .next t ∧ (t.core n).disp = none ∧ n ∉ t.floor.taken ∧
      ∃ i ∈ t.floor.images, i.disp = k ∧ i.rank = rankOf d n ∧ i.core.e.pc = (s.core n).e.pc ∧
        i.core.e.xvec = (s.core n).e.xvec ∧ i.core.q = (s.core n).q ∧
        (∀ m, i.core.e.rd m = if (match point with | some p => p.gmask.getLsbD m | none => true) then (s.core n).e.rd m
          else 0) ∧
        (∀ m, i.core.e.rdV m = if (match point with
            | some p => decide (p.vfirst ≤ m) && decide (m < p.vfirst + p.vcount)
            | none => true) then (s.core n).e.rdV m else 0))) ∧
  (∀ (s : State) (k : Nat) (d : Dispatch) (i : Image) (y : DCore), s.arg = .disp k → s.disp k = some d →
    (s.backImages k d = [] → exec .resumeDispatch s = .next s) ∧
    (s.backImages k d = [i] → imageReads s d i = false → exec .resumeDispatch s = .next (s.loseContext d.ctx 7)) ∧
    (s.backImages k d = [i] → imageReads s d i = true → ∀ im, readImages s d = .ok im → d.cores[i.rank]? = some y →
      i.arrivals = [] → ∃ t : State, exec .resumeDispatch s = .next t ∧
        (t.core y.cur).e = { i.core.e with run := unpauseRun s.time.toNat i.core.e.run, fences := [] } ∧
        (t.core y.cur).q = i.core.q ∧ (t.core y.cur).pool = i.core.pool ∧ (t.core y.cur).mx = i.core.mx ∧
        (t.core y.cur).stores = loadStores im ∧ i ∉ t.floor.images))

/-! ## The host -/

/-- R358, R359, R361: a command that may not start yet leaves the machine as it is; one that may start ends with status
0, or with a refusal code and no effect, once the reads that it lets perform first have performed (R222, R228, R277; log
entry 108); a command that names no live context is refused with 0x41, 0x4A or 0x4C. At its
end a command leaves its queue and its completion goes to the ring. The model's readings here: log entries 21 and 25. -/
def Obligations.CommandsStartInOrderAndComplete : Prop :=
  (∀ (s : State) (i : Instr) (op : Nat), (i, op) ∈ commandRows →
    (∀ v slot, s.arg = .cmd v slot → (∀ c, c.slot = slot → ¬s.ready v c op) → exec i s = .next s) ∧
    (∀ v c, s.ready v c op → i ≠ .launch →
      (i = .setattr ∨ i = .recycle ∨ i = .unmap → ∀ ls, rangeLeaves s v c = .ok ls → ls.any (s.readPends c.ctx) = false) →
      (i = .seqFree → ∀ x, s.windowAt c.ctx c.p0.toNat = some x →
        (s.leaves c.ctx x.base (x.base + 2 ^ 39)).any (s.readPends c.ctx) = false) →
      ∃ (t : State) (status : Nat) (value : Word),
      exec i s = .next (t.endCommand v c status value) ∧ (status ≠ 0 → t = s ∧ value = 0 ∧ 0x40 ≤ status))) ∧
  (∀ (s : State) (i : Instr) (op v : Nat) (c : Command), (i, op) ∈ contextRows → s.ready v c op →
    (s.ctxOf c.ctx = none → c.ctx ∉ (s.vf v).gone → exec i s = .next (s.endCommand v c 0x41 0)) ∧
    (s.ctxOf c.ctx = none → c.ctx ∈ (s.vf v).gone → exec i s = .next (s.endCommand v c 0x4A 0)) ∧
    (∀ x, s.ctxOf c.ctx = some x → x.vf ≠ v → exec i s = .next (s.endCommand v c 0x41 0)) ∧
    (∀ x, s.ctxOf c.ctx = some x → x.vf = v → x.lost = true → exec i s = .next (s.endCommand v c 0x4C 0))) ∧
  (∀ (s : State) (v : Nat) (c : Command) (status : Nat) (value : Word),
    let t := s.endCommand v c status value
    let r := (s.vf v).regs
    let record := leBytes 4 c.tag.toNat ++ [BitVec.ofNat 8 status] ++ leBytes 1 (s.vf v).cplPhase.toNat ++ leBytes 2 0 ++
      leBytes 8 value.toNat
    (t.vf v).commands = (s.vf v).commands.filter (fun x => x.slot ≠ c.slot) ∧
    ((s.vf v).heldCpl = [] → ringOn r.cplBase = true → ringFull r.cplBase r.cplTail r.cplHead = false →
      t.hostRead (ringBase r.cplBase + 16 * r.cplTail.toNat) 16 = record ∧
      (t.vf v).regs.cplTail.toNat = (r.cplTail.toNat + 1) % ringSize r.cplBase % 65536 ∧ (t.vf v).heldCpl = []) ∧
    (ringOn r.cplBase = false ∨ ringFull r.cplBase r.cplTail r.cplHead = true →
      (t.vf v).heldCpl = (s.vf v).heldCpl ++ [⟨c.tag, BitVec.ofNat 8 status, value⟩] ∧ t.hostMem = s.hostMem))

/-- R42, R129, R277, R326, R360, R362: CTX_CREATE makes a live context as its block says, its id the k-th of those that
no context has, with an arena whose pages are mapped, or finds no room; CTX_DESTROY removes all that a context holds;
MAP gives each page a frame and a leaf, or finds no room, and refuses a range that holds a valid leaf, and, by the
model's reading, one where a table stands in the place of a larger leaf (log entry 67); a LAUNCH queues a dispatch;
zeroing ends. R222, R228, R229, R277, R282, R360: UNMAP, SETATTR and RECYCLE refuse a bad range, an arena and a leaf
that lies partly inside; otherwise they act on every leaf of the range, once every read past translation that has its
bytes has performed. Once leaves are unmapped, an address that one of them mapped meets an invalid entry, the frame of
each is free, and every other leaf, frame and byte stands. REPLAY lets every pending access try again. The model's
readings here: log entries 4, 22, 25, 26, 66, 67, 68, 70, 87 and 108. -/
def Obligations.ContextAndRangeCommandsHaveTheirEffect : Prop :=
  ((∀ (s : State) (v : Nat) (c : Command), s.ready v c 0x01 →
    (∀ t x, createContext v c s = .ok (t, x) → exec .ctxCreate s = .next (t.endCommand v c 0 x)) ∧
    (∀ b x, b = s.hostRead c.p0.toNat 64 → blockContext s v b = .ok x →
      x.vf = v ∧ x.arena = fieldAt b 0 8 ∧ x.arena % 0x200000 = 0 ∧ x.hquota = fieldAt b 0x18 4 ∧
      x.dquota = fieldAt b 0x1C 4 ∧ x.cores = fieldAt b 0x20 4 ∧ x.cores ≤ (s.vf v).pf.cores.toNat ∧
      x.lh = (if fieldAt b 8 8 = 0 then x.arena else fieldAt b 8 8) ∧
      x.energy = (if fieldAt b 0x24 4 = 0 then 1000000 else fieldAt b 0x24 4) ∧
      x.gbwd = (if fieldAt b 0x28 4 = 0 then 100000 else fieldAt b 0x28 4) ∧
      x.xwd = (if fieldAt b 0x2C 4 = 0 then 10000 else fieldAt b 0x2C 4) ∧
      x.handles = [] ∧ x.lost = false ∧ x.saveArea = 0x40 + x.cores * (2304 * 1024) ∧
      (s.hbmShare v (x.arena + x.saveArea) = false → exec .ctxCreate s = .next (s.endCommand v c 0x43 0)) ∧
      (s.hbmShare v (x.arena + x.saveArea) = true →
        let id := s.newContextId
        let s0 := { s with draws := s.draws + 1 + s.domain.size }
        let s1 := (s0.takeReserved 4096).1
        let base := s.newArenaBase x.arena
        let y := { x with
          root := floorBase s + s.floor.reserved, arenaBase := base, awayArenas := s.newAwayArenas x.arena base
          saveBase := (s1.takeReserved (saveRoom x.cores)).2 }
        let s2 := ((s1.takeReserved (saveRoom x.cores)).1.onFloor fun f => { f with contexts := f.contexts.put id y }).onVf v fun f =>
          { f with gone := f.gone.filter (· ≠ id) }
        let mapped := mapPages id 21 1 true false (pickFrom (Config.freeStack s.draws % 8) 21) (x.arena / 0x200000)
          y.arenaBase s2
        (mapped = none → exec .ctxCreate s = .next (s.endCommand v c 0x43 0)) ∧
        (∀ t, mapped = some t → exec .ctxCreate s = .next (t.endCommand v c 0 (BitVec.ofNat 64 id)) ∧
          (∃ k, id = Tab.nthFree (0 :: s.floor.contexts.map (·.1)) k) ∧ t.ctxOf id = some y ∧
          y.arenaBase % 0x200000 = 0 ∧ y.arenaBase ≠ 0 ∧ y.arenaBase + x.arena ≤ 2 ^ 57 ∧
          (∀ a ∈ y.awayArenas, a.1 < s.domain.size ∧ a.1 ≠ s.domain.index ∧ a.2 % 0x200000 = 0 ∧ a.2 ≠ 0 ∧
            a.2 + x.arena ≤ 2 ^ 57) ∧
          ∃ ps : List Nat, ps.length = x.arena / 0x200000 ∧ ((s.floor.frames.map (·.1)).Pairwise (· < ·) → ps.Nodup) ∧
            ∀ p ∈ ps, t.floor.frames.find p = some ⟨21, 1, id, none, [], 0, false⟩)))) ∧
  (∀ (ids : List Nat) (k : Nat), ids.Pairwise (· < ·) → Tab.nthFree ids k ∉ ids) ∧
  (∀ (s : State) (v : Nat) (c : Command) (x : Context), s.ready v c 0x02 → s.ctxOf c.ctx = some x → x.vf = v →
    ∃ t : State, exec .ctxDestroy s = .next (t.endCommand v c 0 0) ∧ t.ctxOf c.ctx = none ∧
      (∀ k d, t.disp k = some d → d.ctx ≠ c.ctx) ∧ (∀ p f, (p, f) ∈ t.floor.frames → f.ctx ≠ c.ctx) ∧
      (∀ w ∈ t.floor.windows, w.ctx ≠ c.ctx) ∧ c.ctx ∈ (t.vf v).gone) ∧
  (∀ (s : State) (v : Nat) (c : Command) (x : Context), s.ready v c 0x03 → s.holds v c.ctx x →
    let p2 := c.p2.toNat
    let bits := if p2 % 4 = 0 then 12 else if p2 % 4 = 1 then 16 else if p2 % 4 = 2 then 21 else 30
    let va := c.p0.toNat
    let n := c.p1.toNat
    let good := va % 2 ^ bits = 0 ∧ 1 ≤ n ∧ n ≤ 2 ^ 20 ∧ va + n * 2 ^ bits ≤ 2 ^ 57
    let clear := x.touches va (va + n * 2 ^ bits) = false ∧ s.windowMeets c.ctx va (va + n * 2 ^ bits) = false ∧
      s.leaves c.ctx va (va + n * 2 ^ bits) = [] ∧
      ∀ i < n, s.entryTaken (va + i * 2 ^ bits) (leafLevel bits) 0 x.root = false
    let pick : State → Option Nat := if p2.testBit 8 then fun t => t.hbmFit (p2 / 32 % 8) bits
      else pickFrom (Config.freeStack s.draws % 8) bits
    let s0 := { s with draws := s.draws + 1 }
    let mapped := mapPages c.ctx bits (p2 / 4 % 4) (p2.testBit 4) (!p2.testBit 9) pick n va s0
    (¬good → exec .map s = .next (s.endCommand v c 0x40 0)) ∧
    (good → ¬clear → exec .map s = .next (s.endCommand v c 0x46 0)) ∧
    (good → clear → s.hbmShare v (n * 2 ^ bits) = false → exec .map s = .next (s.endCommand v c 0x43 0)) ∧
    (good → clear → s.hbmShare v (n * 2 ^ bits) = true →
      (mapped = none → exec .map s = .next (s.endCommand v c 0x43 0)) ∧
      (∀ t, mapped = some t → exec .map s = .next (t.endCommand v c 0 0) ∧ ∃ ps : List Nat, ps.length = n ∧
        ((s.floor.frames.map (·.1)).Pairwise (· < ·) → ps.Nodup) ∧ ∀ p ∈ ps,
          t.floor.frames.find p = some ⟨bits, BitVec.ofNat 2 (p2 / 4 % 4), c.ctx, none, [], 0, !p2.testBit 9⟩)) ∧
    (good → clear → s.hbmShare v (n * 2 ^ bits) = true → n = 1 → ∀ p, pick s0 = some p → ∃ t : State,
        exec .map s = .next (t.endCommand v c 0 0) ∧
        t.floor.frames.find p = some ⟨bits, BitVec.ofNat 2 (p2 / 4 % 4), c.ctx, none, [], 0, !p2.testBit 9⟩ ∧
        ∃ u : State, t = u.putLeaf c.ctx va bits p (p2.testBit 4) (p2 / 4 % 4) ∧
          ∀ i < 2 ^ bits, u.mem.get 0 (p + i) = 0)) ∧
  (∀ (s : State) (v : Nat) (c : Command) (x : Context), s.ready v c 0x07 → s.holds v c.ctx x →
    let mode := c.p2.toNat % 4
    (mode = 3 ∨ c.p0.toNat % 64 ≠ 0 → exec .launch s = .next (s.endCommand v c 0x40 0)) ∧
    (mode ≠ 3 → c.p0.toNat % 64 = 0 → s.tryRead c.ctx c.p0 256 = none →
      exec .launch s = .next (s.endCommand v c 0x40 0)) ∧
    (mode ≠ 3 → c.p0.toNat % 64 = 0 → ∀ b, s.tryRead c.ctx c.p0 256 = some b →
      (fieldAt b 0x78 4 ≠ c.ctx → exec .launch s = .next (s.endCommand v c 0x41 0)) ∧
      (fieldAt b 0x78 4 = c.ctx → ∃ (t : State) (d : Dispatch), exec .launch s = .next (t.addDispatch d) ∧
        (t.vf v).commands = (s.vf v).commands.map (fun y => if y.slot = c.slot then { y with submitted := true } else y) ∧
        t.floor = s.floor ∧ d.origin = .launch c.slot c.p0 c.p1 mode ∧ d.phase = .queued ∧ d.vf = v ∧ d.ctx = c.ctx ∧
        d.eimg = wordAt b 0 ∧ d.limg = wordAt b 8 ∧ d.simg = wordAt b 0x10 ∧ d.args = wordAt b 0x60 ∧
        d.cls = fieldAt b 0x7C 1 % 8 ∧ d.budget = fieldAt b 0x70 6 ∧ d.restartable = (fieldAt b 0x7D 1).testBit 0))) ∧
  (∀ (s : State) (p : Nat), s.arg = .frame p →
    exec .mapZeroingDone s = .next (s.onFrame p fun f => { f with zeroing := false }))) ∧
  ((∀ (s : State) (v : Nat) (c : Command) (x : Context) (i : Instr) (op : Nat), (i, op) ∈ rangeRows →
    s.ready v c op → s.holds v c.ctx x →
    let ls := s.leaves c.ctx c.p0.toNat c.hi
    (c.rangeGood = false → exec i s = .next (s.endCommand v c 0x40 0)) ∧
    (c.rangeGood = true → x.touches c.p0.toNat c.hi = true → exec i s = .next (s.endCommand v c 0x46 0)) ∧
    (c.rangeGood = true → x.touches c.p0.toNat c.hi = false →
      ((∃ l ∈ ls, l.va < c.p0.toNat ∨ c.hi < l.va + 2 ^ l.shift) → exec i s = .next (s.endCommand v c 0x40 0)) ∧
      ((∀ l ∈ ls, c.p0.toNat ≤ l.va ∧ l.va + 2 ^ l.shift ≤ c.hi) →
        (ls.any (s.readPends c.ctx) = true → exec i s = .next s) ∧
        (i = .unmap → ls.any (s.readPends c.ctx) = false →
          exec i s = .next ((ls.foldl (fun t l => t.unmapLeaf c.ctx l) s).endCommand v c 0 0)) ∧
        (i = .setattr → ls.any (s.readPends c.ctx) = false →
          let ct := BitVec.ofNat 2 (c.p2.toNat % 4)
          (ls.all (attrOk s c.ctx ct) = false → exec i s = .next (s.endCommand v c 0x48 0)) ∧
          (ls.all (attrOk s c.ctx ct) = true →
            exec i s = .next ((ls.foldl (fun t l => t.retype c.ctx ct l) s).endCommand v c 0 0))) ∧
        (i = .recycle → ls.any (s.readPends c.ctx) = false →
          (∀ l ∈ ls, ∀ f, s.leafFrame c.ctx l = some f →
            (f.ct ≠ 2 → exec i s = .next (s.endCommand v c 0x47 0))) ∧
          ((∀ l ∈ ls, ∃ f, s.leafFrame c.ctx l = some f ∧ f.ct = 2) →
            exec i s = .next ((ls.foldl (fun t l => t.onLeafFrame c.ctx l fun f =>
              { f with written := [], sgen := f.sgen + 1 }) s).endCommand v c 0 0)))))) ∧
  (∀ (s : State) (ctx : Nat) (ls : List Leaf), (∀ m ∈ s.floor.moves, m.ctx ≠ ctx) →
    let t := ls.foldl (fun t l => t.unmapLeaf ctx l) s
    let apart (a : Nat) : Prop := ∀ l ∈ ls, a + 8 ≤ l.entry ∨ l.entry + 8 ≤ a
    (∀ l ∈ ls, ∀ va pte sh lv, s.walk ctx va = .leaf l.entry pte sh lv → (∀ a ∈ s.tablesAbove ctx va, apart a) →
      (sh = 16 → lv = 4 → ∀ j < 16, s.tableBad (l.entry + 8 * j) 8 = false ∧
        (j ≠ 0 → natBit (s.physNat (l.entry + 8 * j) 8) 0 = false)) → t.walk ctx va = .bad 1 lv) ∧
    (∀ va a pte sh lv, s.walk ctx va = .leaf a pte sh lv → (∀ b ∈ a :: s.tablesAbove ctx va, apart b) →
      t.walk ctx va = .leaf a pte sh lv) ∧
    (∀ l ∈ ls, s.outOf ctx l.va = none → t.floor.frames.find (pteFrame l.pte) = none) ∧
    (∀ l ∈ ls, t.outOf ctx l.va = none) ∧
    (∀ p, (∀ l ∈ ls, pteFrame l.pte ≠ p) → t.floor.frames.find p = s.floor.frames.find p) ∧
    (∀ a, (∀ l ∈ ls, a < l.entry ∨ l.entry + 8 ≤ a) → t.mem.get 0 a = s.mem.get 0 a)) ∧
  (∀ (s : State) (ctx : Nat) (l : Leaf) (f : Frame) (ct : BitVec 2), s.leafFrame ctx l = some f →
    (f.ct = ct → s.retype ctx ct l = s) ∧
    (f.ct ≠ ct → s.outOf ctx l.va = none → (s.retype ctx ct l).leafFrame ctx l =
      some { f with ct := ct, owner := none, written := [] })) ∧
  (∀ (s : State) (ctx : Nat) (ct : BitVec 2) (l : Leaf) (f : Frame), s.leafFrame ctx l = some f →
    (f.ct ≠ 2 ∨ ct = 2 → attrOk s ctx ct l = true) ∧
    (f.ct = 2 → ct ≠ 2 → f.written ≠ [] → f.written.length < 2 ^ f.bits / 16 → attrOk s ctx ct l = false)) ∧
  (∀ (s : State) (v : Nat) (c : Command) (x : Context), s.ready v c 0x08 → c.p0.toNat % 2 = 0 → s.holds v c.ctx x →
    ∃ t : State, exec .replay s = .next (t.endCommand v c 0 0) ∧
      (∀ n, s.coreCtx n = c.ctx → n ∈ s.cores.map (·.1) →
        (∀ va b k, (s.core n).e.run = .waiting (.replay va) b k → (t.core n).e.run = .running) ∧
        (∀ va b k, (s.core n).l.run = .waiting (.replay va) b k → (t.core n).l.run = .running) ∧
        (∀ va b k, (s.core n).s.run = .waiting (.replay va) b k → (t.core n).s.run = .running) ∧
        (∀ y ∈ (t.core n).copy, y.stalled = false) ∧ (∀ y ∈ (t.core n).mx.queue, y.stalled = false)) ∧
      (∀ n, s.coreCtx n ≠ c.ctx → t.core n = s.core n)) ∧
  (∀ (s : State) (v : Nat) (c : Command), s.ready v c 0x08 → c.p0.toNat % 2 = 1 → ∃ t : State,
    exec .replay s = .next (t.endCommand v c 0 0) ∧
    t = ((s.floor.contexts.filter fun x => x.2.vf = v && !x.2.lost).map (·.1)).foldl State.replayContext s))

/-- R263, R271, R273, R290, R291, R294, R360, R363, R364, R365: a window is created once its range is unmapped, unless
something other than a table stands at its place in the root, and freed, a function's tiers are assigned, a parked
sequence is woken, the domain is joined, an attestation report is written, a default budget is set. R120, R222, R291,
R324, R352, R360, R363: each selector of QUERY writes its record, cut to the bytes that were asked for; the layouts of
selectors 2, 3, 5, 6, 7 and 8 are the model's (log entry 28). The model's readings here: log entries 7, 20 (the PF is
function 64, which DOMAIN_JOIN comes from), 25, 27, 28, 67 (a root entry that is valid and names no table refuses
SEQ_CREATE with 0x46, and one that names a table without leaves is taken over: the model's choice), 69 and 84. -/
def Obligations.OtherCommandsAndQueriesHaveTheirEffect : Prop :=
  ((∀ (s : State) (v : Nat) (c : Command) (x : Context), s.ready v c 0x09 → s.holds v c.ctx x →
    let base := c.p0.toNat
    let n := c.p2.toNat
    let good := base % 2 ^ 39 = 0 ∧ base + 2 ^ 39 ≤ 2 ^ 57 ∧ 1 ≤ n ∧ n ≤ 512 ∧
      ∀ g < n, policyOk (s.hostRead (c.p1.toNat + 16 * g) 16) = true
    let clear := x.touches base (base + 2 ^ 39) = false ∧ s.windowMeets c.ctx base (base + 2 ^ 39) = false ∧
      s.leaves c.ctx base (base + 2 ^ 39) = []
    (¬good → exec .seqCreate s = .next (s.endCommand v c 0x40 0)) ∧
    (good → ¬clear → exec .seqCreate s = .next (s.endCommand v c 0x46 0)) ∧
    (good → clear →
      let dir := floorBase s + s.floor.reserved
      let made := makeGroups dir 0 ((List.range n).map fun g => s.hostRead (c.p1.toNat + 16 * g) 16) (s.takeReserved 4096).1
      let e := made.physNat (x.root + 8 * (base / 2 ^ 48 % 512)) 8
      (e % 2 = 0 ∨ e / 2 % 4 = 0 → ∃ (t : State) (a : Nat), exec .seqCreate s = .next (t.endCommand v c 0 0) ∧
        t.floor.windows = s.floor.windows ++ [⟨c.ctx, base, n, dir⟩] ∧ t.windowAt c.ctx base = some ⟨c.ctx, base, n, dir⟩ ∧
        ∃ u : State, made.entryAt base 1 0 x.root = (u, some a) ∧ t.mem = (u.physPut a 8 (windowEntry dir)).mem) ∧
      (e % 2 = 1 → e / 2 % 4 ≠ 0 → exec .seqCreate s = .next (s.endCommand v c 0x46 0)))) ∧
  (∀ (s : State) (v : Nat) (c : Command) (x : Context), s.ready v c 0x0A → s.holds v c.ctx x →
    (s.windowAt c.ctx c.p0.toNat = none → exec .seqFree s = .next (s.endCommand v c 0x40 0)) ∧
    (∀ w, s.windowAt c.ctx c.p0.toNat = some w →
      let reads := (s.leaves c.ctx w.base (w.base + 2 ^ 39)).any (s.readPends c.ctx)
      (reads = true → exec .seqFree s = .next s) ∧
      (reads = false → ∃ t : State, exec .seqFree s = .next (t.endCommand v c 0 0) ∧
        t.windowAt c.ctx c.p0.toNat = none))) ∧
  (∀ (s : State) (v : Nat) (c : Command), s.ready v c 0x0B →
    let b := s.hostRead c.p2.toNat 32
    let good := 64 ≤ fieldAt b 0x16 2 ∧ fieldAt b 0x16 2 ≤ 4096
    (¬good → exec .parkPolicy s = .next (s.endCommand v c 0x40 0)) ∧
    (good → exec .parkPolicy s = .next (
      if Config.nvmeFormatOk b = false then s.endCommand v c 0x40 0
      else if s.anyParked v = true then s.endCommand v c 0x46 0
      else if (s.vf v).pf.cxl.toNat < c.p1.toNat then s.endCommand v c 0x43 0
      else (s.onVf v fun f => { f with
        cxlOff := c.p0.toNat, cxlBytes := c.p1.toNat, nvme := b, flashLbas := fieldAt b 0x18 8
        nvmeSq := [], nvmeTail := 0, nvmeHead := 0 }).endCommand v c 0 0))) ∧
  (∀ (s : State) (v : Nat) (c : Command) (x : Context), s.ready v c 0x0C → s.holds v c.ctx x →
    ((∀ e, (c.p0.toNat % 2 ^ 44, e) ∈ s.floor.dugout → ¬(e.state = .parked ∧ e.ctx = c.ctx ∧
        e.gen.toNat = c.p0.toNat / 2 ^ 44)) → exec .wakeCmd s = .next (s.endCommand v c 0 0)) ∧
    (∀ e, s.floor.dugout.find (c.p0.toNat % 2 ^ 44) = some e → e.state = .parked → e.ctx = c.ctx →
      e.gen.toNat = c.p0.toNat / 2 ^ 44 → exec .wakeCmd s = .next ((State.endStages (c.p0.toNat % 2 ^ 44) 512
        ((s.onDug (c.p0.toNat % 2 ^ 44) fun e => { e with state := .promoting 1, due := none }).promoteNext
          (c.p0.toNat % 2 ^ 44))).endCommand v c 0 0))) ∧
  (∀ (s : State) (v : Nat) (c : Command), s.ready v c 0x0D →
    (v ≠ 64 → exec .domainJoin s = .next (s.endCommand v c 0x49 0)) ∧
    (v = 64 → 1 ≤ c.p1.toNat → c.p1.toNat ≤ 256 → c.p0.toNat < c.p1.toNat → ∃ t : State,
      exec .domainJoin s = .next (t.endCommand v c 0 0) ∧ t.domain.joined = true ∧ t.domain.index = c.p0.toNat ∧
      t.domain.size = c.p1.toNat ∧ t = { s with domain := t.domain })) ∧
  (∀ (s : State) (v : Nat) (c : Command), s.ready v c 0x0E → ∃ (t : State) (sig : List Byte),
    exec .attest s = .next ((t.hostWrite c.p1.toNat
      (leBytes 4 1 ++ leBytes 4 v ++ leBytes 16 Config.serialNumber.toNat ++ leBytes 64 Config.romDigest.toNat ++
        leBytes 64 Config.fuseDigest.toNat ++ s.hostRead c.p0.toNat 32 ++ leBytes 1793 Config.identityKey ++
        List.replicate 7 0 ++ sig)).endCommand v c 0 0) ∧
      sig.length = 1280 ∧ t = { s with draws := t.draws }) ∧
  (∀ (s : State) (v : Nat) (c : Command) (x : Context), s.ready v c 0x0F → s.holds v c.ctx x →
    let good := 1 ≤ c.p0.toNat ∧ c.p0.toNat < 2 ^ 48
    (¬good → exec .setEnergy s = .next (s.endCommand v c 0x40 0)) ∧
    (good → exec .setEnergy s = .next ((s.onCtx c.ctx fun y => { y with energy := c.p0.toNat }).endCommand v c 0
      (BitVec.ofNat 64 x.energy))))) ∧
  (let words (l : List Nat) : List Byte := l.flatMap (leBytes 8)
  let row (s : State) (v : Nat) (c : Command) (sel : Nat) : Prop := s.ready v c 0x10 ∧ c.p0.toNat = sel
  (∀ (s : State) (v : Nat) (c : Command),
    (row s v c 1 → exec .queryCourtReports s = .next (s.answers v c ((List.range 4).flatMap fun k =>
      let r := (s.court k).report
      leBytes 32 r.free.toNat ++ leBytes 32 r.drain.toNat ++ [r.flags] ++ leBytes 1 r.rows ++ leBytes 2 r.tiles ++
        leBytes 4 r.pool ++ leBytes 8 0))) ∧
    (row s v c 3 → exec .queryErrorCounts s = .next (s.answers v c (words ((List.range 9).flatMap fun i =>
      let l := s.floor.errors.filter (fun e => e.unit.code == i + 1)
      [sumNat (l.map (·.corrected)), sumNat (l.map (·.uncorrected))])))) ∧
    (row s v c 7 → exec .queryNvmeRegion s = .next (s.answers v c
      (words [Config.nvmeRegion.1.toNat, Config.nvmeRegion.2.toNat])))) ∧
  (∀ (s : State) (v : Nat) (c : Command) (x : Context), s.ctxOf c.ctx = some x → x.vf = v →
    (row s v c 2 → ∃ (t : State) (counts : List Nat), t = { s with draws := t.draws } ∧
      exec .queryCounts s = .next (t.answers v c (words ([x.dmsgCount, x.dshareCount, x.faultCount] ++ counts))) ∧
      counts.length = s.domain.size ∧ (s.domain.index < s.domain.size → counts[s.domain.index]? = some x.tcount)) ∧
    (row s v c 4 → handleHome c.p3 = s.domain.index →
      (∀ h, x.handles.find (handleIndex c.p3) = some h → ∃ (t : State) (bs : List Byte), t = { s with draws := t.draws } ∧
        exec .queryHandleEntry s = .next (t.answers v c bs) ∧ bs.length = 64 ∧ bs.take 4 = leBytes 4 h.gen.toNat ∧
        fieldAt bs 4 1 = h.state.code % 256 ∧ fieldAt bs 6 2 = h.depth % 65536 ∧ fieldAt bs 8 4 = h.refs % 2 ^ 32) ∧
      (∀ g, x.handles.find (handleIndex c.p3) = none → x.hgens.find (handleIndex c.p3) = some g →
        exec .queryHandleEntry s = .next (s.answers v c (leBytes 4 g.toNat ++ List.replicate 60 0)))) ∧
    (row s v c 5 → ∀ l rest f, s.leaves c.ctx c.p3.toNat (c.p3.toNat + 1) = l :: rest → s.leafFrame c.ctx l = some f →
      exec .queryStreamGeneration s = .next (s.answers v c (leBytes 8 f.sgen.toNat))) ∧
    (row s v c 6 → ∀ e, s.floor.dugout.find (c.p3.toNat % 2 ^ 44) = some e → e.ctx = c.ctx →
      e.gen.toNat = c.p3.toNat / 2 ^ 44 → ∃ bs, exec .queryDugoutEntry s = .next (s.answers v c (words bs)) ∧
        bs.length = 12 ∧ bs.take 4 = [c.p3.toNat, e.state.number, e.ctx, e.win]) ∧
    (row s v c 8 → ∃ (t : State) (bases : List Nat), t = { s with draws := t.draws } ∧
      exec .queryArena s = .next (t.answers v c (words (bases.flatMap fun b => [b, x.arena]))) ∧
      bases.length = s.domain.size ∧ (s.domain.index < s.domain.size → bases[s.domain.index]? = some x.arenaBase) ∧
      (∀ i < s.domain.size, i ≠ s.domain.index →
        (∀ a, x.awayArenas.find? (·.1 == i) = some a → bases[i]? = some a.2) ∧
        (x.awayArenas.find? (·.1 == i) = none → ∃ k, bases[i]? = some (0x200000 * k))))))

/-- R280, R355, R356, R367, R368: what a write to each register of a function leaves; completions and fault records that
were held go to their rings while there is room; a VF is enabled with its keys read; the two resets; the clock under
the power budget. The model's readings here: log entries 53, 54, 55, 56 and 57. -/
def Obligations.RegistersResetsAndPower : Prop :=
  (∀ (s : State) (v : Nat) (x : Word), s.arg = .vfVal v x → s.vfLive v = true →
    let r := (s.vf v).regs
    exec .cmdtailWrite s = .next (s.onVf v fun f => { f with regs := { f.regs with cmdTail := x.setWidth 16 } }) ∧
    (∃ t : State, exec .cplheadWrite s = .next t ∧ (t.vf v).regs.cplHead = x.setWidth 16 ∧
      (∃ posted, (s.vf v).heldCpl = posted ++ (t.vf v).heldCpl) ∧
      ((t.vf v).heldCpl = [] ∨ ringOn r.cplBase = false ∨
        ringFull r.cplBase (t.vf v).regs.cplTail (x.setWidth 16) = true)) ∧
    (∃ t : State, exec .statWrite s = .next t ∧ (t.vf v).regs.stat.getLsbD 0 = r.stat.getLsbD 0 ∧
      (∀ i ∈ [1, 2], (t.vf v).regs.stat.getLsbD i = (r.stat.getLsbD i && !x.getLsbD i)) ∧
      t = s.onVf v fun f => { f with regs := { r with stat := (t.vf v).regs.stat } }) ∧
    (∃ t : State, exec .fltheadWrite s = .next t ∧ (t.vf v).regs.fltHead = x.setWidth 16 ∧
      ∃ posted, (s.vf v).faults = posted ++ (t.vf v).faults)) ∧
  (∀ (s : State) (v off : Nat) (x : Word), s.arg = .reg (.vf v) off x → s.vfLive v = true → (s.vf v).heldCpl = [] →
    let base := BitVec.ofNat 64 (x.toNat / 4096 * 4096 + x.toNat % 64)
    ∀ row ∈ ([(0x008, fun r => if ringOn r.cmdBase then r else { r with cmdBase := base }),
      (0x020, fun r => if ringOn r.cplBase then r else { r with cplBase := base }),
      (0x040, fun r => if ringOn r.fltBase then r else { r with fltBase := base }),
      (0x060, fun r => if ringOn r.evBase then r else { r with evBase := base }),
      (0x070, fun r => { r with evHead := x.setWidth 16 }), (0x080, fun r => { r with intMask := x.setWidth 4 }),
      (0x088, fun r => { r with winCtx := x.setWidth 32 }),
      (0x090, fun r => { r with winVa := BitVec.ofNat 64 (x.toNat % 2 ^ 57 / 2 ^ 30 * 2 ^ 30) }),
      (0x018, fun r => r), (0x028, fun r => r)] : List (Nat × (VfRegs → VfRegs))),
      off = row.1 → exec .registerWrite s = .next (s.onVf v fun f => { f with regs := row.2 f.regs })) ∧
  (∀ (s : State) (v off : Nat) (x : Word), v < 64 → off < 64 → s.arg = .reg .pf (0x1000 + 64 * v + off) x →
    ((s.vf v).enabled = true → exec .registerWrite s = .next s) ∧
    ((s.vf v).enabled = false → ∀ row ∈ ([(0x00, fun b => { b with hbm := x }), (0x08, fun b => { b with cxl := x }),
      (0x10, fun b => { b with cores := x.setWidth 16 }),
      (0x18, fun b => { b with sign := x.getLsbD 0, keys := BitVec.ofNat 4 (x.toNat / 256) }),
      (0x20, fun b => { b with keytab := x }), (0x28, fun b => b)] : List (Nat × (PfBlock → PfBlock))),
      off = row.1 → exec .registerWrite s = .next (s.onVf v fun f => { f with pf := row.2 f.pf }))) ∧
  (∀ (s : State) (v : Nat), s.arg = .vf v →
    (s.batchDue v = false → exec .faultBatchPost s = .next s) ∧
    (s.batchDue v = true → ∃ t : State, exec .faultBatchPost s = .next t ∧
      (∃ posted, (s.vf v).faults = posted ++ (t.vf v).faults) ∧
      ((t.vf v).faults = [] ∨ ringOn (s.vf v).regs.fltBase = false ∨
        ringFull (s.vf v).regs.fltBase (t.vf v).regs.fltTail (s.vf v).regs.fltHead = true)) ∧
    (s.batchDue v = true ↔ ∃ x t, (s.vf v).faults = x :: t ∧
      (64 ≤ (x :: t).length ∨ x.time.toNat + 4000 ≤ s.time.toNat)) ∧
    (v < 64 → ∃ t : State, exec .functionLevelReset s = .next t ∧
      (∀ c x, (c, x) ∈ s.floor.contexts → x.vf = v → t.ctxOf c = none) ∧ (t.vf v).commands = [] ∧
      let r := (t.vf v).regs
      r.cmdBase = 0 ∧ r.cmdTail = 0 ∧ r.cmdHead = 0 ∧ r.cplBase = 0 ∧ r.cplTail = 0 ∧ r.cplHead = 0 ∧ r.fltBase = 0 ∧
      r.fltTail = 0 ∧ r.fltHead = 0 ∧ r.evBase = 0 ∧ r.evTail = 0 ∧ r.evHead = 0 ∧ r.intMask = 0xF ∧ r.winCtx = 0 ∧
      r.winVa = 0)) ∧
  (∀ (s : State) (v : Nat) (on : Bool), s.arg = .enable v on → v < 64 → ∃ t : State, exec .vfEnable s = .next t ∧
    (t.vf v).enabled = on ∧ (t.vf v).regs.stat.getLsbD 0 = on ∧ (t.vf v).pf = (s.vf v).pf ∧
    (on = true → (t.vf v).keys = (List.range (min (s.vf v).pf.keys.toNat 8)).map fun i =>
      s.hostRead ((s.vf v).pf.keytab.toNat + 2048 * i) 1793) ∧
    ∀ u, u ≠ v → t.vf u = s.vf u) ∧
  (∀ s : State, exec .coldReset s = .next { State.reset with hostMem := s.hostMem, draws := s.draws }) ∧
  (∀ (s : State) (w : Nat), s.arg = .watts w →
    let l := (w :: s.power).take 100
    let mean := sumNat l
    (l.length < 100 → exec .powerSample s = .next { s with power := l }) ∧
    (l.length = 100 → 260000 < mean → exec .powerSample s = .next { s with power := l, clock := s.clock - 50 }) ∧
    (l.length = 100 → mean < 240000 → exec .powerSample s = .next { s with power := l, clock := 1300 }) ∧
    (l.length = 100 → 240000 ≤ mean → mean ≤ 260000 → exec .powerSample s = .next { s with power := l }))

/-- R226, R231, R232, R281, R357: an access of the host through its window, or of a peer, is performed page by page: a
part that is refused or would wait returns ones or is dropped, with an event of kind 6, or with a fault record where its
translation fails, and the parts performed stay; a part on a STREAM page that begins or ends inside a granule is
MISALIGNED; one that stalls for a moment waits, and an access behind it waits for
it. R338, R364: a flit with a bad CRC asks for replay from the last good number, and eight failures in a row retrain the
link, whose traffic moves to others; a good one in link sequence is taken: duplicates are discarded, one that comes
early waits, and each pair's flits are delivered in end-to-end order; a sender keeps its last 256 flits; a package that no
path has reached, by a link that is up and the paths past it, for 10 ms leaves the domain and every context is lost. The
model's readings here: log entries 29, 58, 59, 60, 61, 62, 85 and
93 (what an atomic of the bus writes). -/
def Obligations.BusAccessesAndLinks : Prop :=
  ((∀ (s : State) (v off : Nat) (a : BusAccess), s.arg = .host v off a → v < 64 → s.vfLive v = true → off < 2 ^ 36 →
    off % 64 + busSize a ≤ 64 →
    let ctx := (s.vf v).regs.winCtx.toNat
    let va := (s.vf v).regs.winVa.toNat + off
    (s.ctxOf ctx = none ∨ (∃ x, s.ctxOf ctx = some x ∧ x.vf ≠ v) →
      exec .hostAccess s = .next (s.busRefused v ctx va 0x42 0 a)) ∧
    (∀ x, s.ctxOf ctx = some x → x.vf = v → exec .hostAccess s = .next (busAccess false v v ctx va a s))) ∧
  (∀ (s : State) (pkg ctx va : Nat) (a : BusAccess), s.arg = .peer pkg ctx va a → pkg ∈ s.domain.live →
    pkg ≠ s.domain.index →
    (s.ctxOf ctx = none → exec .peerAccess s = .next (s.answer a (List.replicate (busSize a) 0xFF))) ∧
    (∀ x, s.ctxOf ctx = some x → exec .peerAccess s = .next (busAccess true pkg x.vf ctx va a s))) ∧
  (∀ (s : State) (peer : Bool) (src v ctx va : Nat) (a : BusAccess), 1 ≤ busSize a →
    let after (t : State) := { t.onFloor (fun f => { f with nextItem := f.nextItem + 1 }) with
      stalled := t.stalled ++ [⟨t.floor.nextItem, peer, src, ctx, va, a, []⟩] }
    let ones := List.replicate (busSize a) 0xFF
    ((∃ x ∈ s.stalled, x.peer = peer ∧ x.src = src) → busAccess peer src v ctx va a s = after s) ∧
    ((∀ x ∈ s.stalled, ¬(x.peer = peer ∧ x.src = src)) →
      (2 ^ 57 < va + busSize a →
        busAccess peer src v ctx va a s = (s.answer a ones).busEvent v ctx va 0x42 0x0B) ∧
      (va + busSize a ≤ 2 ^ 57 → busSize a ≤ toPageEnd s ctx va →
        (∀ bs t, busPerform ctx va a s = .ok (bs, t) → busAccess peer src v ctx va a s = t.answer a bs) ∧
        (∀ x, busPerform ctx va a s = .error (.wait (.page x)) → shortStall s ctx x.toNat = true → ∃ w : Who,
          w.strand = 7 ∧ busAccess peer src v ctx va a s = after (s.reportStall ctx x.toNat w)) ∧
        (∀ y, busPerform ctx va a s = .error (.wait y) → (∀ x, y = .page x → shortStall s ctx x.toNat = false) →
          busAccess peer src v ctx va a s = (s.busEvent v ctx va 0x4D 0).answer a ones) ∧
        (∀ f, busPerform ctx va a s = .error (.flt f) →
          (∀ t, f.tr = some t → busAccess peer src v ctx va a s = (s.produceFault ctx 0 t 3 true).answer a ones) ∧
          (f.tr = none → busAccess peer src v ctx va a s = (s.busEvent v ctx va 0x42 f.cause).answer a ones))))) ∧
  (∀ (s : State) (ctx va : Nat),
    (∀ n, busPerform ctx va (.read n) s = engineRead (viaHost ctx) (BitVec.ofNat 64 va) n .read s) ∧
    (∀ bs t, engineWrite (viaHost ctx) (BitVec.ofNat 64 va) bs s = .ok ((), t) →
      busPerform ctx va (.write bs) s = .ok ([], t)) ∧
    (∀ op x, busPerform ctx va (.atomic (.amo op) x) s =
      atomicAt (viaHost ctx) (BitVec.ofNat 64 va) x.length (busAmo op x) s)) ∧
  (∀ (s : State) (v ctx va fuel n : Nat) (x y got : List Byte),
    let k := toPageEnd s ctx va
    let ones := List.replicate k 0xFF
    (k < n →
      (∀ bs t, partRead (viaHost ctx) va k .read s = .ok (bs, t) →
        busParts v ctx (fuel + 1) va (.read n) got s = busParts v ctx fuel (va + k) (.read (n - k)) (got ++ bs) t) ∧
      (∀ f t, partRead (viaHost ctx) va k .read s = .error (.flt f) → f.tr = some t →
        busParts v ctx (fuel + 1) va (.read n) got s =
          busParts v ctx fuel (va + k) (.read (n - k)) (got ++ ones) (s.produceFault ctx 0 t 3 true))) ∧
    (x.length = k → y ≠ [] → ∀ u bs t, partCheck (viaHost ctx) va k .write s = .ok ((), u) →
      busPerform ctx va (.write x) u = .ok (bs, t) →
      ∃ got', busParts v ctx (fuel + 1) va (.write (x ++ y)) got s = busParts v ctx fuel (va + k) (.write y) got' t)) ∧
  (∀ (s u : State) (v : Via) (kind : Kind) (b p va n : Nat) (f : Frame), xlate v va kind s = .ok ((p, b, some f), u) →
    (va % 16 ≠ 0 ∨ n % 16 ≠ 0 → f.ct = 2 →
      partCheck v va n kind s = .error (.flt ⟨0x04, BitVec.ofNat 64 va, none⟩) ∧
      partRead v va n kind s = .error (.flt ⟨0x04, BitVec.ofNat 64 va, none⟩)) ∧
    (va % 16 = 0 → n % 16 = 0 → partRead v va n kind s = piecesRead v kind (granulePieces va n) s)) ∧
  (∀ (s : State) (v ctx va reason : Nat) (cause : Byte) (a : BusAccess) (bs : List Byte),
    (∀ n, a = .read n → s.answer a bs = { s with busData := bs }) ∧ (∀ w, a = .write w → s.answer a bs = s) ∧
    s.busRefused v ctx va reason cause a = (s.answer a (List.replicate (busSize a) 0xFF)).busEvent v ctx va reason cause ∧
    ∃ e : EventRec, s.busEvent v ctx va reason cause = s.postEvent v e ∧ e.kind = 6 ∧ e.ctx = ctx ∧
      e.cause = cause ∧ e.detail = leBytes 8 reason ++ leBytes 8 va)) ∧
  ((∀ (s : State) (n : Nat) (f : Flit), s.arg = .flit n f → n < 18 →
    let l := s.link n
    let bytes := [f.kind, f.flags] ++ leBytes 2 f.seq.toNat ++ leBytes 2 f.ack.toNat ++ leBytes 2 f.credits.toNat ++
      [f.dst, f.src] ++ leBytes 2 0 ++ leBytes 4 f.e2e.toNat ++ (f.payload ++ List.replicate 104 0).take 104
    let good := f.crc = crc64 bytes
    let src := f.src.toNat
    let next := s.domain.e2e.get 0 src
    (¬good → ∃ (t : State) (g : Flit), exec .flitReceive s = .next t ∧ t.link n = { l with
        failed := if l.replayAsked.isSome then l.failed + 1 else l.failed, replayAsked := some (l.nextSeq - 1), owed := 0 } ∧
      t.domain.sent = s.domain.sent ++ [(n, g)] ∧ g.kind = Config.replayKind ∧ g.ack = l.nextSeq - 1 ∧
      g.crc = crc64 (flitBytes g) ∧ t.domain.delivered = s.domain.delivered ∧
      (8 ≤ (t.link n).failed → t.agenda = .event .linkRetrain (.link n) :: s.agenda)) ∧
    (good → f.kind = Config.replayKind → ∃ (t : State) (more : List (Nat × Flit)), exec .flitReceive s = .next t ∧
      t.domain.delivered = s.domain.delivered ∧
      t.domain.sent = s.domain.sent ++ ((l.heed f).kept.map fun g => (n, g)) ++ more) ∧
    (good → f.kind ≠ Config.replayKind → f.seq ≠ l.nextSeq → exec .flitReceive s = .next s) ∧
    (good → f.kind ≠ Config.replayKind → f.seq = l.nextSeq → ∃ t : State, exec .flitReceive s = .next t ∧
      (t.link n).up = true ∧ (t.link n).nextSeq = f.seq + 1 ∧ (t.link n).failed = 0 ∧ (t.link n).replayAsked = none ∧
      (f.dst.toNat ≠ s.domain.index → t.domain.delivered = s.domain.delivered) ∧
      (f.dst.toNat = s.domain.index → next < 2 ^ 32 →
        ((f.e2e - BitVec.ofNat 32 next).toNat = 0 → (∀ g ∈ s.domain.ahead, g.src ≠ f.src) →
          t.domain.delivered = s.domain.delivered ++ [f] ∧ t.domain.e2e.get 0 src = (next + 1) % 2 ^ 32) ∧
        (2 ^ 31 ≤ (f.e2e - BitVec.ofNat 32 next).toNat ∨ (∃ g ∈ s.domain.ahead, g.src = f.src ∧ g.e2e = f.e2e) →
          t.domain.delivered = s.domain.delivered ∧ t.domain.ahead = s.domain.ahead) ∧
        (0 < (f.e2e - BitVec.ofNat 32 next).toNat → (f.e2e - BitVec.ofNat 32 next).toNat < 2 ^ 31 →
          (∀ g ∈ s.domain.ahead, g.src = f.src → g.e2e ≠ f.e2e) → (∀ g ∈ s.domain.ahead, g.src = f.src → g.e2e.toNat ≠ next) →
          t.domain.delivered = s.domain.delivered ∧ t.domain.ahead = s.domain.ahead ++ [f])))) ∧
  (∀ (s : State) (f : Flit) (n : Nat), s.outLink f.dst.toNat = some n →
    let l := s.link n
    let g := l.stamp f
    let t := s.sendFlit f
    g.seq = l.sendSeq ∧ g.ack = l.nextSeq - 1 ∧ g.e2e = f.e2e ∧ g.payload = f.payload ∧ g.crc = crc64 (flitBytes g) ∧
    t.domain.sent = s.domain.sent ++ [(n, g)] ∧ (t.link n).sendSeq = l.sendSeq + 1 ∧
    (t.link n).kept = (l.kept ++ [g]).drop (l.kept.length + 1 - 256) ∧
    (s.domain.routes.getD f.dst.toNat 0).getLsbD n = true ∧ l.up = true) ∧
  (∀ (s : State) (n : Nat), s.arg = .link n → n < 18 → ∃ t : State, exec .linkRetrain s = .next t ∧
    t.link n = { s.link n with up := false, failed := 0, replayAsked := none, kept := [], spent := 0 } ∧
    t.domain.delivered = s.domain.delivered ∧ ∀ m, m ≠ n → (t.link m).up = (s.link m).up ∧
      (t.link m).nextSeq = (s.link m).nextSeq) ∧
  (∀ (s : State) (p : Nat), s.arg = .pkg p →
    let due := ∃ since, (p, since) ∈ s.domain.unreached ∧ since + 10000000 ≤ s.time.toNat
    (p = s.domain.index ∨ p ∉ s.domain.live ∨ ¬due → exec .packageLost s = .next s) ∧
    (p ≠ s.domain.index → p ∈ s.domain.live → due → ∃ t : State, exec .packageLost s = .next t ∧
      t.domain.live = s.domain.live.filter (· ≠ p) ∧ (∀ c x, t.ctxOf c = some x → x.lost = true) ∧
      ∀ k d, t.disp k = some d → ∀ x, s.ctxOf d.ctx = some x → x.lost = true)) ∧
  (let noted (s t : State) : Prop := ∀ q ∈ s.domain.live, q ≠ s.domain.index →
    let path := q ∉ t.domain.cut ∧ ∃ n < 18, (s.domain.routes.getD q 0).getLsbD n = true ∧ (t.link n).up = true
    (path → ∀ x ∈ t.domain.unreached, x.1 ≠ q) ∧
    (¬path → ∃ x ∈ t.domain.unreached, x.1 = q ∧
      ((∀ y ∈ s.domain.unreached, y.1 ≠ q) → x.2 = s.time.toNat) ∧
      (∀ y, s.domain.unreached.find? (·.1 == q) = some y → x.2 = y.2))
  (∀ (s : State) (p : Nat) (up : Bool), s.arg = .path p up → ∃ t : State, exec .packageLost s = .next t ∧
    t.domain.live = s.domain.live ∧ noted s t ∧
    ∀ q, q ∈ t.domain.cut ↔ (q = p ∧ up = false) ∨ (q ≠ p ∧ q ∈ s.domain.cut)) ∧
  (∀ (s : State) (n : Nat), s.arg = .link n → n < 18 → ∃ t : State, exec .linkRetrain s = .next t ∧
    t.domain.cut = s.domain.cut ∧ noted s t)))

/-- R346 to R348, R351, R352: a corrected error is counted and changes nothing else, and more than 64 in one second of a
structure of one core or stack are reported once; an uncorrectable error is counted and reported, marks its unit, or
loses the contexts that it touches. R323, R349: hardware that is withdrawn is placed on no more; a gang that streams at
a core aborts, and any other dispatch takes POISON with the core's position at the core's E; a row disables its die;
each dispatch that ran on a disabled die is disposed of, and in a plain launch the other core, a saved one too, takes
EXCHANGE_TIMEOUT with the position of the first lost core, or the launch ends with it. The model's readings here: log
entries 63, 64, 65 and 98 (that the store and registers of an umpire post no event of kind 4 is the model's choice). -/
def Obligations.ErrorsAreMarkedAndHardwareWithdrawn : Prop :=
  ((∀ (s : State) (u : ErrUnit), s.arg = .unit u →
    let x := s.errCount u
    let one := (1 ≤ u.code ∧ u.code ≤ 5 ∧ u.inst < 1024) ∨ (u.code = 7 ∧ u.inst < 8)
    (∃ t : State, exec .correctedError s = .next t ∧ (t.errCount u).corrected = x.corrected + 1 ∧
      (t.errCount u).uncorrected = x.uncorrected ∧ (∀ w, w ≠ u → t.errCount w = s.errCount w) ∧
      t = { s with agenda := t.agenda, floor := { s.floor with errors := t.floor.errors } } ∧
      (one ∧ (t.errCount u).loud s.time.toNat = true →
        t.agenda = .event .correctedErrorThreshold (.unit u) :: s.agenda) ∧
      (¬(one ∧ (t.errCount u).loud s.time.toNat = true) → t.agenda = s.agenda)) ∧
    (¬(one ∧ x.loud s.time.toNat = true) → exec .correctedErrorThreshold s = .next s) ∧
    (one ∧ x.loud s.time.toNat = true → ∃ e : EventRec, e.kind = 4 ∧
      e.detail = leBytes 8 u.code ++ leBytes 8 x.corrected ∧
      e.place = (if u.code = 7 then 65536 * s.domain.index else posWord s u.inst) ∧
      exec .correctedErrorThreshold s =
        .next ((s.putErr { x with lastPost := some s.time.toNat }).partEvent e))) ∧
  (∀ s : State, exec .scrubPass s = .next s) ∧
  (∀ (s : State) (n : Nat), n < 1024 →
    let ctxs := match s.dispOf n with
      | some (_, d) => [d.ctx]
      | none => []
    let marked (code place : Nat) (f : PoisonMarks → PoisonMarks) := Host.Outcome.next ((s.onCore n fun c =>
      { c with poison := f c.poison }).reportError ⟨code, n⟩ ctxs place)
    let granule (sp : Space) (g : Nat) (m : PoisonMarks) : PoisonMarks := { m with granules := addMark (sp, g) m.granules }
    (∀ k off, s.arg = .site (.pool n k true off) →
      exec .uncorrectableError s = marked 1 (0xF000000000000000 + off) (granule .scratch (off / 16))) ∧
    (∀ off, s.arg = .site (.pool n .e false off) →
      exec .uncorrectableError s = marked 1 (0xF200000000000000 + off) (granule .stackE (off / 16))) ∧
    (∀ off, s.arg = .site (.pool n .l false off) →
      exec .uncorrectableError s = marked 1 (0xF200000000000000 + off) (granule .stackL (off / 16))) ∧
    (∀ off, s.arg = .site (.pool n .s false off) →
      exec .uncorrectableError s = marked 1 (0xF200000000000000 + off) (granule .stackS (off / 16))) ∧
    (∀ off, s.arg = .site (.canvas n off) →
      exec .uncorrectableError s = marked 2 (off / 16) (granule .canvas (off / 16))) ∧
    (∀ r, s.arg = .site (.vreg n r) → exec .uncorrectableError s = marked 1 r (granule .vregs r)) ∧
    (∀ r, s.arg = .site (.eReg n r) →
      exec .uncorrectableError s = marked 4 r fun m => { m with eRegs := addMark r m.eRegs }) ∧
    (∀ r, s.arg = .site (.eCsr n r) →
      exec .uncorrectableError s = marked 4 (0x1000 + r) fun m => { m with eRegs := addMark (0x1000 + r) m.eRegs }) ∧
    (∀ k r, s.arg = .site (.rvReg n k r) →
      exec .uncorrectableError s = marked 4 r fun m => { m with rvRegs := addMark (k, r) m.rvRegs }) ∧
    (∀ k i, s.arg = .site (.store n k i) →
      exec .uncorrectableError s =
        marked 3 (if k = .e then i else 4 * i) fun m => { m with words := addMark (k, i) m.words }) ∧
    (∀ place, s.arg = .site (.heldTransfer n place) → place < (s.core n).held.length → ∃ t : State,
      exec .uncorrectableError s = .next t ∧ ((t.core n).held[place]?).map (·.bad) = some true)) ∧
  (∀ (s : State) (c i : Nat), c < 4 →
    (s.arg = .site (.umpireStore c i) → ∃ t : State, exec .uncorrectableError s = .next t ∧
      i / 4 ∈ (t.court c).umpire.badWords) ∧
    (s.arg = .site (.umpireReg c i) → ∃ t : State, exec .uncorrectableError s = .next t ∧
      i ∈ (t.court c).umpire.badRegs)) ∧
  (∀ (s : State) (p : Nat), s.arg = .site (.line p) → p / 2 ^ 42 % 4 ≠ 1 → ∃ t : State,
    exec .uncorrectableError s = .next t ∧ p / 64 ∈ t.floor.lines ∧ t.mem = s.mem) ∧
  (∀ (s : State) (p : Nat), s.arg = .site (.pageTable p) → ∃ t : State,
    exec .uncorrectableError s = .next t ∧ p ∈ t.floor.ptes ∧ t.mem = s.mem) ∧
  (∀ (s : State) (c i : Nat) (x : Context), s.arg = .site (.floorTable c i) → s.ctxOf c = some x → ∃ t : State,
    exec .uncorrectableError s = .next t ∧ (∀ y, t.ctxOf c = some y → y.lost = true ∧ y.handles = []) ∧
    (∀ k d, t.disp k = some d → d.ctx ≠ c) ∧ (∀ k e, (k, e) ∈ t.floor.dugout → e.ctx ≠ c)) ∧
  (∀ (s : State) (u : ErrUnit) (ctxs : List Nat) (place : Nat),
    ((s.reportError u ctxs place).errCount u).uncorrected = (s.errCount u).uncorrected + 1)) ∧
  ((∀ (s : State) (n : Nat), s.arg = .hardware (.core n) → ∃ t : State,
    exec .hardwareWithdrawn s = .next (if gangAt s n = [] then poisonCore t n else gangAbort t (gangAt s n)) ∧
    n ∈ t.floor.withdrawnCores ∧
    (∀ m ∈ s.floor.withdrawnCores, m ∈ t.floor.withdrawnCores) ∧ t.cores = s.cores ∧
    t.floor.dispatches = s.floor.dispatches) ∧
  (∀ (s : State) (n : Nat),
    (s.dispOf n = none → poisonCore s n = s) ∧
    (∀ k d, s.dispOf n = some (k, d) →
      let info := (s.core n).pos.setWidth 64
      ((s.core n).e.run = .stopped → d.liveTask = false →
        poisonCore s n = s.failInfo k (whoStrand s n .e) 0x15 info) ∧
      ((s.core n).e.run = .stopped → d.liveTask = true →
        poisonCore s n = s.abortTask k (whoStrand s n .e) 0x15 info false) ∧
      ((s.core n).e.run ≠ .stopped → poisonCore s n = s.raiseE n ⟨0x15, info, none⟩))) ∧
  (∀ (s : State) (c r : Nat), s.arg = .hardware (.row c r) → ∃ t u : State, exec .hardwareWithdrawn s = .next u ∧
    u = disableDie ((gangsOf s ((List.range 16).map fun i => 256 * c + 16 * r + i)).foldl gangAbort t) c ∧
    t.cores = s.cores ∧ t.floor.dispatches = s.floor.dispatches ∧
    (∀ i < 16, 256 * c + 16 * r + i ∈ u.floor.withdrawnCores) ∧ c ∈ u.floor.withdrawnDies) ∧
  (∀ (s : State) (c : Nat), s.arg = .hardware (.die c) → ∃ t u : State, exec .hardwareWithdrawn s = .next u ∧
    u = (((s.cores.filter fun x => x.1 / 256 = c).filterMap (·.2.disp)).eraseDups).foldl (dieFault c) t ∧
    c ∈ u.floor.withdrawnDies ∧ c ∈ t.floor.withdrawnDies ∧ t.cores = s.cores ∧
    t.floor.dispatches = s.floor.dispatches) ∧
  (∀ (s : State) (c k n : Nat) (d : Dispatch) (rest : List Nat), s.disp k = some d →
    let ns := (s.cores.filter fun x => x.2.disp = some k).map (·.1)
    let others := (ns.filter fun m => m / 256 ≠ c) ++ awayCores s k d
    let info := (s.core n).pos.setWidth 64
    let stopped := (n :: rest).foldl (stopLost k) s
    (ns.filter fun m => m / 256 = c) = n :: rest → d.liveTask = false → d.stalls = false →
    (others = [] → dieFault c s k = stopped.failInfo k (whoEngine s n) 0x12 info) ∧
    (∀ m, others = [m] → dieFault c s k = stopped.exchangeFault k m info)) ∧
  (∀ (s : State) (n : Nat), n ∈ s.floor.withdrawnCores ∨ n / 256 ∈ s.floor.withdrawnDies → s.works n = false))

/-! ## Decoding and steps -/

/-- R14, R31, R32, R33, R192, R193: decoding the encoding of a well-formed instruction gives it back with every operand;
every 96-bit word decodes to a well-formed instruction whose encoding is that word. The model's readings here: log
entry 1. -/
def Obligations.DecodingInvertsEncoding : Prop :=
  (∀ (i : Instr) (isa : Isa) (bytes : List Byte), i.wf = true → encode i = some (isa, bytes) →
    decodeBytes isa bytes = .ok (i, [])) ∧
  (∀ w : NWord, (decodeNorom w).wf = true ∧ encode (decodeNorom w) = some (.norom, leBytes 12 w.toNat))

/-- R14 to R17, R31 to R33, R193, R306: words that the manual prints decode to the instructions printed beside them; a
hint and an unassigned word decode as such; the bytes of a word stand lowest first. -/
def Obligations.PrintedWordsDecodeToTheirInstruction : Prop :=
  let w (m : BitVec 6) (d a b : BitVec 16) : Norom := ⟨m, d, a, b, 0, 0⟩
  decodeNorom 0x90000002B001F00000000000 = .susp (w 0 0x002B 0x001F 0) ∧
  decodeNorom 0x500C00013000B4004D500000 = .ldhu ⟨0, 0x0013, 0x000B, 0x4004, 0xD5, 0⟩ ∧
  decodeNorom 0x10040FFFD001700000000000 = .bne (w 0 0xFFFD 0x0017 0) ∧
  decodeNorom 0x0D00000059ABCDEF00000000 = .li (w 0 0x0005 0x9ABC 0xDEF0) ∧
  decodeNorom 0x150000000400700000000000 = .trap (w 0 0 0x4007 0) ∧
  decodeNorom 0x200092002200020010000000 = .vadd (w 0x09 0x2002 0x2000 0x2001) ∧
  decodeNorom 0x2A30B2005200440040000000 = .vcvt 0x0C (w 0x0B 0x2005 0x2004 0x4004) ∧
  decodeNorom 0x510814001000F40000000000 = .stw (w 0x01 0x4001 0x000F 0x4000) ∧
  decodeNorom 0x540040006000840010000000 = .aadd (w 0x04 0x0006 0x0008 0x4001) ∧
  decodeNorom 0x8300A8000000D40800000000 = .mstr (w 0x0A 0x8000 0x000D 0x4080) ∧
  decodeNorom 0xA10000000001D00000000000 = .attn (w 0 0 0x001D 0) ∧
  decodeNorom 0xB00012006000000000000000 = .msgRecv (w 1 0x2006 0 0) ∧
  decodeNorom 0x6304000008000000B0000000 = .gbwait (w 0 0 0x8000 0x000B) ∧
  (∀ w : Norom, decodeNorom (noromWord 0xF0 5 w) = .hintWord 0xF0 5 w ∧
    decodeNorom (noromWord 0x00 1 w) = .illegalOpcodeWord 0x00 1 w) ∧
  decodeRvParcel 0x0203000B = .lqGpush 0 6 0 ∧ decodeRvParcel 0x0005A60B = .gqPop 0 11 12 ∧
  decodeRvParcel 0x0318288B = .rtClaim 17 16 17 ∧ decodeRvParcel 0x00B5100B = .cpIssue 11 10 0 ∧
  decodeBytes .norom [0x00, 0x00, 0x00, 0x00, 0x00, 0xF0, 0x01, 0xB0, 0x02, 0x00, 0x00, 0x90] =
    .ok (.susp (w 0 0x002B 0x001F 0), [])

/-- R19, R28, R187, R206, R306: the next turn of a strand that runs is the instruction that the bits at its pc decode
to, performed in a state where that strand acts; the turn of an event is its own instruction; with no turn left a round
begins. After a turn the faults that come too late for a dispatch are counted, and nothing else changes. What may come
before an instruction is excluded by the premises: a deferred fault, a save, a poisoned word. The model's readings here:
log entries 5 and 71. -/
def Obligations.StepRunsTheDecodedInstruction : Prop :=
  (∀ (s : State) (n : Nat) (rest : List Turn), s.agenda = .agent (.strand n .e) :: rest → n < 1024 →
    let c := s.core n
    c.e.run = .running → c.drain = .none → c.e.deferred = [] → c.e.sincePoint < 65536 → c.poison.words = [] →
    step s = ({ s with agenda := rest }).afterTurn
      (exec (if c.e.pc.toNat < c.stores.ilim then decodeNorom (c.stores.e.get 0 c.e.pc.toNat)
        else .straightLineFetchLimit) { s with agenda := rest, cur := .strand n .e, arg := .none })) ∧
  (∀ (s : State) (a : Agent) (rest : List Turn) (h : RvStrand) (store : Tab Byte) (len : Nat),
    s.agenda = .agent a :: rest →
    ((∃ n, n < 1024 ∧ a = .strand n .l ∧ h = (s.core n).l ∧ store = (s.core n).stores.l ∧ len = (s.core n).stores.llen ∧
        (s.core n).drain = .none ∧ (s.core n).poison.words = []) ∨
      (∃ n, n < 1024 ∧ a = .strand n .s ∧ h = (s.core n).s ∧ store = (s.core n).stores.s ∧ len = (s.core n).stores.slen ∧
        (s.core n).drain = .none ∧ (s.core n).poison.words = []) ∨
      (∃ c, c < 4 ∧ a = .umpire c ∧ (s.court c).umpire.mode = .image ∧ h = (s.court c).umpire.hart ∧
        store = (s.court c).umpire.store ∧ len = (s.court c).umpire.ilen ∧ (s.court c).umpire.badWords = [])) →
    h.run = .running →
    let byte (i : Nat) : Nat := (store.get 0 (h.pc.toNat + i)).toNat
    let w := byte 0 + 256 * byte 1 + 65536 * byte 2 + 16777216 * byte 3
    let turn (i : Instr) := ({ s with agenda := rest }).afterTurn (exec i { s with agenda := rest, cur := a, arg := .none })
    (w % 4 = 3 → h.pc.toNat + 4 ≤ len → step s = turn (decodeRv (BitVec.ofNat 32 w))) ∧
    (w % 4 ≠ 3 → h.pc.toNat < len → step s = turn (decodeRvc (BitVec.ofNat 16 w))) ∧
    (len ≤ h.pc.toNat ∨ (w % 4 = 3 ∧ len < h.pc.toNat + 4) →
      step s = turn (.rv64IntegerInstruction .four .outOfImage))) ∧
  (∀ (s : State) (i : Instr) (arg : EvArg) (rest : List Turn), s.agenda = .event i arg :: rest →
    step s = ({ s with agenda := rest }).afterTurn (exec i { s with agenda := rest, cur := .floor, arg := arg })) ∧
  (∀ s : State, s.agenda = [] → step s = .next s.round) ∧
  (∀ (s u : State) (f : Fault) (r : Refusal),
    ((∀ k ∈ u.ended, k ∈ s.ended) → s.afterTurn (.next u) = .next u) ∧
    (∃ v : State, s.afterTurn (.next u) = .next v ∧ v = { u with floor := { u.floor with contexts := v.floor.contexts } } ∧
      ∀ c, (v.ctxOf c).map (fun x => { x with faultCount := 0 }) = (u.ctxOf c).map (fun x => { x with faultCount := 0 })) ∧
    s.afterTurn (.fault f) = .fault f ∧ s.afterTurn (.refused r) = .refused r)

/-- Every step that answers a next state keeps both memories in canonical form: addresses strictly rise, and no listed
byte is zero. The model's readings here: log entry 17. -/
def Obligations.EveryStepKeepsMemoryCanonical : Prop :=
  ∀ s t : State, s.canonical = true → step s = .next t → t.canonical = true

/-- R355, R356, R367: after reset the memories are canonical and list nothing, no core holds a dispatch, every register
of every function is zero but INTMASK, which is 0xF, no virtual function is enabled and the package waits for
DOMAIN_JOIN. The model's readings here: log entry 17. -/
def Obligations.ResetIsAsTheManualGivesIt : Prop :=
  State.reset.canonical = true ∧ (∀ a, State.reset.mem.get 0 a = 0) ∧ (∀ n, (State.reset.core n).disp = none) ∧
  State.reset.domain.joined = false ∧ State.reset.floor.contexts = [] ∧ State.reset.floor.dispatches = [] ∧
  ∀ v, (State.reset.vf v).enabled = false ∧ (State.reset.vf v).commands = [] ∧
    let r := (State.reset.vf v).regs
    let p := (State.reset.vf v).pf
    r.stat = 0 ∧ r.cmdBase = 0 ∧ r.cmdTail = 0 ∧ r.cmdHead = 0 ∧ r.cplBase = 0 ∧ r.cplTail = 0 ∧ r.cplHead = 0 ∧
    r.fltBase = 0 ∧ r.fltTail = 0 ∧ r.fltHead = 0 ∧ r.evBase = 0 ∧ r.evTail = 0 ∧ r.evHead = 0 ∧ r.intMask = 0xF ∧
    r.winCtx = 0 ∧ r.winVa = 0 ∧ p.hbm = 0 ∧ p.cxl = 0 ∧ p.cores = 0 ∧ p.sign = false ∧ p.keys = 0 ∧ p.keytab = 0
end

