-- ==== Sys2Proof/Laws/Run.lean ====
section
/-!
SUPPORT. How a step in the making runs: one lemma per way of building one (Basic.lean's M).
-/
namespace Sys2Proof.Machine

open Sys2Proof

theorem run_pure {α : Type} (a : α) (s : State) : (pure a : M α) s = .ok (a, s) := rfl

/-- A sequence runs its first part; a stop ends it. -/
theorem run_bind {α β : Type} (m : M α) (f : α → M β) (s : State) :
    (m >>= f) s = match m s with
      | .ok (a, t) => f a t
      | .error x => .error x := by
  show (StateT.bind m f) s = _
  unfold StateT.bind
  cases m s <;> rfl

theorem run_bind_ok {α β : Type} {m : M α} {f : α → M β} {s t : State} {a : α} (h : m s = .ok (a, t)) :
    (m >>= f) s = f a t := by
  rw [run_bind, h]

theorem run_bind_error {α β : Type} {m : M α} {f : α → M β} {s : State} {x : Stop} (h : m s = .error x) :
    (m >>= f) s = .error x := by
  rw [run_bind, h]

theorem run_map {α β : Type} (f : α → β) (m : M α) (s : State) :
    (f <$> m) s = match m s with
      | .ok (a, t) => .ok (f a, t)
      | .error x => .error x := by
  show (StateT.map f m) s = _
  unfold StateT.map
  cases m s <;> rfl

/-- What a sequence that ends has done. -/
theorem bind_ok {α β : Type} {m : M α} {f : α → M β} {s u : State} {b : β} (h : (m >>= f) s = .ok (b, u)) :
    ∃ a t, m s = .ok (a, t) ∧ f a t = .ok (b, u) := by
  rw [run_bind] at h
  split at h
  · exact ⟨_, _, ‹_›, h⟩
  · cases h

theorem run_gets {α : Type} (f : State → α) (s : State) : gets f s = .ok (f s, s) := rfl

theorem run_change (f : State → State) (s : State) : change f s = .ok ((), f s) := rfl

theorem run_check_true (c : Byte) (i : Word) (s : State) : check true c i s = .ok ((), s) := rfl

theorem run_check_false (c : Byte) (i : Word) (s : State) : check false c i s = .error (.flt ⟨c, i, none⟩) := rfl

theorem run_await_true (w : Wait) (s : State) : await true w s = .ok ((), s) := rfl

theorem run_await_false (w : Wait) (s : State) : await false w s = .error (.wait w) := rfl

theorem run_fault {α : Type} (c : Byte) (i : Word) (s : State) : (fault c i : M α) s = .error (.flt ⟨c, i, none⟩) :=
  rfl

theorem outcome_ok {m : M Unit} {s t : State} (h : m s = .ok ((), t)) : outcome m s = .next t := by
  simp [outcome, h]

theorem outcome_flt {m : M Unit} {s : State} {f : Flt} (h : m s = .error (.flt f)) :
    outcome m s = .next (s.raise f) := by
  simp [outcome, h]

theorem outcome_wait {m : M Unit} {s : State} {w : Wait} (h : m s = .error (.wait w)) :
    outcome m s = .next (s.enterWait w) := by
  simp [outcome, h]

/-- Every outcome of a strand's instruction is a next state. -/
theorem outcome_next (m : M Unit) (s : State) : ∃ t, outcome m s = .next t := by
  unfold outcome
  split <;> exact ⟨_, rfl⟩

theorem orKeep_ok {m : M Unit} {s t : State} (h : m s = .ok ((), t)) : orKeep m s = t := by
  simp [orKeep, h]

end Sys2Proof.Machine
end

