-- ==== Sys2Proof/Laws/State.lean ====
section
/-!
SUPPORT. What each update of State does to each of its fields, so that no proof unfolds a record update.
-/
namespace Sys2Proof.Machine

open Sys2Proof

/-! ## setCore -/

@[simp] theorem time_setCore (s : State) (n : Nat) (c : Core) :
    (s.setCore n c).time = s.time := rfl
@[simp] theorem clock_setCore (s : State) (n : Nat) (c : Core) :
    (s.setCore n c).clock = s.clock := rfl
@[simp] theorem power_setCore (s : State) (n : Nat) (c : Core) :
    (s.setCore n c).power = s.power := rfl
@[simp] theorem mem_setCore (s : State) (n : Nat) (c : Core) :
    (s.setCore n c).mem = s.mem := rfl
@[simp] theorem hostMem_setCore (s : State) (n : Nat) (c : Core) :
    (s.setCore n c).hostMem = s.hostMem := rfl
@[simp] theorem cores_setCore (s : State) (n : Nat) (c : Core) :
    (s.setCore n c).cores = s.cores.put n c := rfl
@[simp] theorem courts_setCore (s : State) (n : Nat) (c : Core) :
    (s.setCore n c).courts = s.courts := rfl
@[simp] theorem floor_setCore (s : State) (n : Nat) (c : Core) :
    (s.setCore n c).floor = s.floor := rfl
@[simp] theorem domain_setCore (s : State) (n : Nat) (c : Core) :
    (s.setCore n c).domain = s.domain := rfl
@[simp] theorem vfs_setCore (s : State) (n : Nat) (c : Core) :
    (s.setCore n c).vfs = s.vfs := rfl
@[simp] theorem busData_setCore (s : State) (n : Nat) (c : Core) :
    (s.setCore n c).busData = s.busData := rfl
@[simp] theorem stalled_setCore (s : State) (n : Nat) (c : Core) :
    (s.setCore n c).stalled = s.stalled := rfl
@[simp] theorem draws_setCore (s : State) (n : Nat) (c : Core) :
    (s.setCore n c).draws = s.draws := rfl
@[simp] theorem ended_setCore (s : State) (n : Nat) (c : Core) :
    (s.setCore n c).ended = s.ended := rfl
@[simp] theorem cur_setCore (s : State) (n : Nat) (c : Core) :
    (s.setCore n c).cur = s.cur := rfl
@[simp] theorem arg_setCore (s : State) (n : Nat) (c : Core) :
    (s.setCore n c).arg = s.arg := rfl
@[simp] theorem agenda_setCore (s : State) (n : Nat) (c : Core) :
    (s.setCore n c).agenda = s.agenda := rfl

/-! ## onCore -/

@[simp] theorem time_onCore (s : State) (n : Nat) (f : Core → Core) :
    (s.onCore n f).time = s.time := rfl
@[simp] theorem clock_onCore (s : State) (n : Nat) (f : Core → Core) :
    (s.onCore n f).clock = s.clock := rfl
@[simp] theorem power_onCore (s : State) (n : Nat) (f : Core → Core) :
    (s.onCore n f).power = s.power := rfl
@[simp] theorem mem_onCore (s : State) (n : Nat) (f : Core → Core) :
    (s.onCore n f).mem = s.mem := rfl
@[simp] theorem hostMem_onCore (s : State) (n : Nat) (f : Core → Core) :
    (s.onCore n f).hostMem = s.hostMem := rfl
@[simp] theorem cores_onCore (s : State) (n : Nat) (f : Core → Core) :
    (s.onCore n f).cores = s.cores.put n (f (s.core n)) := rfl
@[simp] theorem courts_onCore (s : State) (n : Nat) (f : Core → Core) :
    (s.onCore n f).courts = s.courts := rfl
@[simp] theorem floor_onCore (s : State) (n : Nat) (f : Core → Core) :
    (s.onCore n f).floor = s.floor := rfl
@[simp] theorem domain_onCore (s : State) (n : Nat) (f : Core → Core) :
    (s.onCore n f).domain = s.domain := rfl
@[simp] theorem vfs_onCore (s : State) (n : Nat) (f : Core → Core) :
    (s.onCore n f).vfs = s.vfs := rfl
@[simp] theorem busData_onCore (s : State) (n : Nat) (f : Core → Core) :
    (s.onCore n f).busData = s.busData := rfl
@[simp] theorem stalled_onCore (s : State) (n : Nat) (f : Core → Core) :
    (s.onCore n f).stalled = s.stalled := rfl
@[simp] theorem draws_onCore (s : State) (n : Nat) (f : Core → Core) :
    (s.onCore n f).draws = s.draws := rfl
@[simp] theorem ended_onCore (s : State) (n : Nat) (f : Core → Core) :
    (s.onCore n f).ended = s.ended := rfl
@[simp] theorem cur_onCore (s : State) (n : Nat) (f : Core → Core) :
    (s.onCore n f).cur = s.cur := rfl
@[simp] theorem arg_onCore (s : State) (n : Nat) (f : Core → Core) :
    (s.onCore n f).arg = s.arg := rfl
@[simp] theorem agenda_onCore (s : State) (n : Nat) (f : Core → Core) :
    (s.onCore n f).agenda = s.agenda := rfl

/-! ## onMy -/

@[simp] theorem time_onMy (s : State) (f : Core → Core) :
    (s.onMy f).time = s.time := rfl
@[simp] theorem clock_onMy (s : State) (f : Core → Core) :
    (s.onMy f).clock = s.clock := rfl
@[simp] theorem power_onMy (s : State) (f : Core → Core) :
    (s.onMy f).power = s.power := rfl
@[simp] theorem mem_onMy (s : State) (f : Core → Core) :
    (s.onMy f).mem = s.mem := rfl
@[simp] theorem hostMem_onMy (s : State) (f : Core → Core) :
    (s.onMy f).hostMem = s.hostMem := rfl
@[simp] theorem cores_onMy (s : State) (f : Core → Core) :
    (s.onMy f).cores = s.cores.put s.me (f s.my) := rfl
@[simp] theorem courts_onMy (s : State) (f : Core → Core) :
    (s.onMy f).courts = s.courts := rfl
@[simp] theorem floor_onMy (s : State) (f : Core → Core) :
    (s.onMy f).floor = s.floor := rfl
@[simp] theorem domain_onMy (s : State) (f : Core → Core) :
    (s.onMy f).domain = s.domain := rfl
@[simp] theorem vfs_onMy (s : State) (f : Core → Core) :
    (s.onMy f).vfs = s.vfs := rfl
@[simp] theorem busData_onMy (s : State) (f : Core → Core) :
    (s.onMy f).busData = s.busData := rfl
@[simp] theorem stalled_onMy (s : State) (f : Core → Core) :
    (s.onMy f).stalled = s.stalled := rfl
@[simp] theorem draws_onMy (s : State) (f : Core → Core) :
    (s.onMy f).draws = s.draws := rfl
@[simp] theorem ended_onMy (s : State) (f : Core → Core) :
    (s.onMy f).ended = s.ended := rfl
@[simp] theorem cur_onMy (s : State) (f : Core → Core) :
    (s.onMy f).cur = s.cur := rfl
@[simp] theorem arg_onMy (s : State) (f : Core → Core) :
    (s.onMy f).arg = s.arg := rfl
@[simp] theorem agenda_onMy (s : State) (f : Core → Core) :
    (s.onMy f).agenda = s.agenda := rfl

/-! ## onE -/

@[simp] theorem time_onE (s : State) (f : EStrand → EStrand) :
    (s.onE f).time = s.time := rfl
@[simp] theorem clock_onE (s : State) (f : EStrand → EStrand) :
    (s.onE f).clock = s.clock := rfl
@[simp] theorem power_onE (s : State) (f : EStrand → EStrand) :
    (s.onE f).power = s.power := rfl
@[simp] theorem mem_onE (s : State) (f : EStrand → EStrand) :
    (s.onE f).mem = s.mem := rfl
@[simp] theorem hostMem_onE (s : State) (f : EStrand → EStrand) :
    (s.onE f).hostMem = s.hostMem := rfl
@[simp] theorem cores_onE (s : State) (f : EStrand → EStrand) :
    (s.onE f).cores = s.cores.put s.me { s.my with e := f s.my.e } := rfl
@[simp] theorem courts_onE (s : State) (f : EStrand → EStrand) :
    (s.onE f).courts = s.courts := rfl
@[simp] theorem floor_onE (s : State) (f : EStrand → EStrand) :
    (s.onE f).floor = s.floor := rfl
@[simp] theorem domain_onE (s : State) (f : EStrand → EStrand) :
    (s.onE f).domain = s.domain := rfl
@[simp] theorem vfs_onE (s : State) (f : EStrand → EStrand) :
    (s.onE f).vfs = s.vfs := rfl
@[simp] theorem busData_onE (s : State) (f : EStrand → EStrand) :
    (s.onE f).busData = s.busData := rfl
@[simp] theorem stalled_onE (s : State) (f : EStrand → EStrand) :
    (s.onE f).stalled = s.stalled := rfl
@[simp] theorem draws_onE (s : State) (f : EStrand → EStrand) :
    (s.onE f).draws = s.draws := rfl
@[simp] theorem ended_onE (s : State) (f : EStrand → EStrand) :
    (s.onE f).ended = s.ended := rfl
@[simp] theorem cur_onE (s : State) (f : EStrand → EStrand) :
    (s.onE f).cur = s.cur := rfl
@[simp] theorem arg_onE (s : State) (f : EStrand → EStrand) :
    (s.onE f).arg = s.arg := rfl
@[simp] theorem agenda_onE (s : State) (f : EStrand → EStrand) :
    (s.onE f).agenda = s.agenda := rfl

/-! ## onCourt -/

@[simp] theorem time_onCourt (s : State) (n : Nat) (f : Court → Court) :
    (s.onCourt n f).time = s.time := rfl
@[simp] theorem clock_onCourt (s : State) (n : Nat) (f : Court → Court) :
    (s.onCourt n f).clock = s.clock := rfl
@[simp] theorem power_onCourt (s : State) (n : Nat) (f : Court → Court) :
    (s.onCourt n f).power = s.power := rfl
@[simp] theorem mem_onCourt (s : State) (n : Nat) (f : Court → Court) :
    (s.onCourt n f).mem = s.mem := rfl
@[simp] theorem hostMem_onCourt (s : State) (n : Nat) (f : Court → Court) :
    (s.onCourt n f).hostMem = s.hostMem := rfl
@[simp] theorem cores_onCourt (s : State) (n : Nat) (f : Court → Court) :
    (s.onCourt n f).cores = s.cores := rfl
@[simp] theorem courts_onCourt (s : State) (n : Nat) (f : Court → Court) :
    (s.onCourt n f).courts = s.courts.put n (f (s.court n)) := rfl
@[simp] theorem floor_onCourt (s : State) (n : Nat) (f : Court → Court) :
    (s.onCourt n f).floor = s.floor := rfl
@[simp] theorem domain_onCourt (s : State) (n : Nat) (f : Court → Court) :
    (s.onCourt n f).domain = s.domain := rfl
@[simp] theorem vfs_onCourt (s : State) (n : Nat) (f : Court → Court) :
    (s.onCourt n f).vfs = s.vfs := rfl
@[simp] theorem busData_onCourt (s : State) (n : Nat) (f : Court → Court) :
    (s.onCourt n f).busData = s.busData := rfl
@[simp] theorem stalled_onCourt (s : State) (n : Nat) (f : Court → Court) :
    (s.onCourt n f).stalled = s.stalled := rfl
@[simp] theorem draws_onCourt (s : State) (n : Nat) (f : Court → Court) :
    (s.onCourt n f).draws = s.draws := rfl
@[simp] theorem ended_onCourt (s : State) (n : Nat) (f : Court → Court) :
    (s.onCourt n f).ended = s.ended := rfl
@[simp] theorem cur_onCourt (s : State) (n : Nat) (f : Court → Court) :
    (s.onCourt n f).cur = s.cur := rfl
@[simp] theorem arg_onCourt (s : State) (n : Nat) (f : Court → Court) :
    (s.onCourt n f).arg = s.arg := rfl
@[simp] theorem agenda_onCourt (s : State) (n : Nat) (f : Court → Court) :
    (s.onCourt n f).agenda = s.agenda := rfl

/-! ## onUmpire -/

@[simp] theorem time_onUmpire (s : State) (n : Nat) (f : Umpire → Umpire) :
    (s.onUmpire n f).time = s.time := rfl
@[simp] theorem clock_onUmpire (s : State) (n : Nat) (f : Umpire → Umpire) :
    (s.onUmpire n f).clock = s.clock := rfl
@[simp] theorem power_onUmpire (s : State) (n : Nat) (f : Umpire → Umpire) :
    (s.onUmpire n f).power = s.power := rfl
@[simp] theorem mem_onUmpire (s : State) (n : Nat) (f : Umpire → Umpire) :
    (s.onUmpire n f).mem = s.mem := rfl
@[simp] theorem hostMem_onUmpire (s : State) (n : Nat) (f : Umpire → Umpire) :
    (s.onUmpire n f).hostMem = s.hostMem := rfl
@[simp] theorem cores_onUmpire (s : State) (n : Nat) (f : Umpire → Umpire) :
    (s.onUmpire n f).cores = s.cores := rfl
@[simp] theorem courts_onUmpire (s : State) (n : Nat) (f : Umpire → Umpire) :
    (s.onUmpire n f).courts = s.courts.put n { s.court n with umpire := f (s.court n).umpire } := rfl
@[simp] theorem floor_onUmpire (s : State) (n : Nat) (f : Umpire → Umpire) :
    (s.onUmpire n f).floor = s.floor := rfl
@[simp] theorem domain_onUmpire (s : State) (n : Nat) (f : Umpire → Umpire) :
    (s.onUmpire n f).domain = s.domain := rfl
@[simp] theorem vfs_onUmpire (s : State) (n : Nat) (f : Umpire → Umpire) :
    (s.onUmpire n f).vfs = s.vfs := rfl
@[simp] theorem busData_onUmpire (s : State) (n : Nat) (f : Umpire → Umpire) :
    (s.onUmpire n f).busData = s.busData := rfl
@[simp] theorem stalled_onUmpire (s : State) (n : Nat) (f : Umpire → Umpire) :
    (s.onUmpire n f).stalled = s.stalled := rfl
@[simp] theorem draws_onUmpire (s : State) (n : Nat) (f : Umpire → Umpire) :
    (s.onUmpire n f).draws = s.draws := rfl
@[simp] theorem ended_onUmpire (s : State) (n : Nat) (f : Umpire → Umpire) :
    (s.onUmpire n f).ended = s.ended := rfl
@[simp] theorem cur_onUmpire (s : State) (n : Nat) (f : Umpire → Umpire) :
    (s.onUmpire n f).cur = s.cur := rfl
@[simp] theorem arg_onUmpire (s : State) (n : Nat) (f : Umpire → Umpire) :
    (s.onUmpire n f).arg = s.arg := rfl
@[simp] theorem agenda_onUmpire (s : State) (n : Nat) (f : Umpire → Umpire) :
    (s.onUmpire n f).agenda = s.agenda := rfl

/-! ## onFloor -/

@[simp] theorem time_onFloor (s : State) (f : Floor → Floor) :
    (s.onFloor f).time = s.time := rfl
@[simp] theorem clock_onFloor (s : State) (f : Floor → Floor) :
    (s.onFloor f).clock = s.clock := rfl
@[simp] theorem power_onFloor (s : State) (f : Floor → Floor) :
    (s.onFloor f).power = s.power := rfl
@[simp] theorem mem_onFloor (s : State) (f : Floor → Floor) :
    (s.onFloor f).mem = s.mem := rfl
@[simp] theorem hostMem_onFloor (s : State) (f : Floor → Floor) :
    (s.onFloor f).hostMem = s.hostMem := rfl
@[simp] theorem cores_onFloor (s : State) (f : Floor → Floor) :
    (s.onFloor f).cores = s.cores := rfl
@[simp] theorem courts_onFloor (s : State) (f : Floor → Floor) :
    (s.onFloor f).courts = s.courts := rfl
@[simp] theorem floor_onFloor (s : State) (f : Floor → Floor) :
    (s.onFloor f).floor = f s.floor := rfl
@[simp] theorem domain_onFloor (s : State) (f : Floor → Floor) :
    (s.onFloor f).domain = s.domain := rfl
@[simp] theorem vfs_onFloor (s : State) (f : Floor → Floor) :
    (s.onFloor f).vfs = s.vfs := rfl
@[simp] theorem busData_onFloor (s : State) (f : Floor → Floor) :
    (s.onFloor f).busData = s.busData := rfl
@[simp] theorem stalled_onFloor (s : State) (f : Floor → Floor) :
    (s.onFloor f).stalled = s.stalled := rfl
@[simp] theorem draws_onFloor (s : State) (f : Floor → Floor) :
    (s.onFloor f).draws = s.draws := rfl
@[simp] theorem ended_onFloor (s : State) (f : Floor → Floor) :
    (s.onFloor f).ended = s.ended := rfl
@[simp] theorem cur_onFloor (s : State) (f : Floor → Floor) :
    (s.onFloor f).cur = s.cur := rfl
@[simp] theorem arg_onFloor (s : State) (f : Floor → Floor) :
    (s.onFloor f).arg = s.arg := rfl
@[simp] theorem agenda_onFloor (s : State) (f : Floor → Floor) :
    (s.onFloor f).agenda = s.agenda := rfl

/-! ## onDisp -/

@[simp] theorem time_onDisp (s : State) (d : Nat) (f : Dispatch → Dispatch) :
    (s.onDisp d f).time = s.time := rfl
@[simp] theorem clock_onDisp (s : State) (d : Nat) (f : Dispatch → Dispatch) :
    (s.onDisp d f).clock = s.clock := rfl
@[simp] theorem power_onDisp (s : State) (d : Nat) (f : Dispatch → Dispatch) :
    (s.onDisp d f).power = s.power := rfl
@[simp] theorem mem_onDisp (s : State) (d : Nat) (f : Dispatch → Dispatch) :
    (s.onDisp d f).mem = s.mem := rfl
@[simp] theorem hostMem_onDisp (s : State) (d : Nat) (f : Dispatch → Dispatch) :
    (s.onDisp d f).hostMem = s.hostMem := rfl
@[simp] theorem cores_onDisp (s : State) (d : Nat) (f : Dispatch → Dispatch) :
    (s.onDisp d f).cores = s.cores := rfl
@[simp] theorem courts_onDisp (s : State) (d : Nat) (f : Dispatch → Dispatch) :
    (s.onDisp d f).courts = s.courts := rfl
@[simp] theorem floor_onDisp (s : State) (d : Nat) (f : Dispatch → Dispatch) :
    (s.onDisp d f).floor = { s.floor with dispatches := s.floor.dispatches.modify d f } := rfl
@[simp] theorem domain_onDisp (s : State) (d : Nat) (f : Dispatch → Dispatch) :
    (s.onDisp d f).domain = s.domain := rfl
@[simp] theorem vfs_onDisp (s : State) (d : Nat) (f : Dispatch → Dispatch) :
    (s.onDisp d f).vfs = s.vfs := rfl
@[simp] theorem busData_onDisp (s : State) (d : Nat) (f : Dispatch → Dispatch) :
    (s.onDisp d f).busData = s.busData := rfl
@[simp] theorem stalled_onDisp (s : State) (d : Nat) (f : Dispatch → Dispatch) :
    (s.onDisp d f).stalled = s.stalled := rfl
@[simp] theorem draws_onDisp (s : State) (d : Nat) (f : Dispatch → Dispatch) :
    (s.onDisp d f).draws = s.draws := rfl
@[simp] theorem ended_onDisp (s : State) (d : Nat) (f : Dispatch → Dispatch) :
    (s.onDisp d f).ended = s.ended := rfl
@[simp] theorem cur_onDisp (s : State) (d : Nat) (f : Dispatch → Dispatch) :
    (s.onDisp d f).cur = s.cur := rfl
@[simp] theorem arg_onDisp (s : State) (d : Nat) (f : Dispatch → Dispatch) :
    (s.onDisp d f).arg = s.arg := rfl
@[simp] theorem agenda_onDisp (s : State) (d : Nat) (f : Dispatch → Dispatch) :
    (s.onDisp d f).agenda = s.agenda := rfl

/-! ## onCtx -/

@[simp] theorem time_onCtx (s : State) (c : Nat) (f : Context → Context) :
    (s.onCtx c f).time = s.time := rfl
@[simp] theorem clock_onCtx (s : State) (c : Nat) (f : Context → Context) :
    (s.onCtx c f).clock = s.clock := rfl
@[simp] theorem power_onCtx (s : State) (c : Nat) (f : Context → Context) :
    (s.onCtx c f).power = s.power := rfl
@[simp] theorem mem_onCtx (s : State) (c : Nat) (f : Context → Context) :
    (s.onCtx c f).mem = s.mem := rfl
@[simp] theorem hostMem_onCtx (s : State) (c : Nat) (f : Context → Context) :
    (s.onCtx c f).hostMem = s.hostMem := rfl
@[simp] theorem cores_onCtx (s : State) (c : Nat) (f : Context → Context) :
    (s.onCtx c f).cores = s.cores := rfl
@[simp] theorem courts_onCtx (s : State) (c : Nat) (f : Context → Context) :
    (s.onCtx c f).courts = s.courts := rfl
@[simp] theorem floor_onCtx (s : State) (c : Nat) (f : Context → Context) :
    (s.onCtx c f).floor = { s.floor with contexts := s.floor.contexts.modify c f } := rfl
@[simp] theorem domain_onCtx (s : State) (c : Nat) (f : Context → Context) :
    (s.onCtx c f).domain = s.domain := rfl
@[simp] theorem vfs_onCtx (s : State) (c : Nat) (f : Context → Context) :
    (s.onCtx c f).vfs = s.vfs := rfl
@[simp] theorem busData_onCtx (s : State) (c : Nat) (f : Context → Context) :
    (s.onCtx c f).busData = s.busData := rfl
@[simp] theorem stalled_onCtx (s : State) (c : Nat) (f : Context → Context) :
    (s.onCtx c f).stalled = s.stalled := rfl
@[simp] theorem draws_onCtx (s : State) (c : Nat) (f : Context → Context) :
    (s.onCtx c f).draws = s.draws := rfl
@[simp] theorem ended_onCtx (s : State) (c : Nat) (f : Context → Context) :
    (s.onCtx c f).ended = s.ended := rfl
@[simp] theorem cur_onCtx (s : State) (c : Nat) (f : Context → Context) :
    (s.onCtx c f).cur = s.cur := rfl
@[simp] theorem arg_onCtx (s : State) (c : Nat) (f : Context → Context) :
    (s.onCtx c f).arg = s.arg := rfl
@[simp] theorem agenda_onCtx (s : State) (c : Nat) (f : Context → Context) :
    (s.onCtx c f).agenda = s.agenda := rfl

/-! ## onFrame -/

@[simp] theorem time_onFrame (s : State) (b : Nat) (f : Frame → Frame) :
    (s.onFrame b f).time = s.time := rfl
@[simp] theorem clock_onFrame (s : State) (b : Nat) (f : Frame → Frame) :
    (s.onFrame b f).clock = s.clock := rfl
@[simp] theorem power_onFrame (s : State) (b : Nat) (f : Frame → Frame) :
    (s.onFrame b f).power = s.power := rfl
@[simp] theorem mem_onFrame (s : State) (b : Nat) (f : Frame → Frame) :
    (s.onFrame b f).mem = s.mem := rfl
@[simp] theorem hostMem_onFrame (s : State) (b : Nat) (f : Frame → Frame) :
    (s.onFrame b f).hostMem = s.hostMem := rfl
@[simp] theorem cores_onFrame (s : State) (b : Nat) (f : Frame → Frame) :
    (s.onFrame b f).cores = s.cores := rfl
@[simp] theorem courts_onFrame (s : State) (b : Nat) (f : Frame → Frame) :
    (s.onFrame b f).courts = s.courts := rfl
@[simp] theorem floor_onFrame (s : State) (b : Nat) (f : Frame → Frame) :
    (s.onFrame b f).floor = { s.floor with frames := s.floor.frames.modify b f } := rfl
@[simp] theorem domain_onFrame (s : State) (b : Nat) (f : Frame → Frame) :
    (s.onFrame b f).domain = s.domain := rfl
@[simp] theorem vfs_onFrame (s : State) (b : Nat) (f : Frame → Frame) :
    (s.onFrame b f).vfs = s.vfs := rfl
@[simp] theorem busData_onFrame (s : State) (b : Nat) (f : Frame → Frame) :
    (s.onFrame b f).busData = s.busData := rfl
@[simp] theorem stalled_onFrame (s : State) (b : Nat) (f : Frame → Frame) :
    (s.onFrame b f).stalled = s.stalled := rfl
@[simp] theorem draws_onFrame (s : State) (b : Nat) (f : Frame → Frame) :
    (s.onFrame b f).draws = s.draws := rfl
@[simp] theorem ended_onFrame (s : State) (b : Nat) (f : Frame → Frame) :
    (s.onFrame b f).ended = s.ended := rfl
@[simp] theorem cur_onFrame (s : State) (b : Nat) (f : Frame → Frame) :
    (s.onFrame b f).cur = s.cur := rfl
@[simp] theorem arg_onFrame (s : State) (b : Nat) (f : Frame → Frame) :
    (s.onFrame b f).arg = s.arg := rfl
@[simp] theorem agenda_onFrame (s : State) (b : Nat) (f : Frame → Frame) :
    (s.onFrame b f).agenda = s.agenda := rfl

/-! ## onVf -/

@[simp] theorem time_onVf (s : State) (v : Nat) (f : Vf → Vf) :
    (s.onVf v f).time = s.time := rfl
@[simp] theorem clock_onVf (s : State) (v : Nat) (f : Vf → Vf) :
    (s.onVf v f).clock = s.clock := rfl
@[simp] theorem power_onVf (s : State) (v : Nat) (f : Vf → Vf) :
    (s.onVf v f).power = s.power := rfl
@[simp] theorem mem_onVf (s : State) (v : Nat) (f : Vf → Vf) :
    (s.onVf v f).mem = s.mem := rfl
@[simp] theorem hostMem_onVf (s : State) (v : Nat) (f : Vf → Vf) :
    (s.onVf v f).hostMem = s.hostMem := rfl
@[simp] theorem cores_onVf (s : State) (v : Nat) (f : Vf → Vf) :
    (s.onVf v f).cores = s.cores := rfl
@[simp] theorem courts_onVf (s : State) (v : Nat) (f : Vf → Vf) :
    (s.onVf v f).courts = s.courts := rfl
@[simp] theorem floor_onVf (s : State) (v : Nat) (f : Vf → Vf) :
    (s.onVf v f).floor = s.floor := rfl
@[simp] theorem domain_onVf (s : State) (v : Nat) (f : Vf → Vf) :
    (s.onVf v f).domain = s.domain := rfl
@[simp] theorem vfs_onVf (s : State) (v : Nat) (f : Vf → Vf) :
    (s.onVf v f).vfs = s.vfs.put v (f (s.vf v)) := rfl
@[simp] theorem busData_onVf (s : State) (v : Nat) (f : Vf → Vf) :
    (s.onVf v f).busData = s.busData := rfl
@[simp] theorem stalled_onVf (s : State) (v : Nat) (f : Vf → Vf) :
    (s.onVf v f).stalled = s.stalled := rfl
@[simp] theorem draws_onVf (s : State) (v : Nat) (f : Vf → Vf) :
    (s.onVf v f).draws = s.draws := rfl
@[simp] theorem ended_onVf (s : State) (v : Nat) (f : Vf → Vf) :
    (s.onVf v f).ended = s.ended := rfl
@[simp] theorem cur_onVf (s : State) (v : Nat) (f : Vf → Vf) :
    (s.onVf v f).cur = s.cur := rfl
@[simp] theorem arg_onVf (s : State) (v : Nat) (f : Vf → Vf) :
    (s.onVf v f).arg = s.arg := rfl
@[simp] theorem agenda_onVf (s : State) (v : Nat) (f : Vf → Vf) :
    (s.onVf v f).agenda = s.agenda := rfl

/-! ## onDomain -/

@[simp] theorem time_onDomain (s : State) (f : Domain → Domain) :
    (s.onDomain f).time = s.time := rfl
@[simp] theorem clock_onDomain (s : State) (f : Domain → Domain) :
    (s.onDomain f).clock = s.clock := rfl
@[simp] theorem power_onDomain (s : State) (f : Domain → Domain) :
    (s.onDomain f).power = s.power := rfl
@[simp] theorem mem_onDomain (s : State) (f : Domain → Domain) :
    (s.onDomain f).mem = s.mem := rfl
@[simp] theorem hostMem_onDomain (s : State) (f : Domain → Domain) :
    (s.onDomain f).hostMem = s.hostMem := rfl
@[simp] theorem cores_onDomain (s : State) (f : Domain → Domain) :
    (s.onDomain f).cores = s.cores := rfl
@[simp] theorem courts_onDomain (s : State) (f : Domain → Domain) :
    (s.onDomain f).courts = s.courts := rfl
@[simp] theorem floor_onDomain (s : State) (f : Domain → Domain) :
    (s.onDomain f).floor = s.floor := rfl
@[simp] theorem domain_onDomain (s : State) (f : Domain → Domain) :
    (s.onDomain f).domain = f s.domain := rfl
@[simp] theorem vfs_onDomain (s : State) (f : Domain → Domain) :
    (s.onDomain f).vfs = s.vfs := rfl
@[simp] theorem busData_onDomain (s : State) (f : Domain → Domain) :
    (s.onDomain f).busData = s.busData := rfl
@[simp] theorem stalled_onDomain (s : State) (f : Domain → Domain) :
    (s.onDomain f).stalled = s.stalled := rfl
@[simp] theorem draws_onDomain (s : State) (f : Domain → Domain) :
    (s.onDomain f).draws = s.draws := rfl
@[simp] theorem ended_onDomain (s : State) (f : Domain → Domain) :
    (s.onDomain f).ended = s.ended := rfl
@[simp] theorem cur_onDomain (s : State) (f : Domain → Domain) :
    (s.onDomain f).cur = s.cur := rfl
@[simp] theorem arg_onDomain (s : State) (f : Domain → Domain) :
    (s.onDomain f).arg = s.arg := rfl
@[simp] theorem agenda_onDomain (s : State) (f : Domain → Domain) :
    (s.onDomain f).agenda = s.agenda := rfl

/-! ## soon -/

@[simp] theorem time_soon (s : State) (ts : List Turn) :
    (s.soon ts).time = s.time := rfl
@[simp] theorem clock_soon (s : State) (ts : List Turn) :
    (s.soon ts).clock = s.clock := rfl
@[simp] theorem power_soon (s : State) (ts : List Turn) :
    (s.soon ts).power = s.power := rfl
@[simp] theorem mem_soon (s : State) (ts : List Turn) :
    (s.soon ts).mem = s.mem := rfl
@[simp] theorem hostMem_soon (s : State) (ts : List Turn) :
    (s.soon ts).hostMem = s.hostMem := rfl
@[simp] theorem cores_soon (s : State) (ts : List Turn) :
    (s.soon ts).cores = s.cores := rfl
@[simp] theorem courts_soon (s : State) (ts : List Turn) :
    (s.soon ts).courts = s.courts := rfl
@[simp] theorem floor_soon (s : State) (ts : List Turn) :
    (s.soon ts).floor = s.floor := rfl
@[simp] theorem domain_soon (s : State) (ts : List Turn) :
    (s.soon ts).domain = s.domain := rfl
@[simp] theorem vfs_soon (s : State) (ts : List Turn) :
    (s.soon ts).vfs = s.vfs := rfl
@[simp] theorem busData_soon (s : State) (ts : List Turn) :
    (s.soon ts).busData = s.busData := rfl
@[simp] theorem stalled_soon (s : State) (ts : List Turn) :
    (s.soon ts).stalled = s.stalled := rfl
@[simp] theorem draws_soon (s : State) (ts : List Turn) :
    (s.soon ts).draws = s.draws := rfl
@[simp] theorem ended_soon (s : State) (ts : List Turn) :
    (s.soon ts).ended = s.ended := rfl
@[simp] theorem cur_soon (s : State) (ts : List Turn) :
    (s.soon ts).cur = s.cur := rfl
@[simp] theorem arg_soon (s : State) (ts : List Turn) :
    (s.soon ts).arg = s.arg := rfl
@[simp] theorem agenda_soon (s : State) (ts : List Turn) :
    (s.soon ts).agenda = ts ++ s.agenda := rfl

/-! ## hostWrite -/

@[simp] theorem time_hostWrite (s : State) (a : Nat) (bs : List Byte) :
    (s.hostWrite a bs).time = s.time := rfl
@[simp] theorem clock_hostWrite (s : State) (a : Nat) (bs : List Byte) :
    (s.hostWrite a bs).clock = s.clock := rfl
@[simp] theorem power_hostWrite (s : State) (a : Nat) (bs : List Byte) :
    (s.hostWrite a bs).power = s.power := rfl
@[simp] theorem mem_hostWrite (s : State) (a : Nat) (bs : List Byte) :
    (s.hostWrite a bs).mem = s.mem := rfl
@[simp] theorem hostMem_hostWrite (s : State) (a : Nat) (bs : List Byte) :
    (s.hostWrite a bs).hostMem = tabWrite s.hostMem a bs := rfl
@[simp] theorem cores_hostWrite (s : State) (a : Nat) (bs : List Byte) :
    (s.hostWrite a bs).cores = s.cores := rfl
@[simp] theorem courts_hostWrite (s : State) (a : Nat) (bs : List Byte) :
    (s.hostWrite a bs).courts = s.courts := rfl
@[simp] theorem floor_hostWrite (s : State) (a : Nat) (bs : List Byte) :
    (s.hostWrite a bs).floor = s.floor := rfl
@[simp] theorem domain_hostWrite (s : State) (a : Nat) (bs : List Byte) :
    (s.hostWrite a bs).domain = s.domain := rfl
@[simp] theorem vfs_hostWrite (s : State) (a : Nat) (bs : List Byte) :
    (s.hostWrite a bs).vfs = s.vfs := rfl
@[simp] theorem busData_hostWrite (s : State) (a : Nat) (bs : List Byte) :
    (s.hostWrite a bs).busData = s.busData := rfl
@[simp] theorem stalled_hostWrite (s : State) (a : Nat) (bs : List Byte) :
    (s.hostWrite a bs).stalled = s.stalled := rfl
@[simp] theorem draws_hostWrite (s : State) (a : Nat) (bs : List Byte) :
    (s.hostWrite a bs).draws = s.draws := rfl
@[simp] theorem ended_hostWrite (s : State) (a : Nat) (bs : List Byte) :
    (s.hostWrite a bs).ended = s.ended := rfl
@[simp] theorem cur_hostWrite (s : State) (a : Nat) (bs : List Byte) :
    (s.hostWrite a bs).cur = s.cur := rfl
@[simp] theorem arg_hostWrite (s : State) (a : Nat) (bs : List Byte) :
    (s.hostWrite a bs).arg = s.arg := rfl
@[simp] theorem agenda_hostWrite (s : State) (a : Nat) (bs : List Byte) :
    (s.hostWrite a bs).agenda = s.agenda := rfl

/-! ## interrupt: what it leaves -/

@[simp] theorem time_interrupt (s : State) (v q : Nat) : (s.interrupt v q).time = s.time := rfl
@[simp] theorem clock_interrupt (s : State) (v q : Nat) : (s.interrupt v q).clock = s.clock := rfl
@[simp] theorem power_interrupt (s : State) (v q : Nat) : (s.interrupt v q).power = s.power := rfl
@[simp] theorem mem_interrupt (s : State) (v q : Nat) : (s.interrupt v q).mem = s.mem := rfl
@[simp] theorem hostMem_interrupt (s : State) (v q : Nat) : (s.interrupt v q).hostMem = s.hostMem := rfl
@[simp] theorem cores_interrupt (s : State) (v q : Nat) : (s.interrupt v q).cores = s.cores := rfl
@[simp] theorem courts_interrupt (s : State) (v q : Nat) : (s.interrupt v q).courts = s.courts := rfl
@[simp] theorem floor_interrupt (s : State) (v q : Nat) : (s.interrupt v q).floor = s.floor := rfl
@[simp] theorem domain_interrupt (s : State) (v q : Nat) : (s.interrupt v q).domain = s.domain := rfl
@[simp] theorem busData_interrupt (s : State) (v q : Nat) : (s.interrupt v q).busData = s.busData := rfl
@[simp] theorem stalled_interrupt (s : State) (v q : Nat) : (s.interrupt v q).stalled = s.stalled := rfl
@[simp] theorem draws_interrupt (s : State) (v q : Nat) : (s.interrupt v q).draws = s.draws := rfl
@[simp] theorem ended_interrupt (s : State) (v q : Nat) : (s.interrupt v q).ended = s.ended := rfl
@[simp] theorem cur_interrupt (s : State) (v q : Nat) : (s.interrupt v q).cur = s.cur := rfl
@[simp] theorem arg_interrupt (s : State) (v q : Nat) : (s.interrupt v q).arg = s.arg := rfl
@[simp] theorem agenda_interrupt (s : State) (v q : Nat) : (s.interrupt v q).agenda = s.agenda := rfl

/-! ## dropMsg: what it leaves -/

@[simp] theorem time_dropMsg (s : State) (c : Nat) : (s.dropMsg c).time = s.time := rfl
@[simp] theorem clock_dropMsg (s : State) (c : Nat) : (s.dropMsg c).clock = s.clock := rfl
@[simp] theorem power_dropMsg (s : State) (c : Nat) : (s.dropMsg c).power = s.power := rfl
@[simp] theorem mem_dropMsg (s : State) (c : Nat) : (s.dropMsg c).mem = s.mem := rfl
@[simp] theorem hostMem_dropMsg (s : State) (c : Nat) : (s.dropMsg c).hostMem = s.hostMem := rfl
@[simp] theorem cores_dropMsg (s : State) (c : Nat) : (s.dropMsg c).cores = s.cores := rfl
@[simp] theorem courts_dropMsg (s : State) (c : Nat) : (s.dropMsg c).courts = s.courts := rfl
@[simp] theorem domain_dropMsg (s : State) (c : Nat) : (s.dropMsg c).domain = s.domain := rfl
@[simp] theorem vfs_dropMsg (s : State) (c : Nat) : (s.dropMsg c).vfs = s.vfs := rfl
@[simp] theorem busData_dropMsg (s : State) (c : Nat) : (s.dropMsg c).busData = s.busData := rfl
@[simp] theorem stalled_dropMsg (s : State) (c : Nat) : (s.dropMsg c).stalled = s.stalled := rfl
@[simp] theorem draws_dropMsg (s : State) (c : Nat) : (s.dropMsg c).draws = s.draws := rfl
@[simp] theorem ended_dropMsg (s : State) (c : Nat) : (s.dropMsg c).ended = s.ended := rfl
@[simp] theorem cur_dropMsg (s : State) (c : Nat) : (s.dropMsg c).cur = s.cur := rfl
@[simp] theorem arg_dropMsg (s : State) (c : Nat) : (s.dropMsg c).arg = s.arg := rfl
@[simp] theorem agenda_dropMsg (s : State) (c : Nat) : (s.dropMsg c).agenda = s.agenda := rfl

/-! ## dropShare: what it leaves -/

@[simp] theorem time_dropShare (s : State) (c : Nat) : (s.dropShare c).time = s.time := rfl
@[simp] theorem clock_dropShare (s : State) (c : Nat) : (s.dropShare c).clock = s.clock := rfl
@[simp] theorem power_dropShare (s : State) (c : Nat) : (s.dropShare c).power = s.power := rfl
@[simp] theorem mem_dropShare (s : State) (c : Nat) : (s.dropShare c).mem = s.mem := rfl
@[simp] theorem hostMem_dropShare (s : State) (c : Nat) : (s.dropShare c).hostMem = s.hostMem := rfl
@[simp] theorem cores_dropShare (s : State) (c : Nat) : (s.dropShare c).cores = s.cores := rfl
@[simp] theorem courts_dropShare (s : State) (c : Nat) : (s.dropShare c).courts = s.courts := rfl
@[simp] theorem domain_dropShare (s : State) (c : Nat) : (s.dropShare c).domain = s.domain := rfl
@[simp] theorem vfs_dropShare (s : State) (c : Nat) : (s.dropShare c).vfs = s.vfs := rfl
@[simp] theorem busData_dropShare (s : State) (c : Nat) : (s.dropShare c).busData = s.busData := rfl
@[simp] theorem stalled_dropShare (s : State) (c : Nat) : (s.dropShare c).stalled = s.stalled := rfl
@[simp] theorem draws_dropShare (s : State) (c : Nat) : (s.dropShare c).draws = s.draws := rfl
@[simp] theorem ended_dropShare (s : State) (c : Nat) : (s.dropShare c).ended = s.ended := rfl
@[simp] theorem cur_dropShare (s : State) (c : Nat) : (s.dropShare c).cur = s.cur := rfl
@[simp] theorem arg_dropShare (s : State) (c : Nat) : (s.dropShare c).arg = s.arg := rfl
@[simp] theorem agenda_dropShare (s : State) (c : Nat) : (s.dropShare c).agenda = s.agenda := rfl

/-! ## onHandle: what it leaves -/

@[simp] theorem time_onHandle (s : State) (c i : Nat) (f : Handle → Handle) : (s.onHandle c i f).time = s.time := rfl
@[simp] theorem clock_onHandle (s : State) (c i : Nat) (f : Handle → Handle) : (s.onHandle c i f).clock = s.clock := rfl
@[simp] theorem power_onHandle (s : State) (c i : Nat) (f : Handle → Handle) : (s.onHandle c i f).power = s.power := rfl
@[simp] theorem mem_onHandle (s : State) (c i : Nat) (f : Handle → Handle) : (s.onHandle c i f).mem = s.mem := rfl
@[simp] theorem hostMem_onHandle (s : State) (c i : Nat) (f : Handle → Handle) : (s.onHandle c i f).hostMem = s.hostMem := rfl
@[simp] theorem cores_onHandle (s : State) (c i : Nat) (f : Handle → Handle) : (s.onHandle c i f).cores = s.cores := rfl
@[simp] theorem courts_onHandle (s : State) (c i : Nat) (f : Handle → Handle) : (s.onHandle c i f).courts = s.courts := rfl
@[simp] theorem domain_onHandle (s : State) (c i : Nat) (f : Handle → Handle) : (s.onHandle c i f).domain = s.domain := rfl
@[simp] theorem vfs_onHandle (s : State) (c i : Nat) (f : Handle → Handle) : (s.onHandle c i f).vfs = s.vfs := rfl
@[simp] theorem busData_onHandle (s : State) (c i : Nat) (f : Handle → Handle) : (s.onHandle c i f).busData = s.busData := rfl
@[simp] theorem stalled_onHandle (s : State) (c i : Nat) (f : Handle → Handle) : (s.onHandle c i f).stalled = s.stalled := rfl
@[simp] theorem draws_onHandle (s : State) (c i : Nat) (f : Handle → Handle) : (s.onHandle c i f).draws = s.draws := rfl
@[simp] theorem ended_onHandle (s : State) (c i : Nat) (f : Handle → Handle) : (s.onHandle c i f).ended = s.ended := rfl
@[simp] theorem cur_onHandle (s : State) (c i : Nat) (f : Handle → Handle) : (s.onHandle c i f).cur = s.cur := rfl
@[simp] theorem arg_onHandle (s : State) (c i : Nat) (f : Handle → Handle) : (s.onHandle c i f).arg = s.arg := rfl
@[simp] theorem agenda_onHandle (s : State) (c i : Nat) (f : Handle → Handle) : (s.onHandle c i f).agenda = s.agenda := rfl

/-! ## addDispatch: what it leaves -/

@[simp] theorem time_addDispatch (s : State) (d : Dispatch) : (s.addDispatch d).time = s.time := rfl
@[simp] theorem clock_addDispatch (s : State) (d : Dispatch) : (s.addDispatch d).clock = s.clock := rfl
@[simp] theorem power_addDispatch (s : State) (d : Dispatch) : (s.addDispatch d).power = s.power := rfl
@[simp] theorem mem_addDispatch (s : State) (d : Dispatch) : (s.addDispatch d).mem = s.mem := rfl
@[simp] theorem hostMem_addDispatch (s : State) (d : Dispatch) : (s.addDispatch d).hostMem = s.hostMem := rfl
@[simp] theorem cores_addDispatch (s : State) (d : Dispatch) : (s.addDispatch d).cores = s.cores := rfl
@[simp] theorem courts_addDispatch (s : State) (d : Dispatch) : (s.addDispatch d).courts = s.courts := rfl
@[simp] theorem domain_addDispatch (s : State) (d : Dispatch) : (s.addDispatch d).domain = s.domain := rfl
@[simp] theorem vfs_addDispatch (s : State) (d : Dispatch) : (s.addDispatch d).vfs = s.vfs := rfl
@[simp] theorem busData_addDispatch (s : State) (d : Dispatch) : (s.addDispatch d).busData = s.busData := rfl
@[simp] theorem stalled_addDispatch (s : State) (d : Dispatch) : (s.addDispatch d).stalled = s.stalled := rfl
@[simp] theorem draws_addDispatch (s : State) (d : Dispatch) : (s.addDispatch d).draws = s.draws := rfl
@[simp] theorem ended_addDispatch (s : State) (d : Dispatch) : (s.addDispatch d).ended = s.ended := rfl
@[simp] theorem cur_addDispatch (s : State) (d : Dispatch) : (s.addDispatch d).cur = s.cur := rfl
@[simp] theorem arg_addDispatch (s : State) (d : Dispatch) : (s.addDispatch d).arg = s.arg := rfl
@[simp] theorem agenda_addDispatch (s : State) (d : Dispatch) : (s.addDispatch d).agenda = s.agenda := rfl

/-! ## noteEnd: what it leaves -/

@[simp] theorem time_noteEnd (s : State) (d : Nat) : (s.noteEnd d).time = s.time := rfl
@[simp] theorem clock_noteEnd (s : State) (d : Nat) : (s.noteEnd d).clock = s.clock := rfl
@[simp] theorem power_noteEnd (s : State) (d : Nat) : (s.noteEnd d).power = s.power := rfl
@[simp] theorem mem_noteEnd (s : State) (d : Nat) : (s.noteEnd d).mem = s.mem := rfl
@[simp] theorem hostMem_noteEnd (s : State) (d : Nat) : (s.noteEnd d).hostMem = s.hostMem := rfl
@[simp] theorem cores_noteEnd (s : State) (d : Nat) : (s.noteEnd d).cores = s.cores := rfl
@[simp] theorem courts_noteEnd (s : State) (d : Nat) : (s.noteEnd d).courts = s.courts := rfl
@[simp] theorem floor_noteEnd (s : State) (d : Nat) : (s.noteEnd d).floor = s.floor := rfl
@[simp] theorem domain_noteEnd (s : State) (d : Nat) : (s.noteEnd d).domain = s.domain := rfl
@[simp] theorem vfs_noteEnd (s : State) (d : Nat) : (s.noteEnd d).vfs = s.vfs := rfl
@[simp] theorem busData_noteEnd (s : State) (d : Nat) : (s.noteEnd d).busData = s.busData := rfl
@[simp] theorem stalled_noteEnd (s : State) (d : Nat) : (s.noteEnd d).stalled = s.stalled := rfl
@[simp] theorem draws_noteEnd (s : State) (d : Nat) : (s.noteEnd d).draws = s.draws := rfl
@[simp] theorem cur_noteEnd (s : State) (d : Nat) : (s.noteEnd d).cur = s.cur := rfl
@[simp] theorem arg_noteEnd (s : State) (d : Nat) : (s.noteEnd d).arg = s.arg := rfl
@[simp] theorem agenda_noteEnd (s : State) (d : Nat) : (s.noteEnd d).agenda = s.agenda := rfl
@[simp] theorem ended_noteEnd (s : State) (d : Nat) : (s.noteEnd d).ended = d :: s.ended := rfl

/-! ## putErr: what it leaves -/

@[simp] theorem time_putErr (s : State) (x : ErrCount) : (s.putErr x).time = s.time := rfl
@[simp] theorem clock_putErr (s : State) (x : ErrCount) : (s.putErr x).clock = s.clock := rfl
@[simp] theorem power_putErr (s : State) (x : ErrCount) : (s.putErr x).power = s.power := rfl
@[simp] theorem mem_putErr (s : State) (x : ErrCount) : (s.putErr x).mem = s.mem := rfl
@[simp] theorem hostMem_putErr (s : State) (x : ErrCount) : (s.putErr x).hostMem = s.hostMem := rfl
@[simp] theorem cores_putErr (s : State) (x : ErrCount) : (s.putErr x).cores = s.cores := rfl
@[simp] theorem courts_putErr (s : State) (x : ErrCount) : (s.putErr x).courts = s.courts := rfl
@[simp] theorem domain_putErr (s : State) (x : ErrCount) : (s.putErr x).domain = s.domain := rfl
@[simp] theorem vfs_putErr (s : State) (x : ErrCount) : (s.putErr x).vfs = s.vfs := rfl
@[simp] theorem busData_putErr (s : State) (x : ErrCount) : (s.putErr x).busData = s.busData := rfl
@[simp] theorem stalled_putErr (s : State) (x : ErrCount) : (s.putErr x).stalled = s.stalled := rfl
@[simp] theorem draws_putErr (s : State) (x : ErrCount) : (s.putErr x).draws = s.draws := rfl
@[simp] theorem ended_putErr (s : State) (x : ErrCount) : (s.putErr x).ended = s.ended := rfl
@[simp] theorem cur_putErr (s : State) (x : ErrCount) : (s.putErr x).cur = s.cur := rfl
@[simp] theorem arg_putErr (s : State) (x : ErrCount) : (s.putErr x).arg = s.arg := rfl
@[simp] theorem agenda_putErr (s : State) (x : ErrCount) : (s.putErr x).agenda = s.agenda := rfl

/-! ## setLink: what it leaves -/

@[simp] theorem time_setLink (s : State) (n : Nat) (l : Link) : (s.setLink n l).time = s.time := rfl
@[simp] theorem clock_setLink (s : State) (n : Nat) (l : Link) : (s.setLink n l).clock = s.clock := rfl
@[simp] theorem power_setLink (s : State) (n : Nat) (l : Link) : (s.setLink n l).power = s.power := rfl
@[simp] theorem mem_setLink (s : State) (n : Nat) (l : Link) : (s.setLink n l).mem = s.mem := rfl
@[simp] theorem hostMem_setLink (s : State) (n : Nat) (l : Link) : (s.setLink n l).hostMem = s.hostMem := rfl
@[simp] theorem cores_setLink (s : State) (n : Nat) (l : Link) : (s.setLink n l).cores = s.cores := rfl
@[simp] theorem courts_setLink (s : State) (n : Nat) (l : Link) : (s.setLink n l).courts = s.courts := rfl
@[simp] theorem floor_setLink (s : State) (n : Nat) (l : Link) : (s.setLink n l).floor = s.floor := rfl
@[simp] theorem vfs_setLink (s : State) (n : Nat) (l : Link) : (s.setLink n l).vfs = s.vfs := rfl
@[simp] theorem busData_setLink (s : State) (n : Nat) (l : Link) : (s.setLink n l).busData = s.busData := rfl
@[simp] theorem stalled_setLink (s : State) (n : Nat) (l : Link) : (s.setLink n l).stalled = s.stalled := rfl
@[simp] theorem draws_setLink (s : State) (n : Nat) (l : Link) : (s.setLink n l).draws = s.draws := rfl
@[simp] theorem ended_setLink (s : State) (n : Nat) (l : Link) : (s.setLink n l).ended = s.ended := rfl
@[simp] theorem cur_setLink (s : State) (n : Nat) (l : Link) : (s.setLink n l).cur = s.cur := rfl
@[simp] theorem arg_setLink (s : State) (n : Nat) (l : Link) : (s.setLink n l).arg = s.arg := rfl
@[simp] theorem agenda_setLink (s : State) (n : Nat) (l : Link) : (s.setLink n l).agenda = s.agenda := rfl

/-! ## onBulk: what it leaves -/

@[simp] theorem time_onBulk (s : State) (n : Nat) (f : BulkCard → BulkCard) : (s.onBulk n f).time = s.time := rfl
@[simp] theorem clock_onBulk (s : State) (n : Nat) (f : BulkCard → BulkCard) : (s.onBulk n f).clock = s.clock := rfl
@[simp] theorem power_onBulk (s : State) (n : Nat) (f : BulkCard → BulkCard) : (s.onBulk n f).power = s.power := rfl
@[simp] theorem mem_onBulk (s : State) (n : Nat) (f : BulkCard → BulkCard) : (s.onBulk n f).mem = s.mem := rfl
@[simp] theorem hostMem_onBulk (s : State) (n : Nat) (f : BulkCard → BulkCard) : (s.onBulk n f).hostMem = s.hostMem := rfl
@[simp] theorem cores_onBulk (s : State) (n : Nat) (f : BulkCard → BulkCard) : (s.onBulk n f).cores = s.cores := rfl
@[simp] theorem courts_onBulk (s : State) (n : Nat) (f : BulkCard → BulkCard) : (s.onBulk n f).courts = s.courts := rfl
@[simp] theorem domain_onBulk (s : State) (n : Nat) (f : BulkCard → BulkCard) : (s.onBulk n f).domain = s.domain := rfl
@[simp] theorem vfs_onBulk (s : State) (n : Nat) (f : BulkCard → BulkCard) : (s.onBulk n f).vfs = s.vfs := rfl
@[simp] theorem busData_onBulk (s : State) (n : Nat) (f : BulkCard → BulkCard) : (s.onBulk n f).busData = s.busData := rfl
@[simp] theorem stalled_onBulk (s : State) (n : Nat) (f : BulkCard → BulkCard) : (s.onBulk n f).stalled = s.stalled := rfl
@[simp] theorem draws_onBulk (s : State) (n : Nat) (f : BulkCard → BulkCard) : (s.onBulk n f).draws = s.draws := rfl
@[simp] theorem ended_onBulk (s : State) (n : Nat) (f : BulkCard → BulkCard) : (s.onBulk n f).ended = s.ended := rfl
@[simp] theorem cur_onBulk (s : State) (n : Nat) (f : BulkCard → BulkCard) : (s.onBulk n f).cur = s.cur := rfl
@[simp] theorem arg_onBulk (s : State) (n : Nat) (f : BulkCard → BulkCard) : (s.onBulk n f).arg = s.arg := rfl
@[simp] theorem agenda_onBulk (s : State) (n : Nat) (f : BulkCard → BulkCard) : (s.onBulk n f).agenda = s.agenda := rfl

/-! ## freeFrame: what it leaves -/

@[simp] theorem time_freeFrame (s : State) (p : Nat) : (s.freeFrame p).time = s.time := rfl
@[simp] theorem clock_freeFrame (s : State) (p : Nat) : (s.freeFrame p).clock = s.clock := rfl
@[simp] theorem power_freeFrame (s : State) (p : Nat) : (s.freeFrame p).power = s.power := rfl
@[simp] theorem mem_freeFrame (s : State) (p : Nat) : (s.freeFrame p).mem = s.mem := rfl
@[simp] theorem hostMem_freeFrame (s : State) (p : Nat) : (s.freeFrame p).hostMem = s.hostMem := rfl
@[simp] theorem cores_freeFrame (s : State) (p : Nat) : (s.freeFrame p).cores = s.cores := rfl
@[simp] theorem courts_freeFrame (s : State) (p : Nat) : (s.freeFrame p).courts = s.courts := rfl
@[simp] theorem domain_freeFrame (s : State) (p : Nat) : (s.freeFrame p).domain = s.domain := rfl
@[simp] theorem vfs_freeFrame (s : State) (p : Nat) : (s.freeFrame p).vfs = s.vfs := rfl
@[simp] theorem busData_freeFrame (s : State) (p : Nat) : (s.freeFrame p).busData = s.busData := rfl
@[simp] theorem stalled_freeFrame (s : State) (p : Nat) : (s.freeFrame p).stalled = s.stalled := rfl
@[simp] theorem draws_freeFrame (s : State) (p : Nat) : (s.freeFrame p).draws = s.draws := rfl
@[simp] theorem ended_freeFrame (s : State) (p : Nat) : (s.freeFrame p).ended = s.ended := rfl
@[simp] theorem cur_freeFrame (s : State) (p : Nat) : (s.freeFrame p).cur = s.cur := rfl
@[simp] theorem arg_freeFrame (s : State) (p : Nat) : (s.freeFrame p).arg = s.arg := rfl
@[simp] theorem agenda_freeFrame (s : State) (p : Nat) : (s.freeFrame p).agenda = s.agenda := rfl

/-! ## arenaFree: what it leaves -/

@[simp] theorem time_arenaFree (s : State) (c b : Nat) : (s.arenaFree c b).time = s.time := rfl
@[simp] theorem clock_arenaFree (s : State) (c b : Nat) : (s.arenaFree c b).clock = s.clock := rfl
@[simp] theorem power_arenaFree (s : State) (c b : Nat) : (s.arenaFree c b).power = s.power := rfl
@[simp] theorem mem_arenaFree (s : State) (c b : Nat) : (s.arenaFree c b).mem = s.mem := rfl
@[simp] theorem hostMem_arenaFree (s : State) (c b : Nat) : (s.arenaFree c b).hostMem = s.hostMem := rfl
@[simp] theorem cores_arenaFree (s : State) (c b : Nat) : (s.arenaFree c b).cores = s.cores := rfl
@[simp] theorem courts_arenaFree (s : State) (c b : Nat) : (s.arenaFree c b).courts = s.courts := rfl
@[simp] theorem domain_arenaFree (s : State) (c b : Nat) : (s.arenaFree c b).domain = s.domain := rfl
@[simp] theorem vfs_arenaFree (s : State) (c b : Nat) : (s.arenaFree c b).vfs = s.vfs := rfl
@[simp] theorem busData_arenaFree (s : State) (c b : Nat) : (s.arenaFree c b).busData = s.busData := rfl
@[simp] theorem stalled_arenaFree (s : State) (c b : Nat) : (s.arenaFree c b).stalled = s.stalled := rfl
@[simp] theorem draws_arenaFree (s : State) (c b : Nat) : (s.arenaFree c b).draws = s.draws := rfl
@[simp] theorem ended_arenaFree (s : State) (c b : Nat) : (s.arenaFree c b).ended = s.ended := rfl
@[simp] theorem cur_arenaFree (s : State) (c b : Nat) : (s.arenaFree c b).cur = s.cur := rfl
@[simp] theorem arg_arenaFree (s : State) (c b : Nat) : (s.arenaFree c b).arg = s.arg := rfl
@[simp] theorem agenda_arenaFree (s : State) (c b : Nat) : (s.arenaFree c b).agenda = s.agenda := rfl

/-! ## physZero: what it leaves -/

@[simp] theorem time_physZero (s : State) (p n : Nat) : (s.physZero p n).time = s.time := rfl
@[simp] theorem clock_physZero (s : State) (p n : Nat) : (s.physZero p n).clock = s.clock := rfl
@[simp] theorem power_physZero (s : State) (p n : Nat) : (s.physZero p n).power = s.power := rfl
@[simp] theorem hostMem_physZero (s : State) (p n : Nat) : (s.physZero p n).hostMem = s.hostMem := rfl
@[simp] theorem cores_physZero (s : State) (p n : Nat) : (s.physZero p n).cores = s.cores := rfl
@[simp] theorem courts_physZero (s : State) (p n : Nat) : (s.physZero p n).courts = s.courts := rfl
@[simp] theorem domain_physZero (s : State) (p n : Nat) : (s.physZero p n).domain = s.domain := rfl
@[simp] theorem vfs_physZero (s : State) (p n : Nat) : (s.physZero p n).vfs = s.vfs := rfl
@[simp] theorem busData_physZero (s : State) (p n : Nat) : (s.physZero p n).busData = s.busData := rfl
@[simp] theorem stalled_physZero (s : State) (p n : Nat) : (s.physZero p n).stalled = s.stalled := rfl
@[simp] theorem draws_physZero (s : State) (p n : Nat) : (s.physZero p n).draws = s.draws := rfl
@[simp] theorem ended_physZero (s : State) (p n : Nat) : (s.physZero p n).ended = s.ended := rfl
@[simp] theorem cur_physZero (s : State) (p n : Nat) : (s.physZero p n).cur = s.cur := rfl
@[simp] theorem arg_physZero (s : State) (p n : Nat) : (s.physZero p n).arg = s.arg := rfl
@[simp] theorem agenda_physZero (s : State) (p n : Nat) : (s.physZero p n).agenda = s.agenda := rfl

/-! ## putFrame: what it leaves -/

@[simp] theorem time_putFrame (s : State) (p : Nat) (f : Frame) : (s.putFrame p f).time = s.time := rfl
@[simp] theorem clock_putFrame (s : State) (p : Nat) (f : Frame) : (s.putFrame p f).clock = s.clock := rfl
@[simp] theorem power_putFrame (s : State) (p : Nat) (f : Frame) : (s.putFrame p f).power = s.power := rfl
@[simp] theorem hostMem_putFrame (s : State) (p : Nat) (f : Frame) : (s.putFrame p f).hostMem = s.hostMem := rfl
@[simp] theorem cores_putFrame (s : State) (p : Nat) (f : Frame) : (s.putFrame p f).cores = s.cores := rfl
@[simp] theorem courts_putFrame (s : State) (p : Nat) (f : Frame) : (s.putFrame p f).courts = s.courts := rfl
@[simp] theorem domain_putFrame (s : State) (p : Nat) (f : Frame) : (s.putFrame p f).domain = s.domain := rfl
@[simp] theorem vfs_putFrame (s : State) (p : Nat) (f : Frame) : (s.putFrame p f).vfs = s.vfs := rfl
@[simp] theorem busData_putFrame (s : State) (p : Nat) (f : Frame) : (s.putFrame p f).busData = s.busData := rfl
@[simp] theorem stalled_putFrame (s : State) (p : Nat) (f : Frame) : (s.putFrame p f).stalled = s.stalled := rfl
@[simp] theorem draws_putFrame (s : State) (p : Nat) (f : Frame) : (s.putFrame p f).draws = s.draws := rfl
@[simp] theorem ended_putFrame (s : State) (p : Nat) (f : Frame) : (s.putFrame p f).ended = s.ended := rfl
@[simp] theorem cur_putFrame (s : State) (p : Nat) (f : Frame) : (s.putFrame p f).cur = s.cur := rfl
@[simp] theorem arg_putFrame (s : State) (p : Nat) (f : Frame) : (s.putFrame p f).arg = s.arg := rfl
@[simp] theorem agenda_putFrame (s : State) (p : Nat) (f : Frame) : (s.putFrame p f).agenda = s.agenda := rfl

/-! ## physWrite: what it leaves -/

@[simp] theorem time_physWrite (s : State) (p : Nat) (bs : List Byte) : (s.physWrite p bs).time = s.time := by
  unfold State.physWrite; simp only; split <;> simp
@[simp] theorem clock_physWrite (s : State) (p : Nat) (bs : List Byte) : (s.physWrite p bs).clock = s.clock := by
  unfold State.physWrite; simp only; split <;> simp
@[simp] theorem power_physWrite (s : State) (p : Nat) (bs : List Byte) : (s.physWrite p bs).power = s.power := by
  unfold State.physWrite; simp only; split <;> simp
@[simp] theorem hostMem_physWrite (s : State) (p : Nat) (bs : List Byte) : (s.physWrite p bs).hostMem = s.hostMem := by
  unfold State.physWrite; simp only; split <;> simp
@[simp] theorem cores_physWrite (s : State) (p : Nat) (bs : List Byte) : (s.physWrite p bs).cores = s.cores := by
  unfold State.physWrite; simp only; split <;> simp
@[simp] theorem courts_physWrite (s : State) (p : Nat) (bs : List Byte) : (s.physWrite p bs).courts = s.courts := by
  unfold State.physWrite; simp only; split <;> simp
@[simp] theorem domain_physWrite (s : State) (p : Nat) (bs : List Byte) : (s.physWrite p bs).domain = s.domain := by
  unfold State.physWrite; simp only; split <;> simp
@[simp] theorem vfs_physWrite (s : State) (p : Nat) (bs : List Byte) : (s.physWrite p bs).vfs = s.vfs := by
  unfold State.physWrite; simp only; split <;> simp
@[simp] theorem busData_physWrite (s : State) (p : Nat) (bs : List Byte) : (s.physWrite p bs).busData = s.busData := by
  unfold State.physWrite; simp only; split <;> simp
@[simp] theorem stalled_physWrite (s : State) (p : Nat) (bs : List Byte) : (s.physWrite p bs).stalled = s.stalled := by
  unfold State.physWrite; simp only; split <;> simp
@[simp] theorem draws_physWrite (s : State) (p : Nat) (bs : List Byte) : (s.physWrite p bs).draws = s.draws := by
  unfold State.physWrite; simp only; split <;> simp
@[simp] theorem ended_physWrite (s : State) (p : Nat) (bs : List Byte) : (s.physWrite p bs).ended = s.ended := by
  unfold State.physWrite; simp only; split <;> simp
@[simp] theorem cur_physWrite (s : State) (p : Nat) (bs : List Byte) : (s.physWrite p bs).cur = s.cur := by
  unfold State.physWrite; simp only; split <;> simp
@[simp] theorem arg_physWrite (s : State) (p : Nat) (bs : List Byte) : (s.physWrite p bs).arg = s.arg := by
  unfold State.physWrite; simp only; split <;> simp
@[simp] theorem agenda_physWrite (s : State) (p : Nat) (bs : List Byte) : (s.physWrite p bs).agenda = s.agenda := by
  unfold State.physWrite; simp only; split <;> simp

/-! ## physPut: what it leaves -/

@[simp] theorem time_physPut (s : State) (p n v : Nat) : (s.physPut p n v).time = s.time := by
  simp [State.physPut]
@[simp] theorem clock_physPut (s : State) (p n v : Nat) : (s.physPut p n v).clock = s.clock := by
  simp [State.physPut]
@[simp] theorem power_physPut (s : State) (p n v : Nat) : (s.physPut p n v).power = s.power := by
  simp [State.physPut]
@[simp] theorem hostMem_physPut (s : State) (p n v : Nat) : (s.physPut p n v).hostMem = s.hostMem := by
  simp [State.physPut]
@[simp] theorem cores_physPut (s : State) (p n v : Nat) : (s.physPut p n v).cores = s.cores := by
  simp [State.physPut]
@[simp] theorem courts_physPut (s : State) (p n v : Nat) : (s.physPut p n v).courts = s.courts := by
  simp [State.physPut]
@[simp] theorem domain_physPut (s : State) (p n v : Nat) : (s.physPut p n v).domain = s.domain := by
  simp [State.physPut]
@[simp] theorem vfs_physPut (s : State) (p n v : Nat) : (s.physPut p n v).vfs = s.vfs := by
  simp [State.physPut]
@[simp] theorem busData_physPut (s : State) (p n v : Nat) : (s.physPut p n v).busData = s.busData := by
  simp [State.physPut]
@[simp] theorem stalled_physPut (s : State) (p n v : Nat) : (s.physPut p n v).stalled = s.stalled := by
  simp [State.physPut]
@[simp] theorem draws_physPut (s : State) (p n v : Nat) : (s.physPut p n v).draws = s.draws := by
  simp [State.physPut]
@[simp] theorem ended_physPut (s : State) (p n v : Nat) : (s.physPut p n v).ended = s.ended := by
  simp [State.physPut]
@[simp] theorem cur_physPut (s : State) (p n v : Nat) : (s.physPut p n v).cur = s.cur := by
  simp [State.physPut]
@[simp] theorem arg_physPut (s : State) (p n v : Nat) : (s.physPut p n v).arg = s.arg := by
  simp [State.physPut]
@[simp] theorem agenda_physPut (s : State) (p n v : Nat) : (s.physPut p n v).agenda = s.agenda := by
  simp [State.physPut]

/-! ## onHart: what it leaves -/

@[simp] theorem time_onHart (s : State) (f : RvStrand → RvStrand) : (s.onHart f).time = s.time := by
  unfold State.onHart; split <;> rfl
@[simp] theorem clock_onHart (s : State) (f : RvStrand → RvStrand) : (s.onHart f).clock = s.clock := by
  unfold State.onHart; split <;> rfl
@[simp] theorem power_onHart (s : State) (f : RvStrand → RvStrand) : (s.onHart f).power = s.power := by
  unfold State.onHart; split <;> rfl
@[simp] theorem mem_onHart (s : State) (f : RvStrand → RvStrand) : (s.onHart f).mem = s.mem := by
  unfold State.onHart; split <;> rfl
@[simp] theorem hostMem_onHart (s : State) (f : RvStrand → RvStrand) : (s.onHart f).hostMem = s.hostMem := by
  unfold State.onHart; split <;> rfl
@[simp] theorem floor_onHart (s : State) (f : RvStrand → RvStrand) : (s.onHart f).floor = s.floor := by
  unfold State.onHart; split <;> rfl
@[simp] theorem domain_onHart (s : State) (f : RvStrand → RvStrand) : (s.onHart f).domain = s.domain := by
  unfold State.onHart; split <;> rfl
@[simp] theorem vfs_onHart (s : State) (f : RvStrand → RvStrand) : (s.onHart f).vfs = s.vfs := by
  unfold State.onHart; split <;> rfl
@[simp] theorem busData_onHart (s : State) (f : RvStrand → RvStrand) : (s.onHart f).busData = s.busData := by
  unfold State.onHart; split <;> rfl
@[simp] theorem stalled_onHart (s : State) (f : RvStrand → RvStrand) : (s.onHart f).stalled = s.stalled := by
  unfold State.onHart; split <;> rfl
@[simp] theorem draws_onHart (s : State) (f : RvStrand → RvStrand) : (s.onHart f).draws = s.draws := by
  unfold State.onHart; split <;> rfl
@[simp] theorem ended_onHart (s : State) (f : RvStrand → RvStrand) : (s.onHart f).ended = s.ended := by
  unfold State.onHart; split <;> rfl
@[simp] theorem cur_onHart (s : State) (f : RvStrand → RvStrand) : (s.onHart f).cur = s.cur := by
  unfold State.onHart; split <;> rfl
@[simp] theorem arg_onHart (s : State) (f : RvStrand → RvStrand) : (s.onHart f).arg = s.arg := by
  unfold State.onHart; split <;> rfl
@[simp] theorem agenda_onHart (s : State) (f : RvStrand → RvStrand) : (s.onHart f).agenda = s.agenda := by
  unfold State.onHart; split <;> rfl

/-! ## postEvent: what it leaves -/

@[simp] theorem time_postEvent (s : State) (v : Nat) (e : EventRec) : (s.postEvent v e).time = s.time := by
  unfold State.postEvent; simp only; split; · rfl
  split <;> simp
@[simp] theorem clock_postEvent (s : State) (v : Nat) (e : EventRec) : (s.postEvent v e).clock = s.clock := by
  unfold State.postEvent; simp only; split; · rfl
  split <;> simp
@[simp] theorem power_postEvent (s : State) (v : Nat) (e : EventRec) : (s.postEvent v e).power = s.power := by
  unfold State.postEvent; simp only; split; · rfl
  split <;> simp
@[simp] theorem mem_postEvent (s : State) (v : Nat) (e : EventRec) : (s.postEvent v e).mem = s.mem := by
  unfold State.postEvent; simp only; split; · rfl
  split <;> simp
@[simp] theorem cores_postEvent (s : State) (v : Nat) (e : EventRec) : (s.postEvent v e).cores = s.cores := by
  unfold State.postEvent; simp only; split; · rfl
  split <;> simp
@[simp] theorem courts_postEvent (s : State) (v : Nat) (e : EventRec) : (s.postEvent v e).courts = s.courts := by
  unfold State.postEvent; simp only; split; · rfl
  split <;> simp
@[simp] theorem floor_postEvent (s : State) (v : Nat) (e : EventRec) : (s.postEvent v e).floor = s.floor := by
  unfold State.postEvent; simp only; split; · rfl
  split <;> simp
@[simp] theorem domain_postEvent (s : State) (v : Nat) (e : EventRec) : (s.postEvent v e).domain = s.domain := by
  unfold State.postEvent; simp only; split; · rfl
  split <;> simp
@[simp] theorem busData_postEvent (s : State) (v : Nat) (e : EventRec) : (s.postEvent v e).busData = s.busData := by
  unfold State.postEvent; simp only; split; · rfl
  split <;> simp
@[simp] theorem stalled_postEvent (s : State) (v : Nat) (e : EventRec) : (s.postEvent v e).stalled = s.stalled := by
  unfold State.postEvent; simp only; split; · rfl
  split <;> simp
@[simp] theorem draws_postEvent (s : State) (v : Nat) (e : EventRec) : (s.postEvent v e).draws = s.draws := by
  unfold State.postEvent; simp only; split; · rfl
  split <;> simp
@[simp] theorem ended_postEvent (s : State) (v : Nat) (e : EventRec) : (s.postEvent v e).ended = s.ended := by
  unfold State.postEvent; simp only; split; · rfl
  split <;> simp
@[simp] theorem cur_postEvent (s : State) (v : Nat) (e : EventRec) : (s.postEvent v e).cur = s.cur := by
  unfold State.postEvent; simp only; split; · rfl
  split <;> simp
@[simp] theorem arg_postEvent (s : State) (v : Nat) (e : EventRec) : (s.postEvent v e).arg = s.arg := by
  unfold State.postEvent; simp only; split; · rfl
  split <;> simp
@[simp] theorem agenda_postEvent (s : State) (v : Nat) (e : EventRec) : (s.postEvent v e).agenda = s.agenda := by
  unfold State.postEvent; simp only; split; · rfl
  split <;> simp

/-! ## ctxEvent: what it leaves -/

@[simp] theorem time_ctxEvent (s : State) (e : EventRec) : (s.ctxEvent e).time = s.time := by
  simp [State.ctxEvent]
@[simp] theorem clock_ctxEvent (s : State) (e : EventRec) : (s.ctxEvent e).clock = s.clock := by
  simp [State.ctxEvent]
@[simp] theorem power_ctxEvent (s : State) (e : EventRec) : (s.ctxEvent e).power = s.power := by
  simp [State.ctxEvent]
@[simp] theorem mem_ctxEvent (s : State) (e : EventRec) : (s.ctxEvent e).mem = s.mem := by
  simp [State.ctxEvent]
@[simp] theorem cores_ctxEvent (s : State) (e : EventRec) : (s.ctxEvent e).cores = s.cores := by
  simp [State.ctxEvent]
@[simp] theorem courts_ctxEvent (s : State) (e : EventRec) : (s.ctxEvent e).courts = s.courts := by
  simp [State.ctxEvent]
@[simp] theorem floor_ctxEvent (s : State) (e : EventRec) : (s.ctxEvent e).floor = s.floor := by
  simp [State.ctxEvent]
@[simp] theorem domain_ctxEvent (s : State) (e : EventRec) : (s.ctxEvent e).domain = s.domain := by
  simp [State.ctxEvent]
@[simp] theorem busData_ctxEvent (s : State) (e : EventRec) : (s.ctxEvent e).busData = s.busData := by
  simp [State.ctxEvent]
@[simp] theorem stalled_ctxEvent (s : State) (e : EventRec) : (s.ctxEvent e).stalled = s.stalled := by
  simp [State.ctxEvent]
@[simp] theorem draws_ctxEvent (s : State) (e : EventRec) : (s.ctxEvent e).draws = s.draws := by
  simp [State.ctxEvent]
@[simp] theorem ended_ctxEvent (s : State) (e : EventRec) : (s.ctxEvent e).ended = s.ended := by
  simp [State.ctxEvent]
@[simp] theorem cur_ctxEvent (s : State) (e : EventRec) : (s.ctxEvent e).cur = s.cur := by
  simp [State.ctxEvent]
@[simp] theorem arg_ctxEvent (s : State) (e : EventRec) : (s.ctxEvent e).arg = s.arg := by
  simp [State.ctxEvent]
@[simp] theorem agenda_ctxEvent (s : State) (e : EventRec) : (s.ctxEvent e).agenda = s.agenda := by
  simp [State.ctxEvent]

/-! ## partEvent: what it leaves -/

@[simp] theorem time_partEvent (s : State) (e : EventRec) : (s.partEvent e).time = s.time := by
  simp [State.partEvent]
@[simp] theorem clock_partEvent (s : State) (e : EventRec) : (s.partEvent e).clock = s.clock := by
  simp [State.partEvent]
@[simp] theorem power_partEvent (s : State) (e : EventRec) : (s.partEvent e).power = s.power := by
  simp [State.partEvent]
@[simp] theorem mem_partEvent (s : State) (e : EventRec) : (s.partEvent e).mem = s.mem := by
  simp [State.partEvent]
@[simp] theorem cores_partEvent (s : State) (e : EventRec) : (s.partEvent e).cores = s.cores := by
  simp [State.partEvent]
@[simp] theorem courts_partEvent (s : State) (e : EventRec) : (s.partEvent e).courts = s.courts := by
  simp [State.partEvent]
@[simp] theorem floor_partEvent (s : State) (e : EventRec) : (s.partEvent e).floor = s.floor := by
  simp [State.partEvent]
@[simp] theorem domain_partEvent (s : State) (e : EventRec) : (s.partEvent e).domain = s.domain := by
  simp [State.partEvent]
@[simp] theorem busData_partEvent (s : State) (e : EventRec) : (s.partEvent e).busData = s.busData := by
  simp [State.partEvent]
@[simp] theorem stalled_partEvent (s : State) (e : EventRec) : (s.partEvent e).stalled = s.stalled := by
  simp [State.partEvent]
@[simp] theorem draws_partEvent (s : State) (e : EventRec) : (s.partEvent e).draws = s.draws := by
  simp [State.partEvent]
@[simp] theorem ended_partEvent (s : State) (e : EventRec) : (s.partEvent e).ended = s.ended := by
  simp [State.partEvent]
@[simp] theorem cur_partEvent (s : State) (e : EventRec) : (s.partEvent e).cur = s.cur := by
  simp [State.partEvent]
@[simp] theorem arg_partEvent (s : State) (e : EventRec) : (s.partEvent e).arg = s.arg := by
  simp [State.partEvent]
@[simp] theorem agenda_partEvent (s : State) (e : EventRec) : (s.partEvent e).agenda = s.agenda := by
  simp [State.partEvent]

/-! ## metAll, release, retireAt -/

@[simp] theorem time_metAll (s : State) (ms : List Nat) : (s.metAll ms).time = s.time := rfl
@[simp] theorem clock_metAll (s : State) (ms : List Nat) : (s.metAll ms).clock = s.clock := rfl
@[simp] theorem power_metAll (s : State) (ms : List Nat) : (s.metAll ms).power = s.power := rfl
@[simp] theorem mem_metAll (s : State) (ms : List Nat) : (s.metAll ms).mem = s.mem := rfl
@[simp] theorem hostMem_metAll (s : State) (ms : List Nat) : (s.metAll ms).hostMem = s.hostMem := rfl
@[simp] theorem cores_metAll (s : State) (ms : List Nat) : (s.metAll ms).cores = s.cores := rfl
@[simp] theorem courts_metAll (s : State) (ms : List Nat) : (s.metAll ms).courts = s.courts := rfl
@[simp] theorem floor_metAll (s : State) (ms : List Nat) : (s.metAll ms).floor = s.floor := rfl
@[simp] theorem domain_metAll (s : State) (ms : List Nat) : (s.metAll ms).domain = s.domain := rfl
@[simp] theorem vfs_metAll (s : State) (ms : List Nat) : (s.metAll ms).vfs = s.vfs := rfl
@[simp] theorem busData_metAll (s : State) (ms : List Nat) : (s.metAll ms).busData = s.busData := rfl
@[simp] theorem stalled_metAll (s : State) (ms : List Nat) : (s.metAll ms).stalled = s.stalled := rfl
@[simp] theorem draws_metAll (s : State) (ms : List Nat) : (s.metAll ms).draws = s.draws := rfl
@[simp] theorem ended_metAll (s : State) (ms : List Nat) : (s.metAll ms).ended = s.ended := rfl
@[simp] theorem cur_metAll (s : State) (ms : List Nat) : (s.metAll ms).cur = s.cur := rfl
@[simp] theorem arg_metAll (s : State) (ms : List Nat) : (s.metAll ms).arg = s.arg := rfl

/-! ## noteRoutes: what it leaves -/

@[simp] theorem time_noteRoutes (s : State) : s.noteRoutes.time = s.time := rfl
@[simp] theorem clock_noteRoutes (s : State) : s.noteRoutes.clock = s.clock := rfl
@[simp] theorem power_noteRoutes (s : State) : s.noteRoutes.power = s.power := rfl
@[simp] theorem mem_noteRoutes (s : State) : s.noteRoutes.mem = s.mem := rfl
@[simp] theorem hostMem_noteRoutes (s : State) : s.noteRoutes.hostMem = s.hostMem := rfl
@[simp] theorem cores_noteRoutes (s : State) : s.noteRoutes.cores = s.cores := rfl
@[simp] theorem courts_noteRoutes (s : State) : s.noteRoutes.courts = s.courts := rfl
@[simp] theorem floor_noteRoutes (s : State) : s.noteRoutes.floor = s.floor := rfl
@[simp] theorem vfs_noteRoutes (s : State) : s.noteRoutes.vfs = s.vfs := rfl
@[simp] theorem busData_noteRoutes (s : State) : s.noteRoutes.busData = s.busData := rfl
@[simp] theorem stalled_noteRoutes (s : State) : s.noteRoutes.stalled = s.stalled := rfl
@[simp] theorem draws_noteRoutes (s : State) : s.noteRoutes.draws = s.draws := rfl
@[simp] theorem ended_noteRoutes (s : State) : s.noteRoutes.ended = s.ended := rfl
@[simp] theorem cur_noteRoutes (s : State) : s.noteRoutes.cur = s.cur := rfl
@[simp] theorem arg_noteRoutes (s : State) : s.noteRoutes.arg = s.arg := rfl
@[simp] theorem agenda_noteRoutes (s : State) : s.noteRoutes.agenda = s.agenda := rfl

@[simp] theorem Floor.taken_release (f : Floor) (ns : List Nat) :
    (f.release ns).taken = f.taken.filter fun n => !(n ∈ ns) := rfl

@[simp] theorem Floor.released_release (f : Floor) (ns : List Nat) :
    (f.release ns).released = ns.foldl (fun l n => addMark n l) f.released := rfl

theorem mem_addMark {α : Type} [DecidableEq α] {x y : α} {l : List α} : y ∈ addMark x l ↔ y = x ∨ y ∈ l := by
  unfold addMark
  split <;> simp_all [or_comm]

/-- A retirement keeps the home view of its dispatch (R337). -/
@[simp] theorem Dispatch.home_retireAt (d : Dispatch) (n : Nat) :
    (d.retireAt n).cores.map (·.home) = d.cores.map (·.home) := by
  refine List.ext_getElem? fun i => ?_
  simp only [Dispatch.retireAt, List.getElem?_map, List.getElem?_mapIdx]
  cases d.cores[i]? with
  | none => rfl
  | some y => simp only [Option.map_some]; split <;> rfl

end Sys2Proof.Machine
end

