-- ==== Sys2Proof/Laws/Operands.lean ====
section
/-!
SUPPORT. Once an instruction of E issues, it runs its own effect on its operand values (Safety.lean's issues,
operands, popped), and E goes on.
-/
namespace Sys2Proof.Machine

open Sys2Proof

/-! ## Reading the acting core -/

@[simp] theorem Tab.find_put_self {α : Type} (t : Tab α) (k : Nat) (v : α) : (t.put k v).find k = some v := by
  induction t with
  | nil => simp [Tab.put, Tab.find]
  | cons p t ih =>
    obtain ⟨k', v'⟩ := p
    simp only [Tab.put]
    split
    · simp [Tab.find]
    · split
      · simp [Tab.find]
      · simp [Tab.find, *]

theorem Tab.get_put_self {α : Type} (d : α) (t : Tab α) (k : Nat) (v : α) : (t.put k v).get d k = v := by
  induction t with
  | nil => simp [Tab.put, Tab.get]
  | cons p t ih =>
    obtain ⟨k', v'⟩ := p
    simp only [Tab.put]
    split
    · simp [Tab.get]
    · split
      · simp [Tab.get]
      · simp [Tab.get, *]

theorem Tab.get_put_other {α : Type} (d : α) (t : Tab α) {k j : Nat} (v : α) (h : j ≠ k) :
    (t.put k v).get d j = t.get d j := by
  induction t with
  | nil => simp [Tab.put, Tab.get, h]
  | cons p t ih =>
    obtain ⟨k', v'⟩ := p
    simp only [Tab.put]
    split
    · simp [Tab.get, h]
    · split
      · subst_vars; simp [Tab.get, h]
      · simp [Tab.get, ih]

theorem core_onCore_self (s : State) (n : Nat) (f : Core → Core) : (s.onCore n f).core n = f (s.core n) := by
  simp [State.onCore, State.setCore, State.core, Tab.get_put_self]

theorem core_onCore_other (s : State) {n m : Nat} (f : Core → Core) (h : m ≠ n) : (s.onCore n f).core m = s.core m := by
  simp [State.onCore, State.setCore, State.core, Tab.get_put_other _ _ _ h]

@[simp] theorem me_onMy (s : State) (f : Core → Core) : (s.onMy f).me = s.me := rfl

theorem my_onMy (s : State) (f : Core → Core) : (s.onMy f).my = f s.my := by
  simp only [State.my, me_onMy]
  exact core_onCore_self ..

/-! ## One source field -/

theorem run_readG (s : State) {n : Nat} (h : n ∉ s.my.poison.eRegs) : readG n s = .ok (s.my.e.rd n, s) := by
  simp [readG, run_bind, run_gets, h, run_check_true]

theorem run_readV (s : State) {n : Nat} (h : (Space.vregs, n) ∉ s.my.poison.granules) :
    readV n s = .ok (s.my.e.rdV n, s) := by
  simp [readV, run_bind, run_gets, h, run_check_true]

theorem run_popEntry {s : State} {id : Nat} {v : V128} {rest : List V128} (h : s.my.entries id = v :: rest)
    (hp : (id, 0) ∉ s.my.poison.entries) : popEntry id s = .ok (v, s.onMy fun c => c.popOne id) := by
  simp [popEntry, run_bind, run_gets, h, hp, run_check_true, run_change, run_map]

/-! ## Popping -/

@[simp] theorem popOne_e (c : Core) (id : Nat) : (c.popOne id).e = c.e := by
  unfold Core.popOne; simp only; split <;> rfl

@[simp] theorem popOne_eRegs (c : Core) (id : Nat) : (c.popOne id).poison.eRegs = c.poison.eRegs := by
  unfold Core.popOne; simp only; split <;> rfl

@[simp] theorem popOne_granules (c : Core) (id : Nat) : (c.popOne id).poison.granules = c.poison.granules := by
  unfold Core.popOne; simp only; split <;> rfl

/-- The queues once one of them is popped. -/
theorem popOne_q (c : Core) (id : Nat) : (c.popOne id).q = match id with
    | 0 => { c.q with lq0 := c.q.lq0.drop 1 }
    | 1 => { c.q with lq1 := c.q.lq1.drop 1 }
    | 2 => { c.q with sq := c.q.sq.drop 1 }
    | 3 => { c.q with bol := c.q.bol.drop 1 }
    | 4 => { c.q with bos := c.q.bos.drop 1 }
    | 5 => { c.q with boi := c.q.boi.drop 1 }
    | 6 => { c.q with inN := c.q.inN.drop 1 }
    | 7 => { c.q with inE := c.q.inE.drop 1 }
    | 8 => { c.q with inS := c.q.inS.drop 1 }
    | 9 => { c.q with inW := c.q.inW.drop 1 }
    | 16 => { c.q with inbox := c.q.inbox.drop 1 }
    | _ => c.q := by
  unfold Core.popOne; simp only; split <;> rfl

/-- A number that names a queue of a core, or none. -/
theorem queue_cases (id : Nat) : id = 0 ∨ id = 1 ∨ id = 2 ∨ id = 3 ∨ id = 4 ∨ id = 5 ∨ id = 6 ∨ id = 7 ∨ id = 8 ∨
    id = 9 ∨ id = 16 ∨ ∀ c : Core, c.entries id = [] := by
  by_cases h : id < 17
  · have : id = 0 ∨ id = 1 ∨ id = 2 ∨ id = 3 ∨ id = 4 ∨ id = 5 ∨ id = 6 ∨ id = 7 ∨ id = 8 ∨ id = 9 ∨ id = 10 ∨
        id = 11 ∨ id = 12 ∨ id = 13 ∨ id = 14 ∨ id = 15 ∨ id = 16 := by omega
    rcases this with h | h | h | h | h | h | h | h | h | h | h | h | h | h | h | h | h <;> subst h <;> simp [Core.entries]
  · have : ∀ c : Core, c.entries id = [] := by
      intro c; unfold Core.entries; split <;> first | omega | rfl
    simp [this]

/-- Popping a queue leaves the others. -/
theorem popOne_entries_other (c : Core) {id j : Nat} (h : j ≠ id) : (c.popOne id).entries j = c.entries j := by
  rcases queue_cases j with h | h | h | h | h | h | h | h | h | h | h | hj <;> try rw [hj, hj]
  all_goals
    subst h
    simp only [Core.entries, popOne_q]
    split <;> first | rfl | omega

/-- Popping a queue that holds an entry removes the oldest. -/
theorem popOne_entries_self (c : Core) (id : Nat) {v : V128} {r : List V128} (h : c.entries id = v :: r) :
    (c.popOne id).entries id = r := by
  rcases queue_cases id with hi | hi | hi | hi | hi | hi | hi | hi | hi | hi | hi | hi
  · subst hi
    simp only [Core.entries, popOne_q] at *
    match hq : c.q.lq0 with
    | .data x :: t => rw [hq] at h; simp [filled] at *; exact h.2
    | [] => rw [hq] at h; cases h
    | .arriving _ :: _ => rw [hq] at h; cases h
    | .reserved _ _ _ :: _ => rw [hq] at h; cases h
    | .pending _ _ _ :: _ => rw [hq] at h; cases h
  · subst hi
    simp only [Core.entries, popOne_q] at *
    match hq : c.q.lq1 with
    | .data x :: t => rw [hq] at h; simp [filled] at *; exact h.2
    | [] => rw [hq] at h; cases h
    | .arriving _ :: _ => rw [hq] at h; cases h
    | .reserved _ _ _ :: _ => rw [hq] at h; cases h
    | .pending _ _ _ :: _ => rw [hq] at h; cases h
  all_goals first
    | (rw [hi] at h; cases h)
    | (subst hi; simp only [Core.entries, popOne_q, List.map_drop] at *; rw [h]; rfl)

/-- The marks of a queue move up by one place when it is popped; those of the others stay. -/
theorem popOne_marks (c : Core) (id j k : Nat) (h : (j, k) ∈ (c.popOne id).poison.entries) :
    (j, if j = id then k + 1 else k) ∈ c.poison.entries := by
  unfold Core.popOne at h
  simp only at h
  split at h
  · rename_i hnil
    rw [hnil] at h; cases h
  · obtain ⟨⟨a, b⟩, hm, he⟩ := List.mem_map.1 h
    obtain ⟨hm, hne⟩ := List.mem_filter.1 hm
    simp only at he
    split at he
    · rename_i ha
      subst ha
      cases he
      have hb : b ≠ 0 := by rintro rfl; simp at hne
      rwa [if_pos rfl, Nat.sub_add_cancel (Nat.pos_of_ne_zero hb)]
    · rename_i ha
      cases he
      rwa [if_neg ha]

/-! ## The operands of an instruction -/

@[simp] theorem pop_cur (s : State) (id : Nat) : (s.pop id).cur = s.cur := rfl

theorem pop_my (s : State) (id : Nat) : (s.pop id).my = s.my.popOne id := my_onMy ..

@[simp] theorem pops_cur (s : State) (l : List Nat) : (l.foldl State.pop s).cur = s.cur := by
  induction l generalizing s with
  | nil => rfl
  | cons a l ih => simp [ih]

@[simp] theorem pops_e (s : State) (l : List Nat) : (l.foldl State.pop s).my.e = s.my.e := by
  induction l generalizing s with
  | nil => rfl
  | cons a l ih => simp [ih, pop_my]

@[simp] theorem pops_eRegs (s : State) (l : List Nat) :
    (l.foldl State.pop s).my.poison.eRegs = s.my.poison.eRegs := by
  induction l generalizing s with
  | nil => rfl
  | cons a l ih => simp [ih, pop_my]

@[simp] theorem pops_granules (s : State) (l : List Nat) :
    (l.foldl State.pop s).my.poison.granules = s.my.poison.granules := by
  induction l generalizing s with
  | nil => rfl
  | cons a l ih => simp [ih, pop_my]

/-- The entries left after pops that the queues could serve. -/
theorem pops_entries (s : State) (l : List Nat) (id : Nat) (h : l.count id ≤ (s.my.entries id).length) :
    (l.foldl State.pop s).my.entries id = (s.my.entries id).drop (l.count id) := by
  induction l generalizing s with
  | nil => simp
  | cons a l ih =>
    rw [List.foldl_cons]
    by_cases ha : a = id
    · subst ha
      rw [List.count_cons_self] at h ⊢
      match he : s.my.entries a with
      | [] => rw [he] at h; simp at h
      | v :: r =>
        have hr := popOne_entries_self s.my a he
        rw [he] at h
        rw [ih _ (by rw [pop_my, hr]; simpa using h), pop_my, hr]
        simp
    · rw [List.count_cons_of_ne ha] at h ⊢
      have hr : (s.pop a).my.entries id = s.my.entries id := by
        rw [pop_my]; exact popOne_entries_other _ (Ne.symm ha)
      rw [ih _ (by rw [hr]; exact h), hr]

theorem pops_marks (s : State) (l : List Nat) (id k : Nat)
    (h : (id, k) ∈ (l.foldl State.pop s).my.poison.entries) : (id, k + l.count id) ∈ s.my.poison.entries := by
  induction l generalizing s k with
  | nil => simpa using h
  | cons a l ih =>
    have h1 := ih _ _ h
    rw [pop_my] at h1
    have h2 := popOne_marks _ _ _ _ h1
    by_cases ha : id = a
    · subst ha
      rw [if_pos rfl] at h2
      rwa [List.count_cons_self, ← Nat.add_assoc]
    · rw [if_neg ha] at h2
      rwa [List.count_cons_of_ne (Ne.symm ha)]

/-- Reading one source field of an instruction that issues, after earlier pops: its value, and its pop. -/
theorem run_readField {s : State} {f : Fld} {raw : BitVec 16} {pops : List Nat}
    (hq : ∀ id ∈ popOf f raw, pops.count id < (s.my.entries id).length)
    (hc : s.clean f raw (earlierPops pops f raw) = true) :
    readField f raw (pops.foldl State.pop s) =
      .ok (s.operand f raw (earlierPops pops f raw), (pops ++ popOf f raw).foldl State.pop s) := by
  by_cases hno : f.role = .no ∨ f.role = .dst
  · rcases hno with h | h <;> simp [readField, State.operand, popOf, h, run_pure]
  · have hsrc : f.role = .src ∨ f.role = .both := by
      cases hr : f.role <;> simp [hr] at hno ⊢
    match ho : opnd raw with
    | .g n =>
      have : n ∉ s.my.poison.eRegs := by rcases hsrc with h | h <;> simpa [State.clean, h, ho] using hc
      rcases hsrc with h | h <;>
        simp [readField, State.operand, popOf, h, ho, run_bind, run_pure, run_readG, this]
    | .v n =>
      by_cases hv : f.vec = 1
      · have : (Space.vregs, n) ∉ s.my.poison.granules := by
          rcases hsrc with h | h <;> simpa [State.clean, h, ho, hv] using hc
        rcases hsrc with h | h <;>
          simp [readField, State.operand, popOf, h, ho, hv, run_readV, this]
      · rcases hsrc with h | h <;> simp [readField, State.operand, popOf, h, ho, hv, run_pure]
    | .imm x => rcases hsrc with h | h <;> simp [readField, State.operand, popOf, h, ho, run_pure]
    | .sp n => rcases hsrc with h | h <;> simp [readField, State.operand, popOf, h, ho, run_pure]
    | .bad => rcases hsrc with h | h <;> simp [readField, State.operand, popOf, h, ho, run_pure]
    | .q id =>
      have hp : popOf f raw = [id] := by rcases hsrc with h | h <;> simp [popOf, h, ho]
      have he : earlierPops pops f raw = pops.count id := by simp [earlierPops, hp]
      have hl : pops.count id < (s.my.entries id).length := hq id (by simp [hp])
      have hm : (id, pops.count id) ∉ s.my.poison.entries := by
        rcases hsrc with h | h <;> simpa [State.clean, h, ho, he] using hc
      have hent := pops_entries s pops id (Nat.le_of_lt hl)
      rw [List.drop_eq_getElem_cons hl] at hent
      have hrun := run_popEntry hent fun hbad => hm (by simpa using pops_marks s pops id 0 hbad)
      have hv : s.operand f raw (earlierPops pops f raw) = (s.my.entries id)[pops.count id] := by
        rcases hsrc with h | h <;> simp [State.operand, h, ho, he, hl]
      rw [hv, hp, List.foldl_append]
      rcases hsrc with h | h <;> simpa [readField, h, ho, State.pop] using hrun

theorem run_guardOn {s : State} {w : Norom} (h : s.guardHolds w = true) : guardOn w s = .ok (true, s) := by
  unfold State.guardHolds at h
  unfold guardOn
  cases hg : w.g.getLsbD 7
  · simp [run_pure]
  · simp only [hg, Bool.not_true, Bool.false_or, Bool.and_eq_true, Bool.not_eq_true', decide_eq_false_iff_not] at h
    simp only [if_true, run_bind_ok (run_readG s h.1), run_pure, h.2]

theorem run_checkFields {s : State} {sh : Shape} {w : Norom} (hm : sh.mod w.mod = true)
    (hd : fieldOk s sh.d w.d = true) (ha : fieldOk s sh.a w.a = true) (hb : fieldOk s sh.b w.b = true) :
    checkFields sh w s = .ok ((), s) := by
  simp [checkFields, hm, run_bind, run_pure, run_gets, hd, ha, hb]

/-- A queue that can serve all pops of an instruction can serve the next of them. -/
theorem queuesReady_pops {s : State} {pops pushes : List Nat} (h : queuesReady s pops pushes = true) {id : Nat}
    (hm : id ∈ pops) : pops.count id ≤ (s.my.entries id).length := by
  unfold queuesReady at h
  rw [Bool.and_eq_true, List.all_eq_true] at h
  exact of_decide_eq_true (h.1 id hm)

theorem popOf_count {f : Fld} {raw : BitVec 16} {id : Nat} (h : id ∈ popOf f raw) : 0 < (popOf f raw).count id :=
  List.count_pos_iff.2 h

/-- An instruction of E that issues runs its own effect on its operand values, and E completes. -/
theorem run_instrKeep {s : State} {sh : Shape} {w : Norom} {body : Vals → M (Option (BitVec 13 × Run))}
    (h : s.issues sh w = true) :
    instrKeep sh w body s = (do
      match ← body (s.operands sh w) with
      | some (pc, run) => completeE pc run
      | none => pure ()) (s.popped sh w) := by
  simp only [State.issues, Bool.and_eq_true] at h
  obtain ⟨⟨⟨⟨⟨⟨⟨⟨⟨-, hg⟩, hm⟩, hd⟩, ha⟩, hb⟩, hq⟩, cd⟩, ca⟩, cb⟩ := h
  have hcount : ∀ id ∈ popsOf sh w, (popsOf sh w).count id ≤ (s.my.entries id).length :=
    fun id hi => queuesReady_pops hq hi
  have qd : ∀ id ∈ popOf sh.d w.d, ([] : List Nat).count id < (s.my.entries id).length := by
    intro id hi
    have h1 := hcount id (by simp [popsOf, hi])
    have h2 := popOf_count hi
    simp only [popsOf, List.count_append, List.count_nil] at h1 ⊢; omega
  have qa : ∀ id ∈ popOf sh.a w.a, (popOf sh.d w.d).count id < (s.my.entries id).length := by
    intro id hi
    have h1 := hcount id (by simp [popsOf, hi])
    have h2 := popOf_count hi
    simp only [popsOf, List.count_append] at h1; omega
  have qb : ∀ id ∈ popOf sh.b w.b, (popOf sh.d w.d ++ popOf sh.a w.a).count id < (s.my.entries id).length := by
    intro id hi
    have h1 := hcount id (by simp [popsOf, hi])
    have h2 := popOf_count hi
    simp only [popsOf, List.count_append] at h1 ⊢; omega
  have e0 : earlierPops [] sh.d w.d = 0 := by unfold earlierPops; split <;> rfl
  have rd := run_readField qd (by rw [e0]; exact cd)
  have ra := run_readField qa ca
  have rb := run_readField qb cb
  simp only [List.nil_append, List.foldl_nil, e0] at rd
  unfold instrKeep
  rw [run_bind_ok (run_guardOn hg)]
  simp only [Bool.not_true]
  rw [if_neg (by simp), run_bind_ok (run_checkFields hm hd ha hb), run_bind_ok (run_gets _ s)]
  have hq' : queuesReady s (popOf sh.d w.d ++ popOf sh.a w.a ++ popOf sh.b w.b) (pushOf sh.d w.d) = true := hq
  rw [hq', run_bind_ok (run_await_true _ s), run_bind_ok rd, run_bind_ok ra, run_bind_ok rb]
  rfl

/-- An instruction of E that issues and goes on where its effect says. -/
theorem run_instrE {s : State} {sh : Shape} {w : Norom} {body : Vals → M (BitVec 13 × Run)}
    (h : s.issues sh w = true) :
    instrE sh w body s = (do
      let r ← body (s.operands sh w)
      completeE r.1 r.2) (s.popped sh w) := by
  rw [instrE, run_instrKeep h]
  simp only [run_bind]
  cases body (s.operands sh w) (s.popped sh w) <;> rfl

@[simp] theorem popped_e (s : State) (sh : Shape) (w : Norom) : (s.popped sh w).my.e = s.my.e := pops_e ..

@[simp] theorem popped_cur (s : State) (sh : Shape) (w : Norom) : (s.popped sh w).cur = s.cur := pops_cur ..

theorem run_completeE (s : State) (pc : BitVec 13) (run : Run) :
    completeE pc run s = .ok ((), s.goesOn pc run) := rfl

/-- An instruction of E that issues, has its effect and goes on in line. -/
theorem outcome_lineE {s t : State} {sh : Shape} {w : Norom} {body : Vals → M Unit} (h : s.issues sh w = true)
    (hb : body (s.operands sh w) (s.popped sh w) = .ok ((), t)) :
    outcome (lineE sh w body) s = .next t.inLine := by
  apply outcome_ok
  rw [lineE, run_instrE h]
  simp only [run_bind, hb, goOn, nextPc, run_gets, run_pure]
  rfl

/-- The gate queue takes a unit whatever a failing header would have reported. -/
theorem run_pushGate_info {x : V128} {i j : Word} {s : State} {r : Unit × State} (h : pushGate x i s = .ok r) :
    pushGate x j s = .ok r := by
  unfold pushGate at *
  rw [run_bind_ok (run_gets _ s), run_bind_ok (run_gets _ s), run_bind_ok (run_gets _ s)] at *
  cases hp : s.gatePart s.me with
  | some p => simp only [hp] at h ⊢; exact h
  | none =>
    simp only [hp] at h ⊢
    obtain ⟨a, t, h1, h2⟩ := bind_ok h
    unfold check at *
    split at h1
    · cases h1
      rw [if_pos ‹_›, run_bind_ok (run_pure _ _)]
      exact h2
    · cases h1

/-- A result that D takes goes there. -/
theorem run_putD {s : State} {w : Norom} {x : V128} (h : s.takes w.d x = true) :
    putD w x s = .ok ((), s.put w.d x) := by
  unfold State.takes at h
  unfold putD State.put
  cases ho : opnd w.d with
  | q id =>
    simp only [ho] at h ⊢
    split
    · rename_i hi
      simp only [hi] at h
      cases hr : pushGate x 0 s with
      | ok r => rw [run_pushGate_info hr, orKeep, hr]
      | error e => have hr : pushGate x (0#64) s = .error e := hr; simp [hr] at h
    · rfl
  | _ => rfl

end Sys2Proof.Machine
end

