-- ==== Sys2Proof/Laws/Memory.lean ====
section
/-!
SUPPORT. The laws of tables and of memory: a read after a write, what a write leaves, and that every operation that
writes memory keeps its canonical form.
-/
namespace Sys2Proof.Machine

open Sys2Proof

/-! ## Tables -/

theorem Tab.get_del_self {α : Type} (d : α) (t : Tab α) (k : Nat) : (t.del k).get d k = d := by
  induction t with
  | nil => rfl
  | cons p t ih =>
    obtain ⟨k', v'⟩ := p
    simp only [Tab.del]
    split
    · exact ih
    · simp [Tab.get, *]

theorem Tab.get_del_other {α : Type} (d : α) (t : Tab α) {k j : Nat} (h : j ≠ k) : (t.del k).get d j = t.get d j := by
  induction t with
  | nil => rfl
  | cons p t ih =>
    obtain ⟨k', v'⟩ := p
    simp only [Tab.del]
    split
    · subst_vars; simp [Tab.get, h, ih]
    · simp [Tab.get, ih]

/-- A key reads as what was last written there. -/
@[simp] theorem Tab.get_set_self {α : Type} [DecidableEq α] (d : α) (t : Tab α) (k : Nat) (v : α) :
    (t.set d k v).get d k = v := by
  unfold Tab.set
  split
  · rw [Tab.get_del_self]; exact Eq.symm ‹_›
  · exact Tab.get_put_self ..

/-- A write leaves every other key. -/
theorem Tab.get_set_other {α : Type} [DecidableEq α] (d : α) (t : Tab α) {k j : Nat} (v : α) (h : j ≠ k) :
    (t.set d k v).get d j = t.get d j := by
  unfold Tab.set
  split
  · exact Tab.get_del_other d t h
  · exact Tab.get_put_other d t v h

/-! ## The canonical form of a table -/

theorem Tab.risesFrom_mono {α : Type} {t : Tab α} {a b : Nat} (hab : a ≤ b) (h : Tab.risesFrom b t = true) :
    Tab.risesFrom a t = true := by
  cases t with
  | nil => rfl
  | cons p t =>
    simp only [Tab.risesFrom, Bool.and_eq_true, decide_eq_true_eq] at *
    exact ⟨Nat.le_trans hab h.1, h.2⟩

theorem Tab.risesFrom_filter {α : Type} (p : Nat × α → Bool) {t : Tab α} {a : Nat} (h : Tab.risesFrom a t = true) :
    Tab.risesFrom a (t.filter p) = true := by
  induction t generalizing a with
  | nil => rfl
  | cons x t ih =>
    simp only [Tab.risesFrom, Bool.and_eq_true, decide_eq_true_eq] at h
    have ht := ih h.2
    rw [List.filter_cons]
    split
    · simp only [Tab.risesFrom, Bool.and_eq_true, decide_eq_true_eq]; exact ⟨h.1, ht⟩
    · exact Tab.risesFrom_mono (by omega) ht

theorem Tab.del_eq_filter {α : Type} (t : Tab α) (k : Nat) : t.del k = t.filter fun p => decide (p.1 ≠ k) := by
  induction t with
  | nil => rfl
  | cons x t ih =>
    obtain ⟨k', v'⟩ := x
    simp only [Tab.del, List.filter_cons, ih]
    by_cases h : k = k'
    · simp [h]
    · simp [h, Ne.symm h]

theorem Tab.risesFrom_put {α : Type} {t : Tab α} {a : Nat} (k : Nat) (v : α) (ha : a ≤ k)
    (h : Tab.risesFrom a t = true) : Tab.risesFrom a (t.put k v) = true := by
  induction t generalizing a with
  | nil => simpa [Tab.put, Tab.risesFrom] using ha
  | cons x t ih =>
    obtain ⟨k', v'⟩ := x
    simp only [Tab.risesFrom, Bool.and_eq_true, decide_eq_true_eq] at h
    simp only [Tab.put]
    split
    · simp only [Tab.risesFrom, Bool.and_eq_true, decide_eq_true_eq]; exact ⟨ha, by omega, h.2⟩
    · split
      · subst_vars; simp only [Tab.risesFrom, Bool.and_eq_true, decide_eq_true_eq]; exact ⟨ha, h.2⟩
      · simp only [Tab.risesFrom, Bool.and_eq_true, decide_eq_true_eq]; exact ⟨h.1, ih (by omega) h.2⟩

theorem Tab.all_put {α : Type} (p : Nat × α → Bool) {t : Tab α} (k : Nat) {v : α} (hv : p (k, v) = true)
    (h : t.all p = true) : (t.put k v).all p = true := by
  induction t with
  | nil => simpa [Tab.put] using hv
  | cons x t ih =>
    obtain ⟨k', v'⟩ := x
    simp only [List.all_cons, Bool.and_eq_true] at h
    simp only [Tab.put]
    split
    · simp [hv, h]
    · split <;> simp [hv, h, ih h.2]

/-- Keeping some of the entries keeps the canonical form. -/
theorem Tab.wf_filter {α : Type} [DecidableEq α] {d : α} {t : Tab α} (p : Nat × α → Bool) (h : t.wf d = true) :
    Tab.wf d (t.filter p) = true := by
  unfold Tab.wf at *
  simp only [Bool.and_eq_true] at *
  refine ⟨Tab.risesFrom_filter p h.1, ?_⟩
  rw [List.all_eq_true] at *
  exact fun x hx => h.2 x (List.mem_filter.1 hx).1

theorem Tab.wf_del {α : Type} [DecidableEq α] {d : α} {t : Tab α} (k : Nat) (h : t.wf d = true) :
    (t.del k).wf d = true := by
  rw [Tab.del_eq_filter]; exact Tab.wf_filter _ h

/-- A write keeps the canonical form. -/
theorem Tab.wf_set {α : Type} [DecidableEq α] {d : α} {t : Tab α} (k : Nat) (v : α) (h : t.wf d = true) :
    (t.set d k v).wf d = true := by
  unfold Tab.set
  split
  · exact Tab.wf_del k h
  · unfold Tab.wf at *
    simp only [Bool.and_eq_true] at *
    exact ⟨Tab.risesFrom_put k v (Nat.zero_le _) h.1, Tab.all_put _ k (by simpa using ‹_›) h.2⟩

theorem Tab.wf_clearRange {α : Type} [DecidableEq α] {d : α} {t : Tab α} (lo n : Nat) (h : t.wf d = true) :
    (t.clearRange lo n).wf d = true := Tab.wf_filter _ h

/-! ## Bytes of a table -/

@[simp] theorem tabRead_length (t : Tab Byte) (off n : Nat) : (tabRead t off n).length = n := by
  induction n generalizing off with
  | zero => rfl
  | succ n ih => simp [tabRead, ih]

/-- Bytes are written one address after another; every other address keeps its byte. -/
theorem get_tabWrite_other {t : Tab Byte} {off : Nat} {bs : List Byte} {a : Nat}
    (h : a < off ∨ off + bs.length ≤ a) : (tabWrite t off bs).get 0 a = t.get 0 a := by
  induction bs generalizing t off with
  | nil => rfl
  | cons b bs ih =>
    simp only [List.length_cons] at h
    rw [tabWrite, ih (by omega), Tab.get_set_other _ _ _ (by omega)]

/-- A written address reads as the byte that was written there. -/
theorem get_tabWrite {t : Tab Byte} {off : Nat} {bs : List Byte} {i : Nat} (h : i < bs.length) :
    (tabWrite t off bs).get 0 (off + i) = bs[i] := by
  induction bs generalizing t off i with
  | nil => simp at h
  | cons b bs ih =>
    cases i with
    | zero => rw [tabWrite, Nat.add_zero, get_tabWrite_other (by omega)]; simp
    | succ i =>
      rw [tabWrite, show off + (i + 1) = off + 1 + i by omega, ih (by simpa using h)]
      rfl

/-- What was written reads back. -/
theorem tabRead_tabWrite (t : Tab Byte) (off : Nat) (bs : List Byte) :
    tabRead (tabWrite t off bs) off bs.length = bs := by
  induction bs generalizing t off with
  | nil => rfl
  | cons b bs ih =>
    have h0 := get_tabWrite (t := t) (off := off) (bs := b :: bs) (i := 0) (by simp)
    rw [Nat.add_zero] at h0
    simp only [List.length_cons, tabRead]
    rw [h0, tabWrite, ih]
    rfl

theorem Memory.wf_tabWrite {t : Tab Byte} (off : Nat) (bs : List Byte) (h : Memory.wf t = true) :
    Memory.wf (tabWrite t off bs) = true := by
  induction bs generalizing t off with
  | nil => exact h
  | cons b bs ih => exact ih _ (Tab.wf_set off b h)

/-! ## The memory of the package -/

@[simp] theorem mem_physWrite (s : State) (p : Nat) (bs : List Byte) :
    (s.physWrite p bs).mem = tabWrite s.mem p bs := by
  unfold State.physWrite; simp only; split <;> simp

@[simp] theorem mem_physZero (s : State) (p n : Nat) : (s.physZero p n).mem = s.mem.clearRange p n := rfl

/-- Memory operations keep the canonical form. -/
theorem canonical_physWrite {s : State} (p : Nat) (bs : List Byte) (h : s.canonical = true) :
    (s.physWrite p bs).canonical = true := by
  simp only [State.canonical, Bool.and_eq_true, mem_physWrite, hostMem_physWrite] at *
  exact ⟨Memory.wf_tabWrite p bs h.1, h.2⟩

theorem canonical_physPut {s : State} (p n v : Nat) (h : s.canonical = true) : (s.physPut p n v).canonical = true :=
  canonical_physWrite p _ h

theorem canonical_physZero {s : State} (p n : Nat) (h : s.canonical = true) :
    (s.physZero p n).canonical = true := by
  simp only [State.canonical, Bool.and_eq_true, mem_physZero, hostMem_physZero] at *
  exact ⟨Tab.wf_clearRange p n h.1, h.2⟩

theorem canonical_hostWrite {s : State} (a : Nat) (bs : List Byte) (h : s.canonical = true) :
    (s.hostWrite a bs).canonical = true := by
  simp only [State.canonical, Bool.and_eq_true, mem_hostWrite, hostMem_hostWrite] at *
  exact ⟨h.1, Memory.wf_tabWrite a bs h.2⟩

/-- What neither writes memory nor host memory keeps the form. -/
theorem canonical_of_eq {s t : State} (hm : t.mem = s.mem) (hh : t.hostMem = s.hostMem) (h : s.canonical = true) :
    t.canonical = true := by
  simpa [State.canonical, hm, hh] using h

theorem canonical_reset : State.reset.canonical = true := rfl

end Sys2Proof.Machine
end

