-- ==== Sys2Proof/Laws/PerInstr.lean ====
section
/-!
SUPPORT. Statements about every instruction as syntax, one lemma per constructor. Sized: the words of an instruction
fill 12 bytes in the Norom set (R14) and 4 bytes in the RV64 sets (R187).
-/
namespace Sys2Proof.Laws.Sized

open Sys2Proof

/-- The encoding of an instruction, where it has one, fills its set's instruction word. -/
def Statement (i : Instr) : Prop :=
  ∀ x, encode i = some x → (x.1 = .norom ∧ x.2.length = 12) ∨ (x.1 = .rv64 ∧ x.2.length = 4)

theorem ofEncode (i : Instr) : Statement i := by
  intro x h
  unfold encode at h
  split at h
  · cases h; exact .inl ⟨rfl, by simp [leBytes]⟩
  · obtain ⟨w, -, rfl⟩ := Option.map_eq_some_iff.1 h
    exact .inr ⟨rfl, by simp [leBytes]⟩

theorem nop (w : Norom) : Statement (.nop w) := ofEncode _
theorem hintWord (op : BitVec 8) (fn : BitVec 6) (w : Norom) : Statement (.hintWord op fn w) := ofEncode _
theorem add (w : Norom) : Statement (.add w) := ofEncode _
theorem addss (w : Norom) : Statement (.addss w) := ofEncode _
theorem addus (w : Norom) : Statement (.addus w) := ofEncode _
theorem sub (w : Norom) : Statement (.sub w) := ofEncode _
theorem subss (w : Norom) : Statement (.subss w) := ofEncode _
theorem subus (w : Norom) : Statement (.subus w) := ofEncode _
theorem mul (w : Norom) : Statement (.mul w) := ofEncode _
theorem mulhs (w : Norom) : Statement (.mulhs w) := ofEncode _
theorem mulhu (w : Norom) : Statement (.mulhu w) := ofEncode _
theorem divs (w : Norom) : Statement (.divs w) := ofEncode _
theorem divu (w : Norom) : Statement (.divu w) := ofEncode _
theorem rems (w : Norom) : Statement (.rems w) := ofEncode _
theorem remu (w : Norom) : Statement (.remu w) := ofEncode _
theorem and (w : Norom) : Statement (.and w) := ofEncode _
theorem or (w : Norom) : Statement (.or w) := ofEncode _
theorem xor (w : Norom) : Statement (.xor w) := ofEncode _
theorem andn (w : Norom) : Statement (.andn w) := ofEncode _
theorem shl (w : Norom) : Statement (.shl w) := ofEncode _
theorem shr (w : Norom) : Statement (.shr w) := ofEncode _
theorem sar (w : Norom) : Statement (.sar w) := ofEncode _
theorem rol (w : Norom) : Statement (.rol w) := ofEncode _
theorem seq (w : Norom) : Statement (.seq w) := ofEncode _
theorem sne (w : Norom) : Statement (.sne w) := ofEncode _
theorem slt (w : Norom) : Statement (.slt w) := ofEncode _
theorem sle (w : Norom) : Statement (.sle w) := ofEncode _
theorem sltu (w : Norom) : Statement (.sltu w) := ofEncode _
theorem sleu (w : Norom) : Statement (.sleu w) := ofEncode _
theorem min (w : Norom) : Statement (.min w) := ofEncode _
theorem max (w : Norom) : Statement (.max w) := ofEncode _
theorem minu (w : Norom) : Statement (.minu w) := ofEncode _
theorem maxu (w : Norom) : Statement (.maxu w) := ofEncode _
theorem clz (w : Norom) : Statement (.clz w) := ofEncode _
theorem ctz (w : Norom) : Statement (.ctz w) := ofEncode _
theorem popc (w : Norom) : Statement (.popc w) := ofEncode _
theorem brev (w : Norom) : Statement (.brev w) := ofEncode _
theorem bswap (w : Norom) : Statement (.bswap w) := ofEncode _
theorem bfx (w : Norom) : Statement (.bfx w) := ofEncode _
theorem bfi (w : Norom) : Statement (.bfi w) := ofEncode _
theorem sext (w : Norom) : Statement (.sext w) := ofEncode _
theorem zext (w : Norom) : Statement (.zext w) := ofEncode _
theorem mov (w : Norom) : Statement (.mov w) := ofEncode _
theorem li (w : Norom) : Statement (.li w) := ofEncode _
theorem lih (w : Norom) : Statement (.lih w) := ofEncode _
theorem beq (w : Norom) : Statement (.beq w) := ofEncode _
theorem bne (w : Norom) : Statement (.bne w) := ofEncode _
theorem blt (w : Norom) : Statement (.blt w) := ofEncode _
theorem bge (w : Norom) : Statement (.bge w) := ofEncode _
theorem bltu (w : Norom) : Statement (.bltu w) := ofEncode _
theorem bgeu (w : Norom) : Statement (.bgeu w) := ofEncode _
theorem jmp (w : Norom) : Statement (.jmp w) := ofEncode _
theorem jmpr (w : Norom) : Statement (.jmpr w) := ofEncode _
theorem call (w : Norom) : Statement (.call w) := ofEncode _
theorem callr (w : Norom) : Statement (.callr w) := ofEncode _
theorem ret (w : Norom) : Statement (.ret w) := ofEncode _
theorem halt (w : Norom) : Statement (.halt w) := ofEncode _
theorem trap (w : Norom) : Statement (.trap w) := ofEncode _
theorem wait (w : Norom) : Statement (.wait w) := ofEncode _
theorem eret (w : Norom) : Statement (.eret w) := ofEncode _
theorem ldb (w : Norom) : Statement (.ldb w) := ofEncode _
theorem ldbu (w : Norom) : Statement (.ldbu w) := ofEncode _
theorem ldh (w : Norom) : Statement (.ldh w) := ofEncode _
theorem ldhu (w : Norom) : Statement (.ldhu w) := ofEncode _
theorem ldw (w : Norom) : Statement (.ldw w) := ofEncode _
theorem ldwu (w : Norom) : Statement (.ldwu w) := ofEncode _
theorem ldd (w : Norom) : Statement (.ldd w) := ofEncode _
theorem stb (w : Norom) : Statement (.stb w) := ofEncode _
theorem sth (w : Norom) : Statement (.sth w) := ofEncode _
theorem stw (w : Norom) : Statement (.stw w) := ofEncode _
theorem std (w : Norom) : Statement (.std w) := ofEncode _
theorem vld (w : Norom) : Statement (.vld w) := ofEncode _
theorem vst (w : Norom) : Statement (.vst w) := ofEncode _
theorem bbinit (w : Norom) : Statement (.bbinit w) := ofEncode _
theorem bbexp (w : Norom) : Statement (.bbexp w) := ofEncode _
theorem bbarr (w : Norom) : Statement (.bbarr w) := ofEncode _
theorem bbwait (w : Norom) : Statement (.bbwait w) := ofEncode _
theorem bbtest (w : Norom) : Statement (.bbtest w) := ofEncode _
theorem csrr (w : Norom) : Statement (.csrr w) := ofEncode _
theorem csrw (w : Norom) : Statement (.csrw w) := ofEncode _
theorem csrs (w : Norom) : Statement (.csrs w) := ofEncode _
theorem csrc (w : Norom) : Statement (.csrc w) := ofEncode _
theorem flags (w : Norom) : Statement (.flags w) := ofEncode _
theorem flagc (w : Norom) : Statement (.flagc w) := ofEncode _
theorem time (w : Norom) : Statement (.time w) := ofEncode _
theorem vadd (w : Norom) : Statement (.vadd w) := ofEncode _
theorem vadds (w : Norom) : Statement (.vadds w) := ofEncode _
theorem vsub (w : Norom) : Statement (.vsub w) := ofEncode _
theorem vsubs (w : Norom) : Statement (.vsubs w) := ofEncode _
theorem vmul (w : Norom) : Statement (.vmul w) := ofEncode _
theorem vmulh (w : Norom) : Statement (.vmulh w) := ofEncode _
theorem vfma (w : Norom) : Statement (.vfma w) := ofEncode _
theorem vfms (w : Norom) : Statement (.vfms w) := ofEncode _
theorem vmin (w : Norom) : Statement (.vmin w) := ofEncode _
theorem vmax (w : Norom) : Statement (.vmax w) := ofEncode _
theorem vabs (w : Norom) : Statement (.vabs w) := ofEncode _
theorem vneg (w : Norom) : Statement (.vneg w) := ofEncode _
theorem vand (w : Norom) : Statement (.vand w) := ofEncode _
theorem vor (w : Norom) : Statement (.vor w) := ofEncode _
theorem vxor (w : Norom) : Statement (.vxor w) := ofEncode _
theorem vandn (w : Norom) : Statement (.vandn w) := ofEncode _
theorem vshl (w : Norom) : Statement (.vshl w) := ofEncode _
theorem vshr (w : Norom) : Statement (.vshr w) := ofEncode _
theorem vsar (w : Norom) : Statement (.vsar w) := ofEncode _
theorem vceq (w : Norom) : Statement (.vceq w) := ofEncode _
theorem vcne (w : Norom) : Statement (.vcne w) := ofEncode _
theorem vclt (w : Norom) : Statement (.vclt w) := ofEncode _
theorem vcle (w : Norom) : Statement (.vcle w) := ofEncode _
theorem vblend (w : Norom) : Statement (.vblend w) := ofEncode _
theorem vcvt (dst : BitVec 6) (w : Norom) : Statement (.vcvt dst w) := ofEncode _
theorem vqmx (w : Norom) : Statement (.vqmx w) := ofEncode _
theorem vdqmx (w : Norom) : Statement (.vdqmx w) := ofEncode _
theorem vrsum (w : Norom) : Statement (.vrsum w) := ofEncode _
theorem vrmax (w : Norom) : Statement (.vrmax w) := ofEncode _
theorem vrmin (w : Norom) : Statement (.vrmin w) := ofEncode _
theorem vscan (w : Norom) : Statement (.vscan w) := ofEncode _
theorem vscanm (w : Norom) : Statement (.vscanm w) := ofEncode _
theorem vperm (w : Norom) : Statement (.vperm w) := ofEncode _
theorem vshuf (w : Norom) : Statement (.vshuf w) := ofEncode _
theorem vbcast (w : Norom) : Statement (.vbcast w) := ofEncode _
theorem vext (w : Norom) : Statement (.vext w) := ofEncode _
theorem vins (w : Norom) : Statement (.vins w) := ofEncode _
theorem vdot4 (w : Norom) : Statement (.vdot4 w) := ofEncode _
theorem vpopm (w : Norom) : Statement (.vpopm w) := ofEncode _
theorem vmov (w : Norom) : Statement (.vmov w) := ofEncode _
theorem vexp2 (w : Norom) : Statement (.vexp2 w) := ofEncode _
theorem vlog2 (w : Norom) : Statement (.vlog2 w) := ofEncode _
theorem vrcp (w : Norom) : Statement (.vrcp w) := ofEncode _
theorem vrsqrt (w : Norom) : Statement (.vrsqrt w) := ofEncode _
theorem vsqrt (w : Norom) : Statement (.vsqrt w) := ofEncode _
theorem vtanh (w : Norom) : Statement (.vtanh w) := ofEncode _
theorem vsigm (w : Norom) : Statement (.vsigm w) := ofEncode _
theorem vsilu (w : Norom) : Statement (.vsilu w) := ofEncode _
theorem vgelu (w : Norom) : Statement (.vgelu w) := ofEncode _
theorem vsin (w : Norom) : Statement (.vsin w) := ofEncode _
theorem vcos (w : Norom) : Statement (.vcos w) := ofEncode _
theorem vexp (w : Norom) : Statement (.vexp w) := ofEncode _
theorem vdiv (w : Norom) : Statement (.vdiv w) := ofEncode _
theorem susp (w : Norom) : Statement (.susp w) := ofEncode _
theorem task (w : Norom) : Statement (.task w) := ofEncode _
theorem force (w : Norom) : Statement (.force w) := ofEncode _
theorem spark (w : Norom) : Statement (.spark w) := ofEncode _
theorem drop (w : Norom) : Statement (.drop w) := ofEncode _
theorem hdup (w : Norom) : Statement (.hdup w) := ofEncode _
theorem hmake (w : Norom) : Statement (.hmake w) := ofEncode _
theorem hstat (w : Norom) : Statement (.hstat w) := ofEncode _
theorem tdone (w : Norom) : Statement (.tdone w) := ofEncode _
theorem mcfg (w : Norom) : Statement (.mcfg w) := ofEncode _
theorem epcfg (w : Norom) : Statement (.epcfg w) := ofEncode _
theorem cvld (w : Norom) : Statement (.cvld w) := ofEncode _
theorem mwld (w : Norom) : Statement (.mwld w) := ofEncode _
theorem mstr (w : Norom) : Statement (.mstr w) := ofEncode _
theorem scrum (w : Norom) : Statement (.scrum w) := ofEncode _
theorem mzero (w : Norom) : Statement (.mzero w) := ofEncode _
theorem mdrn (w : Norom) : Statement (.mdrn w) := ofEncode _
theorem accrd (w : Norom) : Statement (.accrd w) := ofEncode _
theorem accwr (w : Norom) : Statement (.accwr w) := ofEncode _
theorem aadd (w : Norom) : Statement (.aadd w) := ofEncode _
theorem amin (w : Norom) : Statement (.amin w) := ofEncode _
theorem amax (w : Norom) : Statement (.amax w) := ofEncode _
theorem aminu (w : Norom) : Statement (.aminu w) := ofEncode _
theorem amaxu (w : Norom) : Statement (.amaxu w) := ofEncode _
theorem aand (w : Norom) : Statement (.aand w) := ofEncode _
theorem aor (w : Norom) : Statement (.aor w) := ofEncode _
theorem axor (w : Norom) : Statement (.axor w) := ofEncode _
theorem axchg (w : Norom) : Statement (.axchg w) := ofEncode _
theorem acas (w : Norom) : Statement (.acas w) := ofEncode _
theorem fence (w : Norom) : Statement (.fence w) := ofEncode _
theorem fwait (w : Norom) : Statement (.fwait w) := ofEncode _
theorem ftest (w : Norom) : Statement (.ftest w) := ofEncode _
theorem hbset (w : Norom) : Statement (.hbset w) := ofEncode _
theorem hbarr (w : Norom) : Statement (.hbarr w) := ofEncode _
theorem hbwait (w : Norom) : Statement (.hbwait w) := ofEncode _
theorem gbarr (w : Norom) : Statement (.gbarr w) := ofEncode _
theorem gbwait (w : Norom) : Statement (.gbwait w) := ofEncode _
theorem cpy (w : Norom) : Statement (.cpy w) := ofEncode _
theorem cpys (w : Norom) : Statement (.cpys w) := ofEncode _
theorem cpyg (w : Norom) : Statement (.cpyg w) := ofEncode _
theorem cpyx (w : Norom) : Statement (.cpyx w) := ofEncode _
theorem bcopy (w : Norom) : Statement (.bcopy w) := ofEncode _
theorem xpost (w : Norom) : Statement (.xpost w) := ofEncode _
theorem xsend (w : Norom) : Statement (.xsend w) := ofEncode _
theorem xclose (w : Norom) : Statement (.xclose w) := ofEncode _
theorem kvapp (w : Norom) : Statement (.kvapp w) := ofEncode _
theorem attn (w : Norom) : Statement (.attn w) := ofEncode _
theorem acomb (w : Norom) : Statement (.acomb w) := ofEncode _
theorem park (w : Norom) : Statement (.park w) := ofEncode _
theorem wake (w : Norom) : Statement (.wake w) := ofEncode _
theorem msg (w : Norom) : Statement (.msg w) := ofEncode _
theorem msgRecv (w : Norom) : Statement (.msgRecv w) := ofEncode _
theorem qstat (w : Norom) : Statement (.qstat w) := ofEncode _
theorem boflush (w : Norom) : Statement (.boflush w) := ofEncode _
theorem lqVpush (rs2 rs1 rd : BitVec 5) : Statement (.lqVpush rs2 rs1 rd) := ofEncode _
theorem lqGpush (rs2 rs1 rd : BitVec 5) : Statement (.lqGpush rs2 rs1 rd) := ofEncode _
theorem lqSpush (rs2 rs1 rd : BitVec 5) : Statement (.lqSpush rs2 rs1 rd) := ofEncode _
theorem sqVpop (rs2 rs1 rd : BitVec 5) : Statement (.sqVpop rs2 rs1 rd) := ofEncode _
theorem sqGpop (rs2 rs1 rd : BitVec 5) : Statement (.sqGpop rs2 rs1 rd) := ofEncode _
theorem sqXpop (rs2 rs1 rd : BitVec 5) : Statement (.sqXpop rs2 rs1 rd) := ofEncode _
theorem boPop (rs2 rs1 rd : BitVec 5) : Statement (.boPop rs2 rs1 rd) := ofEncode _
theorem boPush (rs2 rs1 rd : BitVec 5) : Statement (.boPush rs2 rs1 rd) := ofEncode _
theorem qStat (rs2 rs1 rd : BitVec 5) : Statement (.qStat rs2 rs1 rd) := ofEncode _
theorem cpIssue (rs2 rs1 rd : BitVec 5) : Statement (.cpIssue rs2 rs1 rd) := ofEncode _
theorem bbArr (rs2 rs1 rd : BitVec 5) : Statement (.bbArr rs2 rs1 rd) := ofEncode _
theorem bbWait (rs2 rs1 rd : BitVec 5) : Statement (.bbWait rs2 rs1 rd) := ofEncode _
theorem gqPop (rs2 rs1 rd : BitVec 5) : Statement (.gqPop rs2 rs1 rd) := ofEncode _
theorem rtClaim (rs2 rs1 rd : BitVec 5) : Statement (.rtClaim rs2 rs1 rd) := ofEncode _
theorem rtEmit (rs2 rs1 rd : BitVec 5) : Statement (.rtEmit rs2 rs1 rd) := ofEncode _
theorem ebreak (len : RvLen) : Statement (.ebreak len) := ofEncode _
theorem rvLoadStore (len : RvLen) (op : RvMem) : Statement (.rvLoadStore len op) := ofEncode _
theorem rvFence (imm : BitVec 12) (rs1 rd : BitVec 5) : Statement (.rvFence imm rs1 rd) := ofEncode _
theorem rvCsrAccess (op : RvCsrOp) (csr : BitVec 12) (rs1 rd : BitVec 5) : Statement (.rvCsrAccess op csr rs1 rd) := ofEncode _
theorem umpireAmo (op : RvAmo) (wide aq rl : Bool) (rs2 rs1 rd : BitVec 5) : Statement (.umpireAmo op wide aq rl rs2 rs1 rd) := ofEncode _
theorem umpireLr (wide aq rl : Bool) (rs1 rd : BitVec 5) : Statement (.umpireLr wide aq rl rs1 rd) := ofEncode _
theorem umpireSc (wide aq rl : Bool) (rs2 rs1 rd : BitVec 5) : Statement (.umpireSc wide aq rl rs2 rs1 rd) := ofEncode _
theorem rv64IntegerInstruction (len : RvLen) (op : RvInt) : Statement (.rv64IntegerInstruction len op) := ofEncode _
theorem illegalOpcodeWord (op : BitVec 8) (fn : BitVec 6) (w : Norom) : Statement (.illegalOpcodeWord op fn w) := ofEncode _
theorem engineMcfg : Statement .engineMcfg := ofEncode _
theorem engineEpcfg : Statement .engineEpcfg := ofEncode _
theorem engineCvld : Statement .engineCvld := ofEncode _
theorem engineMwld : Statement .engineMwld := ofEncode _
theorem engineMstr : Statement .engineMstr := ofEncode _
theorem scrumMeeting : Statement .scrumMeeting := ofEncode _
theorem engineMzero : Statement .engineMzero := ofEncode _
theorem engineMdrn : Statement .engineMdrn := ofEncode _
theorem copyCardPerform : Statement .copyCardPerform := ofEncode _
theorem bulkCardPerform : Statement .bulkCardPerform := ofEncode _
theorem transferArrive : Statement .transferArrive := ofEncode _
theorem attnPerform : Statement .attnPerform := ofEncode _
theorem msgDeliver : Statement .msgDeliver := ofEncode _
theorem gpushReadArrive : Statement .gpushReadArrive := ofEncode _
theorem ecall : Statement .ecall := ofEncode _
theorem blockingWaitEnd : Statement .blockingWaitEnd := ofEncode _
theorem dispatchLoad : Statement .dispatchLoad := ofEncode _
theorem startMessage : Statement .startMessage := ofEncode _
theorem coreRetire : Statement .coreRetire := ofEncode _
theorem courtReport : Statement .courtReport := ofEncode _
theorem placeDispatch : Statement .placeDispatch := ofEncode _
theorem preemptRequest : Statement .preemptRequest := ofEncode _
theorem preemptWindow : Statement .preemptWindow := ofEncode _
theorem preemptSave : Statement .preemptSave := ofEncode _
theorem resumeDispatch : Statement .resumeDispatch := ofEncode _
theorem preemptOverrun : Statement .preemptOverrun := ofEncode _
theorem energyExhausted : Statement .energyExhausted := ofEncode _
theorem taskDispatch : Statement .taskDispatch := ofEncode _
theorem arenaAllocation : Statement .arenaAllocation := ofEncode _
theorem sparkTake : Statement .sparkTake := ofEncode _
theorem huddleBarrierTimeout : Statement .huddleBarrierTimeout := ofEncode _
theorem globalBarrierTimeout : Statement .globalBarrierTimeout := ofEncode _
theorem exchangeWatchdog : Statement .exchangeWatchdog := ofEncode _
theorem messageLifetime : Statement .messageLifetime := ofEncode _
theorem stallReport : Statement .stallReport := ofEncode _
theorem kvappFrameWaitReport : Statement .kvappFrameWaitReport := ofEncode _
theorem demotionTimer : Statement .demotionTimer := ofEncode _
theorem pageMoveComplete : Statement .pageMoveComplete := ofEncode _
theorem mailboxWake : Statement .mailboxWake := ofEncode _
theorem stageResident : Statement .stageResident := ofEncode _
theorem faultBatchPost : Statement .faultBatchPost := ofEncode _
theorem rallyTokenHop : Statement .rallyTokenHop := ofEncode _
theorem rallyTokenRegen : Statement .rallyTokenRegen := ofEncode _
theorem hostAccess : Statement .hostAccess := ofEncode _
theorem peerAccess : Statement .peerAccess := ofEncode _
theorem ctxCreate : Statement .ctxCreate := ofEncode _
theorem ctxDestroy : Statement .ctxDestroy := ofEncode _
theorem map : Statement .map := ofEncode _
theorem unmap : Statement .unmap := ofEncode _
theorem setattr : Statement .setattr := ofEncode _
theorem recycle : Statement .recycle := ofEncode _
theorem launch : Statement .launch := ofEncode _
theorem replay : Statement .replay := ofEncode _
theorem seqCreate : Statement .seqCreate := ofEncode _
theorem seqFree : Statement .seqFree := ofEncode _
theorem parkPolicy : Statement .parkPolicy := ofEncode _
theorem wakeCmd : Statement .wakeCmd := ofEncode _
theorem domainJoin : Statement .domainJoin := ofEncode _
theorem attest : Statement .attest := ofEncode _
theorem setEnergy : Statement .setEnergy := ofEncode _
theorem queryCourtReports : Statement .queryCourtReports := ofEncode _
theorem queryCounts : Statement .queryCounts := ofEncode _
theorem queryErrorCounts : Statement .queryErrorCounts := ofEncode _
theorem queryHandleEntry : Statement .queryHandleEntry := ofEncode _
theorem queryStreamGeneration : Statement .queryStreamGeneration := ofEncode _
theorem queryDugoutEntry : Statement .queryDugoutEntry := ofEncode _
theorem queryNvmeRegion : Statement .queryNvmeRegion := ofEncode _
theorem queryArena : Statement .queryArena := ofEncode _
theorem cmdtailWrite : Statement .cmdtailWrite := ofEncode _
theorem cplheadWrite : Statement .cplheadWrite := ofEncode _
theorem statWrite : Statement .statWrite := ofEncode _
theorem registerWrite : Statement .registerWrite := ofEncode _
theorem functionLevelReset : Statement .functionLevelReset := ofEncode _
theorem coldReset : Statement .coldReset := ofEncode _
theorem powerSample : Statement .powerSample := ofEncode _
theorem flitReceive : Statement .flitReceive := ofEncode _
theorem linkRetrain : Statement .linkRetrain := ofEncode _
theorem packageLost : Statement .packageLost := ofEncode _
theorem correctedError : Statement .correctedError := ofEncode _
theorem correctedErrorThreshold : Statement .correctedErrorThreshold := ofEncode _
theorem scrubPass : Statement .scrubPass := ofEncode _
theorem uncorrectableError : Statement .uncorrectableError := ofEncode _
theorem hardwareWithdrawn : Statement .hardwareWithdrawn := ofEncode _
theorem straightLineFetchLimit : Statement .straightLineFetchLimit := ofEncode _
theorem mapZeroingDone : Statement .mapZeroingDone := ofEncode _
theorem fltheadWrite : Statement .fltheadWrite := ofEncode _
theorem vfEnable : Statement .vfEnable := ofEncode _
theorem stealShipmentArrival : Statement .stealShipmentArrival := ofEncode _

end Sys2Proof.Laws.Sized
end

