-- ==== Sys2Proof/Laws/Rounds.lean ====
section
/-!
SUPPORT. What the count of late faults does to the state after a turn (spec/20_faults_errors.md R344).
-/
namespace Sys2Proof.Machine

open Sys2Proof

/-- A turn that ends no dispatch by a fault counts no late fault. -/
theorem countLate_of_ended {s u : State} (h : u.ended = s.ended) : s.countLate u = u := by
  have : (u.ended.filter fun k => !(k ∈ s.ended)) = [] := by
    rw [h, List.filter_eq_nil_iff]; intro k hk; simpa using hk
  rw [State.countLate, this]; rfl

/-- The count of late faults changes the contexts' fault counts alone: memory stays as it is. -/
theorem mem_countLate (s u : State) : (s.countLate u).mem = u.mem ∧ (s.countLate u).hostMem = u.hostMem := by
  unfold State.countLate
  generalize (u.ended.filter fun k => !(k ∈ s.ended)) = l
  generalize u.agenda = g
  induction l generalizing u with
  | nil => exact ⟨rfl, rfl⟩
  | cons k t ih =>
    obtain ⟨h1, h2⟩ := ih (u.countFaults (s.dispCtx k) (s.agenda.filter fun t => decide (t ∈ g) && endsAt s k t).length)
    exact ⟨h1.trans (by simp [State.countFaults]), h2.trans (by simp [State.countFaults])⟩

/-- A turn's outcome, late faults counted: a next state comes from one, and a stop from the same stop. -/
theorem afterTurn_next {s t : State} {o : Host.Outcome State Fault Refusal} (h : s.afterTurn o = .next t) :
    ∃ u, o = .next u ∧ t = s.countLate u := by
  cases o with
  | next u => exact ⟨u, rfl, (Host.Outcome.next.inj h).symm⟩
  | fault f => cases h
  | refused r => cases h

end Sys2Proof.Machine
end

