-- ==== Sys2Proof/Laws/Scalar.lean ====
section
/-!
SUPPORT. What an instruction that writes one result to D does, once for all of them, and the values of the scalar unit
beside the ones that the rules give (spec/04_scalar_control_plain_memory.md R63 to R70).
-/
namespace Sys2Proof.Machine

open Sys2Proof

/-- An instruction that issues and only gives D a value does that and goes on in line. -/
theorem outcome_putD {s : State} {sh : Shape} {w : Norom} {f : Vals → V128} (h : s.issues sh w = true)
    (ht : (s.popped sh w).takes w.d (f (s.operands sh w)) = true) :
    outcome (lineE sh w fun v => putD w (f v)) s = .next ((s.popped sh w).put w.d (f (s.operands sh w))).inLine :=
  outcome_lineE h (run_putD ht)

/-- A scalar instruction of two sources. -/
theorem outcome_scalar2 {s : State} {w : Norom} {f : Word → Word → Word} {x : Word} (h : s.issues scalarShape2 w = true)
    (hx : x = f (low (s.operands scalarShape2 w).a) (low (s.operands scalarShape2 w).b))
    (ht : (s.popped scalarShape2 w).takes w.d (wide x) = true) :
    outcome (scalar2 w f) s = .next ((s.popped scalarShape2 w).put w.d (wide x)).inLine := by
  subst hx
  exact outcome_putD (f := fun v => wide (f (low v.a) (low v.b))) h ht

/-- A scalar instruction of A alone. -/
theorem outcome_scalar1 {s : State} {w : Norom} {f : Word → Word} {x : Word} (h : s.issues scalarShape1 w = true)
    (hx : x = f (low (s.operands scalarShape1 w).a)) (ht : (s.popped scalarShape1 w).takes w.d (wide x) = true) :
    outcome (scalar1 w f) s = .next ((s.popped scalarShape1 w).put w.d (wide x)).inLine := by
  subst hx
  exact outcome_putD (f := fun v => wide (f (low v.a))) h ht

/-- An instruction whose guard does not hold only advances. -/
theorem outcome_skip {s : State} {sh : Shape} {w : Norom} {body : Vals → M Unit} (h : s.guardSkips w = true) :
    outcome (lineE sh w body) s = .next s.inLine := by
  simp only [State.guardSkips, Bool.and_eq_true, Bool.not_eq_true', decide_eq_false_iff_not, beq_iff_eq] at h
  obtain ⟨⟨⟨-, hg⟩, hp⟩, he⟩ := h
  have hon : guardOn w s = .ok (false, s) := by
    simp only [guardOn, hg, if_true, run_bind_ok (run_readG s hp), run_pure, he, bne_self_eq_false]
  exact outcome_ok (by simp only [lineE, instrE, instrKeep, run_bind_ok hon]; rfl)

/-- A form that pushes no endpoint always takes its result. -/
theorem takes_of_noQueue {s : State} {raw : BitVec 16} {x : V128} (h : ∀ id, opnd raw ≠ .q id) :
    s.takes raw x = true := by
  unfold State.takes
  split
  · exact absurd ‹_› (h _)
  · rfl

/-! ## Values -/

theorem valAdd_eq (a b : Word) : valAdd a b = BitVec.ofInt 64 (a.toInt + b.toInt) := by
  simp [valAdd, BitVec.ofInt_add]

theorem valSub_eq (a b : Word) : valSub a b = BitVec.ofInt 64 (a.toInt - b.toInt) := by
  apply BitVec.eq_of_toInt_eq
  simp [valSub, BitVec.toInt_sub]

theorem valMul_eq (a b : Word) : valMul a b = BitVec.ofInt 64 (a.toInt * b.toInt) := by
  simp [valMul, BitVec.ofInt_mul]

theorem clampInt_eq {lo hi : Int} (h : lo ≤ hi) (x : Int) : clampInt lo hi x = min (max x lo) hi := by
  unfold clampInt; omega

theorem valMulhs_eq (a b : Word) : valMulhs a b = BitVec.ofInt 64 (Int.fdiv (a.toInt * b.toInt) (2 ^ 64)) := by
  simp [valMulhs, Int.fdiv_eq_ediv]

theorem valSubus_eq (a b : Word) : valSubus a b = BitVec.ofInt 64 (max ((a.toNat : Int) - b.toNat) 0) := by
  have : max ((a.toNat : Int) - b.toNat) 0 = ((a.toNat - b.toNat : Nat) : Int) := by omega
  rw [this]; simp [valSubus]

end Sys2Proof.Machine
end

