-- ==== Sys2Proof/Laws/Strands.lean ====
section
/-!
SUPPORT. What the shared operations of the strands do: registers, the entry to a handler, accesses of one generic
address.
-/
namespace Sys2Proof.Machine

open Sys2Proof

/-! ## Registers -/

@[simp] theorem EStrand.rd_zero (e : EStrand) : e.rd 0 = 0 := rfl

/-- g0 discards (R16). -/
@[simp] theorem EStrand.wr_zero (e : EStrand) (x : Word) : e.wr 0 x = e := rfl

theorem EStrand.rd_wr_self (e : EStrand) {n : Nat} (h : n ≠ 0) (x : Word) : (e.wr n x).rd n = x := by
  simp [EStrand.rd, EStrand.wr, h]

theorem EStrand.rd_wr_other (e : EStrand) {n m : Nat} (h : m ≠ n) (x : Word) : (e.wr n x).rd m = e.rd m := by
  unfold EStrand.rd EStrand.wr
  split
  · rfl
  · split
    · rfl
    · exact Tab.get_set_other 0 e.g x h

@[simp] theorem EStrand.rdV_wrV_self (e : EStrand) (n : Nat) (x : V128) : (e.wrV n x).rdV n = x :=
  Tab.get_set_self ..

theorem EStrand.rdV_wrV_other (e : EStrand) {n m : Nat} (h : m ≠ n) (x : V128) : (e.wrV n x).rdV m = e.rdV m :=
  Tab.get_set_other 0 e.v x h

@[simp] theorem RvStrand.rd_zero (h : RvStrand) : h.rd 0 = 0 := rfl

/-- x0 discards. -/
@[simp] theorem RvStrand.wr_zero (h : RvStrand) (v : Word) : h.wr 0 v = h := rfl

theorem RvStrand.rd_wr_self (h : RvStrand) {n : BitVec 5} (hn : n ≠ 0) (v : Word) : (h.wr n v).rd n = v := by
  unfold RvStrand.rd RvStrand.wr
  rw [if_neg hn, if_neg hn]
  exact Tab.get_set_self ..

theorem RvStrand.rd_wr_other (h : RvStrand) {n m : BitVec 5} (hm : m ≠ n) (v : Word) : (h.wr n v).rd m = h.rd m := by
  unfold RvStrand.rd RvStrand.wr
  split
  · rfl
  · split
    · rfl
    · exact Tab.get_set_other 0 h.x v fun he => hm (BitVec.eq_of_toNat_eq he)

/-! ## Taking a fault -/

/-- A stop for pre-emption at a point of the side table changes nothing but the core's drain (R329). -/
theorem pointStop_cases (s : State) (n : Nat) :
    s.pointStop n = s ∨ ∃ p, s.pointStop n = s.onCore n fun c => { c with drain := .stopped p } := by
  unfold State.pointStop
  split
  · split
    · exact .inr ⟨_, rfl⟩
    · split
      · exact .inr ⟨_, rfl⟩
      · exact .inl rfl
  · exact .inl rfl

/-- Outside a handler, with one set and no error in the registers that say so, E of a core has a handler to enter
(R90, R348). -/
theorem noHandler_eq_false {c : Core} (hv : c.e.xvec ≠ 0) (hl : c.e.xvec.toNat < c.stores.ilim)
    (hx : c.e.xcause.getLsbD 8 = false) (hp : ∀ r ∈ entryReads, r ∉ c.poison.eRegs) : noHandler c = false := by
  have h : entryReads.any (· ∈ c.poison.eRegs) = false := by simpa using hp
  have hn : decide (c.stores.ilim ≤ c.e.xvec.toNat) = false := by simpa using hl
  simp only [noHandler, hn, hx, h, Bool.or_false, hv, decide_false]

/-- The entry of E into its handler: three registers are written, their poison marks go, and E goes on at xvec (R90). -/
theorem takeE_enters {s : State} {n : Nat} {cause : Byte} {info : Word} (h : noHandler (s.core n) = false) :
    s.takeE n cause info = (s.onCore n fun c => { c with
      e := { c.e with
        run := .running
        xcause := 0x100 ||| cause.setWidth 9
        xinfo := info
        xpc := c.e.pc
        pc := c.e.xvec.setWidth 13 }
      poison := { c.poison with eRegs := c.poison.eRegs.filter fun r => !(r ∈ entryWrites) } }).pointStop n := by
  simp [State.takeE, h]

/-- With no handler to enter the dispatch of the core ends by fail, with the code of the fault that E had entered a
handler for, or with this one's (R90, R131, R343). -/
theorem takeE_fails {s : State} {n d : Nat} {cause : Byte} {info : Word} (hd : (s.core n).disp = some d)
    (h : noHandler (s.core n) = true) :
    s.takeE n cause info = s.failFirst d (whoStrand s n .e) cause
      (if (s.core n).e.xcause.getLsbD 8 then (s.core n).e.xcause.setWidth 8 else cause) (leBytes 8 info.toNat) := by
  simp [State.takeE, h, hd]

/-- A return from a handler clears in-handler, keeps the cause and goes to xpc (R91). -/
theorem run_returnE (s : State) :
    returnE s = .ok (s.my.e.xpc, s.onE fun e => { e with xcause := e.xcause &&& 0xFF }) := rfl

/-! ## One access -/

/-- An access that passes lies in one row, is admitted, is aligned, and is resolved there (R54, R76). -/
theorem accessAt_ok {v : Via} {ea : Word} {n : Nat} {k : Kind} {s t : State} {l : Loc}
    (h : accessAt v ea n k s = .ok (l, t)) :
    ∃ a, aperture ea.toNat n = some a ∧ v.admits n a = true ∧ ea.toNat % n = 0 ∧
      resolve v ea.toNat n k a s = .ok (l, t) := by
  unfold accessAt at h
  cases ha : aperture ea.toNat n with
  | none => rw [ha] at h; cases h
  | some a =>
    simp only [ha] at h
    by_cases hv : (!v.admits n a) = true
    · rw [if_pos hv] at h; cases h
    · rw [if_neg hv] at h
      by_cases hm : ea.toNat % n ≠ 0
      · rw [if_pos hm] at h; cases h
      · rw [if_neg hm] at h
        exact ⟨a, rfl, by simpa using hv, by omega, h⟩

/-- A load that ends answers the bytes of the place that its address resolves to. -/
theorem load_ok {v : Via} {ea : Word} {n : Nat} {s t : State} {bs : List Byte} (h : load v ea n s = .ok (bs, t)) :
    ∃ l, accessAt v ea n .read s = .ok (l, t) ∧ bs = locRead t l n := by
  obtain ⟨l, u, h1, h2⟩ := bind_ok h
  cases h2
  exact ⟨l, h1, rfl⟩

/-- A store that ends writes its bytes to the place that its address resolves to, and nothing else once it is
resolved. -/
theorem store_ok {v : Via} {ea : Word} {bs : List Byte} {s t : State} (h : store v ea bs s = .ok ((), t)) :
    ∃ l u, accessAt v ea bs.length .write s = .ok (l, u) ∧ t = locWrite u l bs := by
  obtain ⟨l, u, h1, h2⟩ := bind_ok h
  cases h2
  exact ⟨l, u, h1, rfl⟩

/-- An atomic answers the old bytes and writes the function of them (R225). -/
theorem atomicAt_ok {v : Via} {ea : Word} {n : Nat} {f : List Byte → List Byte} {s t : State} {old : List Byte}
    (h : atomicAt v ea n f s = .ok (old, t)) :
    ∃ l u, accessAt v ea n .atomic s = .ok (l, u) ∧ old = locRead u l n ∧ t = locWrite u l (f old) := by
  obtain ⟨l, u, h1, h2⟩ := bind_ok h
  obtain ⟨o, u', h3, h4⟩ := bind_ok h2
  cases h3
  obtain ⟨_, _, h5, h6⟩ := bind_ok h4
  cases h5; cases h6
  exact ⟨l, u, h1, rfl, rfl⟩

/-- The wakes that a write starts are turns to come: memory stays as it is (R263). -/
theorem canonical_mailboxTurns (s : State) (p n : Nat) : (mailboxTurns s p n).canonical = s.canonical := by
  unfold mailboxTurns
  split <;> rfl

/-- A write of a place keeps memory canonical. -/
theorem canonical_locWrite {s : State} (l : Loc) (bs : List Byte) (h : s.canonical = true) :
    (locWrite s l bs).canonical = true := by
  match l with
  | .mem p none => exact (canonical_mailboxTurns _ _ _).trans (canonical_physWrite p bs h)
  | .mem p (some b) =>
    exact (canonical_mailboxTurns _ _ _).trans (canonical_of_eq (by simp) (by simp) (canonical_physWrite p bs h))
  | .pool _ _ _ => exact h
  | .dropped => exact h
  | .umpire _ _ => exact h

end Sys2Proof.Machine
end

