-- ==== Sys2Proof/Tests/Slice0.lean ====
section
/-!
SUPPORT. The model's own tests: ill-formed terms, words written out from the encodings of spec/, single steps whose
results the spec gives, and a witness for every statement with hypotheses (states and operands that meet them).
-/
namespace Sys2Proof.Tests

-- The witnesses are checked one after another: side by side they take more memory.
set_option Elab.async false

open Sys2Proof Sys2Proof.Machine

/-! ## Terms that stand for no word (R31 to R33, R106, R187) -/

/-- A word with no guard and no hint. -/
def word (m : BitVec 6) (d a b : BitVec 16) : Norom := ⟨m, d, a, b, 0, 0⟩

theorem test_wf_vcvt_destination : Instr.wf (.vcvt 0x12 (word 0 0 0 0)) = false := by decide
theorem test_wf_msg_send_with_receive_bit : Instr.wf (.msg (word 1 0 0 0)) = false := by decide
theorem test_wf_msg_receive_without_bit : Instr.wf (.msgRecv (word 0 0 0 0)) = false := by decide
theorem test_wf_hint_opcode : Instr.wf (.hintWord 0xEF 0 (word 0 0 0 0)) = false := by decide
theorem test_wf_illegal_word_assigned : Instr.wf (.illegalOpcodeWord 0x01 0 (word 0 0 0 0)) = false := by decide
theorem test_wf_parcel_of_four_bytes : Instr.wf (.ebreak (.two 0x9003)) = false := by decide

/-! ## Words that the manual prints, one for each family -/

theorem test_decode_susp : decodeNorom 0x90000002B001F00000000000 = .susp (word 0 0x002B 0x001F 0) := Eq.refl _
theorem test_decode_aadd : decodeNorom 0x540040006000840010000000 = .aadd (word 4 0x0006 0x0008 0x4001) := Eq.refl _
theorem test_decode_acas : decodeNorom 0x550050005000800090000000 = .acas (word 5 0x0005 0x0008 0x0009) := Eq.refl _
theorem test_decode_fence : decodeNorom 0x600030007400B00000000000 = .fence (word 3 0x0007 0x400B 0) := Eq.refl _
theorem test_decode_mstr : decodeNorom 0x8300A8000000D40800000000 = .mstr (word 0x0A 0x8000 0x000D 0x4080) := Eq.refl _
theorem test_decode_mzero : decodeNorom 0x850008002000000000000000 = .mzero (word 0 0x8002 0 0) := Eq.refl _
theorem test_decode_ldhu : decodeNorom 0x500C00013000B4004D500000 = .ldhu ⟨0, 0x0013, 0x000B, 0x4004, 0xD5, 0⟩ := Eq.refl _
theorem test_decode_bne : decodeNorom 0x10040FFFD001700000000000 = .bne (word 0 0xFFFD 0x0017 0) := Eq.refl _
theorem test_decode_trap : decodeNorom 0x150000000400700000000000 = .trap (word 0 0 0x4007 0) := Eq.refl _
theorem test_decode_vadd : decodeNorom 0x200092002200020010000000 = .vadd (word 9 0x2002 0x2000 0x2001) := Eq.refl _
theorem test_decode_li : decodeNorom 0x0D00000059ABCDEF00000000 = .li (word 0 0x0005 0x9ABC 0xDEF0) := Eq.refl _
theorem test_decode_vcvt : decodeNorom 0x2A30B2005200440040000000 = .vcvt 0x0C (word 0x0B 0x2005 0x2004 0x4004) := Eq.refl _
theorem test_decode_stw : decodeNorom 0x510814001000F40000000000 = .stw (word 1 0x4001 0x000F 0x4000) := Eq.refl _
theorem test_decode_bbtest : decodeNorom 0x61100001C001B001A0000000 = .bbtest (word 0 0x001C 0x001B 0x001A) := Eq.refl _
theorem test_decode_kvapp : decodeNorom 0xA00000014000E00090000000 = .kvapp (word 0 0x0014 0x000E 0x0009) := Eq.refl _
theorem test_decode_attn : decodeNorom 0xA10000000001D00000000000 = .attn (word 0 0 0x001D 0) := Eq.refl _
theorem test_decode_acomb : decodeNorom 0xA20000021002200230000000 = .acomb (word 0 0x0021 0x0022 0x0023) := Eq.refl _
theorem test_decode_park : decodeNorom 0xA3000001E001D00000000000 = .park (word 0 0x001E 0x001D 0) := Eq.refl _
theorem test_decode_wake : decodeNorom 0xA30400000000500000000000 = .wake (word 0 0 0x0005 0) := Eq.refl _
theorem test_decode_cpys : decodeNorom 0x700400000001400000000000 = .cpys (word 0 0 0x0014 0) := Eq.refl _
theorem test_decode_xpost : decodeNorom 0x710000000001700000000000 = .xpost (word 0 0 0x0017 0) := Eq.refl _
theorem test_decode_xsend : decodeNorom 0x710400000001800000000000 = .xsend (word 0 0 0x0018 0) := Eq.refl _
theorem test_decode_xclose : decodeNorom 0x710800016400400000000000 = .xclose (word 0 0x0016 0x4004 0) := Eq.refl _
theorem test_decode_gbarr : decodeNorom 0x63000000B800000000000000 = .gbarr (word 0 0x000B 0x8000 0) := Eq.refl _
theorem test_decode_gbwait : decodeNorom 0x6304000008000000B0000000 = .gbwait (word 0 0 0x8000 0x000B) := Eq.refl _
theorem test_decode_hbwait : decodeNorom 0x620800000800240000000000 = .hbwait (word 0 0 0x8002 0x4000) := Eq.refl _
theorem test_decode_msgRecv : decodeNorom 0xB00012006000000000000000 = .msgRecv (word 1 0x2006 0 0) := Eq.refl _
theorem test_decode_boflush : decodeNorom 0xB20000000402000000000000 = .boflush (word 0 0 0x4020 0) := Eq.refl _
theorem test_decode_accrd : decodeNorom 0x87012200A800040000000000 = .accrd (word 0x12 0x200A 0x8000 0x4000) := Eq.refl _
theorem test_decode_tdone : decodeNorom 0x960000000000000000000000 = .tdone (word 0 0 0 0) := Eq.refl _

theorem test_decode_lq_gpush : decodeRvParcel 0x0203000B = .lqGpush 0 6 0 := Eq.refl _
theorem test_decode_lq_spush : decodeRvParcel 0x040E000B = .lqSpush 0 28 0 := Eq.refl _
/-! ## Every assigned Norom opcode, with D = g3, A = g4 and B = g5 (R14, R33) -/

theorem test_opcodes_scalar : let x := word 0 3 4 5
    [
      0x000000003000400050000000, 0x010000003000400050000000, 0x010400003000400050000000,
      0x010800003000400050000000, 0x020000003000400050000000, 0x020400003000400050000000,
      0x020800003000400050000000, 0x030000003000400050000000, 0x030400003000400050000000,
      0x030800003000400050000000, 0x040000003000400050000000, 0x040400003000400050000000,
      0x040800003000400050000000, 0x040C00003000400050000000, 0x050000003000400050000000,
      0x050400003000400050000000, 0x050800003000400050000000, 0x050C00003000400050000000,
      0x060000003000400050000000, 0x060400003000400050000000, 0x060800003000400050000000,
      0x060C00003000400050000000, 0x070000003000400050000000, 0x070400003000400050000000,
      0x070800003000400050000000, 0x070C00003000400050000000, 0x071000003000400050000000,
      0x071400003000400050000000, 0x080000003000400050000000, 0x080400003000400050000000,
      0x080800003000400050000000, 0x080C00003000400050000000, 0x090000003000400050000000,
      0x090400003000400050000000, 0x090800003000400050000000, 0x090C00003000400050000000,
      0x091000003000400050000000, 0x0A0000003000400050000000, 0x0A0400003000400050000000,
      0x0B0000003000400050000000, 0x0B0400003000400050000000, 0x0C0000003000400050000000,
      0x0D0000003000400050000000, 0x0D0400003000400050000000].map decodeNorom = [
      .nop x, .add x, .addss x, .addus x, .sub x, .subss x, .subus x, .mul x, .mulhs x, .mulhu x, .divs x, .divu x,
      .rems x, .remu x, .and x, .or x, .xor x, .andn x, .shl x, .shr x, .sar x, .rol x, .seq x, .sne x, .slt x,
      .sle x, .sltu x, .sleu x, .min x, .max x, .minu x, .maxu x, .clz x, .ctz x, .popc x, .brev x, .bswap x,
      .bfx x, .bfi x, .sext x, .zext x, .mov x, .li x, .lih x] := Eq.refl _

theorem test_opcodes_control : let x := word 0 3 4 5
    [
      0x100000003000400050000000, 0x100400003000400050000000, 0x100800003000400050000000,
      0x100C00003000400050000000, 0x101000003000400050000000, 0x101400003000400050000000,
      0x110000003000400050000000, 0x110400003000400050000000, 0x120000003000400050000000,
      0x120400003000400050000000, 0x130000003000400050000000, 0x140000003000400050000000,
      0x150000003000400050000000, 0x160000003000400050000000].map decodeNorom = [
      .beq x, .bne x, .blt x, .bge x, .bltu x, .bgeu x, .jmp x, .jmpr x, .call x, .callr x, .ret x, .halt x,
      .trap x, .wait x] := Eq.refl _

theorem test_opcodes_vector : let x := word 0 3 4 5
    [
      0x200000003000400050000000, 0x200400003000400050000000, 0x210000003000400050000000,
      0x210400003000400050000000, 0x220000003000400050000000, 0x220400003000400050000000,
      0x230000003000400050000000, 0x230400003000400050000000, 0x240000003000400050000000,
      0x240400003000400050000000, 0x250000003000400050000000, 0x250400003000400050000000,
      0x260000003000400050000000, 0x260400003000400050000000, 0x260800003000400050000000,
      0x260C00003000400050000000, 0x270000003000400050000000, 0x270400003000400050000000,
      0x270800003000400050000000, 0x280000003000400050000000, 0x280400003000400050000000,
      0x280800003000400050000000, 0x280C00003000400050000000, 0x290000003000400050000000,
      0x2A0000003000400050000000, 0x2A0400003000400050000000, 0x2A0800003000400050000000,
      0x2A0C00003000400050000000, 0x2A1000003000400050000000, 0x2A1400003000400050000000,
      0x2A1800003000400050000000, 0x2A1C00003000400050000000, 0x2A2000003000400050000000,
      0x2A2400003000400050000000, 0x2A2800003000400050000000, 0x2A2C00003000400050000000,
      0x2A3000003000400050000000, 0x2A3400003000400050000000, 0x2A3800003000400050000000,
      0x2A3C00003000400050000000, 0x2A4000003000400050000000, 0x2A4400003000400050000000,
      0x2B0000003000400050000000, 0x2B0400003000400050000000, 0x2C0000003000400050000000,
      0x2C0400003000400050000000, 0x2C0800003000400050000000, 0x2D0000003000400050000000,
      0x2D0400003000400050000000, 0x2E0000003000400050000000, 0x2E0400003000400050000000,
      0x2F0000003000400050000000, 0x2F0400003000400050000000, 0x2F0800003000400050000000].map decodeNorom = [
      .vadd x, .vadds x, .vsub x, .vsubs x, .vmul x, .vmulh x, .vfma x, .vfms x, .vmin x, .vmax x, .vabs x,
      .vneg x, .vand x, .vor x, .vxor x, .vandn x, .vshl x, .vshr x, .vsar x, .vceq x, .vcne x, .vclt x, .vcle x,
      .vblend x, .vcvt 0x00 x, .vcvt 0x01 x, .vcvt 0x02 x, .vcvt 0x03 x, .vcvt 0x04 x, .vcvt 0x05 x, .vcvt 0x06 x,
      .vcvt 0x07 x, .vcvt 0x08 x, .vcvt 0x09 x, .vcvt 0x0A x, .vcvt 0x0B x, .vcvt 0x0C x, .vcvt 0x0D x,
      .vcvt 0x0E x, .vcvt 0x0F x, .vcvt 0x10 x, .vcvt 0x11 x, .vqmx x, .vdqmx x, .vrsum x, .vrmax x, .vrmin x,
      .vscan x, .vscanm x, .vperm x, .vshuf x, .vbcast x, .vext x, .vins x] := Eq.refl _

theorem test_opcodes_vector_more : let x := word 0 3 4 5
    [
      0x300000003000400050000000, 0x310000003000400050000000, 0x320000003000400050000000].map decodeNorom = [
      .vdot4 x, .vpopm x, .vmov x] := Eq.refl _

theorem test_opcodes_special_functions : let x := word 0 3 4 5
    [
      0x400000003000400050000000, 0x400400003000400050000000, 0x400800003000400050000000,
      0x400C00003000400050000000, 0x401000003000400050000000, 0x401400003000400050000000,
      0x401800003000400050000000, 0x401C00003000400050000000, 0x402000003000400050000000,
      0x402400003000400050000000, 0x402800003000400050000000, 0x402C00003000400050000000,
      0x410000003000400050000000].map decodeNorom = [
      .vexp2 x, .vlog2 x, .vrcp x, .vrsqrt x, .vsqrt x, .vtanh x, .vsigm x, .vsilu x, .vgelu x, .vsin x, .vcos x,
      .vexp x, .vdiv x] := Eq.refl _

theorem test_opcodes_memory : let x := word 0 3 4 5
    [
      0x500000003000400050000000, 0x500400003000400050000000, 0x500800003000400050000000,
      0x500C00003000400050000000, 0x501000003000400050000000, 0x501400003000400050000000,
      0x501800003000400050000000, 0x510000003000400050000000, 0x510400003000400050000000,
      0x510800003000400050000000, 0x510C00003000400050000000, 0x520000003000400050000000,
      0x530000003000400050000000, 0x540000003000400050000000, 0x540400003000400050000000,
      0x540800003000400050000000, 0x540C00003000400050000000, 0x541000003000400050000000,
      0x541400003000400050000000, 0x541800003000400050000000, 0x541C00003000400050000000,
      0x542000003000400050000000, 0x550000003000400050000000].map decodeNorom = [
      .ldb x, .ldbu x, .ldh x, .ldhu x, .ldw x, .ldwu x, .ldd x, .stb x, .sth x, .stw x, .std x, .vld x, .vst x,
      .aadd x, .amin x, .amax x, .aminu x, .amaxu x, .aand x, .aor x, .axor x, .axchg x, .acas x] := Eq.refl _

theorem test_opcodes_fences_and_barriers : let x := word 0 3 4 5
    [
      0x600000003000400050000000, 0x600400003000400050000000, 0x600800003000400050000000,
      0x610000003000400050000000, 0x610400003000400050000000, 0x610800003000400050000000,
      0x610C00003000400050000000, 0x611000003000400050000000, 0x620000003000400050000000,
      0x620400003000400050000000, 0x620800003000400050000000, 0x630000003000400050000000,
      0x630400003000400050000000].map decodeNorom = [
      .fence x, .fwait x, .ftest x, .bbinit x, .bbexp x, .bbarr x, .bbwait x, .bbtest x, .hbset x, .hbarr x,
      .hbwait x, .gbarr x, .gbwait x] := Eq.refl _

theorem test_opcodes_copies_and_exchange : let x := word 0 3 4 5
    [
      0x700000003000400050000000, 0x700400003000400050000000, 0x700800003000400050000000,
      0x700C00003000400050000000, 0x710000003000400050000000, 0x710400003000400050000000,
      0x710800003000400050000000, 0x720000003000400050000000].map decodeNorom = [
      .cpy x, .cpys x, .cpyg x, .cpyx x, .xpost x, .xsend x, .xclose x, .bcopy x] := Eq.refl _

theorem test_opcodes_matrix : let x := word 0 3 4 5
    [
      0x800000003000400050000000, 0x800400003000400050000000, 0x810000003000400050000000,
      0x820000003000400050000000, 0x830000003000400050000000, 0x830400003000400050000000,
      0x850000003000400050000000, 0x860000003000400050000000, 0x870000003000400050000000,
      0x870400003000400050000000].map decodeNorom = [
      .mcfg x, .epcfg x, .cvld x, .mwld x, .mstr x, .scrum x, .mzero x, .mdrn x, .accrd x, .accwr x] := Eq.refl _

theorem test_opcodes_demand : let x := word 0 3 4 5
    [
      0x900000003000400050000000, 0x900400003000400050000000, 0x910000003000400050000000,
      0x920000003000400050000000, 0x930000003000400050000000, 0x930400003000400050000000,
      0x930800003000400050000000, 0x940000003000400050000000, 0x960000003000400050000000].map decodeNorom = [
      .susp x, .task x, .force x, .spark x, .drop x, .hdup x, .hmake x, .hstat x, .tdone x] := Eq.refl _

theorem test_opcodes_sequences : let x := word 0 3 4 5
    [
      0xA00000003000400050000000, 0xA10000003000400050000000, 0xA20000003000400050000000,
      0xA30000003000400050000000, 0xA30400003000400050000000].map decodeNorom = [
      .kvapp x, .attn x, .acomb x, .park x, .wake x] := Eq.refl _

theorem test_opcodes_messages : let x := word 0 3 4 5
    [
      0xB00000003000400050000000, 0xB00010003000400050000000, 0xB10000003000400050000000,
      0xB20000003000400050000000].map decodeNorom = [
      .msg x, .msgRecv (word 1 3 4 5), .qstat x, .boflush x] := Eq.refl _

theorem test_opcodes_control_registers : let x := word 0 3 4 5
    [
      0xC00000003000400050000000, 0xC00400003000400050000000, 0xC00800003000400050000000,
      0xC00C00003000400050000000, 0xC10000003000400050000000, 0xC20000003000400050000000,
      0xC20400003000400050000000, 0xC30000003000400050000000].map decodeNorom = [
      .csrr x, .csrw x, .csrs x, .csrc x, .eret x, .flags x, .flagc x, .time x] := Eq.refl _

/-! ## Words of the RV64 sets (R187, R192, R193, R297, R306) -/

theorem test_opcodes_queue_extension :
    [0x0007000B, 0x0203000B, 0x040E000B, 0x0608000B, 0x080F000B, 0x0A00050B, 0x0C000F8B, 0x0E02800B, 0x1005850B,
      0x00B5100B, 0x0318100B, 0x05C7900B, 0x0005A60B, 0x0318288B, 0x0406200B].map decodeRvParcel = [
      .lqVpush 0 14 0, .lqGpush 0 6 0, .lqSpush 0 28 0, .sqVpop 0 16 0, .sqGpop 0 30 0, .sqXpop 0 0 10, .boPop 0 0 31,
      .boPush 0 5 0, .qStat 0 11 10, .cpIssue 11 10 0, .bbArr 17 16 0, .bbWait 28 15 0, .gqPop 0 11 12,
      .rtClaim 17 16 17, .rtEmit 0 12 0] := Eq.refl _

/-- ADDI x1, x2, -1; SUB x5, x6, x7; MULHU x10, x11, x12; SRAI x1, x2, 63; SH1ADD.UW x3, x4, x5; CPOP x1, x2;
LUI x1, 0x12345; JAL x1, -4; JALR x0, 0(x1); BLTU x1, x2, +8; DIVW x1, x2, x3. -/
theorem test_opcodes_rv64_integer :
    [0xFFF10093, 0x407302B3, 0x02C5B533, 0x43F15093, 0x205221BB, 0x60211093, 0x123450B7, 0xFFDFF0EF, 0x00008067,
      0x0020E463, 0x023140BB].map decodeRvParcel = [
      .rv64IntegerInstruction .four (.aluI .addi 0xFFF 2 1), .rv64IntegerInstruction .four (.alu .sub 7 6 5),
      .rv64IntegerInstruction .four (.alu .mulhu 12 11 10), .rv64IntegerInstruction .four (.shI .srai 63 2 1),
      .rv64IntegerInstruction .four (.aluW .sh1adduw 5 4 3), .rv64IntegerInstruction .four (.un .cpop 2 1),
      .rv64IntegerInstruction .four (.lui 0x12345 1), .rv64IntegerInstruction .four (.jal 0xFFFFE 1),
      .rv64IntegerInstruction .four (.jalr 0 1 0), .rv64IntegerInstruction .four (.branch .ltu 4 2 1),
      .rv64IntegerInstruction .four (.aluW .divw 3 2 1)] := Eq.refl _

/-- LD x10, 8(x11); SD x10, 8(x8); FENCE; CSRRS x5, time, x0; ECALL; EBREAK; AMOADD.W x5, x6, (x7); LR.D x5, (x7);
SC.W x5, x6, (x7). -/
theorem test_opcodes_rv64_memory_and_system :
    [0x0085B503, 0x00A43423, 0x0FF0000F, 0xC01022F3, 0x00000073, 0x00100073, 0x0063A2AF, 0x1003B2AF,
      0x1863A2AF].map decodeRvParcel = [
      .rvLoadStore .four (.ld 8 11 10), .rvLoadStore .four (.sd 8 10 8), .rvFence 0x0FF 0 0,
      .rvCsrAccess .csrrs 0xC01 0 5, .ecall, .ebreak .four, .umpireAmo .add false false false 6 7 5,
      .umpireLr true false false 7 5, .umpireSc false false false 6 7 5] := Eq.refl _

/-- C.ADDI4SPN x10, sp, 16; C.LW x10, 4(x11); C.LD x10, 8(x11); C.MV x10, x11; C.ADDI16SP -64; C.BNEZ x10, -14. -/
theorem test_opcodes_compressed :
    [0x0808, 0x41C8, 0x6588, 0x852E, 0x7139, 0xF96D].map decodeRvc = [
      .rv64IntegerInstruction (.two 0x0808) (.aluI .addi 16 2 10), .rvLoadStore (.two 0x41C8) (.lw 4 11 10),
      .rvLoadStore (.two 0x6588) (.ld 8 11 10), .rv64IntegerInstruction (.two 0x852E) (.alu .add 11 0 10),
      .rv64IntegerInstruction (.two 0x7139) (.aluI .addi 0xFC0 2 2),
      .rv64IntegerInstruction (.two 0xF96D) (.branch .ne 0xFF9 0 10)] := Eq.refl _
/-! ## Small states -/

/-- Core 0 runs the probe's dispatch, and E of it has the turn. -/
def here : State :=
  { State.reset.withDispatch.onCore 0 fun c => { c with e := { c.e with run := .running } } with cur := .strand 0 .e }

/-- Core 0 changed. -/
def with0 (s : State) (f : Core → Core) : State := s.onCore 0 f

/-- E of core 0 changed. -/
def withE (s : State) (f : EStrand → EStrand) : State := s.onCore 0 fun c => { c with e := f c.e }

/-- g1 holds a value. -/
def at1 (x : Word) : State := withE here fun e => { e with g := [(1, x)] }

/-- E of core 0 has a handler at 4, in an image of 8 instructions. -/
def handled (s : State) : State :=
  with0 s fun c => { c with stores := { c.stores with ilim := 8 }, e := { c.e with xvec := 4 } }

/-- An outcome is a next state with a property. -/
def goes (o : Host.Outcome State Fault Refusal) (p : State → Bool) : Bool :=
  match o with
  | .next t => p t
  | _ => false

/-- A step in the making ends with a value and a state. -/
def yields {α : Type} [DecidableEq α] (r : Except Stop (α × State)) (a : α) (t : State) : Bool :=
  match r with
  | .ok x => decide (x.1 = a) && decide (x.2 = t)
  | .error _ => false

theorem of_yields {α : Type} [DecidableEq α] {r : Except Stop (α × State)} {a : α} {t : State}
    (h : yields r a t = true) : r = .ok (a, t) := by
  unfold yields at h
  split at h
  · simp only [Bool.and_eq_true, decide_eq_true_eq] at h
    rw [← h.1, ← h.2]
  · cases h

/-! ## Single steps -/

/-- R63, R64: ADD g3, g1, 1 wraps. -/
theorem test_add_wraps : goes (exec (.add (word 0 3 1 0x4001)) (at1 0xFFFFFFFFFFFFFFFF))
    (fun t => t.my.e.rd 3 = 0 ∧ t.my.e.pc = 1) = true := by decide

/-- R64: the most negative number divided by -1 is itself. -/
theorem test_divs_corner : goes (exec (.divs (word 0 3 1 0x5FFF)) (at1 0x8000000000000000))
    (fun t => t.my.e.rd 3 = 0x8000000000000000) = true := by decide

/-- R64: division by zero gives all ones; the remainder is the dividend. -/
theorem test_divu_by_zero : goes (exec (.divu (word 0 3 1 0x4000)) (at1 7))
    (fun t => t.my.e.rd 3 = 0xFFFFFFFFFFFFFFFF) = true := by decide
theorem test_rems_by_zero : goes (exec (.rems (word 0 3 1 0x4000)) (at1 7)) (fun t => t.my.e.rd 3 = 7) = true := by
  decide

/-- R67: BFI g1, 0xF, pos 4 width 4 (0x104) keeps the other bits of g1. -/
theorem test_bfi_keeps_rest : goes (exec (.bfi (word 0 1 0x400F 0x4104)) (at1 0x1200))
    (fun t => t.my.e.rd 1 = 0x12F0) = true := by decide

/-- R70: LIH keeps the low half of D. -/
theorem test_lih_keeps_low : goes (exec (.lih (word 0 1 0x1234 0x5678)) (at1 0x9ABCDEF0))
    (fun t => t.my.e.rd 1 = 0x123456789ABCDEF0) = true := by decide

/-- R26: a guard that does not hold skips even a word whose operands are unacceptable. -/
theorem test_guard_skips : goes (exec (.add ⟨0, 3, 0xE000, 0, 0x80, 0⟩) here) (fun t => t.my.e.pc = 1) = true := by decide

/-- R16: g0 discards. -/
theorem test_g0_discards : goes (exec (.mov (word 0 0 0x4007 0)) here) (fun t => t.my.e.rd 0 = 0) = true := by decide

/-- R90: TRAP 7 with a handler at 4 enters it. -/
theorem test_trap_enters : goes (exec (.trap (word 0 0 0x4007 0))
    (handled (withE here fun e => { e with pc := 2 })))
    (fun t => t.my.e.pc = 4 ∧ t.my.e.xcause = 0x114 ∧ t.my.e.xinfo = 7 ∧ t.my.e.xpc = 2) = true := by decide

/-- R76: an LDW at 2 of the own scratchpad is MISALIGNED with its address. -/
theorem test_ldw_misaligned : goes (exec (.ldw (word 0 3 1 0x4002))
    (handled (at1 0xF000000000000000)))
    (fun t => t.my.e.xcause = 0x104 ∧ t.my.e.xinfo = 0xF000000000000002) = true := by decide

/-- R5, R78: STH stores its low byte first. -/
theorem test_sth_byte_order : goes (exec (.sth (word 0 0x4123 1 0x4000)) (at1 0xF000000000000010))
    (fun t => t.my.pool.scratch = [(16, 0x23), (17, 0x01)]) = true := by decide

/-- The instruction that withFetchWord places is the one that the next step runs: ADD g3, 10, 11. -/
theorem test_step_runs_placed_word : goes (step (State.reset.withFetchWord 96 0x010000003400A400B0000000))
    (fun t => (t.core 0).e.rd 3 = 21 ∧ (t.core 0).e.pc = 1) = true := by decide

/-- A word of L, and one of the umpire: ADDI x1, x0, 5; C.LI x1, 5. -/
theorem test_step_runs_placed_l : goes (step (State.reset.withFetchWord 32 0x00500093))
    (fun t => (t.core 0).l.rd 1 = 5 ∧ (t.core 0).l.pc = 4) = true := by decide
theorem test_step_runs_placed_umpire : goes (step (State.reset.withFetchWord 16 0x4095))
    (fun t => (t.court 0).umpire.hart.rd 1 = 5 ∧ (t.court 0).umpire.hart.pc = 2) = true := by decide

/-- R161, R170: a product of 2^256 is +∞ before it meets a sum of -2^255; one of 2^-285 is +0 before it meets 2^-284. -/
theorem test_mstr_rounds_products :
    accFloat 0 (0x8000000000 + 510 * 2 ^ 30) (.fin false ⟨2 ^ 256, 1⟩) = 0x7FC0000000 ∧
    accFloat 0 1 (.fin false ⟨1, 2 ^ 285⟩) = 1 := by decide +kernel

/-- R68: SEXT of 0x80 from 8 bits. -/
theorem test_value_sext : valSext 0x80 8 = 0xFFFFFFFFFFFFFF80 := by decide
/-! ## Witnesses: scalar and control -/

/-- Core 0 with two entries of lq0, and a full bol. -/
def queued : State :=
  with0 here fun c => { c with q := { c.q with lq0 := [.data 7, .data 8], bol := [1, 2, 3, 4, 5, 6, 7, 8] } }

/-- Two general registers; two entries of one queue; D in a queue. -/
theorem witness_ArithmeticWritesItsValue :
    (at1 5).issues scalarShape2 (word 0 3 1 1) = true ∧ (∀ x, ((at1 5).popped scalarShape2 (word 0 3 1 1)).takes 3 x = true) ∧
    queued.issues scalarShape2 (word 0 0x6002 0x6000 0x6000) = true ∧
    ∀ x, (queued.popped scalarShape2 (word 0 0x6002 0x6000 0x6000)).takes 0x6002 x = true :=
  ⟨by decide, fun _ => rfl, by decide, fun _ => rfl⟩

theorem witness_LogicShiftCompareWriteTheirValue :
    here.issues scalarShape2 (word 0 0 0x4001 0x5FFF) = true ∧
    ∀ x, (here.popped scalarShape2 (word 0 0 0x4001 0x5FFF)).takes 0 x = true := ⟨by decide, fun _ => rfl⟩

theorem witness_BitFieldAndMoveInstructionsWriteTheirValue :
    here.issues scalarShape1 (word 0 3 0x4001 0) = true ∧ here.issues insertShape (word 0 63 0x4001 0x4FFF) = true ∧
    queued.issues moveShape (word 0 0x2003 0x6000 0) = true ∧ here.issues loadImmShape (word 0 0 0xFFFF 0xFFFF) = true ∧
    here.issues loadHighShape (word 0 63 0 0) = true ∧
    ∀ x, (queued.popped moveShape (word 0 0x2003 0x6000 0)).takes 0x2003 x = true :=
  ⟨by decide, by decide, by decide, by decide, by decide, fun _ => rfl⟩

theorem witness_InstructionsChangeNothingElse :
    here.issues bareShape (word 0 0 0 0) = true ∧ here.guardSkips ⟨0, 0xE000, 0, 0, 0x80, 0⟩ = true ∧
    (at1 1).guardSkips ⟨0, 0, 0, 0, 0xC1, 0⟩ = true ∧ here.turnE = true ∧ here.my.e.run = .running := by decide

/-- An image of 8 instructions: targets 7 and 8 meet its end. -/
theorem witness_TransfersReachTheirTarget :
    (handled here).issues branchShape (word 0 7 1 0x4000) = true ∧ (handled here).issues bareShape (word 0 0 0 7) = true ∧
    (handled (at1 7)).issues jumpShape (word 0 0 1 0) = true ∧ (handled here).inImage 7 = true ∧
    (handled here).inImage 8 = false ∧ (handled here).inImage (-1) = false ∧ 62 ∉ (handled here).my.poison.eRegs := by decide

/-- bol full: bit 3 requested and not held; bit 2 held; nothing requested. -/
theorem witness_HaltStopsAndWaitAnswers :
    here.issues bareShape (word 0 0 0 0) = true ∧ queued.issues waitShape (word 0 3 0x4008 0) = true ∧
    queued.issues waitShape (word 0 3 0x4004 0) = true ∧ queued.issues waitShape (word 0 3 0x4000 0) = true ∧
    queued.condition 3 = false ∧ queued.condition 2 = true := by decide

/-- E inside a handler, with xpc at the last instruction and one beyond it. -/
def inside (x : BitVec 13) : State := withE (handled here) fun e => { e with xcause := 0x114, xpc := x }

/-- Core 0 with uncorrectable errors in registers of E. -/
def badRegs (l : List Nat) (s : State) : State := with0 s fun c => { c with poison := { c.poison with eRegs := l } }

theorem witness_TrapEntersTheHandlerAndEretReturns :
    (handled here).issues trapShape (word 0 0 0x4007 0) = true ∧ (handled here).dispOf 0 = some (0, probeDispatch) ∧
    (handled here).catches = true ∧ (handled here).my.drain = .none ∧
    here.issues trapShape (word 0 0 0x4007 0) = true ∧ here.catches = false ∧ (inside 7).catches = false ∧
    here.issues bareShape (word 0 0 0 0) = true ∧ here.my.e.xcause.getLsbD 8 = false ∧
    (inside 7).my.e.xcause.getLsbD 8 = true ∧ 0x1013 ∉ (inside 7).my.poison.eRegs ∧
    0x1011 ∉ (inside 7).my.poison.eRegs ∧ 0x1011 ∈ (badRegs [0x1011] here).my.poison.eRegs ∧
    (badRegs [0x1011] here).issues bareShape (word 0 0 0 0) = true ∧ 0x1013 ∈ (badRegs [0x1013] (inside 7)).my.poison.eRegs ∧
    0x1011 ∉ (badRegs [0x1013] (inside 7)).my.poison.eRegs ∧
    (badRegs [0x1013] (inside 7)).issues bareShape (word 0 0 0 0) = true ∧
    (inside 7).my.e.xpc.toNat < (inside 7).my.stores.ilim ∧ (inside 8).my.stores.ilim ≤ (inside 8).my.e.xpc.toNat :=
  by decide

/-- D of kind imm; A of kind reserved; B of kind v; an empty queue. -/
theorem witness_ChecksComeInOrder :
    here.turnE = true ∧ here.guardHolds (word 0 0 0 0) = true ∧ fieldOk here fGQd 0x4000 = false ∧
    fieldOk here fGQd 3 = true ∧ fieldOk here fGIQ 0xA000 = false ∧ fieldOk here fGIQ 0x6000 = true ∧
    fieldOk here fGIQ 0x2000 = false ∧
    queuesReady here (popsOf scalarShape2 (word 0 3 0x6000 1)) (pushOf fGQd 3) = false := by decide

/-- Context 0 of the probe's dispatch. -/
def context : Context where
  vf := 0
  lost := false
  root := 0x1000
  arenaBase := 0x200000
  awayArenas := []
  arena := 0x200000
  lh := 16
  hw := 8
  hquota := 64
  dquota := 64
  cores := 4
  energy := 1
  gbwd := 1
  xwd := 1
  saveArea := 0
  saveBase := 0
  dmsg := false
  dshare := false
  dmsgCount := 0
  dshareCount := 0
  faultCount := 0
  tcount := 0
  handles := []
  hgens := []
  sparks := []
  allocs := []
  orphans := []
  merged := []

/-- The probe's dispatch in a context. -/
def inCtx (c : Context) : State := here.onFloor fun f => { f with contexts := [(0, c)] }

/-- fpm is read and written; ebud is 0x030; 0x005 is no register. -/
theorem witness_ControlRegistersAreReadAndWritten :
    here.issues csrReadShape (word 0 3 0x4020 0) = true ∧ (0x020, 0) ∈ here.csrRows ∧ 0x1020 ∉ here.my.poison.eRegs ∧
    here.issues csrReadShape (word 0 3 0x4030 0) = true ∧ 0x1030 ∉ here.my.poison.eRegs ∧
    here.issues csrReadShape (word 0 3 0x4005 0) = true ∧ (here.csrRows.all fun q => q.1 != 5) = true ∧
    here.issues csrWriteShape (word 0 3 0x4020 0x40FF) = true ∧
    here.issues csrWriteShape (word 0 3 0x4000 0x40FF) = true ∧ (csrWrites.all fun q => q.1 != 0) = true ∧
    here.issues readShape (word 0 3 0 0) = true ∧ (inCtx context).ctxOf ((inCtx context).coreCtx 0) = some context ∧
    (inCtx context).issues readShape (word 0 3 0 0) = true ∧
    (inCtx context).issues trapShape (word 0 0 0x4007 0) = true := by decide

/-! ## Witnesses: memory and barriers -/

/-- Where the own scratchpad begins. -/
def own : Word := 0xF000000000000000

/-- The page at 0x5000 of context 0, written over five levels: a writable page of 4 KiB whose frame is 0x6000. -/
def paged : State :=
  { (inCtx context).onFloor fun f => { f with frames := [(0x6000, ⟨12, 0, 0, none, [], 0, false⟩)] } with
    mem := tabWrite (tabWrite (tabWrite (tabWrite (tabWrite [] 0x1000 (leBytes 8 0x2001)) 0x2000 (leBytes 8 0x3001))
      0x3000 (leBytes 8 0x4001)) 0x4000 (leBytes 8 0x5001)) (0x5000 + 8 * 5) (leBytes 8 0x6013) }

/-- The last 8 bytes of the scratchpad aperture, and 8 bytes over its end; the last bytes of the partition; a page. -/
theorem witness_AccessReachesItsBytes :
    (at1 own).issues loadShape (word 0 3 1 0x4001) = true ∧ oneRow ((at1 own).address loadShape (word 0 3 1 0x4001)).toNat 1 = true ∧
    (at1 (own - 1)).issues loadShape (word 0 3 1 0x4000) = true ∧
    oneRow ((at1 (own - 1)).address loadShape (word 0 3 1 0x4000)).toNat 1 = false ∧
    (at1 (own + 1)).issues storeShape (word 0 3 1 0x4000) = true ∧
    oneRow ((at1 (own + 1)).address storeShape (word 0 3 1 0x4000)).toNat 8 = true ∧
    ((at1 (own + 1)).address storeShape (word 0 3 1 0x4000)).toNat % 8 ≠ 0 ∧
    (own + 0xFFFF9).toNat + 8 = 0xF000000000000000 + 0x100001 ∧ oneRow (own + 0xFFFF9).toNat 8 = false ∧
    (∀ p ∈ [loadVecShape, storeVecShape], (at1 (own + 1)).issues p (word 0 0x2003 1 0x4000) = true ∧
      ((at1 (own + 1)).address p (word 0 0x2003 1 0x4000)) = own + 1 ∧ (at1 (own + 0xFFFF1)).issues p (word 0 0x2003 1 0x4000) = true ∧
      ((at1 (own + 0xFFFF1)).address p (word 0 0x2003 1 0x4000)) = own + 0xFFFF1) ∧
    oneRow (own + 1).toNat 16 = true ∧ (own + 1).toNat % 16 ≠ 0 ∧ oneRow (own + 0xFFFF1).toNat 16 = false ∧
    (partScratch here.my.part - 16) + 16 ≤ 0x100000 ∧ 16 ≤ partScratch here.my.part ∧
    (Space.scratch, (partScratch here.my.part - 16) / 16) ∉ here.my.poison.granules ∧
    paged.walk (paged.coreCtx 0) 0x5FF8 = .leaf 0x5028 0x6013 12 4 ∧ 0x6013 / 256 % 4 = 0 ∧ 0x6013 / 16 % 2 = 1 ∧
    paged.frameAt (leafPhys 0x6013 12 0x5FF8) = some (0x6000, ⟨12, 0, 0, none, [], 0, false⟩) ∧
    (0 : BitVec 2) = BitVec.ofNat 2 (0x6013 / 64) ∧ paged.floor.lines = [] := by decide

theorem witness_LoadsAndStoresMoveTheirBytes :
    here.issues loadVecShape (word 0 0x2003 1 0x4000) = true ∧ here.issues storeVecShape (word 0 0x2003 1 0x4000) = true ∧
    (at1 own).issues loadShape (word 0 3 1 0x4008) = true ∧ (at1 own).issues storeShape (word 0 0x4005 1 0x4008) = true ∧
    accessAt (viaMe (at1 own)) (own + 8) 8 .read (at1 own) = .ok (.pool 0 .scratch 8, at1 own) ∧
    accessAt (viaMe (at1 own)) (own + 16) 16 .write (at1 own) = .ok (.pool 0 .scratch 16, at1 own) ∧
    ∀ u : State, ∀ x, u.takes 3 x = true :=
  ⟨by decide, by decide, by decide, by decide, of_yields (by decide), of_yields (by decide),
    fun _ _ => rfl⟩

/-- A barrier of 2 at the start of the scratchpad: pending p, rearm 2. -/
def barrier (p : Nat) : State := with0 (at1 own) fun c =>
  { c with pool := { c.pool with scratch := tabWrite [] 0 (leBytes 8 p ++ leBytes 8 2) } }

theorem witness_ByteBarriersCountAndRelease :
    (at1 own).issues barrierShape (word 0 0 1 0x4002) = true ∧ (barrier 2).issues barrierShape (word 0 0 1 0x4000) = true ∧
    (barrier 2).issues barrierShape (word 0 0 1 0x4002) = true ∧ barrierArg own (barrier 2) = .ok ((), barrier 2) ∧
    accessAt (viaMe (at1 own)) own 16 .write (at1 own) = .ok (.pool 0 .scratch 0, at1 own) ∧
    barrierAt (viaMe (barrier 2)) own true (barrier 2) = .ok (.pool 0 .scratch 0, (barrier 2)) ∧
    (barrier 2).barrierWords (.pool 0 .scratch 0) = (2, 2) ∧
    barrierAt (viaMe (barrier (2 ^ 64 - 1))) own true (barrier (2 ^ 64 - 1)) = .ok (.pool 0 .scratch 0, (barrier (2 ^ 64 - 1))) ∧
    (barrier (2 ^ 64 - 1)).barrierWords (.pool 0 .scratch 0) = (2 ^ 64 - 1, 2) ∧
    (barrier 2).issues barrierTestShape (word 0 3 1 0x4001) = true ∧ ownBarrier own (barrier 2) = .ok ((), barrier 2) ∧
    barrierAt (viaMe (barrier 2)) own false (barrier 2) = .ok (.pool 0 .scratch 0, barrier 2) ∧
    (withE (barrier 2) fun e => { e with run := .waiting (.barrier own false) true 0 }).my.e.run =
      .waiting (.barrier own false) true 0 ∧ (barrier 2).my.e.run = .running :=
  ⟨by decide, by decide, by decide, of_yields (by decide), of_yields (by decide), of_yields (by decide), by decide,
    of_yields (by decide), by decide, by decide, of_yields (by decide), of_yields (by decide), by decide, by decide⟩
/-! ## Witnesses: vector instructions -/

/-- All types from u8 to f32; a vector, a scalar and a queue as sources. -/
theorem witness_IntegerLanesAreExactThenWrappedOrClamped :
    here.fpmClean = true ∧ here.issues (vecShape2 modInt) (word 0 0x2000 0x2001 0x4001) = true ∧
    here.issues (vecShape2 modInt) (word 0x27 0x2000 1 0x23FF) = true ∧
    queued.issues (vecShape1 modInt) (word 7 0x6002 0x6000 0) = true ∧
    here.issues (vecShape3 modInt) (word 5 0x2000 0x2001 0x2002) = true ∧
    ∀ u : State, ∀ x, u.takes 0x2000 x = true ∧ u.takes 0x6002 x = true :=
  ⟨by decide, by decide, by decide, by decide, by decide, fun _ _ => ⟨rfl, rfl⟩⟩

theorem witness_FloatLanesAreRoundedOnce :
    here.fpmClean = true ∧ here.issues (vecShape2 modFloat) (word 9 0x2000 0x2001 0x4001) = true ∧
    here.issues (vecShape1 modFloat) (word 11 0x2000 0x2001 0) = true ∧
    here.issues (vecShape3 modFloat) (word 0x2A 0x2000 0x2001 0x2002) = true ∧ (⟨1, 3⟩ : Mag).d ≠ 0 ∧
    (2 : Nat) < 2 ^ fmtE2m1.width ∧ (fmtE2m1.decode 2).finite = true := by decide

theorem witness_WholeRegisterAndLayoutInstructions :
    here.issues (vecShape2 anyMod) (word 0 0x2000 0x2001 1) = true ∧
    here.issues ⟨anyMod, fVQd, fVQ, fNo⟩ (word 0 0x2000 0x2001 0) = true ∧
    here.issues (vecShape3 modAny) (word 0x11 0x2000 0x2001 0x4000) = true ∧
    here.issues (vecShape1 modAny) (word 8 0x2000 0x4000 0) = true ∧
    here.issues ⟨modAny, fGQd, fSrc, fNo⟩ (word 0 3 0x2001 0) = true ∧
    here.issues ⟨modAny, fGQd, fVQ, fGI⟩ (word 0 3 0x2001 0x4003) = true ∧
    here.issues ⟨modAny, fVb, fGIQ, fGI⟩ (word 0 0x2003 1 0x4003) = true := by decide

theorem witness_ReductionsScansAndDotProducts :
    here.fpmClean = true ∧
    here.issues ⟨fun m => modInt m || modFloat m, ⟨.dst, true, 1, false, true, none⟩, fSrc, fNo⟩ (word 0 3 0x2001 0) = true ∧
    here.issues (vecShape2 fun m => modInt m || modFloat m) (word 11 0x2000 0x2001 0x4000) = true ∧
    here.issues (vecShape3 fun m => decide (m.toNat % 32 ≤ 1)) (word 0x20 0x2000 0x2001 0x2002) = true := by decide

/-- D a vector register, bol, and gq. -/
theorem witness_ReductionsScansAndDotProducts_wide :
    here.issues ⟨fun m => modInt m || modFloat m, ⟨.dst, true, 1, false, true, none⟩, fSrc, fNo⟩ (word 0 0x2003 0x2001 0) = true ∧
    here.issues ⟨fun m => modInt m || modFloat m, ⟨.dst, true, 1, false, true, none⟩, fSrc, fNo⟩ (word 0 0x6003 0x2001 0) = true ∧
    here.issues ⟨fun m => modInt m || modFloat m, ⟨.dst, true, 1, false, true, none⟩, fSrc, fNo⟩ (word 0 0x600A 0x2001 0) = true := by decide

/-- A block of 1, 3 and zeros, and one with a NaN. -/
theorem witness_ConversionsOfLanesAndBlocks_scale :
    let xs : List FVal := [.fin false ⟨1, 1⟩, .fin true ⟨3, 1⟩, .zero]
    (∀ x ∈ xs, x.finite = true ∧ x.mag.d ≠ 0) ∧ (∀ x ∈ xs, x.mag.lt (Mag.scale 1 (1 + 1)) = true) ∧
    (∃ x ∈ xs, (Mag.scale 1 1).le x.mag = true) ∧ (∃ x ∈ FVal.nan :: xs, x.finite = false) ∧
    (∀ x ∈ [FVal.zero], x.mag.n = 0) ∧ (List.replicate 32 1).length = 32 ∧
    ∀ ty ∈ [(0xC : BitVec 5), 0xD, 0xF, 0x10, 0x11], ∀ c ∈ List.replicate 32 1, c < 2 ^ (tyOf ty).width := by decide

/-- Parts 0 and 3, to a wider and to a narrower type; the three modes; blocks of FP8 and of E2M1. -/
theorem witness_ConversionsOfLanesAndBlocks :
    here.issues ⟨modAny, fVb, fSrc, fI⟩ (word 0x0C 0x2000 0x2001 0x400C) = true ∧ here.fpmClean = true ∧
    0x1021 ∉ here.my.poison.eRegs ∧ (12 : Nat) % 4 ≠ 3 ∧
    (let ls := 128 / (tyOf 0x0C).width; let ld := 128 / (tyOf 0x0B).width; 12 / 4 * min ls ld < max ls ld) ∧
    (let ls := 128 / (tyOf 0x0B).width; let ld := 128 / (tyOf 0x0C).width; 14 / 4 * min ls ld < max ls ld) ∧
    (let mx (m : BitVec 6) : Bool := decide (m.toNat % 32 ∈ [12, 13, 15, 16, 17])
     here.issues ⟨mx, fVd 2, fV 8, fGd⟩ (word 0x0C 0x23FE 0x23F8 3) = true ∧
     here.issues ⟨mx, fVd 1, fV 8, fGd⟩ (word 0x0F 0x23FF 0x2000 3) = true ∧
     here.issues ⟨mx, fVd 8, fV 2, fGI⟩ (word 0x0D 0x23F8 0x2000 0x407F) = true) ∧
    opnd 0x23F8 = .v 0x3F8 ∧ ∀ i < 8, (Space.vregs, 0x3F8 + i) ∉ here.my.poison.granules := by decide

theorem witness_SpecialFunctionsAtSpecialInputs : (⟨1, 2⟩ : Mag).n ≠ 0 := by decide

/-! ## Witnesses: synchronisation -/

theorem witness_AtomicsReplaceTheOldValue :
    (at1 own).issues atomicShape (word 4 3 1 0x4001) = true ∧ (at1 own).issues casShape (word 0 3 1 0x4001) = true ∧
    accessAt (viaMe (at1 own)) own 8 .atomic (at1 own) = .ok (.pool 0 .scratch 0, at1 own) ∧
    bytesValue (locRead (at1 own) (.pool 0 .scratch 0) 4) = 0 ∧
    low ((at1 own).operands casShape (word 0 3 1 0x4001)).d = 0 ∧
    low ((at1 own).operands casShape (word 0 1 1 0x4001)).d ≠ 0 :=
  ⟨by decide, by decide, of_yields (by decide), by decide, by decide, by decide⟩

/-- A fence of serial 1 over engine commands, with a command that it covers; the token of kinds 8, scope 4. -/
def fenced : State := with0 (at1 0x184) fun c =>
  { c with mx := { c.mx with queue := [⟨0, .mzero 0, 0, none, false⟩] }, e := { c.e with fences := [⟨1, 1⟩] } }

theorem witness_FencesAreNumberedAndAwaited :
    here.issues fenceShape (word 4 3 0x400F 0) = true ∧ fenced.issues fenceWaitShape (word 0 0 1 0) = true ∧
    fenced.issues fenceTestShape (word 0 3 1 0) = true ∧ (0x184 : Nat) / 256 % 2 ^ 24 ≠ 0 ∧ (0x184 : Nat) % 8 ≤ 4 ∧
    fenced.fenceDone 0 0x184 = false ∧ (at1 0x184).fenceDone 0 0x184 = true ∧
    (at1 0x85).issues fenceWaitShape (word 0 0 1 0) = true ∧ (at1 0x85).issues fenceTestShape (word 0 3 1 0) = true ∧
    (at1 0x105).issues fenceTestShape (word 0 3 1 0) = true ∧ ¬((0x105 : Nat) % 8 ≤ 4) ∧ ¬((0x85 : Nat) / 256 % 2 ^ 24 ≠ 0) := by decide

/-- A dispatch of a row of two cores, one of which is core 0. -/
def row : Dispatch := { probeDispatch with
  levels := [⟨1, 1, true, 0, 0⟩, ⟨2, 1, true, 1, 1⟩]
  cores := [⟨0, 0, 0, 0, false, false, true, false⟩, ⟨1, 1, 1, 1, false, false, true, false⟩] }

/-- Core 0 of it, with another dispatch in place of the probe's, and g1. -/
def ofDisp (d : Dispatch) (x : Word) : State := (at1 x).onFloor fun f => { f with dispatches := [(0, d)] }

/-- hb2 set to level 1, with arrivals. -/
def huddled (arrived : List Nat) : Dispatch := { row with hregs := [(2, 1)], hbars := [⟨2, 0, false, arrived, none⟩] }

theorem witness_HuddleBarriersCountArrivals :
    huddleLevel row = some 1 ∧ (ofDisp row 1).dispOf 0 = some (0, row) ∧
    (ofDisp row 1).issues hbsetShape (word 0 0 0x8002 1) = true ∧ row.hregs.get 0 (huddleKey 0 1 2) = 0 ∧
    row.levels[1]? = some ⟨2, 1, true, 1, 1⟩ ∧ unitCores row 1 = 2 ∧
    (ofDisp (huddled []) 1).issues hbsetShape (word 0 0 0x8002 1) = true ∧
    (ofDisp (huddled []) 0x20001).issues hbsetShape (word 0 0 0x8002 1) = true ∧
    (huddled []).hregs.get 0 (huddleKey 0 1 2) = 1 &&& 0x0000FFFF01FF0007 ∧
    (huddled []).hregs.get 0 (huddleKey 0 1 2) ≠ 0x20001 &&& 0x0000FFFF01FF0007 ∧ (0x20001 : Word).toNat / 65536 % 512 ≤ 2 ∧
    (ofDisp (huddled []) 1).issues hbarrShape (word 0 3 0x8002 0) = true ∧
    (ofDisp (huddled []) 1).issues hbwaitShape (word 0 0 0x8002 0x4000) = true ∧
    (huddled []).hregs.get 0 (huddleKey 0 1 2) = 1 ∧ coreInUnit row 0 1 = 0 ∧
    0 ∈ (hbarOf (huddled [0]) 2 0).arrived ∧
    0 ∉ (hbarOf (huddled [1]) 2 0).arrived ∧ (insertNat 0 (hbarOf (huddled [1]) 2 0).arrived).length = 2 ∧
    (insertNat 0 (hbarOf (huddled []) 2 0).arrived).length ≠ 2 ∧ (hbarOf (huddled []) 2 0).phase = false := by decide

/-- Global barrier 0, the outermost level, with arrivals. -/
def globalRow (arrived : List Nat) : Dispatch := { row with gbars := [⟨0, 0, false, arrived, none⟩] }

/-- A transfer of core 0 on its way. -/
def transfer : Transfer := ⟨0, 0, 0, 0, 0, [], 0, 0, some 0, none, false⟩

theorem witness_GlobalBarriersCountArrivals :
    gbarLevel row 0 = some 1 ∧ gbarLevel row 1 = none ∧
    (ofDisp (globalRow []) 1).issues gbarrShape (word 0 3 0x8000 0) = true ∧
    (ofDisp (globalRow []) 1).issues gbarrShape (word 0 3 0x8001 0) = true ∧
    (ofDisp (globalRow []) 1).issues gbwaitShape (word 0 0 0x8000 0x4001) = true ∧
    undelivered (ofDisp (globalRow []) 1) 0 = 0 ∧
    undelivered ((ofDisp (globalRow []) 1).onFloor fun f => { f with transfers := [transfer] }) 0 ≠ 0 ∧
    0 ∈ (gbarOf (globalRow [0]) 0 0).arrived ∧ 0 ∉ (gbarOf (globalRow [1]) 0 0).arrived ∧
    (insertNat 0 (gbarOf (globalRow [1]) 0 0).arrived).length = unitCores row 1 ∧
    (insertNat 0 (gbarOf (globalRow []) 0 0).arrived).length ≠ unitCores row 1 ∧
    (gbarOf (globalRow []) 0 0).phase = false := by decide

/-- Messages of core 0 on the fabric, to a core of generation g. -/
def messages (n : Nat) (g : Word) : State := { at1 0 with
  arg := .item 0
  floor := { (at1 0).floor with messages := (List.range n).map fun i => ⟨i, 0, g, 5, 0, 0, some 0, none⟩ } }

/-- Three and four messages sent; a target that is core 0 of the own dispatch, and one of another generation; an
inbox with room and a full one. -/
theorem witness_MessagesAndQueuesKeepTheirOrder :
    (messages 3 0).issues ⟨anyMod, fNo, fV 1, fG⟩ (word 0 0 0x2001 1) = true ∧ (messages 3 0).my.disp = some 0 ∧
    (messages 3 0).unheard 0 < 4 ∧ 4 ≤ (messages 4 0).unheard 0 ∧
    here.issues ⟨anyMod, fVd 1, fNo, fNo⟩ (word 1 0x2001 0 0) = true ∧ here.my.q.inbox = [] ∧ (16, 0) ∉ here.my.poison.entries ∧
    (messages 2 0).floor.messages.find? (·.id == 0) = some ⟨0, 0, 0, 5, 0, 0, some 0, none⟩ ∧
    (∀ o ∈ (messages 2 0).floor.messages, o.away = none → o.src = 0 → o.disp = some 0 →
      o.dst &&& 0x000FFFFFFFFF03FF = 0 &&& 0x000FFFFFFFFF03FF → 0 ≤ o.id) ∧
    (messages 2 0).time.toNat < 0 + 1000000 ∧ 0 + 1000000 ≤ ({ messages 2 0 with time := 1000000 } : State).time.toNat ∧
    destPkg 0 = here.domain.index ∧ (messages 2 0).reaches (some 0) 0 = none ∧
    (messages 2 (BitVec.ofNat 64 (2 ^ 32))).reaches (some 0) (BitVec.ofNat 64 (2 ^ 32)) = some 0 ∧
    here.my.q.inbox.length < 8 ∧ (with0 here fun c => { c with q := { c.q with inbox := List.replicate 8 0 } }).my.q.inbox.length = 8 ∧
    here.issues waitShape (word 0 3 0x4010 0) = true ∧ queueState here 16 = some (8, 0, 0) ∧
    here.issues waitShape (word 0 3 0x400B 0) = true ∧ here.issues trapShape (word 0 0 0x4038 0) = true := by decide
/-! ## Witnesses: demand instructions -/

/-- A task card: code 1, a result of 1 by 4 floats, 1 core, its footprint block at 0x5080. -/
def card : List Byte := leBytes 8 1 ++ List.replicate 20 0 ++ leBytes 2 1 ++ leBytes 2 4 ++ List.replicate 64 0 ++
  [0x0B, 3, 1, 0] ++ List.replicate 4 0 ++ leBytes 8 0x5080 ++ List.replicate 16 0

/-- The card at 0x5000, and behind it an empty footprint block; g1 names the card. -/
def carded : State :=
  { withE paged fun e => { e with g := [(1, 0x5000)] } with mem := tabWrite paged.mem 0x6000 card }

/-- A tile of 1 by 4 floats at 0x7000. -/
def tileBytes : List Byte := leBytes 8 0x7000 ++ leBytes 2 1 ++ leBytes 2 4 ++ leBytes 2 1 ++ [0x0B, 0]

theorem witness_SuspAndTaskMakeHandles :
    carded.issues handleShape (word 0 3 1 0) = true ∧ readCard 0x5000 128 carded = .ok (card, carded) ∧
    pureCardOk card = true ∧ (suspHandle 0x5000 card).slots = [] ∧ carded.roomForHandle carded.myCtx = true ∧
    carded.ctxOf carded.myCtx = some context ∧ carded.unevaluated 0 [suspHandle 0x5000 card] ≤ context.lh ∧
    wordAt card 0x68 = 0x5080 ∧ readCard 0x5080 128 carded = .ok (List.replicate 128 0, carded) ∧ cardOk card = true ∧
    forAll (entryCheck 0 (word 0 3 1 0) (rawEntries (List.replicate 128 0))) (rawEntries (List.replicate 128 0)) carded =
      .ok ((), carded) ∧
    namedReads (rawEntries (List.replicate 128 0)) = [] ∧ carded.depUsed < Config.depEntries ∧
    (∃ foot, resolveEntries 0 (rawEntries (List.replicate 128 0)) carded = .ok (foot, carded)) :=
  ⟨by decide +kernel, of_yields (by decide +kernel), by decide +kernel, by decide +kernel, by decide +kernel, by decide +kernel, by decide +kernel, by decide +kernel,
    of_yields (by decide +kernel), by decide +kernel, of_yields (by decide +kernel), by decide +kernel, by decide +kernel,
    ⟨(List.range 8).map fun i => ⟨false, decide (4 ≤ i), none, 0, 0, Tile.none⟩, of_yields (by decide +kernel)⟩⟩

theorem witness_HmakeMakesHandles :
    let s : State := { carded with mem := tabWrite carded.mem 0x6000 tileBytes }
    s.issues handleShape (word 1 3 1 0) = true ∧ readCard 0x5000 16 s = .ok (tileBytes, s) ∧
    tileOf tileBytes = some ⟨0x7000, 1, 4, 1, 0x0B⟩ :=
  ⟨by decide +kernel, of_yields (by decide +kernel), by decide +kernel⟩

/-- Handle 1 of generation 1, whose word g1 holds. -/
def handle1 : Word := handleWord 1 0 1

/-- Context 0 with handle 1. -/
def holding (x : Handle) : State := withE (inCtx { context with handles := [(1, { x with gen := 1 })] }) fun e =>
  { e with g := [(1, handle1)] }

/-- A handle of one state and count of references. -/
def handleIn (st : HState) (refs : Nat) : Handle := { Handle.blank with state := st, refs := refs }

theorem witness_HandlesAreReadCountedAndSparked :
    (holding (handleIn .value 1)).issues handleShape (word 0 3 1 0) = true ∧
    (holding (handleIn .value 1)).issues handleOnlyShape (word 0 0 1 0) = true ∧
    (holding (handleIn .value 1)).href 0 handle1 = .here 1 { handleIn .value 1 with gen := 1 } ∧
    (holding (handleIn .empty 1)).href 0 handle1 = .stale ∧
    (holding (handleIn .value 0)).href 0 handle1 = .here 1 { handleIn .value 0 with gen := 1 } ∧
    (holding (handleIn .running 0xFFFFFFFF)).href 0 handle1 = .here 1 { handleIn .running 0xFFFFFFFF with gen := 1 } ∧
    (holding (handleIn .suspended 1)).href 0 handle1 = .here 1 { handleIn .suspended 1 with gen := 1 } ∧
    ((holding (handleIn .suspended 1)).ctxOf 0).isSome = true ∧
    (holding (handleIn .suspended 1)).myCtx = 0 := by decide

/-- A CELL whose version has no producer, and one whose producer is handle 2. -/
def cell (p : Option Word) : Handle := { handleIn .cell 1 with versions := [⟨⟨0x7000, 1, 4, 1, 0x0B⟩, p, false, 0⟩] }

/-- Handles 1 and 2. -/
def holding2 (x y : Handle) : State := withE
  (inCtx { context with handles := [(1, { x with gen := 1 }), (2, { y with gen := 1 })] }) fun e => { e with g := [(1, handle1)] }

theorem witness_ForceAnswersOrWaits :
    (holding (handleIn .value 1)).issues handleShape (word 0 3 1 0) = true ∧ (holding (handleIn .value 1)).my.e.run = .running ∧
    (holding (cell none)).href 0 handle1 = .here 1 { cell none with gen := 1 } ∧
    (holding2 (cell (handleWord 1 0 2)) (handleIn .running 1)).href 0 (handleWord 1 0 2) =
      .here 2 { handleIn .running 1 with gen := 1 } ∧
    (holding (handleIn .suspended 1)).demandWalk 0 handle1 0 0 = none ∧
    (holding (handleIn .suspended 1)).demandWalk 0 handle1 handle1 0 = some (0x0C, handle1) ∧
    (holding (handleIn .failed 1)).myTask = 0 ∧
    (let s := holding (handleIn .suspended 1); s.walkAway 0 (s.walkLayer 0) 65 [handle1] = false) ∧
    (let s := holding { handleIn .suspended 1 with slots := [handleWord 1 1 1] }
     let t : State := { s with domain := { s.domain with joined := true, size := 2, live := [0, 1] } }
     t.demandWalk 0 handle1 0 0 = none ∧ t.walkAway 0 (t.walkLayer 0) 65 [handle1] = true) := by decide

/-- The probe's dispatch as the task of handle h, which g1 names, of this package or of package 1. -/
def ownTask (h : Word) : State :=
  let s := withE ((holding (handleIn .running 1)).onFloor fun f => { f with
    dispatches := [(0, { probeDispatch with origin := .task h })] }) fun e => { e with g := [(1, h)] }
  { s with domain := { s.domain with joined := true, size := 2, live := [0, 1] } }

theorem witness_ForceAnswersOrWaits_own :
    (ownTask handle1).dispOf 0 = some (0, { probeDispatch with origin := .task handle1 }) ∧
    (ownTask handle1).isAway 0 handle1 = false ∧ (ownTask handle1).forcer = handle1 ∧
    (ownTask handle1).demandWalk 0 handle1 (ownTask handle1).forcer 0 = some (0x0C, handle1) ∧
    (let h := handleWord 1 1 1
     (ownTask h).issues handleShape (word 0 3 1 0) = true ∧ (ownTask h).my.e.run = .running ∧
     (ownTask h).href (ownTask h).myCtx h = .away ∧ (ownTask h).forcer = h ∧ h ≠ 0) := by decide

/-- The probe's dispatch as the task of handle 1; core 0 drained, or with an entry in sq. -/
def tasked (tdone : Bool) : State := with0
  ((holding (handleIn .running 1)).onFloor fun f => { f with
    dispatches := [(0, { probeDispatch with origin := .task handle1 })] }) fun c => { c with tdone := tdone }

theorem witness_TasksAreCompleted :
    here.issues bareShape (word 0 0 0 0) = true ∧ here.myTask = 0 ∧
    (tasked false).issues bareShape (word 0 0 0 0) = true ∧ (tasked false).myTask ≠ 0 ∧
    (tasked false).dispOf 0 = some (0, { probeDispatch with origin := .task handle1 }) ∧ (tasked false).drained 0 = true ∧
    (with0 (tasked false) fun c => { c with q := { c.q with sq := [1] } }).drained 0 = false ∧
    (tasked false).my.tdone = false ∧ (tasked true).my.tdone = true ∧ lastDone probeDispatch 0 = true ∧
    lastDone row 0 = false ∧ taskIndex (tasked false) { probeDispatch with origin := .task handle1 } = some 1 := by decide

/-- Handle 1 READY and placed; DEMANDED in an arena without room, beside a running handle and alone; a live spark behind
one that has fizzled. -/
theorem witness_TasksAreClaimedAllocatedAndSparked :
    (let s : State := { holding (handleIn .ready 1) with arg := .handle 0 1 }.onFloor fun f => { f with
      dispatches := [(0, { probeDispatch with origin := .task handle1, phase := .placed })] }
     s.hget 0 1 = some { handleIn .ready 1 with gen := 1 } ∧ s.placedFor 0 (s.hword 0 1) = some 0) ∧
    here.freeCoreCount ≠ 0 ∧ here.taskWaits = false ∧ (holding (handleIn .suspended 1)).sparkLive 0 handle1 = true ∧
    (holding (handleIn .suspended 1)).sparkLive 0 (handleWord 2 0 1) = false := by decide +kernel

theorem witness_NoCoreIsFree :
    (here.onFloor fun f => { f with withdrawnDies := [0, 1, 2, 3] }).freeCoreCount = 0 := by decide +kernel

theorem witness_AllocationFindsNoRoom :
    (let x : Handle := { handleIn .demanded 1 with rows := 1, cols := 4, type := 0x0B }
     let c : Context := { context with arena := 0, handles := [(1, { x with gen := 1 })] }
     ((inCtx c).tryReady 0 1).hget 0 1 = some { x with gen := 1 } ∧ noneRunning c = true) ∧
    (let x : Handle := { handleIn .demanded 1 with rows := 1, cols := 4, type := 0x0B }
     let c : Context := { context with arena := 0, handles := [(1, { x with gen := 1 }), (2, { handleIn .running 1 with gen := 1 })] }
     ((inCtx c).tryReady 0 1).hget 0 1 = some { x with gen := 1 } ∧ noneRunning c = false) := by decide +kernel

/-! ## Witnesses: the matrix engine -/

/-- A step in the making ends, with a value and a state of which p holds. -/
def after {α : Type} (r : Except Stop (α × State)) (p : α → State → Bool) : Bool :=
  match r with
  | .ok x => p x.1 x.2
  | .error _ => false

/-- Bytes at the start of the own scratchpad, where g1 points; g2 points behind them, at 0x400. -/
def block (bs : List Byte) : State :=
  with0 (withE here fun e => { e with g := [(1, own), (2, own + 0x400)] }) fun c =>
    { c with pool := { c.pool with scratch := tabWrite [] 0 bs } }

/-- K = 2; tile 0 of 128 rows, tile 7 of 1 row of the integer class. -/
def mcfgBlock : List Byte := [2, 0, 0, 0, 0, 0, 0, 0, 128, 64, 0, 0] ++ List.replicate 24 0 ++ [1, 64, 1, 0] ++ List.replicate 24 0

def cfg : TileCfg := ⟨2, [128, 0, 0, 0, 0, 0, 0, 1], [false, false, false, false, false, false, false, true]⟩

/-- GELU, f32 outputs, no bias, a scale of 1.0. -/
def epcfgBlock : List Byte := List.replicate 16 0 ++ leBytes 4 0x3F800000 ++ [2, 0x0B] ++ List.replicate 106 0

def epilogue : Epilogue := ⟨none, none, 0x3F800000, 2, 0x0B, false, 0, 0⟩

/-- The state of the engine's issue: a configuration, a latched format, an epilogue. -/
def inForce (s : State) (fmt : BitVec 5) (q : List MxCmd) : State := with0 s fun c =>
  { c with mx := { c.mx with cfgI := some cfg, fmtI := some fmt, epI := some epilogue, queue := q } }

/-- One row of 16 bytes from 0x800 of the scratchpad to the end of the canvas aperture. -/
def cvldCard : List Byte := leBytes 8 0xF000000000000800 ++ leBytes 4 0xFFFF0 ++ leBytes 2 1 ++ leBytes 2 16 ++ leBytes 4 0 ++
  leBytes 4 16 ++ List.replicate 8 0

/-- 64 columns of i8 from 0 with a stride of 64. -/
def mwldCard : List Byte := leBytes 4 0 ++ leBytes 4 64 ++ [64, 0, 0, 0] ++ leBytes 4 0

theorem witness_MatrixInstructionsQueueCommands :
    (block mcfgBlock).issues cardShape (word 0 0 1 0) = true ∧
    readBlock own 64 (block mcfgBlock) = .ok (mcfgBlock, block mcfgBlock) ∧ tileCfgOf 8 mcfgBlock = some cfg ∧
    readBlock own 128 (block epcfgBlock) = .ok (epcfgBlock, block epcfgBlock) ∧ (byteAt epcfgBlock 20).toNat ≤ 4 ∧
    columnWords (wordAt epcfgBlock 0) (block epcfgBlock) = .ok (none, block epcfgBlock) ∧
    (block cvldCard).issues cardBarrierShape (word 0 0 1 2) = true ∧ readJob own 32 (block cvldCard) = .ok (cvldCard, block cvldCard) ∧
    barrierGood (own + 0x400) = true ∧ fieldAt cvldCard 8 4 + (1 - 1) * 16 + 16 ≤ 0x100000 ∧
    inAreaAt .ownOrGlobal ((wordAt cvldCard 0).toNat + 0 * 0) 16 = true ∧
    (inForce (block mwldCard) 0 []).issues mwldShape (word 0 0 1 2) = true ∧
    readJob own 16 (inForce (block mwldCard) 0 []) = .ok (mwldCard, inForce (block mwldCard) 0 []) ∧
    0 + (2 - 1) * 64 + (tyOf 0).rowBytes 64 ≤ 0x100000 :=
  ⟨by decide, of_yields (by decide +kernel), by decide, of_yields (by decide +kernel), by decide, of_yields (by decide +kernel),
    by decide, of_yields (by decide +kernel), by decide, by decide, by decide, by decide, of_yields (by decide +kernel), by decide⟩

/-- Tile 7, in use, and tile 1, not in use; a queue with room and a full one. -/
theorem witness_MatrixInstructionsNameTiles :
    let s := inForce (block []) 0 []
    let f := inForce (block []) 0 [⟨0, .mzero 0, 0, none, false⟩, ⟨1, .mzero 0, 0, none, false⟩]
    s.fpmClean = true ∧ s.rowsInForce 7 = 1 ∧ s.rowsInForce 1 = 0 ∧ s.issues mzeroShape (word 0 0x8007 0 0) = true ∧
    s.issues mstrShape (word 0 0x8007 1 0x4010) = true ∧ s.issues mstrShape (word 0 0x8001 1 0x4010) = true ∧
    s.issues mdrnShape (word 0 0x8007 1 2) = true ∧ strideOk 0 2 16 = true ∧ inAreaAt .own (own.toNat + 0 * 16) (streamRow 0 2) = true ∧
    s.issues mdrnShape (word 0 0x8001 1 2) = true ∧ barrierGood (low (s.operands mdrnShape (word 0 0x8001 1 2)).b) = true ∧
    s.oneClass 0 7 = true ∧ s.my.mx.epI = some epilogue ∧ inAreaAt .own (own.toNat + 0 * 256) ((tyOf 0x0B).rowBytes 64) = true ∧
    f.my.mx.queue.length = 2 ∧
    (let r := with0 (inForce (ofDisp row 1) 0 []) fun c => { c with e := { c.e with g := [(1, own), (2, 0x100001)] } }
     r.issues (scrumShape (word 0 0x8007 1 2) r) (word 0 0x8007 1 2) = true ∧
     r.issues (scrumShape (word 0 0x8001 1 2) r) (word 0 0x8001 1 2) = true ∧ gangOk r 0x100001 = true ∧ leads r 0 1 = true ∧
     strideOk 0 2 (0x100001 / 65536 % 65536) = true) := by decide +kernel

/-- Core 0's engine with an oldest command, in a configuration, with latched weights; the canvas and the scratchpad hold
a barrier that expects many bytes at 0x400. -/
def engine (op : MxOp) : State := { with0 (block []) fun c => { c with
  mx := { c.mx with cfg := some cfg, fmt := some 0, ep := some epilogue, queue := [⟨0, op, 0, none, false⟩] }
  pool := { c.pool with scratch := tabWrite [] 0x400 (leBytes 8 100000 ++ leBytes 8 100000) } } with arg := .core 0, cur := .floor }

theorem witness_EngineConfiguresLoadsAndZeroes :
    (∀ op, (engine op).mxReady 0 op) ∧
    (let op : MxOp := .cvld (own + 0x800) 0xFFFF0 1 16 0 16 (own + 0x400)
     ∃ ps, cvldPieces 0 op = some ps ∧ after (allOf ps (engine op)) (fun _ _ => true) = true) ∧
    (let op : MxOp := .mwld 0 64 64 0 2 0 (own + 0x400)
     ((engine op).core 0).poison.granules = [] ∧ mxFormat 0 = false ∧
       after (arrive (viaMx (engine op) 0) (own + 0x400) 128 (engine op)) (fun _ _ => true) = true) :=
  ⟨fun _ => ⟨rfl, ⟨0, none, [], rfl⟩, fun h => List.not_mem_nil (show (17, 0) ∈ ([] : List (Nat × Nat)) from h)⟩,
    ⟨_, rfl, by decide +kernel⟩, by decide +kernel, by decide, by decide +kernel⟩

/-- Tile 7: one row of the integer class. -/
theorem witness_EngineStreamsAccumulateInOrder :
    let op : MxOp := .mstr 7 own 16 0 0
    ((engine op).core 0).mx.cfg = some cfg ∧ ((engine op).core 0).mx.fmt = some 0 ∧
    tilePoisoned ((engine op).core 0) 7 0 (cfgRows (some cfg) 7) = false ∧
    after (streamRows 0 (streamRow 0 2) 16 own (cfgRows (some cfg) 7) 0 (engine op)) (fun rows _ => rows.length ≤ 128) = true := by
  decide +kernel

theorem witness_EngineDrainsOutputs :
    let op : MxOp := .mdrn 7 (own + 0x800) (own + 0x400) 0
    let s := engine op
    (s.core 0).mx.ep = some epilogue ∧ tilePoisoned (s.core 0) 7 0 1 = false ∧ epilogue.mx = false ∧
    after (engineWrite (viaMx s 0) (own + 0x800) (List.replicate 256 0) s) (fun _ u =>
      after (arrive (viaMx u 0) (own + 0x400) 256 u) fun _ _ => true) = true := by decide +kernel

/-- Cores 0 and 1 of the row at their SCRUMs, of equal strides or not. -/
def gang (stride : Nat) : State :=
  let m (st : Nat) (c : Core) : Core := { c with
    disp := some 0, part := probePart
    mx := { c.mx with cfg := some cfg, fmt := some 0, queue := [⟨0, .scrum 7 own 0x100001 st 1 0 0, 0, none, false⟩] } }
  { ((ofDisp row 1).onCore 0 (m 16)).onCore 1 fun c => { m stride c with lvl := 1 } with arg := .core 0, cur := .floor }

theorem witness_GangsMeetAndStreamTogether :
    scrumHead ((gang 16).core 0) = some 1 ∧ (gang 16).dispOf 0 = some (0, row) ∧
    (gangOf row ((gang 16).core 0).lvl 1).map (·.cur) = [0, 1] ∧
    (∀ y ∈ gangOf row ((gang 16).core 0).lvl 1, y.retired = false ∧ scrumHead ((gang 16).core y.cur) = some 1) ∧
    meetingWord ((gang 16).core 1) = meetingWord ((gang 16).core 0) ∧
    meetingWord ((gang 32).core 1) ≠ meetingWord ((gang 32).core 0) ∧
    memberCheck 0 (gang 16) = .ok ((), gang 16) ∧ memberCheck 1 (gang 16) = .ok ((), gang 16) ∧
    memberBad (gang 16) 0 = false ∧ memberBad (gang 16) 1 = false ∧
    after (leaderRows 0 (gang 16)) (fun rows u => after (allOf ([0, 1].map (memberStream rows)) u) fun _ v =>
      after (allOf ([0, 1].map popMx) v) fun _ _ => true) = true :=
  ⟨by decide +kernel, by decide +kernel, by decide +kernel, by decide +kernel, by decide +kernel, by decide +kernel,
    of_yields (by decide +kernel), of_yields (by decide +kernel), by decide +kernel, by decide +kernel, by decide +kernel⟩

/-- Row 0 of tile 7; registers 0x3EA to 0x3FF. -/
theorem witness_AccumulatorsMoveToAndFromRegisters :
    let s := inForce (block []) 0 []
    s.issues accrdShape (word 18 0x23EA 0x8007 0x4000) = true ∧ s.issues accwrShape (word 18 0x8007 0x23EA 0x4000) = true ∧
    0 < s.rowsInForce 7 ∧ s.my.mx.queue = [] ∧ tilePoisoned s.my 7 0 1 = false ∧ 0x3EA + 22 ≤ partVregs s.my.part ∧
    (inForce (block []) 0 [⟨0, .mzero 0, 0, none, false⟩]).my.mx.queue ≠ [] ∧
    ∀ r < 22, (Space.vregs, 0x3EA + r) ∉ s.my.poison.granules := by decide +kernel
/-! ## Witnesses: copies and exchange -/

/-- One row of 16 bytes from 0x800 to 0x900 of the scratchpad, no barrier, an index list at 0xA00. -/
def jobCard (rows rbytes : Nat) : List Byte := leBytes 8 (0xF000000000000800) ++ leBytes 8 (0xF000000000000900) ++ leBytes 8 0 ++
  leBytes 8 (0xF000000000000A00) ++ leBytes 4 rows ++ leBytes 4 rbytes ++ leBytes 4 16 ++ leBytes 4 16 ++ List.replicate 16 0

theorem witness_JobCardsAreQueued :
    (block (jobCard 1 16)).issues cardShape (word 0 0 1 0) = true ∧ inArea .own own 64 = true ∧
    readJob own 64 (block (jobCard 1 16)) = .ok (jobCard 1 16, block (jobCard 1 16)) ∧
    (∀ op < 4, jobInRange (jobCard 1 16) op = true ∧ jobPlaced (jobCard 1 16) op = true) ∧
    (∀ op < 4, jobInRange (jobCard 1 0x100001) op = false) ∧ jobInRange (jobCard 65536 16) 1 = false ∧
    (block (jobCard 1 16)).my.copy.length < 2 :=
  ⟨by decide, by decide, of_yields (by decide +kernel), by decide +kernel, by decide +kernel, by decide +kernel, by decide⟩

/-- A gather of one row, with and without a barrier. -/
def copyCmd (bar : Word) (stalled : Bool) : CopyCmd := ⟨0, .e, 2, own + 0x800, own + 0x900, bar, own + 0xA00, 1, 16, 16, 16, 0, 0, 0, none, stalled⟩

/-- A copy engine with a card, and a barrier that expects many bytes at 0x400. -/
def copying (c : CopyCmd) : State := { with0 (block []) fun x => { x with
  copy := [c], pool := { x.pool with scratch := tabWrite [] 0x400 (leBytes 8 100000 ++ leBytes 8 100000) } } with
  arg := .core 0, cur := .floor }

theorem witness_CopyEngineCopiesInOrder :
    ((copying (copyCmd 0 false)).core 0).copy = [copyCmd 0 false] ∧ (18, 0) ∉ ((copying (copyCmd 0 false)).core 0).poison.entries ∧
    after (allOf ([listPiece 0 (copyCmd 0 false) 0] ++ [do
        let t ← gets id
        let ix := match (t.core 0).copy with
          | x :: _ => x.ix
          | [] => 0
        copyPiece (viaCopy t 0 (copyCmd 0 false)) ((own + 0x800).toNat + (ix * 16 + 16 * 0)) ((own + 0x900).toNat + (0 * 16 + 16 * 0))])
      (copying (copyCmd (own + 0x400) false)))
      (fun _ u => after (arrive (viaCopy u 0 (copyCmd 0 false)) (own + 0x400) 16 u) fun _ _ => true) = true ∧
    accessAt (viaMe (block [])) (own + 0x800) 16 .read (block []) = .ok (.pool 0 .scratch 0x800, block []) ∧
    inArea .plain (own + 0x800) 16 = true ∧ inAreaAt .plain (own.toNat + 2 ^ 60) 16 = false ∧ (copyCmd 0 true).stalled = true :=
  ⟨by decide, by decide, by decide +kernel, of_yields (by decide +kernel), by decide, by decide, by decide⟩

/-- A bulk card of one segment of 16 bytes from 0x5000 to 0x5100. -/
def bulkBlock : List Byte := leBytes 8 0 ++ [0, 1, 0] ++ List.replicate 21 0 ++ leBytes 8 0x5000 ++ leBytes 8 0x5100 ++ leBytes 8 16 ++
  List.replicate 72 0

def bulkCard (stalled : Bool) (preds : List Nat) : BulkCard := ⟨5, 0, 0, 0, 0, false, [⟨0x5000, 0x5100, 16⟩], preds, 0, none, stalled⟩

theorem witness_BulkCardsAreOrderedAndPerformed :
    (block bulkBlock).issues cardShape (word 0 0 1 0) = true ∧ inArea .ownOrGlobal own 128 = true ∧
    readJob own 128 (block bulkBlock) = .ok (bulkBlock, block bulkBlock) ∧ (block bulkBlock).my.disp = some 0 ∧
    fieldAt bulkBlock 9 1 = 1 ∧ fieldAt bulkBlock 0x28 8 = 0x5100 ∧ fieldAt bulkBlock 0x30 8 = 16 ∧ wordAt bulkBlock 0 = 0 ∧
    (block bulkBlock).depUsed < Config.depEntries ∧
    ((List.range 8).map fun i => { bulkCard false [] with id := i }).length = 8 ∧
    (let s : State := { paged.onFloor fun f => { f with bulk := [bulkCard false []] } with arg := .item 5, cur := .floor }
     s.floor.bulk.find? (·.id == 5) = some (bulkCard false []) ∧ s.cardAway (bulkCard false []) = false ∧
     after (allOf (bulkPieces (bulkCard false [])) s) (fun _ u => !u.cardAway (bulkCard false [])) = true) ∧
    (bulkCard true []).stalled = true ∧ (bulkCard false [3]).preds ≠ [] :=
  ⟨by decide, by decide, of_yields (by decide +kernel), by decide, by decide, by decide, by decide, by decide, by decide +kernel,
    by decide, by decide +kernel, by decide, by decide⟩

/-- A window of two slots of 16 bytes at 0x800, one transfer expected, number 7. -/
def postBlock (slots : Nat) : List Byte := leBytes 8 0xF000000000000800 ++ leBytes 4 16 ++ leBytes 4 slots ++ leBytes 4 1 ++ leBytes 4 7 ++
  List.replicate 8 0

/-- 16 bytes from 0x800 to the core of generation 1 at place 0, slot 1 of window 7. -/
def sendBlock (n : Nat) : List Byte := leBytes 8 0xF000000000000800 ++ leBytes 8 0x100000000 ++ leBytes 4 n ++ leBytes 4 1 ++ leBytes 4 7 ++
  List.replicate 4 0

theorem witness_ExchangeWindowsAndSends :
    (block (postBlock 2)).issues cardShape (word 0 0 1 0) = true ∧ own.toNat % 16 = 0 ∧ inArea .own own 32 = true ∧
    readJob own 32 (block (postBlock 2)) = .ok (postBlock 2, block (postBlock 2)) ∧
    inArea .own (wordAt (postBlock 2) 0) (2 * 16) = true ∧ fieldAt (postBlock 2) 12 4 = 2 ∧ fieldAt (postBlock 0) 12 4 = 0 ∧
    (block (postBlock 2)).my.held = [] ∧
    (let t : Transfer := { transfer with seq := 7, bad := true }
     t ∈ (with0 (block (postBlock 2)) fun c => { c with held := [t] }).my.held) ∧
    readJob own 32 (block (sendBlock 16)) = .ok (sendBlock 16, block (sendBlock 16)) ∧
    inArea .own (wordAt (sendBlock 16) 0) 4096 = true ∧ fieldAt (sendBlock 4112) 16 4 = 4112 ∧
    undelivered (block (sendBlock 16)) 0 = 0 ∧
    undelivered ((block []).onFloor fun f => { f with transfers := List.replicate 16 transfer }) 0 = 16 ∧
    after (engineRead (viaMe (block (sendBlock 16))) (own + 0x800) 16 .read (block (sendBlock 16))) (fun _ _ => true) = true :=
  ⟨by decide, by decide, by decide, of_yields (by decide +kernel), by decide, by decide, by decide, by decide,
    List.mem_cons_self, of_yields (by decide +kernel), by decide, by decide, by decide, by decide, by decide +kernel⟩

/-- Core 0 with window 7. -/
def windowed (written : List Nat) (mismatch : Bool) : State := with0 (block []) fun c =>
  { c with windows := [⟨7, own + 0x800, 16, 2, 1, written, mismatch⟩] }

/-- A transfer to core 0 of generation 1. -/
def sent (slot : Nat) : Transfer :=
  ⟨3, 0, 0x100000000, slot, 7, List.replicate 16 1, 0, 0, some 0, none, false⟩

/-- The transfer is on its way to a window, or to a core without one, or to one of another generation. -/
def arriving (s : State) (t : Transfer) : State := { s.onFloor fun f => { f with transfers := [t] } with arg := .item 3, cur := .floor }

theorem witness_ExchangeClosesAndArrivals :
    (windowed [] false).issues waitShape (word 0 3 0x4007 0) = true ∧ windowOf (windowed [] false).my 7 ≠ none ∧
    windowOf here.my 7 = none ∧ ([] : List Nat).length < 1 ∧ [0].length = 1 ∧ 1 < [0, 1].length ∧
    (arriving (windowed [] false) (sent 1)).floor.transfers.find? (·.id == 3) = some (sent 1) ∧
    (arriving (windowed [] false) (sent 1)).time.toNat < (sent 1).sent + 1000000 ∧
    destPkg (sent 1).dst = (arriving (windowed [] false) (sent 1)).domain.index ∧
    (arriving (windowed [] false) (sent 1)).reaches (some 0) (sent 1).dst = some 0 ∧
    (arriving (windowed [] false) { sent 1 with dst := 0x200000000 }).reaches (some 0) 0x200000000 = none ∧
    (here.core 0).held.length < 64 ∧ 1 ∉ ([0] : List Nat) ∧ (2 : Nat) ≤ (sent 2).slot ∧
    after (engineWrite (viaCore (windowed [] false) 0 .e true) (own + 0x810) (sent 1).data (windowed [] false)) (fun _ _ => true) = true := by
  decide +kernel

/-- The time base at t. -/
def at_ (t : Word) (s : State) : State := { s with time := t, cur := .floor }

/-- A global barrier and a huddle barrier of the row that began at 0; a window that has waited since 0; a message and a
transfer of time 0: before and at their ends, which come after 1 µs and 1 ms. -/
theorem witness_WatchdogsFaultWhenTheirTimeHasPassed :
    (let d : Dispatch := { row with
       gbars := [⟨0, 0, false, [1], some 0⟩], hregs := [(2, 0x100000001)], hbars := [⟨2, 0, false, [1], some 0⟩] }
     let s : State := { (ofDisp d 0).onFloor fun f => { f with contexts := [(0, context)] } with arg := .barrier 0 0 0 }
     s.disp 0 = some d ∧ s.ctxOf d.ctx = some context ∧ (gbarOf d 0 0).since = some 0 ∧ gbarLevel d 0 = some 1 ∧
       s.unitAway 0 1 0 = false ∧ (hbarOf d 2 0).since = some 0 ∧ d.hregs.get 0 2 = 0x100000001 ∧
       (at_ 999 s).time.toNat < 0 + context.gbwd * 1000 ∧ 0 + context.gbwd * 1000 ≤ (at_ 1000 s).time.toNat) ∧
    (let s := withE ((windowed [] false).onFloor fun f => { f with contexts := [(0, context)] }) fun e =>
       { e with run := .waiting (.window 7) false 0 }
     s.ctxOf (s.coreCtx 0) = some context ∧ (s.core 0).e.run = .waiting (.window 7) false 0 ∧
       windowOf (s.core 0) 7 = some ⟨7, own + 0x800, 16, 2, 1, [], false⟩) ∧
    (messages 1 0).floor.messages.find? (·.id == 0) = some ⟨0, 0, 0, 5, 0, 0, some 0, none⟩ ∧
    (arriving here (sent 1)).floor.messages.find? (·.id == 3) = none := by decide +kernel

/-! ## Witnesses: sequences -/

/-- A window at 2^39 of context 0 with one group of two blocks, 1 head of 16 elements of bf16, 2 tokens a page, len tokens;
block 0 is mapped to the frame at 0x10000. Its source of 64 bytes stands at the start of the scratchpad. -/
def seqd (len : Nat) : State :=
  let s := inCtx context
  let t := tabWrite (tabWrite (tabWrite (tabWrite [] 0x1000 (leBytes 8 0x2001)) 0x2008 (leBytes 8 0x8005)) 0x8000 (leBytes 8 0x9001))
    0x9000 (leBytes 2 2 ++ [0x0A, 0, 0, 1] ++ leBytes 2 16 ++ leBytes 2 2 ++ [0, 0] ++ leBytes 4 len)
  { withE (s.onFloor fun f => { f with
      windows := [⟨0, 2 ^ 39, 1, 0x8000⟩], frames := [(0x10000, ⟨16, 0, 0, none, [], 0, false⟩)] }) fun e =>
      { e with g := [(1, 0x8000000000), (2, own)] } with
    mem := tabWrite t 0x9040 (leBytes 8 (leafEntry 0x10000 true false 0))
    vfs := [(0, { Vf.reset with pf := { PfBlock.reset with hbm := 0x100000000 } })] }

def seqGroup (len : Nat) : Group := ⟨0x9000, 2, 0x0A, 0, 0, 1, 16, 2, 0, len⟩

/-- Token 1, in block 0 which is mapped; token 2, in block 1 which is not; token 4, beyond the blocks. -/
theorem witness_KvappAppendsAToken :
    let s := seqd 1
    s.issues ⟨anyMod, fGd, fG, fG⟩ (word 0 3 1 2) = true ∧ s.windowAt s.myCtx (2 ^ 39) = some ⟨0, 2 ^ 39, 1, 0x8000⟩ ∧
    s.group ⟨0, 2 ^ 39, 1, 0x8000⟩ 0 = seqGroup 1 ∧ (seqd 4).group ⟨0, 2 ^ 39, 1, 0x8000⟩ 0 = seqGroup 4 ∧
    inArea .own own 64 = true ∧ s.dugOf 0 (2 ^ 39) = none ∧ s.groupResident ⟨0, 2 ^ 39, 1, 0x8000⟩ 0 = true ∧
    s.physNat 0x9040 8 % 2 = 1 ∧ (seqd 2).physNat 0x9048 8 % 2 = 0 ∧
    (if (seqd 2).hbmShare 0 65536 then (seqd 2).hbmFit 1 16 else none).isSome = true ∧
    after (engineRead (viaMe s) own 64 .read s) (fun src v =>
      after (forAll (appendHead (viaMe s) (seqGroup 1) (2 ^ 39) src) [0] v) fun _ _ => true) = true := by decide +kernel

/-- The rows of tokens 0 and 1, one query head; the card is at 0x400, the query at 0x500, the triples at 0x600. -/
def attnBlock : List Byte := leBytes 8 (2 ^ 39) ++ leBytes 2 0 ++ [1, 0] ++ leBytes 4 0x3F800000 ++ leBytes 8 0xF000000000000500 ++
  leBytes 4 0 ++ leBytes 4 2 ++ leBytes 8 0xF000000000000600 ++ leBytes 8 0xF000000000000400 ++ List.replicate 16 0

/-- With the card, and a barrier that expects many bytes. -/
def attending : State := with0 (seqd 2) fun c => { c with pool := { c.pool with
  scratch := tabWrite (tabWrite [] 0 attnBlock) 0x400 (leBytes 8 100000 ++ leBytes 8 100000) } }

def attnCard : AttnCard := ⟨5, 0, 0, 2 ^ 39, 0, 0x0A, 1, 16, 2, 1, 0x3F800000, List.replicate 32 0, 0, 2, own + 0x600, own + 0x400, [], [], []⟩

theorem witness_AttentionForms :
    attending.issues cardShape (word 0 0 2 0) = true ∧ issueRead .card false own 64 attending = .ok (attnBlock, attending) ∧
    own.toNat % 16 = 0 ∧ (own + 8).toNat % 16 ≠ 0 ∧ attending.dispOf 0 = some (0, probeDispatch) ∧
    attending.windowAt attending.myCtx (fieldAt attnBlock 0 8) = some ⟨0, 2 ^ 39, 1, 0x8000⟩ ∧
    attending.group ⟨0, 2 ^ 39, 1, 0x8000⟩ 0 = seqGroup 2 ∧ attending.my.disp = some 0 ∧
    0 + 2 ≤ (seqGroup 2).leaflen * (seqGroup 2).tpp ∧ (seqGroup 2).leaflen * (seqGroup 2).tpp < 3 + 2 ∧
    barrierGood (own + 0x400) = true ∧ inArea .own (own + 0x500) 32 = true ∧ inArea .own (own + 0x600) (16 + 64) = true ∧
    after (engineRead (viaMe attending) (own + 0x500) 32 .read attending) (fun _ _ => true) = true ∧
    (let s : State := { attending.onFloor fun f => { f with attn := [attnCard] } with arg := .item 5, cur := .floor }
     s.floor.attn.find? (·.id == 5) = some attnCard ∧ (s.core 0).drain = .none ∧
     after (allOf [formTriple attnCard 0 0] s) (fun _ u =>
       let t := (u.onAttn 5 fun a => { a with done := List.range 1, unread := [] }).engineProgress 0
       after (arrive (viaCore t 0 .e true) (own + 0x400) 80 t) fun _ _ => true) = true) :=
  ⟨by decide +kernel, of_yields (by decide +kernel), by decide, by decide, by decide +kernel, by decide +kernel,
    by decide +kernel, by decide +kernel, by decide, by decide, by decide, by decide, by decide, by decide +kernel,
    by decide +kernel⟩

/-- A card whose page is not mapped, of a dispatch with the restartable flag and of one without; one page for two tokens. -/
theorem witness_AttentionForms_faults :
    (match formTriple attnCard 0 0 { attending with mem := [] } with
      | .error (.flt _) => true
      | _ => false) = true ∧ (0 + 2 - 1) / attnCard.tpp = 0 / attnCard.tpp ∧
    { probeDispatch with restartable := true }.stalls = true ∧ { probeDispatch with restartable := false }.stalls = false ∧
    (let s : State := { (with0 attending fun c => { c with drain := .stopped none }).onFloor fun f => { f with attn := [attnCard] } with
       arg := .item 5, cur := .floor }
     s.floor.attn.find? (·.id == 5) = some attnCard ∧ (s.core 0).drain = .stopped none) := by
  decide +kernel

/-- One triple of 4 elements at 0; the result at 0x400; shape words with n = 0 and with dh = 6. -/
theorem witness_AttentionCombines :
    let s := withE (block []) fun e => { e with g := [(1, own), (2, own + 0x400), (3, 0x40001)] }
    s.issues ⟨anyMod, fG, fG, fGI⟩ (word 0 2 1 3) = true ∧ 0x40001 % 65536 = 1 ∧ 0x40001 / 2 ^ 16 % 65536 = 4 ∧
    inArea .own own (16 + 16) = true ∧ inArea .own (own + 0x400) 16 = true ∧
    after (readTriples 4 [own] s) (fun ts u =>
      after (engineWrite (viaMe u) (own + 0x400) ((combine ts 4).flatMap fun x => bytesOf 4 x.toNat) u) fun _ _ => true) = true ∧
    (∀ t ∈ [((0 : BitVec 32), (0 : BitVec 32), [(0 : BitVec 32), 0, 0, 0])], t.2.2.length = 4) ∧
    (own + 8).toNat % 16 ≠ 0 := by decide +kernel

/-- A park card of the window: mailbox at 0x5000 on a REL page. -/
def parkBlock (tflash order : Nat) : List Byte := leBytes 8 (2 ^ 39) ++ leBytes 8 0x100 ++ leBytes 8 0x200 ++ leBytes 8 0x5000 ++
  leBytes 4 0 ++ leBytes 4 tflash ++ [BitVec.ofNat 8 order, 0] ++ List.replicate 22 0

/-- The page and the window both mapped, and the card at the start of the scratchpad. -/
def parking (bs : List Byte) (c : Context) : State := with0 { (paged.onFloor fun f => { f with
    windows := [⟨0, 2 ^ 39, 1, 0x8000⟩], contexts := [(0, c)] }) with cur := .strand 0 .e } fun x =>
  { x with e := { x.e with g := [(1, own)] }, pool := { x.pool with scratch := tabWrite [] 0 bs } }

theorem witness_SequencesPark :
    (parking (parkBlock 0 1) context).issues handleShape (word 0 3 1 0) = true ∧
    readJob own 64 (parking (parkBlock 0 1) context) = .ok (parkBlock 0 1, parking (parkBlock 0 1) context) ∧
    (parking (parkBlock 0 1) context).windowAt 0 (2 ^ 39) = some ⟨0, 2 ^ 39, 1, 0x8000⟩ ∧
    (parking (parkBlock 0 1) context).dugOf 0 (2 ^ 39) = none ∧ fieldAt (parkBlock 0 2) 0x28 1 = 2 ∧
    fieldAt (parkBlock 2000000 0) 0x24 4 ≤ 2000000 ∧
    mailboxCheck (word 0 3 1 0) (wordAt (parkBlock 0 1) 0x18) (parking (parkBlock 0 1) context) = .ok ((), parking (parkBlock 0 1) context) ∧
    (parking (parkBlock 0 1) { context with dquota := 0 }).ctxOf 0 = some { context with dquota := 0 } :=
  ⟨by decide, of_yields (by decide +kernel), by decide, by decide, by decide, by decide,
    of_yields (by decide +kernel), by decide⟩

/-- A dugout entry of the window. -/
def parked (st : DugState) : DugEntry :=
  ⟨1, st, 0, 2 ^ 39, 0x100, 0x200, 0x5000, 2, 3, 0, 0, 0, false, false, none, false, false⟩

/-- The entry at index 0; g1 holds its id. -/
def dug (e : DugEntry) (s : State) : State :=
  withE (s.onFloor fun f => { f with dugout := [(0, e)] }) fun x => { x with g := [(1, dugWord 1 0)] }

/-- A page that moves between two tiers, with or without its NVMe command. -/
def move (source target : BitVec 2) (cmd : Option Nat) (retries : Nat) : Move :=
  ⟨9, 0, 0, 2 ^ 39, 0x9040, source, target, retries, 16, cmd⟩

/-- A move that completes, well or not. -/
def moving (m : Move) (failed : Bool) (s : State) : State := { s.onFloor fun f => { f with moves := [m] } with arg := .move 9 failed }

/-- The page outside HBM memory, of a window whose entry promotes. -/
def paged2 : State :=
  let s := dug (parked (.promoting 1)) (seqd 1)
  { s.onFloor (fun f => { f with frames := [], out := [⟨0, 2 ^ 39, 0x9040, 0, 2, [(5, 7)], Frame.fresh 16 0 0 false, [3], 16⟩] }) with
    mem := tabWrite s.mem 0x9040 (leBytes 8 0x61) }

theorem witness_SequencesMoveAndReturn :
    (dug (parked .parked) (seqd 1)).issues handleOnlyShape (word 0 0 1 0) = true ∧
    (dug (parked .parked) (seqd 1)).dugNamed 0 (dugWord 1 0) = some 0 ∧ (seqd 1).dugNamed 0 (dugWord 1 0) = none ∧
    (dug (parked .parked) (seqd 1)).floor.dugout.find 0 = some (parked .parked) ∧
    (parked (.promoting 1)).state ≠ .parked ∧
    (dug (parked (.promoting 1)) (seqd 1)).windowAt 0 (2 ^ 39) = some ⟨0, 2 ^ 39, 1, 0x8000⟩ ∧
    (dug (parked (.promoting 1)) (seqd 1)).groupResident ⟨0, 2 ^ 39, 1, 0x8000⟩ 0 = true ∧
    (at_ 1999 here).time.toNat - 0 < 2 * 1000 ∧ 3 * 1000 ≤ (at_ 3000 here).time.toNat - 0 ∧
    (moving (move 1 2 none 0) true here).floor.moves.find? (·.id == 9) = some (move 1 2 none 0) ∧
    (moving (move 1 2 (some 1) 0) true here).floor.moves.find? (·.id == 9) = some (move 1 2 (some 1) 0) ∧
    (moving (move 2 1 (some 1) 0) true here).floor.moves.find? (·.id == 9) = some (move 2 1 (some 1) 0) ∧
    (moving (move 0 1 none 0) false (seqd 1)).floor.frames.find (pteFrame ((seqd 1).physNat 0x9040 8)) =
      some ⟨16, 0, 0, none, [], 0, false⟩ ∧
    (∀ m ∈ [move 1 0 none 0, move 2 0 (some 1) 0, move 2 0 (some 1) 2],
      (moving m true paged2).floor.moves.find? (·.id == 9) = some m ∧
      (moving m true paged2).outOf 0 (2 ^ 39) =
        some ⟨0, 2 ^ 39, 0x9040, 0, 2, [(5, 7)], Frame.fresh 16 0 0 false, [3], 16⟩) ∧
    (paged2.homeFrame 0 ⟨0, 2 ^ 39, 0x9040, 0, 2, [(5, 7)], Frame.fresh 16 0 0 false, [3], 16⟩).isSome = true ∧
    here.homeFrame 0 ⟨0, 2 ^ 39, 0x9040, 0, 2, [], Frame.fresh 16 0 0 false, [], 16⟩ = none ∧
    paged2.floor.dugout.find 0 = some (parked (.promoting 1)) ∧
    (withE here fun e => { e with run := .waiting (.frame false) false 0 }).my.e.run = .waiting (.frame false) false 0 := by
  decide +kernel
/-- Two live packages, of which this one is package 0. -/
def ofTwo (s : State) : State := { s with domain := { s.domain with joined := true, size := 2, live := [0, 1] } }

/-- A message or transfer of core 4 of package 1 to core 0 here. -/
def farSend : FarSend := ⟨1, 4, 0, none, 0, 0x100000000⟩

theorem witness_SendsOfOtherPackages :
    let s := ofTwo here
    farSend.pkg ∈ s.domain.live ∧ farSend.pkg ≠ s.domain.index ∧ farSend.disp = none ∧ destPkg farSend.dst = s.domain.index ∧
    ({ transfer with away := some 1 } : Transfer).away ≠ none ∧
    ({ s with arg := .message farSend 5 } : State).arg = .message farSend 5 ∧
    ({ s with arg := .transfer farSend 0 7 [] } : State).arg = .transfer farSend 0 7 [] := by decide

/-- XSEND: a source outside the scratchpad, and one that is not aligned; the lifetime of a transfer ends. -/
theorem witness_ExchangeSources :
    (let b := leBytes 8 (own.toNat + 8) ++ leBytes 8 0x100000000 ++ leBytes 4 16 ++ List.replicate 12 0
     readJob own 32 (block b) = .ok (b, block b) ∧ inArea .own (wordAt b 0) (fieldAt b 16 4) = true ∧ (wordAt b 0).toNat % 16 ≠ 0) ∧
    (let b := leBytes 8 0x5000 ++ leBytes 8 0x100000000 ++ leBytes 4 16 ++ List.replicate 12 0
     readJob own 32 (block b) = .ok (b, block b) ∧ inArea .own (wordAt b 0) (fieldAt b 16 4) = false) ∧
    (sent 1).sent + 1000000 ≤ (at_ 1000000 (arriving here (sent 1))).time.toNat ∧ (sent 1).away = none ∧ (sent 1).disp = some 0 :=
  ⟨⟨of_yields (by decide +kernel), by decide, by decide⟩, ⟨of_yields (by decide +kernel), by decide⟩, by decide, by decide, by decide⟩

/-- n bulk cards that stall. -/
def stalledCards (n : Nat) (s : State) : State :=
  s.onFloor fun f => { f with bulk := bulkCard false [] :: List.replicate n { bulkCard true [] with id := 6 } }

theorem witness_BulkEnginesStall :
    ((stalledCards 23 here).floor.bulk.filter (·.stalled)).length < 24 ∧
    24 ≤ ((stalledCards 24 here).floor.bulk.filter (·.stalled)).length ∧
    (stalledCards 24 here).floor.bulk.find? (·.id == 5) = some (bulkCard false []) := by decide +kernel

/-- No SAE stalls. -/
theorem witness_AttentionEngines : ∀ st, ({ attending.onFloor fun f => { f with attn := [attnCard] } with
    arg := .item 5, cur := .floor } : State).saesStalled st < 16 :=
  fun _ => Nat.lt_of_le_of_lt (m := 0) (Nat.le_of_eq rfl) (by decide)

/-- A parked entry of the window, its page of SYN type with its first granule written; E waits for it, or runs. -/
def ageingEntry (e : DugEntry) (waits : Bool) : State :=
  let s := dug e (seqd 1)
  { withE (s.onFloor fun f => { f with frames := [(0x10000, ⟨16, 2, 0, none, [0], 0, false⟩)] }) fun x =>
      { x with run := if waits then .waiting (.granule (BitVec.ofNat 64 (2 ^ 39))) true 0 else .running } with
    vfs := [(0, { Vf.reset with cxlBytes := 0x10000 })]
    arg := .entry 0, cur := .floor }

theorem witness_DemotionsWaitForReads :
    (ageingEntry { parked .parked with due := some (1, 2 ^ 57) } true).floor.dugout.find 0 =
      some { parked .parked with due := some (1, 2 ^ 57) } ∧ (parked .parked).due = none ∧
    (∀ w ∈ [true, false], let s := ageingEntry (parked .parked) w
     s.windowAt 0 (2 ^ 39) = some ⟨0, 2 ^ 39, 1, 0x8000⟩ ∧ s.tierRoom (s.ctxVf 0) 1 = true ∧
     (s.ageing ⟨0, 2 ^ 39, 1, 0x8000⟩ 1 (2 ^ 57)).map (s.readPends 0) = [w]) := by decide +kernel

/-- A move between HBM and CXL memory, with every bulk engine stalled and without. -/
theorem witness_MovesTakeEngines :
    (move 1 0 none 0).source ≠ 2 ∧ 24 ≤ ((stalledCards 24 (moving (move 1 0 none 0) false paged2)).floor.bulk.filter (·.stalled)).length ∧
    ((moving (move 1 0 none 0) false paged2).floor.bulk.filter (·.stalled)).length < 24 := by decide +kernel

/-! ## Witnesses: L, S and the umpire -/

/-- L, S of core 0 or the umpire of court 0 has the turn, with integer registers. -/
def turnOf (a : Agent) (x : Tab Word) (s : State) : State :=
  ({ s with cur := a, agenda := [] }).onHart fun h => { h with run := .running, x := x }

def atL (x : Tab Word) : State := turnOf (.strand 0 .l) x here
def atS (x : Tab Word) : State := turnOf (.strand 0 .s) x here
def atU (x : Tab Word) : State := turnOf (.umpire 0) x here

/-- A word on L; a compressed word on L and on the umpire; targets 2, 4 and -2 of pc 0; equal and different registers. -/
theorem witness_Rv64IntegerInstructionsGiveTheirValue :
    (atL [(5, 3)]).turnHart = true ∧ (atS []).turnHart = true ∧ (atU []).turnHart = true ∧
    (atL []).takesLen (.two 0x4095) = false ∧ (atL []).takesLen .four = true ∧ (atU []).takesLen (.two 0x4095) = true ∧
    (atL [(5, 3)]).cleanX 5 = true ∧ (atL [(5, 3)]).cleanX 6 = true ∧ (atL []).turnUmpire = false ∧
    ((atL []).hart.pc + BitVec.ofInt 64 (signedOf 21 (2 * 2))).toNat % 4 = 0 ∧
    ((atL []).hart.pc + BitVec.ofInt 64 (signedOf 21 (0xFFFFF * 2))).toNat % 4 = 2 ∧
    ((atU []).hart.pc + BitVec.ofInt 64 (signedOf 21 (0xFFFFF * 2))).toNat % 2 = 0 ∧
    (((atL [(5, 3)]).x 5 + (1 : BitVec 12).signExtend 64) &&& 0xFFFFFFFFFFFFFFFE).toNat % 4 = 0 ∧
    (((atL [(5, 3)]).x 5 + 0) &&& 0xFFFFFFFFFFFFFFFE).toNat % 4 = 2 ∧
    decide ((atL [(5, 3)]).x 5 = (atL [(5, 3)]).x 5) = true ∧ decide ((atL [(5, 3)]).x 5 = (atL [(5, 3)]).x 6) = false := by
  decide

/-- x17 holds 0, 1 and 2; an LQ.GPUSH whose read is outstanding, and one whose data is there; loads and stores of the own
scratchpad. -/
theorem witness_Rv64MemoryAndSystemInstructions :
    (atL [(5, own)]).turnHart = true ∧ (atL [(5, own)]).cleanX 5 = true ∧ (atL []).cleanX 17 = true ∧
    (atL []).x 17 = 0 ∧ (atL [(17, 1)]).x 17 = 1 ∧ (atL [(17, 2)]).x 17 = 2 ∧ (atL []).turnL = true ∧ (atS []).turnL = false ∧
    (atS []).turnS = true ∧ (atU []).turnUmpire = true ∧ (atL []).turnUmpire = false ∧
    accessAt (viaHart (atL [(5, own)])) ((atL [(5, own)]).x 5 + (8 : BitVec 12).signExtend 64) 8 .read (atL [(5, own)]) =
      .ok (.pool 0 .scratch 8, atL [(5, own)]) ∧
    accessAt (viaHart (atL [(5, own)])) ((atL [(5, own)]).x 5 + (8 : BitVec 12).signExtend 64) 4 .write (atL [(5, own)]) =
      .ok (.pool 0 .scratch 8, atL [(5, own)]) ∧
    (with0 (atL []) fun c => { c with q := { c.q with lq0 := [.data 1] } }).readsDone = true ∧
    (with0 (atL []) fun c => { c with q := { c.q with lq0 := [.arriving 0] } }).readsDone = true ∧
    (with0 (atL []) fun c => { c with q := { c.q with lq0 := [.reserved 0 0 0] } }).readsDone = false ∧
    (∀ e ∈ (with0 (atL []) fun c => { c with q := { c.q with lq0 := [.data 1] } }).my.q.lq0, e = .data 1) ∧
    LqEntry.reserved 0 0 0 ∈ (with0 (atL []) fun c => { c with q := { c.q with lq0 := [.reserved 0 0 0] } }).my.q.lq0 ∧
    (0xCBF : BitVec 12).toNat < 0xCC0 ∧ 0xCC5 < (0xCC6 : BitVec 12).toNat ∧ (atL []).dispOf 0 = some (0, probeDispatch) :=
  ⟨by decide, by decide, by decide, by decide, by decide, by decide, by decide, by decide, by decide, by decide, by decide,
    of_yields (by decide), of_yields (by decide), by decide, by decide, by decide, by decide, by decide, by decide, by decide,
    by decide⟩

/-- L with queues, and S with them. -/
def lq (es : List LqEntry) (x : Tab Word) : State := with0 (atL x) fun c => { c with q := { c.q with lq0 := es } }
def sq (es : List V128) (x : Tab Word) : State := with0 (atS x) fun c => { c with q := { c.q with sq := es } }

/-- Queue numbers 0, 1 and 2; full and not full; addresses at an aperture's end and not aligned; a page at 0x5000. -/
theorem witness_QueuesArePushed :
    (lq [] [(5, own), (6, 2)]).turnL = true ∧ 1 < ((lq [] [(5, own), (6, 2)]).x 6).toNat ∧
    (lq [] [(5, own), (6, 1)]).cleanX 5 = true ∧ ((lq [] [(5, own), (6, 1)]).x 6).toNat = 1 ∧
    (lq (List.replicate 15 (.data 0)) []).my.q.lq0.length < 16 ∧ (lq (List.replicate 16 (.data 0)) []).my.q.lq0.length = 16 ∧
    inArea .own own 16 = true ∧ inArea .own 0x5000 16 = false ∧ (own + 8).toNat % 16 ≠ 0 ∧ own.toNat % 16 = 0 ∧
    accessAt (viaMe (lq [] [(5, own)])) own 16 .read (lq [] [(5, own)]) = .ok (.pool 0 .scratch 0, lq [] [(5, own)]) ∧
    2 ^ 57 < (BitVec.ofNat 64 (2 ^ 57 - 15)).toNat + 16 ∧ (BitVec.ofNat 64 (2 ^ 57 - 16)).toNat + 16 ≤ 2 ^ 57 ∧
    (lq [] [(5, own)]).my.unread = [] ∧ (lq [.reserved 0x5000 4 9] []).my.unread ≠ [] ∧
    after (accessAt (viaMe (turnOf (.strand 0 .l) [] paged)) 0x5000 16 .read (turnOf (.strand 0 .l) [] paged)) (fun _ _ => true) = true ∧
    after (accessAt (viaMe (atL [])) 0x5000 16 .read (atL [])) (fun _ _ => true) = false :=
  ⟨by decide, by decide, by decide, by decide, by decide, by decide, by decide, by decide, by decide, by decide, of_yields (by decide),
    by decide, by decide, by decide, by decide, by decide +kernel, by decide +kernel⟩

/-- Arrivals at place 1, behind data, from a read that has performed and from one that has not. -/
theorem witness_ReadsArriveInQueues :
    let s (e : LqEntry) : State := { lq [.data 1, e] [] with arg := .coreQueue 0 false, cur := .floor }
    (s (.arriving 2)).arg = .coreQueue 0 false ∧ (s (.arriving 2)).my.q.lq0 = [.data 1] ++ .arriving 2 :: [] ∧
    (s (.data 2)).my.q.lq0 = [.data 1, .data 2] ∧ (s (.reserved 0x5000 4 9)).my.q.lq0 = [.data 1] ++ .reserved 0x5000 4 9 :: [] ∧
    (∀ x ∈ (s (.reserved 0x5000 4 9)).my.unread, 9 ≤ x) ∧ (s (.pending 0 4 9)).my.q.lq0 = [.data 1, .pending 0 4 9] ∧
    after (accessAt (viaCore { paged with cur := .floor } 0 .l false) 0x5000 16 .read { paged with cur := .floor })
      (fun _ _ => true) = true := by decide +kernel

/-- An empty sq and one with an entry; bol with entries; boi full and not full; ids that a strand names and does not. -/
theorem witness_QueuesArePopped :
    (sq [] [(5, own)]).turnS = true ∧ (sq [7] [(5, own)]).my.q.sq = 7 :: [] ∧ (2, 0) ∉ (sq [7] [(5, own)]).my.poison.entries ∧
    (sq [7] [(5, own)]).cleanX 5 = true ∧ (sq [7] [(5, own)]).hart.held = none ∧ (inArea .own own 16) = true ∧
    accessAt (viaMe ((sq [7] [(5, own)]).pop 2)) own 16 .write ((sq [7] [(5, own)]).pop 2) =
      .ok (.pool 0 .scratch 0, (sq [7] [(5, own)]).pop 2) ∧
    (match accessAt (viaMe ((sq [7] [(5, own)]).pop 2)) 0x5000 16 .write ((sq [7] [(5, own)]).pop 2) with
      | .error (.flt _) => true
      | _ => false) = true ∧
    (atL []).my.entries 3 = [] ∧ (turnOf (.strand 0 .l) [] queued).my.entries 3 = 1 :: [2, 3, 4, 5, 6, 7, 8] ∧
    (3, 0) ∉ queued.my.poison.entries ∧ (atL []).my.q.boi.length < 8 ∧
    (with0 (atL []) fun c => { c with q := { c.q with boi := List.replicate 8 0 } }).my.q.boi.length = 8 ∧
    ((atL [(5, 1)]).x 5).toNat ∈ [0, 1, 3, 5] ∧ ((atL [(5, 2)]).x 5).toNat ∉ [0, 1, 3, 5] ∧ (atL []).turnUmpire = false :=
  ⟨by decide, by decide, by decide, by decide, by decide, by decide, of_yields (by decide), by decide, by decide, by decide, by decide,
    by decide, by decide, by decide, by decide, by decide⟩

/-- L with a card at the start of the scratchpad and a barrier of 2 in its place. -/
theorem witness_StrandsIssueCardsAndUseBarriers :
    let s := turnOf (.strand 0 .l) [(5, own), (6, 1)] (block (jobCard 1 16))
    let b := turnOf (.strand 0 .l) [(5, own), (6, 0)] (barrier 2)
    s.turnL = true ∧ s.cleanX 5 = true ∧ s.cleanX 6 = true ∧ 4 ≤ (4 : Word).toNat ∧ (s.x 6).toNat < 4 ∧ inArea .own (s.x 5) 64 = true ∧
    readJob own 64 s = .ok (jobCard 1 16, s) ∧ jobInRange (jobCard 1 16) 1 = true ∧ jobPlaced (jobCard 1 16) 1 = true ∧
    jobInRange (jobCard 0 16) 1 = false ∧ s.my.copy.length < 2 ∧ barrierGood own = true ∧
    s.readsDone = true ∧ (with0 s fun c => { c with q := { c.q with lq0 := [.reserved 0 0 0] } }).readsDone = false ∧
    after (arrive (viaMe b) own 2 b) (fun _ _ => true) = true ∧
    (match arrive (viaMe b) own (2 ^ 64) b with
      | .error (.flt _) => true
      | _ => false) = true ∧ inArea .own 0x5000 16 = false ∧
    after (barrierPhase (viaMe b) own b) (fun p _ => !p) = true ∧ b.hart.run = .running ∧
    (b.onHart fun h => { h with run := .waiting (.barrier own false) true 0 }).hart.run = .waiting (.barrier own false) true 0 :=
  ⟨by decide, by decide, by decide, by decide, by decide, by decide, of_yields (by decide +kernel), by decide, by decide, by decide,
    by decide, by decide, by decide, by decide, by decide +kernel, by decide +kernel, by decide, by decide +kernel, by decide,
    by decide⟩

/-- A strand of core 0 waits. -/
def waits (k : Strand) (w : Wait) (b : Bool) (s : State) : State := s.setRun (.strand 0 k) (.waiting w b 0)

/-- E waits for room in the copy engine's queue, or L does. -/
theorem witness_StrandsYieldToOthers :
    let s := turnOf (.strand 0 .s) [(5, own), (6, 1)] (block (jobCard 1 16))
    (waits .e .copyRoom false s).my.e.run = .waiting .copyRoom false 0 ∧ (waits .l .copyRoom true s).my.l.run = .waiting .copyRoom true 0 ∧
    s.myStrand = .s ∧ s.my.l.run ≠ .waiting .copyRoom true 0 := by decide

/-- The umpire of court 0 with bytes in its scratchpad. -/
def umpireAt (x : Tab Word) (bs : List (Nat × List Byte)) : State :=
  (atU x).onCourt 0 fun c => { c with umpire := { c.umpire with scratch := bs.foldl (fun m p => tabWrite m p.1 p.2) [] } }

/-- The record that is expected, and another one; a claim with room, at capacity with a weaker occupant and with a stronger
one, with a NaN and beyond the entries; a drop and a share to emit. -/
theorem witness_UmpireRoutesTokens :
    let r : GateRecord := ⟨0, [1]⟩
    let g (n : Nat) : State := (atU [(5, own)]).onCourt 0 fun c => { c with gate := { c.gate with records := [{ r with token := n }] } }
    let board (cap count : Nat) : State := umpireAt [(5, 7), (6, 0x40000000)]
      [(0x3F000, leBytes 4 0x100 ++ leBytes 4 cap ++ leBytes 4 count), (0x100, leBytes 4 3 ++ leBytes 4 0x3F800000)]
    recordAt own = true ∧ (g 0).cur = .umpire 0 ∧ (g 0).cleanX 5 = true ∧ (board 2 1).cleanX 5 = true ∧ (board 2 1).cleanX 6 = true ∧
    (umpireAt [(5, own)] []).cleanX 5 = true ∧ ((g 0).court 0).gate.records.find? (·.token == 0) = some r ∧
    (∀ x ∈ ((g 1).court 0).gate.records, x.token ≠ ((g 1).court 0).gate.expected) ∧
    1 ≤ r.units.length ∧ own.toNat + (r.units.flatMap fun v => bytesOf 16 v.toNat).length ≤ 0xF000000000040000 ∧
    (let s := umpireAt [(5, own)] [(0x3E000, leBytes 8 own.toNat)]
     (byteAt (tabRead (s.court 0).umpire.scratch 0 16) 7).toNat % 2 = 0 ∧
     accessAt (viaUmpire s) (BitVec.ofNat 64 (s.uNat 0x3E000 8 + 16 * s.uNat 0x3E008 4)) 16 .write s = .ok (.umpire 0 0, s)) ∧
    (byteAt (tabRead ((umpireAt [(5, own)] [(7, [1])]).court 0).umpire.scratch 0 16) 7).toNat % 2 = 1 ∧
    (0x10000000000 : Word).toNat / 2 ^ 32 = 256 ∧ (0xFF00000000 : Word).toNat / 2 ^ 32 = 255 ∧
    ((valF32 0x7FC00000).isNan) = true ∧ (valF32 0x40000000).isNan = false ∧
    (board 2 1).uNat (0x3F000 + 8) 4 < (board 2 1).uNat (0x3F000 + 4) 4 ∧
    ((board 1 1).occupants 0x100 1)[0]? = some ⟨3, 0x3F800000⟩ ∧ (valF32 0x3F800000).lt (valF32 0x40000000) = true ∧
    (valF32 0x3F800000).lt (valF32 0x3F800000) = false ∧ (valF32 0x3F800000).isNan = false ∧
    ((umpireAt [] [(0x104, leBytes 4 0x7FC00000)]).occupants 0x100 1).all (fun o => (valF32 o.score).isNan) = true :=
  ⟨by decide +kernel, by decide, by decide, by decide +kernel, by decide +kernel, by decide +kernel, by decide +kernel, by decide +kernel,
    by decide, by decide, ⟨by decide +kernel, of_yields (by decide +kernel)⟩,
    by decide +kernel, by decide, by decide, by decide +kernel, by decide +kernel, by decide +kernel, by decide +kernel, by decide +kernel,
    by decide +kernel, by decide +kernel, by decide +kernel⟩

/-- 4 and 8 bytes at the start of the umpire's scratchpad. -/
theorem witness_UmpirePerformsAtomics :
    (atU [(5, own)]).turnUmpire = true ∧ (atU [(5, own)]).cleanX 5 = true ∧ (atU [(5, own)]).cleanX 6 = true ∧ (atL []).turnL = true ∧ (atS []).turnS = true ∧
    accessAt (viaUmpire (atU [(5, own)])) own 8 .atomic (atU [(5, own)]) = .ok (.umpire 0 0, atU [(5, own)]) ∧
    accessAt (viaUmpire (atU [(5, own)])) own 4 .read (atU [(5, own)]) = .ok (.umpire 0 0, atU [(5, own)]) ∧
    accessAt (viaUmpire (atU [(5, own)])) own 4 .write (atU [(5, own)]) = .ok (.umpire 0 0, atU [(5, own)]) :=
  ⟨by decide, by decide, by decide, by decide, by decide, of_yields (by decide), of_yields (by decide), of_yields (by decide)⟩
/-! ## Witnesses: the life of a dispatch -/

/-- Whether a result is a value, and not a reason. -/
def isOk {α β : Type} (r : Except α β) : Bool :=
  match r with
  | .ok _ => true
  | .error _ => false

/-- An image of E with one instruction, without a side table. -/
def imageBytes : List Byte := leBytes 4 1 ++ leBytes 4 1 ++ leBytes 4 1 ++ leBytes 4 0 ++ leBytes 8 64 ++ List.replicate 40 0 ++
  leBytes 12 0x010000003400A400B0000000

/-- A launch of one core with that image at 0x5000, with nothing placed. -/
def launchable : Dispatch := { probeDispatch with
  origin := .launch 0 0 0 0, phase := .queued, eimg := 0x5000, cores := [], umpire := none }

/-- It waits, and court 0 reported core 0 free; the function's quota is n cores. -/
def waitingLaunch (d : Dispatch) (free : BitVec 256) (n : Nat) : State :=
  let s := ((paged.onFloor fun f => { f with dispatches := [(0, d)] }).setCore 0 .reset).onCourt 0 fun c =>
    { c with report := { c.report with free := free } }
  { s with mem := tabWrite s.mem 0x6000 imageBytes, cur := .floor, vfs := [(0, { Vf.reset with pf := { PfBlock.reset with cores := BitVec.ofNat 16 n } })] }

/-- Its core is reserved and awaits the code, or holds the code. -/
def placedLaunch (loaded : Bool) : State :=
  let d := { launchable with phase := .placed, cores := [⟨0, 0, 0, 0, false, false, false, false⟩] }
  (waitingLaunch d 0 4).onCore 0 fun c => { c with disp := some 0, gen := 1, part := probePart, loaded := loaded }

theorem witness_DispatchesLoadAndStart :
    (placedLaunch false).disp 0 = some { launchable with phase := .placed, cores := [⟨0, 0, 0, 0, false, false, false, false⟩] } ∧
    ([⟨0, 0, 0, 0, false, false, false, false⟩] : List DCore).filter (awaitsLoad (placedLaunch false) 0) =
      ⟨0, 0, 0, 0, false, false, false, false⟩ :: [] ∧
    isOk (readImages (placedLaunch false) launchable) = true ∧
    { launchable with phase := .placed, cores := [⟨0, 0, 0, 0, false, false, false, false⟩] }.partsPlaced = true ∧
    { row with cores := [⟨0, 0, 0, 0, false, false, false, false⟩] }.partsPlaced = false ∧
    ((placedLaunch true).core 0).disp = some 0 ∧ ((placedLaunch true).core 0).loaded = true := by decide +kernel

/-- Core 0 of a row whose strands have stopped, and the only core of a dispatch. -/
def finished (d : Dispatch) : State := { withE (ofDisp d 0) fun e => { e with run := .stopped } with arg := .core 0, cur := .floor }

/-- A pc at the end of the image and below it; a row whose other core runs, a dispatch of one core, a core that runs; each
wait released and not, with its condition true and false. -/
theorem witness_CoresRetireAndWaitsEnd :
    (let s := fun n => with0 here fun c => { c with stores := { c.stores with ilim := n } }
     (s 0).turnE = true ∧ (s 0).my.stores.ilim ≤ (s 0).my.e.pc.toNat ∧ (s 1).my.e.pc.toNat < (s 1).my.stores.ilim) ∧
    (∀ d ∈ [row, probeDispatch, { probeDispatch with share := some 1 }], let s := finished d
     s.dispOf 0 = some (0, d) ∧ (s.core 0).loaded = false ∧ (s.core 0).e.run = .stopped ∧ (s.core 0).l.run = .stopped ∧
     (s.core 0).s.run = .stopped ∧ (s.core 0).mx.queue = [] ∧ (s.core 0).copy = [] ∧ undelivered s 0 = 0 ∧ s.floor.bulk = [] ∧ s.floor.attn = [] ∧
     d.cores.any (fun y => y.cur = 0 && y.started) = true) ∧
    (row.cores.any fun y => decide (y.cur ≠ 0) && !y.retired) = true ∧ (here.core 0).e.run ≠ .stopped ∧
    (probeDispatch.cores.all fun y => decide (y.cur = 0) || y.retired) = true ∧
    probeDispatch.share = none ∧ hereCores probeDispatch ≤ probeDispatch.cores.length ∧ probeDispatch.liveTask = false ∧
    undelivered ((finished probeDispatch).onFloor fun f => { f with transfers := [transfer] }) 0 = 1 ∧
    (∀ ph ∈ [Phase.running, .placed], ({ (ofDisp { probeDispatch with phase := ph, share := some 1 } 0) with arg := .disp 0 } : State).disp 0 =
      some { probeDispatch with phase := ph, share := some 1 }) ∧
    (∀ w ∈ [Wait.matrixIdle, .matrixRoom, .copyRoom, .inbox, .fence 0x184, .replay 0], ∀ b ∈ [true, false],
      (withE here fun e => { e with run := .waiting w b 0 }).runOf (.strand 0 .e) = .waiting w b 0) ∧
    (here.core 0).mx.queue = [] ∧ ((fenced).core 0).mx.queue ≠ [] ∧ fenced.fenceDone 0 0x184 = false ∧
    (here.core 0).q.inbox = [] ∧
    (here.onHart fun h => h).runOf (.umpire 0) = .stopped ∧
    ((atU []).onHart fun h => { h with run := .waiting .record false 0 }).runOf (.umpire 0) = .waiting .record false 0 := by
  decide +kernel

/-- No dispatch; one that passes, one whose image is missing, one that is placed in part; a quota of 0 and of 4; a free
core and none. -/
theorem witness_DispatchesArePlacedInOrder :
    here.head = none ∧ (waitingLaunch launchable 1 4).head = some (0, launchable) ∧
    isOk (prepare (waitingLaunch launchable 1 4) launchable) = true ∧
    isOk (prepare (waitingLaunch { launchable with eimg := 0 } 1 4) { launchable with eimg := 0 }) = false ∧
    (waitingLaunch { launchable with phase := .placed } 1 4).head = some (0, { launchable with phase := .placed }) ∧
    ((waitingLaunch launchable 1 0).wish 0 launchable).map
      (fun w => (waitingLaunch launchable 1 0).quotaFor launchable w.lvls.length) = some false ∧
    ((waitingLaunch launchable 1 4).wish 0 launchable).map
      (fun w => (waitingLaunch launchable 1 4).quotaFor launchable w.lvls.length) = some true ∧
    ((waitingLaunch launchable 1 4).wish 0 launchable).map
      (fun w => w.fit launchable.levels ((waitingLaunch launchable 1 4).freeFor 0)) = some (some [⟨0, 0⟩]) ∧
    ((waitingLaunch launchable 0 4).wish 0 launchable).map
      (fun w => w.fit launchable.levels ((waitingLaunch launchable 0 4).freeFor 0)) = some none ∧ (3 : Nat) < 4 ∧
    ((waitingLaunch launchable 1 4).givePart 0 launchable [⟨0, 0⟩]).isSome = true ∧ launchable.scattered = false := by
  decide +kernel

/-- Eight cores as a co-resident node of two packages; a part of it waits. Core 0 was let go since the last report, or not. -/
def node : Dispatch := { launchable with levels := [⟨1, 1, false, 0, 0⟩, ⟨4, 1, false, 1, 1⟩, ⟨2, 1, true, 4, 5⟩] }

theorem witness_DispatchesArePlacedInOrder_spread :
    launchCores launchable ≤ coreQuota (waitingLaunch launchable 1 4) launchable.ctx ∧ (∀ l ∈ launchable.levels, l.kind ≤ 4) ∧
    node.share = none ∧ (coLevel node).isSome = true ∧
    (waitingLaunch launchable 1 0).quotaAlone launchable 1 = false ∧
    (let s := ((waitingLaunch launchable 2 1).onFloor fun f => { f with
       dispatches := f.dispatches.put 1 { probeDispatch with cls := 7 } }).onCore 0 fun c => { c with disp := some 1 }
     s.quotaFor launchable 1 = false ∧ s.quotaAlone launchable 1 = true) ∧
    levelCores launchable.levels (partLevel launchable) ≤ coreQuota (waitingLaunch launchable 1 4) launchable.ctx ∧
    launchable.share = none ∧
    (let d := { node with share := some 1, phase := .placed }
     (waitingLaunch d 1 4).head = some (0, d)) ∧
    (∀ x ∈ [(([] : List (Nat × List Nat)), none), ([(0, [0])], some [⟨0, 0⟩])],
      let s := (waitingLaunch launchable 1 4).onFloor fun f => { f with released := [0], wanted := x.1 }
      (s.wish 0 launchable).map (fun w => w.fit launchable.levels (s.freeFor 0)) = some x.2) := by decide +kernel

/-- The launch goes to core 0, the first that the report shows free (R325). -/
theorem test_place_takes_first_free : goes (exec .placeDispatch (waitingLaunch launchable 6 4))
    (fun t => t.floor.taken = [1] && (t.core 1).disp = some 0) = true := by decide +kernel

/-- A lap counted by the lowest live package. -/
theorem witness_BudgetsWatchdogsAndTheRally :
    (let s : State := { ofDisp { probeDispatch with energy := 0 } 0 with arg := .disp 0 }
     s.disp 0 = some { probeDispatch with energy := 0 }) ∧
    here.dispOf 0 = some (0, probeDispatch) ∧ (withE here fun e => { e with sincePoint := 65535 }).my.e.sincePoint < 65536 ∧
    65536 ≤ (withE here fun e => { e with sincePoint := 65536 }).my.e.sincePoint ∧
    (here.cores.any fun x => x.2.disp = some 0 && !x.2.loaded) = true ∧ probeDispatch.phase = .running ∧
    probeDispatch.told = none ∧ lastProgress here 0 probeDispatch + 1000000000 ≤ (at_ 1000000000 here).time.toNat ∧
    (at_ 999999999 here).time.toNat < lastProgress here 0 probeDispatch + 1000000000 ∧
    (let s : State := { here with domain := { here.domain with joined := true } }
     (s.domain.live.all fun p => decide (s.domain.index ≤ p)) = true ∧ s.domain.tokenSeen + 2048000 ≤ (at_ 2048000 s).time.toNat ∧
       (at_ 2047999 s).time.toNat < s.domain.tokenSeen + 2048000) ∧
    (let s : State := { holding (handleIn .running 1) with
       domain := { here.domain with size := 3, live := [0, 1], shipped := [⟨1, 0, handle1, 0, 3⟩] } }
     (∀ p ∈ ({ s.domain with index := 1 } : Domain).live, p ≤ 1) ∧ 1 ∈ s.domain.live ∧ s.domain.index < 1 ∧
       (∃ x ∈ s.domain.shipped, x.ctx = 0 ∧ x.handle = handle1) ∧ (∀ x ∈ s.domain.shipped, x.ctx = 0 → x.handle ≠ 0) ∧
       s.href 0 handle1 = .here 1 { handleIn .running 1 with gen := 1 }) ∧
    (paged.tryRead 0 0x5000 128).isSome = true := by decide +kernel

/-- Core 0 drains since 0, or has stopped, and its strands with it; its saved image, where it resumes. -/
def stopping (d : Drain) : State := { with0 (ofDisp probeDispatch 0) fun c => { c with drain := d, e := { c.e with run := .running } } with
  arg := .core 0, cur := .floor }

theorem witness_CoresDrainAndAreSaved :
    (stopping .none).dispOf 0 = some (0, probeDispatch) ∧ coLevel probeDispatch = none ∧
    (probeDispatch.cores.all (·.started)) = true ∧ ((stopping (.draining 3 0)).core 0).drain = .draining 3 0 ∧
    (at_ 22999 (stopping (.draining 3 0))).time.toNat < 0 + 23000 ∧ 0 + 23000 ≤ (at_ 23000 (stopping (.draining 3 0))).time.toNat ∧
    leaveUnit probeDispatch ((stopping (.stopped none)).core 0).lvl = [⟨0, 0, 0, 0, false, false, true, false⟩] ∧
    readyToSave (stopping (.stopped none)) 0 = true ∧ readyToSave (stopping (.draining 3 0)) 0 = false ∧
    probeDispatch.save = 0 ∧ probeDispatch.share = none ∧ ((stopping (.stopped none)).core 0).drain = .stopped none := by decide +kernel

/-- The launch with a saved core 0, which has its position again; its image reads back, or does not. -/
def resuming (images : List Image) : State :=
  let d := { launchable with phase := .running, cores := [⟨0, 0, 0, 0, false, false, true, true⟩] }
  (waitingLaunch d 0 4).onFloor fun f => { f with images := images }

def savedImage (bad : Bool) : Image := ⟨0, 0, { Core.reset with disp := some 0, gen := 1, part := probePart }, none, [], [], 0, bad⟩

/-- A saved dispatch whose image is not complete, as a bulk card of it is away, asks for nothing. -/
theorem witness_DispatchesArePlacedInOrder_none :
    let d := { launchable with phase := .running, cores := [⟨0, 0, 0, 0, false, false, true, false⟩] }
    let s : State := (resuming [savedImage false]).onFloor fun f => { f with bulk := [bulkCard false []] }
    s.wish 0 d = none ∧ s.waitsHere 0 d = true := by
  intro d s
  exact ⟨Option.isNone_iff_eq_none.1 (by decide +kernel), by decide +kernel⟩

theorem witness_DispatchesResume :
    let d := { launchable with phase := .running, cores := [⟨0, 0, 0, 0, false, false, true, true⟩] }
    (resuming []).disp 0 = some d ∧ (resuming []).backImages 0 d = [] ∧
    (resuming [savedImage true]).backImages 0 d = [savedImage true] ∧ imageReads (resuming [savedImage true]) d (savedImage true) = false ∧
    (resuming [savedImage false]).backImages 0 d = [savedImage false] ∧
    imageReads (resuming [savedImage false]) d (savedImage false) = true ∧
    isOk (readImages (resuming [savedImage false]) d) = true ∧ d.cores[(savedImage false).rank]? = some ⟨0, 0, 0, 0, false, false, true, true⟩ := by
  decide +kernel
/-- An image of L, S or the umpire with one instruction. -/
def hartImage (code : Nat) : List Byte := leBytes 4 code ++ leBytes 4 1 ++ leBytes 4 4 ++ leBytes 4 0 ++ leBytes 8 64 ++
  List.replicate 40 0 ++ leBytes 4 0x00000013

/-- The launch with four images, and the umpire of court 0. -/
def fullLaunch (loaded : Bool) : State :=
  let d := { launchable with
    origin := .launch 0 0 0x5300 1, phase := .placed, limg := 0x5100, simg := 0x5200, umpire := some 0
    cores := [⟨0, 0, 0, 0, false, false, false, false⟩] }
  let s := (waitingLaunch d 0 4).onCore 0 fun c => { c with disp := some 0, gen := 1, part := probePart, loaded := loaded }
  { s with mem := tabWrite (tabWrite (tabWrite s.mem 0x6100 (hartImage 2)) 0x6200 (hartImage 3)) 0x6300 (hartImage 4) }

theorem witness_DispatchesLoadAndStart_full :
    ((fullLaunch false).disp 0).map (fun d => match readImages (fullLaunch false) d with
      | .ok im => im.l.isSome && im.s.isSome && im.u.isSome && d.partsPlaced && decide (d.umpire = some 0)
      | .error _ => false) = some true ∧
    ([⟨0, 0, 0, 0, false, false, false, false⟩] : List DCore).filter (awaitsLoad (fullLaunch false) 0) =
      [⟨0, 0, 0, 0, false, false, false, false⟩] ∧
    (∃ z ∈ ([⟨0, 0, 0, 0, false, false, false, false⟩] : List DCore), z.lvl = 0) ∧
    ((fullLaunch true).core 0).disp = some 0 ∧ ((fullLaunch true).core 0).loaded = true ∧ ((fullLaunch true).core 0).lvl = 0 ∧
    ((fullLaunch true).disp 0).map (·.origin) = some (.launch 0 0 0x5300 1) := by decide +kernel

/-- Every wait of a strand and of the umpire, released or not; those that name a window, a handle, a byte barrier that can
be read and one that cannot, a huddle register and a global barrier. -/
theorem witness_WaitsEnd :
    (∀ w ∈ [Wait.queues, .bulkRoom, .attnRoom, .messageRoom, .arena, .promotion, .gateRoom, .conditions 1, .page 0, .granule 0,
        .frame false, .version 0 0 0, .replay 0, .matrixIdle, .matrixRoom, .copyRoom, .depRoom, .inbox, .sendRoom, .sends, .drain,
        .fence 0x184, .window 7, .handle handle1, .barrier own false, .huddle 2 false, .globalBarrier 0 false],
      ∀ k ∈ [Strand.e, .l, .s], ∀ b ∈ [true, false], (waits k w b here).runOf (.strand 0 k) = .waiting w b 0) ∧
    (∀ w ∈ [Wait.record, .replay 0, .page 0, .granule 0],
      (here.setRun (.umpire 0) (.waiting w false 0)).runOf (.umpire 0) = .waiting w false 0) ∧
    windowOf ((windowed [] false).core 0) 7 = some ⟨7, own + 0x800, 16, 2, 1, [], false⟩ ∧
    (let s := holding (handleIn .value 1)
     s.href (s.coreCtx 0) handle1 = .here 1 { handleIn .value 1 with gen := 1 }) ∧
    after (barrierPhase (viaCore (barrier 2) 0 .e false) own (barrier 2)) (fun _ _ => true) = true ∧
    after (barrierPhase (viaCore here 0 .e false) 0x5000 here) (fun _ _ => true) = false ∧
    (ofDisp row 1).dispOf 0 = some (0, row) ∧ huddleLevel row = some 1 ∧ gbarLevel row 0 = some 1 := by decide +kernel

/-- A core that runs at an index of its side table and elsewhere, one that waits, and one that has stopped already. -/
theorem witness_CoresDrain_points :
    let s (r : Run) (side : List SideEntry) : State :=
      ofDisp { probeDispatch with side := side } 0 |> fun s => withE s fun e => { e with run := r }
    (∀ r ∈ [Run.running, .waiting .inbox false 0, .stopped], ((s r []).core 0).e.run = r ∧ ((s r []).core 0).drain = .none) ∧
    ([] : List SideEntry).find? (·.index == ((s .running []).core 0).e.pc.toNat) = none ∧
    [(⟨0, 0, 0, 0, 0, 0⟩ : SideEntry)].find? (·.index == ((s .running []).core 0).e.pc.toNat) = some ⟨0, 0, 0, 0, 0, 0⟩ ∧
    ((stopping (.stopped none)).core 0).drain = .stopped none := by decide +kernel

/-! ## Witnesses: the host -/

/-- A command with a code, a context and parameters. -/
def cmd (op : Byte) (ctx : Nat) (p0 p1 p2 p3 : Word) : Command := ⟨3, op, false, 7, ctx, p0, p1, p2, p3, false⟩

/-- A function has read one command, whose turn it is. -/
def commanded (v : Nat) (c : Command) (s : State) : State :=
  { s.onVf v fun f => { f with commands := [c] } with arg := .cmd v c.slot, cur := .floor }

theorem ready_commanded {s : State} {v op : Nat} {c : Command} (ha : s.arg = .cmd v c.slot) (ho : c.op.toNat = op)
    (hs : c.submitted = false) (hf : c.fence = false) (hc : (s.vf v).commands = [c]) : s.ready v c op :=
  ⟨ha, ho, hs, ⟨[], [], hc, fun _ h => nomatch h⟩, fun h => nomatch hf.symm.trans h⟩

/-- Context 0 of function 0, with 4 GiB of memory and two cores; bs stands in host memory at 0x1000. -/
def hosted (bs : List Byte) : State := { inCtx context with
  vfs := [(0, { Vf.reset with enabled := true, pf := { PfBlock.reset with hbm := 0x100000000, cores := 2 } })]
  hostMem := tabWrite [] 0x1000 bs }

/-- Every command is ready in its turn; no command of an empty queue is; an id that is gone, one that never was, one of
another function and a lost one; a completion ring of 16 entries with room, a full one and none. -/
theorem witness_CommandsStartInOrderAndComplete :
    (∀ r ∈ commandRows, (commanded 0 (cmd (BitVec.ofNat 8 r.2) 0 0 0 0 0) (hosted [])).ready 0 (cmd (BitVec.ofNat 8 r.2) 0 0 0 0 0) r.2) ∧
    (hosted []).ctxOf 5 = none ∧ 5 ∉ ((hosted []).vf 0).gone ∧
    5 ∈ (((hosted []).onVf 0 fun f => { f with gone := [5] }).vf 0).gone ∧ (hosted []).ctxOf 0 = some context ∧ context.vf ≠ 1 ∧
    (inCtx { context with lost := true }).ctxOf 0 = some { context with lost := true } ∧
    (hosted []).unreads = [] ∧ ((hosted []).vf 0).heldCpl = [] ∧ ringOn ((hosted []).vf 0).regs.cplBase = false ∧
    (let r := { VfRegs.reset with cplBase := 0x2025, cplTail := 31 }
     ringOn r.cplBase = true ∧ ringFull r.cplBase r.cplTail r.cplHead = true ∧ ringFull r.cplBase 30 r.cplHead = false) :=
  ⟨by
    intro r hr
    simp only [commandRows, List.mem_cons, List.not_mem_nil, or_false] at hr
    obtain rfl | rfl | rfl | rfl | rfl | rfl | rfl | rfl | rfl | rfl | rfl | rfl | rfl | rfl | rfl := hr <;>
      exact ready_commanded rfl rfl rfl rfl rfl,
    by decide, by decide, by decide, by decide, by decide, by decide, by decide, by decide, by decide, by decide⟩

theorem witness_CommandsMayNotStart (c : Command) : ¬({ hosted [] with arg := .cmd 0 3 } : State).ready 0 c 1 := by
  rintro ⟨-, -, -, ⟨b, a, hc, -⟩, -⟩
  cases b <;> cases hc

/-- A creation block: no arena, one handle, one entry, one core. -/
def ctxBlock : List Byte := leBytes 8 0 ++ leBytes 8 0 ++ leBytes 8 0 ++ leBytes 4 1 ++ leBytes 4 1 ++ leBytes 4 1 ++ leBytes 4 0 ++
  List.replicate 24 0

/-- A block that passes, with room for its save area and without; ids; MAP of one page at 0x10000 at its own stack, of a
page in the arena, of a page beyond the quota, with a bad range; LAUNCH of a record whose context is 0, of one that is
not readable and of one of another context. -/
theorem witness_ContextCommandsHaveTheirEffect :
    (commanded 0 (cmd 1 0 0x1000 0 0 0) (hosted ctxBlock)).ready 0 (cmd 1 0 0x1000 0 0 0) 1 ∧
    isOk (createContext 0 (cmd 1 0 0x1000 0 0 0) (commanded 0 (cmd 1 0 0x1000 0 0 0) (hosted ctxBlock))) = true ∧
    (match blockContext (hosted ctxBlock) 0 ((hosted ctxBlock).hostRead 0x1000 64) with
      | .ok x => x.arena == 0 && (hosted ctxBlock).hbmShare 0 (x.arena + x.saveArea) &&
          !((hosted ctxBlock).onVf 0 fun f => { f with pf := { f.pf with hbm := 0 } }).hbmShare 0 (x.arena + x.saveArea)
      | .error _ => false) = true ∧
    ([0, 2] : List Nat).Pairwise (· < ·) ∧
    (commanded 0 (cmd 2 0 0 0 0 0) (hosted [])).ready 0 (cmd 2 0 0 0 0 0) 2 ∧ (hosted []).ctxOf 0 = some context ∧ context.vf = 0 ∧
    context.lost = false ∧
    (commanded 0 (cmd 3 0 0x10000 1 0x110 0) (hosted [])).ready 0 (cmd 3 0 0x10000 1 0x110 0) 3 ∧
    (0x10000 % 2 ^ 12 = 0 ∧ 0x10000 + 1 * 2 ^ 12 ≤ 2 ^ 57 ∧ (0x110 : Nat).testBit 8 = true) ∧
    context.touches 0x10000 0x11000 = false ∧ context.touches 0x3FF000 0x400000 = true ∧
    (hosted []).windowMeets 0 0x10000 0x11000 = false ∧ (hosted []).leaves 0 0x10000 0x11000 = [] ∧
    (hosted []).hbmShare 0 (1 * 2 ^ 12) = true ∧ (hosted []).hbmShare 0 (2 ^ 20 * 2 ^ 30) = false ∧
    ((hosted []).hbmFit (0x110 / 32 % 8) 12).isSome = true ∧
    (∀ k < 8, (mapPages 0 21 1 true false (pickFrom k 21) 1 0x400000 (hosted [])).isSome = true) ∧
    (let s := (hosted []).onFloor fun f => { f with frames := [(0, Frame.fresh 36 0 0 false)] }
     mapPages 0 12 0 true true (fun t => t.hbmFit 0 12) 1 0x10000 s = none) ∧
    (hosted []).entryTaken 0x10000 (leafLevel 12) 0 0x1000 = false ∧ paged.entryTaken 0 (leafLevel 21) 0 0x1000 = true ∧
    paged.leaves 0 0x200000 0x400000 = [] ∧
    (commanded 0 (cmd 7 0 0x5000 0 0 0) paged).ready 0 (cmd 7 0 0x5000 0 0 0) 7 ∧ (0x5000 : Word).toNat % 64 = 0 ∧
    (match paged.tryRead 0 0x5000 256 with
      | some b => fieldAt b 0x78 4 == 0
      | none => false) = true ∧ paged.tryRead 0 0x6000 256 = none ∧
    (match ({ paged with mem := tabWrite paged.mem 0x6078 [1] } : State).tryRead 0 0x5000 256 with
      | some b => fieldAt b 0x78 4 == 1
      | none => false) = true :=
  ⟨ready_commanded rfl rfl rfl rfl rfl, by decide +kernel, by decide +kernel, by decide,
    ready_commanded rfl rfl rfl rfl rfl, by decide, by decide, by decide, ready_commanded rfl rfl rfl rfl rfl, by decide, by decide,
    by decide, by decide, by decide +kernel, by decide +kernel, by decide +kernel, by decide +kernel, by decide +kernel,
    by decide +kernel, by decide +kernel, by decide +kernel, by decide +kernel,
    ready_commanded rfl rfl rfl rfl rfl, by decide, by decide +kernel, by decide +kernel, by decide +kernel⟩

/-- The page at 0x5000 whose frame has a type. -/
def typed (ct : BitVec 2) (written : List Nat) : State :=
  paged.onFloor fun f => { f with frames := [(0x6000, ⟨12, ct, 0, none, written, 0, false⟩)] }

/-- The page of STREAM and PRIV type: granule 1 written; an owner that is this core, one that is not, and none. -/
theorem witness_AccessReachesItsBytes_types :
    let t (ct : BitVec 2) (pte : Nat) (o : Option Owner) : State :=
      paged.onFloor (fun f => { f with frames := [(0x6000, ⟨12, ct, 0, o, [1], 0, false⟩)] }) |> fun s =>
        { s with mem := tabWrite paged.mem 0x5028 (leBytes 8 pte) }
    (t 2 0x6093 none).walk 0 0x5010 = .leaf 0x5028 0x6093 12 4 ∧ leafPhys 0x6093 12 0x5010 = 0x6010 ∧
    (t 2 0x6093 none).frameAt 0x6010 = some (0x6000, ⟨12, 2, 0, none, [1], 0, false⟩) ∧ (2 : BitVec 2) = BitVec.ofNat 2 (0x6093 / 64) ∧
    (0x6010 - 0x6000) / 16 ∈ [1] ∧ (0x6020 - 0x6000) / 16 ∉ [1] ∧ 0x6010 % 16 = 0 ∧ 0x6000 % 16 = 0 ∧
    (∀ g ∈ granulesOf (0x6010 - 0x6000) 16, g ∈ [1]) ∧ (∃ g ∈ granulesOf (0x6020 - 0x6000) 16, g ∉ [1]) ∧
    (∀ o ∈ [none, some ⟨0, 1, 0⟩, some ⟨0, 2, 0⟩], (t 3 0x60D3 o).walk 0 0x5010 = .leaf 0x5028 0x60D3 12 4 ∧
      (t 3 0x60D3 o).frameAt 0x6010 = some (0x6000, ⟨12, 3, 0, o, [1], 0, false⟩) ∧
      (t 3 0x60D3 o).dispOf 0 = some (0, probeDispatch)) ∧ (3 : BitVec 2) = BitVec.ofNat 2 (0x60D3 / 64) ∧
    0x60D3 / 256 % 4 = 0 ∧ 0x60D3 / 16 % 2 = 1 := by decide

def leaf5 : Leaf := ⟨0x5028, 0x6013, 0x5000, 12⟩

/-- Good and bad ranges; one over the arena; the page whole and cut by a range, of each type. -/
theorem witness_RangeCommandsHaveTheirEffect :
    (∀ r ∈ rangeRows, (commanded 0 (cmd (BitVec.ofNat 8 r.2) 0 0x5000 1 0 0) paged).ready 0 (cmd (BitVec.ofNat 8 r.2) 0 0x5000 1 0 0) r.2) ∧
    (cmd 4 0 0x5000 1 0 0).rangeGood = true ∧ (cmd 4 0 0x5000 0 0 0).rangeGood = false ∧ (cmd 4 0 0x5001 1 0 0).rangeGood = false ∧
    context.touches 0x5000 0x6000 = false ∧ context.touches 0x200000 0x201000 = true ∧
    paged.leaves 0 0x5000 0x6000 = [leaf5] ∧ (0x5000 ≤ leaf5.va ∧ leaf5.va + 2 ^ leaf5.shift ≤ 0x6000) ∧
    (typed 2 []).leafFrame 0 leaf5 = some ⟨12, 2, 0, none, [], 0, false⟩ ∧ (typed 0 []).leafFrame 0 leaf5 = some ⟨12, 0, 0, none, [], 0, false⟩ ∧
    (typed 0 []).outOf 0 leaf5.va = none ∧ [leaf5].all (attrOk (typed 2 []) 0 0) = true ∧
    [leaf5].any ((typed 2 []).readPends 0) = false ∧
    (let s := with0 (typed 2 [0]) fun c => { c with copy := [{ copyCmd 0 false with unread := some 0x5000 }] }
     s.leaves 0 0x5000 0x6000 = [leaf5] ∧ [leaf5].any (s.readPends 0) = true) ∧
    [leaf5].all (attrOk (typed 2 [0]) 0 0) = false ∧ ([0] : List Nat).length < 2 ^ 12 / 16 ∧
    (commanded 0 (cmd 8 0 0 0 0 0) paged).ready 0 (cmd 8 0 0 0 0 0) 8 ∧ (commanded 0 (cmd 8 0 1 0 0 0) paged).ready 0 (cmd 8 0 1 0 0 0) 8 ∧
    paged.coreCtx 0 = 0 ∧ 0 ∈ paged.cores.map (·.1) :=
  ⟨by
    intro r hr
    simp only [rangeRows, List.mem_cons, List.not_mem_nil, or_false] at hr
    obtain rfl | rfl | rfl := hr <;> exact ready_commanded rfl rfl rfl rfl rfl,
    by decide, by decide, by decide, by decide, by decide, by decide +kernel, by decide, by decide +kernel, by decide +kernel,
    by decide +kernel, by decide +kernel, by decide +kernel, by decide +kernel, by decide +kernel, by decide,
    ready_commanded rfl rfl rfl rfl rfl, ready_commanded rfl rfl rfl rfl rfl, by decide, by decide⟩

/-- A range that cuts a page of 64 KiB. -/
theorem witness_RangeCutsALeaf :
    let s := seqd 1
    s.leaves 0 (2 ^ 39 + 0x1000) (2 ^ 39 + 0x2000) ≠ [] ∧
    (s.leaves 0 (2 ^ 39 + 0x1000) (2 ^ 39 + 0x2000)).any (fun l => decide (l.va < 2 ^ 39 + 0x1000)) = true := by decide +kernel
/-- Two pages of 4 KiB at 0x5000 and 0x6000, and one of 64 KiB at 0x10000. -/
def threePages : State :=
  { paged with mem := tabWrite (tabWrite paged.mem 0x5030 (leBytes 8 0x7013)) 0x5080 (leBytes 8 (leafEntry 0x10000 true true 0)) }

/-- A leaf, the words above it apart from it, and one that stays; a leaf of 64 KiB whose other entries are invalid; a leaf
of a window. -/
theorem witness_LeavesAreUnmapped :
    let s := threePages
    (∀ m ∈ s.floor.moves, m.ctx ≠ 0) ∧ s.walk 0 0x5010 = .leaf leaf5.entry 0x6013 12 4 ∧ s.walk 0 0x6010 = .leaf 0x5030 0x7013 12 4 ∧
    s.walk 0 0x10000 = .leaf 0x5080 (leafEntry 0x10000 true true 0) 16 4 ∧
    (∀ va ∈ [0x5010, 0x6010, 0x10000], ∀ a ∈ 0x5030 :: s.tablesAbove 0 va,
      ∀ e ∈ [leaf5.entry, 0x5080], a + 8 ≤ e ∨ e + 8 ≤ a) ∧
    s.outOf 0 leaf5.va = none ∧
    (∀ j < 16, s.tableBad (0x5080 + 8 * j) 8 = false ∧ (j ≠ 0 → natBit (s.physNat (0x5080 + 8 * j) 8) 0 = false)) ∧
    (seqd 1).walk 0 (2 ^ 39) = .leaf 0x9040 (leafEntry 0x10000 true false 0) 16 6 ∧
    (∀ a ∈ (seqd 1).tablesAbove 0 (2 ^ 39), a + 8 ≤ 0x9040 ∨ 0x9040 + 8 ≤ a) := by decide +kernel

/-- One group of two blocks of bf16, one head of 16 elements, 2 tokens a page; and one that has none. -/
def policy (leaflen : Nat) : List Byte := leBytes 2 leaflen ++ [0x0A, 0, 0, 1] ++ leBytes 2 16 ++ leBytes 2 2 ++ List.replicate 6 0

/-- Windows created where nothing is and where one is, and freed; an entry to wake; a budget; the two lengths of block in
a PARK_POLICY block. -/
theorem witness_OtherCommandsHaveTheirEffect :
    (commanded 0 (cmd 9 0 0x8000000000 0x1000 1 0) (hosted (policy 2))).ready 0 (cmd 9 0 0x8000000000 0x1000 1 0) 9 ∧
    policyOk ((hosted (policy 2)).hostRead 0x1000 16) = true ∧ policyOk ((hosted (policy 0)).hostRead 0x1000 16) = false ∧
    (2 ^ 39 % 2 ^ 39 = 0 ∧ 2 ^ 39 + 2 ^ 39 ≤ 2 ^ 57) ∧ context.touches (2 ^ 39) (2 ^ 40) = false ∧
    (hosted []).windowMeets 0 (2 ^ 39) (2 ^ 40) = false ∧ (hosted []).leaves 0 (2 ^ 39) (2 ^ 40) = [] ∧
    (let t (e : Nat) : State := { hosted [] with mem := tabWrite [] 0x1000 (leBytes 8 e) }
     (t 5).leaves 0 (2 ^ 39) (2 ^ 40) = [] ∧ (t 5).physNat 0x1000 8 % 2 = 1 ∧ (t 5).physNat 0x1000 8 / 2 % 4 ≠ 0 ∧
       (hosted []).physNat 0x1000 8 % 2 = 0 ∧ (t 0x2001).physNat 0x1000 8 / 2 % 4 = 0) ∧
    (seqd 1).windowMeets 0 (2 ^ 39) (2 ^ 40) = true ∧
    (commanded 0 (cmd 0x0A 0 0x8000000000 0 0 0) (seqd 1)).ready 0 (cmd 0x0A 0 0x8000000000 0 0 0) 0x0A ∧
    (hosted []).windowAt 0 (2 ^ 39) = none ∧ (seqd 1).windowAt 0 (2 ^ 39) = some ⟨0, 2 ^ 39, 1, 0x8000⟩ ∧
    (commanded 0 (cmd 0x0B 0 0 0x10000 0x1000 0) (hosted [])).ready 0 (cmd 0x0B 0 0 0x10000 0x1000 0) 0x0B ∧
    fieldAt ((hosted (List.replicate 22 0 ++ [64, 0])).hostRead 0x1000 32) 0x16 2 = 64 ∧
    fieldAt ((hosted (List.replicate 22 0 ++ [0, 16])).hostRead 0x1000 32) 0x16 2 = 4096 ∧
    (hosted []).anyParked 0 = false ∧ (dug (parked .parked) (seqd 1)).anyParked 0 = true ∧ ((hosted []).vf 0).pf.cxl.toNat < 0x10000 ∧
    (cmd 0x0B 0 0 0 0x1000 0).p1.toNat ≤ ((hosted []).vf 0).pf.cxl.toNat ∧
    (commanded 0 (cmd 0x0C 0 0x100000000000 0 0 0) (dug (parked .parked) (seqd 1))).ready 0 (cmd 0x0C 0 0x100000000000 0 0 0) 0x0C ∧
    (dug (parked .parked) (seqd 1)).floor.dugout.find (0x100000000000 % 2 ^ 44) = some (parked .parked) ∧
    (parked .parked).gen.toNat = 0x100000000000 / 2 ^ 44 ∧
    (∀ v ∈ [0, 64], (commanded v (cmd 0x0D 0 255 256 0 0) (hosted [])).ready v (cmd 0x0D 0 255 256 0 0) 0x0D) ∧
    (commanded 0 (cmd 0x0E 0 0 0 0 0) (hosted [])).ready 0 (cmd 0x0E 0 0 0 0 0) 0x0E ∧
    (commanded 0 (cmd 0x0F 0 0xFFFFFFFFFFFF 0 0 0) (hosted [])).ready 0 (cmd 0x0F 0 0xFFFFFFFFFFFF 0 0 0) 0x0F :=
  ⟨ready_commanded rfl rfl rfl rfl rfl, by decide +kernel, by decide +kernel, by decide, by decide, by decide, by decide +kernel, by decide +kernel,
    by decide, ready_commanded rfl rfl rfl rfl rfl, by decide, by decide, ready_commanded rfl rfl rfl rfl rfl, by decide +kernel,
    by decide +kernel, by decide, by decide, by decide, by decide, ready_commanded rfl rfl rfl rfl rfl, by decide, by decide,
    fun v hv => by
      simp only [List.mem_cons, List.not_mem_nil, or_false] at hv
      obtain rfl | rfl := hv <;> exact ready_commanded rfl rfl rfl rfl rfl,
    ready_commanded rfl rfl rfl rfl rfl, ready_commanded rfl rfl rfl rfl rfl⟩

/-- A context with a live handle at index 1 and a freed one at index 2. -/
def handleCtx : Context := { context with handles := [(1, Handle.blank)], hgens := [(2, 5)] }

/-- Each selector; a handle that lives, one that was freed; a page; an entry of the dugout. -/
theorem witness_QueriesWriteTheirRecord :
    (∀ n ∈ List.range 9, (commanded 0 (cmd 0x10 0 (BitVec.ofNat 64 n) 0x1000 64 0) (hosted [])).ready 0
      (cmd 0x10 0 (BitVec.ofNat 64 n) 0x1000 64 0) 0x10 ∧ (cmd 0x10 0 (BitVec.ofNat 64 n) 0x1000 64 0).p0.toNat = n) ∧
    (inCtx handleCtx).ctxOf 0 = some handleCtx ∧ handleCtx.vf = 0 ∧ handleHome 1 = (hosted []).domain.index ∧
    handleCtx.handles.find (handleIndex 1) = some Handle.blank ∧ handleCtx.handles.find (handleIndex 2) = none ∧
    handleCtx.hgens.find (handleIndex 2) = some 5 ∧ paged.leaves 0 0x5000 0x5001 = [leaf5] ∧
    (typed 2 []).leafFrame 0 leaf5 = some ⟨12, 2, 0, none, [], 0, false⟩ ∧
    (dug (parked .parked) (seqd 1)).floor.dugout.find (0x100000000000 % 2 ^ 44) = some (parked .parked) ∧ (parked .parked).ctx = 0 ∧
    (parked .parked).gen.toNat = 0x100000000000 / 2 ^ 44 ∧ (hosted []).domain.index < (hosted []).domain.size :=
  ⟨fun n hn => ⟨ready_commanded rfl rfl rfl rfl rfl, by
      simp only [cmd, BitVec.toNat_ofNat]
      exact Nat.mod_eq_of_lt (Nat.lt_trans (List.mem_range.1 hn) (by decide))⟩,
    by decide, by decide, by decide, by decide, by decide, by decide, by decide +kernel, by decide +kernel, by decide, by decide, by decide,
    by decide⟩

/-- The window freed while a read that has its bytes stands past translation, and without. -/
theorem witness_SequencesAreFreed :
    (∀ w ∈ [true, false], let s := ageingEntry (parked .parked) w
     s.windowAt 0 (2 ^ 39) = some ⟨0, 2 ^ 39, 1, 0x8000⟩ ∧
     (s.leaves 0 (2 ^ 39) (2 ^ 39 + 2 ^ 39)).any (s.readPends 0) = w) := by decide +kernel

theorem witness_ArenasElsewhere :
    (let c := { context with awayArenas := [(1, 0x200000)] }
     (inCtx c).ctxOf 0 = some c ∧ c.awayArenas.find? (·.1 == 1) = some (1, 0x200000)) ∧
    context.awayArenas.find? (·.1 == 1) = none := by decide

/-- Fault records of a time. -/
def faulted (n : Nat) : State := { (hosted []).onVf 0 fun f => { f with faults := List.replicate n ⟨0, 0, 0, 0, 0, 0, 0⟩ } with arg := .vf 0 }

/-- A function that can be reached; an enabled and a disabled one; 63 and 64 held records, and one of 4 µs; 99 and 100 samples
above, below and at the bounds. -/
theorem witness_RegistersResetsAndPower :
    (hosted []).vfLive 0 = true ∧ (hosted []).vfLive 64 = true ∧ ((hosted []).vf 0).heldCpl = [] ∧ ((hosted []).vf 0).enabled = true ∧
    ((hosted []).vf 1).enabled = false ∧ (faulted 63).batchDue 0 = false ∧ (faulted 64).batchDue 0 = true ∧
    (at_ 3999 (faulted 1)).batchDue 0 = false ∧ (at_ 4000 (faulted 1)).batchDue 0 = true ∧
    (0, context) ∈ (hosted []).floor.contexts ∧
    ((2500 :: List.replicate 98 2500 : List Nat).take 100).length = 99 ∧
    (let l (w : Nat) := (w :: List.replicate 99 2500).take 100
     (l 2500).length = 100 ∧ 260000 < sumNat (l 12501) ∧ sumNat (l 12500) ≤ 260000 ∧
       sumNat ((2399 :: List.replicate 99 2400).take 100) < 240000 ∧ 240000 ≤ sumNat ((2400 :: List.replicate 99 2400).take 100)) := by
  decide +kernel

/-- The window of function 0 over context 0, over one that is not there and over another function's; an access of one granule
and one of the last bytes; a stalled access before it; a page, no page, a page that is being zeroed, and one not yet
written. -/
theorem witness_BusAccesses :
    (hosted []).vfLive 0 = true ∧ busSize (.read 64) = 64 ∧ 0 % 64 + busSize (.read 64) ≤ 64 ∧
    (hosted []).ctxOf ((hosted []).vf 0).regs.winCtx.toNat = some context ∧ (hosted []).ctxOf 5 = none ∧
    (inCtx { context with vf := 1 }).ctxOf 0 = some { context with vf := 1 } ∧
    (let s : State := { hosted [] with domain := { Domain.reset with size := 2, live := [0, 1] } }
     1 ∈ s.domain.live ∧ 1 ≠ s.domain.index) ∧
    ({ hosted [] with stalled := [⟨0, false, 0, 0, 0, .read 1, []⟩] } : State).stalled.any (fun x => !x.peer && x.src == 0) = true ∧
    (hosted []).stalled = [] ∧ 2 ^ 57 < (2 ^ 57 - 1) + busSize (.read 2) ∧ (2 ^ 57 - 2) + busSize (.read 2) ≤ 2 ^ 57 ∧
    after (busPerform 0 0x5000 (.read 16) paged) (fun bs _ => bs.length = 16) = true ∧ toPageEnd paged 0 0x5FF8 = 8 ∧
    16 ≤ toPageEnd paged 0 0x5000 ∧ after (busPerform 0 0x5FF8 (.read 8) paged) (fun bs _ => bs.length = 8) = true ∧
    after (busPerform 0 0x5FF8 (.write (List.replicate 8 1)) paged) (fun _ _ => true) = true ∧
    after (busPerform 0 0x5000 (.atomic (.amo .add) [1, 0, 0, 0]) paged) (fun bs _ => bs.length = 4) = true ∧
    after (partRead (viaHost 0) 0x5FF8 8 .read paged) (fun bs _ => bs.length = 8) = true ∧
    after (partCheck (viaHost 0) 0x5FF8 8 .write paged) (fun _ u => after (busPerform 0 0x5FF8 (.write (List.replicate 8 1)) u) fun _ _ => true) = true ∧
    (match partRead (viaHost 0) 0x6FF8 8 .read paged with
      | .error (.flt f) => f.tr.isSome
      | _ => false) = true ∧
    (match busPerform 0 0x6FF8 (.read 8) paged with
      | .error (.flt f) => f.tr.isSome
      | _ => false) = true ∧
    after (engineWrite (viaHost 0) 0x5000 [1, 2] paged) (fun _ _ => true) = true ∧
    (let z := paged.onFloor fun f => { f with frames := [(0x6000, ⟨12, 0, 0, none, [], 0, true⟩)] }
     (match busPerform 0 0x5000 (.read 16) z with
      | .error (.wait (.page x)) => shortStall z 0 x.toNat
      | _ => false) = true) ∧
    (let y : State := { typed 2 [] with mem := tabWrite paged.mem 0x5028 (leBytes 8 0x6093) }
     (match busPerform 0 0x5000 (.read 16) y with
      | .error (.wait (.granule _)) => true
      | _ => false) = true) ∧
    (match busPerform 0 0x7000 (.read 16) paged with
      | .error (.flt f) => f.tr.isSome
      | _ => false) = true ∧
    (let y : State := { typed 2 [] with mem := tabWrite paged.mem 0x5028 (leBytes 8 0x6093) }
     ∀ va ∈ [0x5FF0, 0x5FF8], after (xlate (viaHost 0) va .read y) (fun r _ => match r.2.2 with
       | some f => f.ct = 2
       | none => false) = true) := by decide +kernel

/-- A flit to this package from package 1 with a number in each sequence. -/
def flit (seq : BitVec 16) (e2e : BitVec 32) : Flit :=
  let f : Flit := ⟨1, 0, seq, 0, 0, 0, 1, e2e, [], 0⟩
  { f with crc := crc64 (flitBytes f) }

/-- No word is its complement. -/
theorem not_ne (x : BitVec 64) : ~~~x ≠ x := fun h => by
  have := congrArg (BitVec.getLsbD · 0) h
  simp at this

/-- A flit carries its CRC and its numbers. -/
theorem flit_fields (seq : BitVec 16) (e2e : BitVec 32) :
    (flit seq e2e).crc = crc64 (flitBytes (flit seq e2e)) ∧ (flit seq e2e).seq = seq ∧ (flit seq e2e).e2e = e2e ∧
      (flit seq e2e).dst = 0 := by
  simp [flit, flitBytes]

/-- A good flit in sequence and one out of it, and a bad one, on link 0. -/
theorem witness_FlitsAreChecked (seq : BitVec 16) (e2e : BitVec 32) :
    (flit seq e2e).crc = crc64 (flitBytes (flit seq e2e)) ∧
    ~~~(flit seq e2e).crc ≠ crc64 (flitBytes (flit seq e2e)) ∧ (flit seq e2e).dst.toNat = here.domain.index ∧
    ((flit seq e2e).seq = (here.link 0).nextSeq ↔ seq = 0) ∧ flit seq e2e ∉ here.domain.ahead := by
  refine ⟨(flit_fields seq e2e).1, fun h => not_ne _ (h.trans (flit_fields seq e2e).1.symm), ?_, ?_, fun h => nomatch h⟩
  · rw [(flit_fields seq e2e).2.2.2]
    rfl
  · rw [(flit_fields seq e2e).2.1]
    exact Iff.rfl

/-- A link that leads to package 1, up and with credit. -/
theorem witness_FlitsAreSent :
    (let s : State := { here with domain := { here.domain with routes := [0, 1] } }
     ((s.domain.routes.getD 1 0).getLsbD 0 = true ∧ (s.link 0).up = true ∧ (s.link 0).spent = 0) ∧ 0 < Config.linkCredits) ∧
    Config.replayKind + 1 ≠ Config.replayKind := ⟨⟨by decide, Nat.succ_pos _⟩, fun h => absurd (BitVec.add_right_eq_self.1 h) (by decide)⟩

/-- End-to-end numbers expected, early and old; packages of the domain. -/
theorem witness_FlitsAreOrderedAndPackagesLost :
    here.domain.e2e.get 0 1 = 0 ∧ ((0 : BitVec 32) - BitVec.ofNat 32 0).toNat = 0 ∧ here.domain.ahead = [] ∧
    2 ^ 31 ≤ ((0xFFFFFFFF : BitVec 32) - BitVec.ofNat 32 0).toNat ∧ ((0x7FFFFFFF : BitVec 32) - BitVec.ofNat 32 0).toNat < 2 ^ 31 ∧
    (let s : State := { here with domain := { here.domain with size := 2, live := [0, 1] } }
     1 ≠ s.domain.index ∧ 1 ∈ s.domain.live ∧ 2 ∉ s.domain.live) := by decide

/-- Package 1 without a path since 0: before 10 ms and at their end; a report that its path is gone, and that it is there. -/
theorem witness_PackagesAreLost :
    let s : State := ofTwo here
    let u : State := { s with domain := { s.domain with unreached := [(1, 0)] } }
    1 ≠ s.domain.index ∧ 1 ∈ s.domain.live ∧ (1, 0) ∈ u.domain.unreached ∧ s.domain.unreached = [] ∧
    (at_ 9999999 u).time.toNat < 0 + 10000000 ∧ 0 + 10000000 ≤ (at_ 10000000 u).time.toNat ∧
    u.domain.unreached.find? (·.1 == 1) = some (1, 0) ∧ (∀ y ∈ s.domain.unreached, y.1 ≠ 1) := by decide

/-- A counter of 64 and one of 65 corrections within a second. -/
def corrected (n : Nat) : State := here.putErr ⟨⟨7, 0⟩, n, 0, List.replicate n 0, none⟩

theorem witness_ErrorsAreMarkedAndHardwareWithdrawn :
    ((corrected 64).errCount ⟨7, 0⟩).loud 0 = false ∧ ((corrected 65).errCount ⟨7, 0⟩).loud 0 = true ∧
    ((corrected 65).errCount ⟨7, 0⟩).loud 1000000000 = false ∧ here.dispOf 0 = some (0, probeDispatch) ∧ here.dispOf 1 = none ∧
    0x6000 / 2 ^ 42 % 4 ≠ 1 ∧ (inCtx context).ctxOf 0 = some context ∧ (here.core 0).e.run ≠ .stopped ∧
    (withE here fun e => { e with run := .stopped }).my.e.run = .stopped ∧
    (corrected 65).errCount ⟨6, 0⟩ = ⟨⟨6, 0⟩, 0, 0, [], none⟩ ∧ probeDispatch.liveTask = false ∧
    { probeDispatch with origin := .task handle1 }.liveTask = true ∧ gangAt here 0 = [] ∧ gangAt (gang 16) 0 = [0, 1] ∧
    ((with0 here fun c => { c with held := [transfer] }).core 0).held.length = 1 ∧
    255 / 256 ∈ ({ here with floor := { here.floor with withdrawnDies := [0] } } : State).floor.withdrawnDies := by decide +kernel

/-- A plain dispatch on a disabled die, alone there and with one core on the next die. -/
theorem witness_ErrorsAreMarkedAndHardwareWithdrawn_die :
    let two : State := here.onCore 256 fun c => { c with disp := some 0 }
    let ns (s : State) : List Nat := (s.cores.filter fun x => x.2.disp = some 0).map (·.1)
    here.disp 0 = some probeDispatch ∧ two.disp 0 = some probeDispatch ∧ probeDispatch.liveTask = false ∧
    probeDispatch.stalls = false ∧ (ns here).filter (fun m => m / 256 = 0) = 0 :: [] ∧
    (ns here).filter (fun m => m / 256 ≠ 0) = [] ∧ (ns two).filter (fun m => m / 256 = 0) = 0 :: [] ∧
    (ns two).filter (fun m => m / 256 ≠ 0) = [256] ∧ ((stopLost 0 two 0).disp 0).isSome := by decide +kernel

/-- R181: an error in a core's own pool marks only its granule. -/
theorem test_pool_error_marks_granule : goes (exec .uncorrectableError { here with arg := .site (.pool 0 .e true 33), cur := .floor })
    (fun t => (t.core 0).poison.granules = [(.scratch, 2)] && (t.core 0).e = (here.core 0).e) = true := by decide +kernel

/-- ADD and C.LI as instructions that are well formed. -/
theorem witness_DecodingInvertsEncoding :
    (Instr.add (word 0 3 0x400A 0x400B)).wf = true ∧
    encode (.add (word 0 3 0x400A 0x400B)) = some (.norom, leBytes 12 0x010000003400A400B0000000) := by decide

/-- E at a pc below and at the end of its image; L, S and the umpire at words of 4 and 2 bytes and at the end. -/
theorem witness_StepRunsTheDecodedInstruction :
    (let s (n : Nat) : State := { with0 here fun c => { c with stores := { c.stores with ilim := n } } with agenda := [.agent (.strand 0 .e)] }
     (s 1).agenda = .agent (.strand 0 .e) :: [] ∧ ((s 1).core 0).e.run = .running ∧ ((s 1).core 0).drain = .none ∧
     ((s 1).core 0).e.deferred = [] ∧ ((s 1).core 0).e.sincePoint < 65536 ∧ ((s 1).core 0).poison.words = [] ∧
     ((s 1).core 0).e.pc.toNat < ((s 1).core 0).stores.ilim ∧ ((s 0).core 0).stores.ilim ≤ ((s 0).core 0).e.pc.toNat) ∧
    (let s := State.reset.withFetchWord 32 0x00500093
     s.agenda = .agent (.strand 0 .l) :: [] ∧ (s.core 0).l.run = .running ∧ (s.core 0).drain = .none ∧
     0x00500093 % 4 = 3 ∧ (s.core 0).l.pc.toNat + 4 ≤ (s.core 0).stores.llen) ∧
    (let s := State.reset.withFetchWord 16 0x4095
     s.agenda = .agent (.umpire 0) :: [] ∧ (s.court 0).umpire.mode = .image ∧ (s.court 0).umpire.hart.run = .running ∧
     0x4095 % 4 ≠ 3 ∧ (s.court 0).umpire.hart.pc.toNat < (s.court 0).umpire.ilen) ∧
    (atL []).my.stores.llen ≤ (atL []).hart.pc.toNat ∧
    ({ here with agenda := [.event .scrubPass .none] } : State).agenda = .event .scrubPass .none :: [] ∧ here.agenda = [] := by
  decide +kernel

/-- A reset machine's round is a step that keeps its memories in canonical form. -/
theorem witness_EveryStepKeepsMemoryCanonical :
    State.reset.canonical = true ∧ goes (step State.reset) (fun t => t.canonical) = true := by decide +kernel

end Sys2Proof.Tests
end

section
/-!
PROOFS. Rules that the proofs share: what a change of a table, a context or a handle's entry leaves to be read, and how
an instruction of E whose form names no endpoint runs (spec/02_instruction_word.md R25, R28).
-/
namespace Sys2Proof.Machine

open Sys2Proof

/-! ## Tables and contexts -/

@[simp] theorem Tab.find_modify_self {α : Type} (t : Tab α) (k : Nat) (f : α → α) :
    (t.modify k f).find k = (t.find k).map f := by
  induction t with
  | nil => rfl
  | cons p t ih =>
    simp only [Tab.modify, List.map_cons, Tab.find] at ih ⊢
    by_cases hp : p.1 = k
    · simp [hp]
    · simp [hp, Ne.symm hp, ih]

@[simp] theorem ctxOf_onCtx_self (s : State) (ctx : Nat) (f : Context → Context) :
    (s.onCtx ctx f).ctxOf ctx = (s.ctxOf ctx).map f :=
  Tab.find_modify_self ..

@[simp] theorem disp_onDisp_self (s : State) (k : Nat) (f : Dispatch → Dispatch) :
    (s.onDisp k f).disp k = (s.disp k).map f :=
  Tab.find_modify_self ..

theorem disp_of_dispOf {s : State} {n k : Nat} {d : Dispatch} (h : s.dispOf n = some (k, d)) : s.disp k = some d := by
  unfold State.dispOf at h
  split at h
  · cases h
  · simp only [Option.map_eq_some_iff, Prod.mk.injEq] at h
    obtain ⟨x, hx, rfl, rfl⟩ := h
    exact hx

/-! ## Handle table entries -/

theorem hget_eq_bind (s : State) (ctx i : Nat) : s.hget ctx i = (s.ctxOf ctx).bind fun c => c.handles.find i := by
  unfold State.hget
  cases s.ctxOf ctx <;> rfl

@[simp] theorem ctxOf_onHandle (s : State) (ctx i : Nat) (f : Handle → Handle) :
    (s.onHandle ctx i f).ctxOf ctx = (s.ctxOf ctx).map fun c => { c with handles := c.handles.modify i f } :=
  ctxOf_onCtx_self ..

@[simp] theorem hget_onHandle_self (s : State) (ctx i : Nat) (f : Handle → Handle) :
    (s.onHandle ctx i f).hget ctx i = (s.hget ctx i).map f := by
  rw [hget_eq_bind, hget_eq_bind, ctxOf_onHandle]
  cases s.ctxOf ctx with
  | none => rfl
  | some c => exact Tab.find_modify_self ..

/-- Looking an entry up reads the contexts alone. -/
theorem ctxOf_congr {s t : State} (hc : t.floor.contexts = s.floor.contexts) (ctx : Nat) : t.ctxOf ctx = s.ctxOf ctx := by
  rw [State.ctxOf, hc, State.ctxOf]

theorem hget_congr {s t : State} (hc : t.floor.contexts = s.floor.contexts) (ctx i : Nat) : t.hget ctx i = s.hget ctx i := by
  rw [hget_eq_bind, hget_eq_bind, ctxOf_congr hc]

/-- Looking a handle word up reads the contexts and the place of the package in its domain. -/
theorem href_congr {s t : State} (hd : t.domain = s.domain) (hc : t.floor.contexts = s.floor.contexts) (ctx : Nat)
    (h : Word) : t.href ctx h = s.href ctx h := by
  rw [State.href, hd, ctxOf_congr hc, State.href]

/-- A handle word that names an entry here names it by its index, in a context that exists. -/
theorem ctxOf_of_href {s : State} {ctx i : Nat} {h : Word} {x : Handle} (hx : s.href ctx h = .here i x) :
    i = handleIndex h ∧ ∃ c, s.ctxOf ctx = some c := by
  unfold State.href at hx
  split at hx
  · split at hx <;> cases hx
  · split at hx
    · cases hx
    next c hc =>
      split at hx
      · cases hx
      · split at hx
        · cases hx
          exact ⟨rfl, c, hc⟩
        · cases hx

/-! ## A form without endpoints -/

/-- No field of an instruction names an endpoint. -/
def Shape.noQueue (sh : Shape) : Bool := !sh.d.q && !sh.a.q && !sh.b.q

/-- A used field whose form has no endpoint names none. -/
theorem opnd_ne_queue {s : State} {f : Fld} {raw : BitVec 16} (hr : f.role ≠ .no) (hq : f.q = false)
    (h : fieldOk s f raw = true) (id : Nat) : opnd raw ≠ .q id := by
  intro ho
  unfold fieldOk at h
  split at h
  · exact hr ‹_›
  · simp [ho, hq] at h

theorem popOf_eq_nil {s : State} {f : Fld} {raw : BitVec 16} (hq : f.q = false) (h : fieldOk s f raw = true) :
    popOf f raw = [] := by
  unfold popOf
  split
  · exact absurd ‹_› (opnd_ne_queue (by simp [*]) hq h _)
  · exact absurd ‹_› (opnd_ne_queue (by simp [*]) hq h _)
  · rfl

/-- The fields of an instruction that issues pass their checks. -/
theorem fieldsOk_of_issues {s : State} {sh : Shape} {w : Norom} (h : s.issues sh w = true) :
    fieldOk s sh.d w.d = true ∧ fieldOk s sh.a w.a = true ∧ fieldOk s sh.b w.b = true := by
  simp only [State.issues, Bool.and_eq_true] at h
  obtain ⟨⟨⟨⟨⟨⟨⟨-, hd⟩, ha⟩, hb⟩, -⟩, -⟩, -⟩, -⟩ := h
  exact ⟨hd, ha, hb⟩

/-- An instruction without endpoints pops nothing. -/
theorem popped_of_noQueue {s : State} {sh : Shape} {w : Norom} (hq : sh.noQueue = true) (h : s.issues sh w = true) :
    s.popped sh w = s := by
  obtain ⟨hd, ha, hb⟩ := fieldsOk_of_issues h
  simp only [Shape.noQueue, Bool.and_eq_true, Bool.not_eq_true'] at hq
  obtain ⟨⟨qd, qa⟩, qb⟩ := hq
  simp [State.popped, popsOf, popOf_eq_nil qd hd, popOf_eq_nil qa ha, popOf_eq_nil qb hb]

/-- An instruction without endpoints whose effect runs to its end goes on in line. -/
theorem outcome_lineE_noQueue {s t : State} {sh : Shape} {w : Norom} {body : Vals → M Unit} (hq : sh.noQueue = true)
    (h : s.issues sh w = true) (hb : body (s.operands sh w) s = .ok ((), t)) :
    outcome (lineE sh w body) s = .next t.inLine :=
  outcome_lineE h (by rw [popped_of_noQueue hq h]; exact hb)

/-- An instruction without endpoints whose effect stops, stops. -/
theorem run_lineE_error {s : State} {sh : Shape} {w : Norom} {body : Vals → M Unit} {x : Stop} (hq : sh.noQueue = true)
    (h : s.issues sh w = true) (hb : body (s.operands sh w) s = .error x) : lineE sh w body s = .error x := by
  rw [lineE, run_instrE h, popped_of_noQueue hq h]
  simp only [run_bind, hb]

/-- An instruction without endpoints that gives D a value does that and goes on in line. -/
theorem outcome_lineE_putW {s : State} {sh : Shape} {w : Norom} {body : Vals → M Unit} {x : Word}
    (hq : sh.noQueue = true) (hr : sh.d.role ≠ .no) (h : s.issues sh w = true)
    (hb : body (s.operands sh w) s = putW w x s) : outcome (lineE sh w body) s = .next (s.put w.d (wide x)).inLine := by
  refine outcome_lineE_noQueue hq h (hb.trans (run_putD (takes_of_noQueue fun id => ?_)))
  have qd : sh.d.q = false := by
    simp only [Shape.noQueue, Bool.and_eq_true, Bool.not_eq_true'] at hq
    exact hq.1.1
  exact opnd_ne_queue hr qd (fieldsOk_of_issues h).1 id

end Sys2Proof.Machine
end

section
/-!
PROOFS. What the instructions and steps that read, count, spark, claim and complete handles do (spec/01_forcing_a_graph.md
R11, R12; spec/06_demand_engine.md R125, R126, R138, R139, R141).
-/
namespace Sys2Proof.Machine

open Sys2Proof

/-! ## HSTAT, HDUP, DROP and SPARK -/

section
variable {s : State} {ctx i : Nat} {h : Word} {x : Handle}

theorem run_heldHandle_stale (hr : s.href ctx h = .stale) :
    heldHandle ctx h s = .error (.flt ⟨cHandleStale, h, none⟩) := by
  rw [heldHandle, run_bind_ok (run_gets _ s), hr]
  rfl

theorem run_heldHandle_unheld (hr : s.href ctx h = .here i x) (h0 : x.refs = 0) :
    heldHandle ctx h s = .error (.flt ⟨cHandleStale, h, none⟩) := by
  rw [heldHandle, run_bind_ok (run_gets _ s), hr]
  simp only [h0, ne_eq, not_true_eq_false, decide_false]
  exact run_bind_error (run_check_false ..)

theorem run_heldHandle_held (hr : s.href ctx h = .here i x) (h0 : x.refs ≠ 0) :
    heldHandle ctx h s = .ok (some x, s) := by
  rw [heldHandle, run_bind_ok (run_gets _ s), hr]
  simp only [h0, ne_eq, not_false_eq_true, decide_true]
  exact run_bind_ok (run_check_true ..)

/-- Dropping one of several references only counts (R139). -/
theorem drop_of_shared (hr : s.href ctx h = .here i x) (h1 : x.refs ≠ 1) :
    s.drop ctx h = s.onHandle ctx i fun y => { y with refs := y.refs - 1 } := by
  obtain ⟨-, c, hc⟩ := ctxOf_of_href hr
  simp [State.drop, State.hfuel, hc, State.dropRef, hr, h1]

/-- The last reference to an evaluation under way only counts: it is freed once it has ended (R139). -/
theorem drop_last_of_unfinished (hr : s.href ctx h = .here i x) (h1 : x.refs = 1)
    (hs : x.state = .demanded ∨ x.state = .ready ∨ x.state = .running) :
    s.drop ctx h = s.onHandle ctx i fun y => { y with refs := y.refs - 1 } := by
  obtain ⟨-, c, hc⟩ := ctxOf_of_href hr
  rcases hs with hs | hs | hs <;> simp [State.drop, State.hfuel, hc, State.dropRef, hr, h1, hs]

/-- The last reference to a finished entry frees it, unless a FORCE waits on it (R126, R139). -/
theorem drop_last_of_finished (hr : s.href ctx h = .here i x) (h1 : x.refs = 1)
    (hs : x.state = .value ∨ x.state = .failed ∨ x.state = .cell) :
    s.drop ctx h =
      let s1 := s.onHandle ctx i fun y => { y with refs := y.refs - 1 }
      if s1.waited ctx h then s1 else s1.freeHandle ctx i := by
  obtain ⟨-, c, hc⟩ := ctxOf_of_href hr
  rcases hs with hs | hs | hs <;> simp [State.drop, State.hfuel, hc, State.dropRef, hr, h1, hs]

/-- The last reference to a SUSPENDED handle frees it and drops one reference to each of its slots (R139). -/
theorem drop_last_of_suspended {c : Context} (hc : s.ctxOf ctx = some c) (hr : s.href ctx h = .here i x)
    (h1 : x.refs = 1) (hs : x.state = .suspended) :
    s.drop ctx h = x.slots.foldl (fun t a => State.dropRef c.handles.length ctx a t)
      ((s.onHandle ctx i fun y => { y with refs := y.refs - 1 }).freeHandle ctx i) := by
  simp [State.drop, State.hfuel, hc, State.dropRef, hr, h1, hs]

end

/-- The forms of these instructions name no endpoint. -/
theorem noQueue_handleShape : handleShape.noQueue = true := rfl
theorem noQueue_handleOnlyShape : handleOnlyShape.noQueue = true := rfl

section
variable {s : State} {w : Norom} {i : Nat} {x : Handle}

/-- HSTAT of an entry here answers its state code (R12). -/
theorem exec_hstat_of_here (h : s.issues handleShape w = true)
    (hr : s.href s.myCtx (low (s.operands handleShape w).a) = .here i x) :
    exec (.hstat w) s = .next (s.put w.d (wide (BitVec.ofNat 64 x.state.code))).inLine := by
  refine outcome_lineE_putW (sh := handleShape) noQueue_handleShape (by decide) h ?_
  rw [run_bind_ok (run_gets _ s), run_bind_ok (run_gets _ s), hr]

theorem exec_hstat_of_stale (h : s.issues handleShape w = true)
    (hr : s.href s.myCtx (low (s.operands handleShape w).a) = .stale) :
    exec (.hstat w) s = .next (s.put w.d 0).inLine := by
  refine outcome_lineE_putW (sh := handleShape) (x := 0) noQueue_handleShape (by decide) h ?_
  rw [run_bind_ok (run_gets _ s), run_bind_ok (run_gets _ s), hr]

variable (h : s.issues handleOnlyShape w = true)
include h

/-- DROP faults as the check that its handle is held does. -/
theorem exec_drop_of_fault {f : Flt}
    (hf : heldHandle s.myCtx (low (s.operands handleOnlyShape w).a) s = .error (.flt f)) :
    exec (.drop w) s = .next (s.raise f) := by
  refine outcome_flt (run_lineE_error (sh := handleOnlyShape) noQueue_handleOnlyShape h ?_)
  rw [run_bind_ok (run_gets _ s), run_bind_error hf]

/-- DROP of a held handle here drops one reference. -/
theorem exec_drop_of_held (hr : s.href s.myCtx (low (s.operands handleOnlyShape w).a) = .here i x) (h0 : x.refs ≠ 0) :
    exec (.drop w) s = .next (s.drop s.myCtx (low (s.operands handleOnlyShape w).a)).inLine := by
  refine outcome_lineE_noQueue (sh := handleOnlyShape) noQueue_handleOnlyShape h ?_
  rw [run_bind_ok (run_gets _ s), run_bind_ok (run_heldHandle_held hr h0), run_change]

/-- HDUP faults as the check that its handle is held does. -/
theorem exec_hdup_of_fault {f : Flt}
    (hf : heldHandle s.myCtx (low (s.operands handleOnlyShape w).a) s = .error (.flt f)) :
    exec (.hdup w) s = .next (s.raise f) := by
  refine outcome_flt (run_lineE_error (sh := handleOnlyShape) noQueue_handleOnlyShape h ?_)
  rw [run_bind_ok (run_gets _ s), run_bind_error hf]

/-- HDUP of a held handle here counts one reference more. -/
theorem exec_hdup_of_held (hr : s.href s.myCtx (low (s.operands handleOnlyShape w).a) = .here i x) (h0 : x.refs ≠ 0)
    (hm : x.refs ≠ 0xFFFFFFFF) :
    exec (.hdup w) s = .next (s.onHandle s.myCtx i fun y => { y with refs := y.refs + 1 }).inLine := by
  refine outcome_lineE_noQueue (sh := handleOnlyShape) noQueue_handleOnlyShape h ?_
  rw [run_bind_ok (run_gets _ s), run_bind_ok (run_heldHandle_held hr h0)]
  simp only [if_neg hm, run_change, (ctxOf_of_href hr).1]

/-- HDUP of a handle whose count cannot rise is ILLEGAL_OPERAND at A. -/
theorem exec_hdup_of_full (hr : s.href s.myCtx (low (s.operands handleOnlyShape w).a) = .here i x)
    (hm : x.refs = 0xFFFFFFFF) :
    exec (.hdup w) s = .next (s.raise ⟨cIllegalOperand, operandInfo 1 w.a.toNat, none⟩) := by
  refine outcome_flt (run_lineE_error (sh := handleOnlyShape) noQueue_handleOnlyShape h ?_)
  rw [run_bind_ok (run_gets _ s), run_bind_ok (run_heldHandle_held hr (by omega))]
  simp only [if_pos hm]
  exact run_fault ..

theorem exec_spark_of_stale (hr : s.href s.myCtx (low (s.operands handleOnlyShape w).a) = .stale) :
    exec (.spark w) s = .next (s.raise ⟨cHandleStale, low (s.operands handleOnlyShape w).a, none⟩) := by
  refine outcome_flt (run_lineE_error (sh := handleOnlyShape) noQueue_handleOnlyShape h ?_)
  rw [run_bind_ok (run_gets _ s), run_bind_ok (run_gets _ s), hr]
  exact run_fault ..

/-- SPARK of an entry here queues a spark where the handle is SUSPENDED and the queue has room (R138). -/
theorem exec_spark_of_here {c : Context} (hc : s.ctxOf s.myCtx = some c)
    (hr : s.href s.myCtx (low (s.operands handleOnlyShape w).a) = .here i x) :
    exec (.spark w) s = .next
      (if x.state = .suspended ∧ c.sparks.length < Config.sparkEntries then
        (s.onHandle s.myCtx i fun y => { y with sparked := true }).onCtx s.myCtx fun c =>
          { c with sparks := c.sparks ++ [low (s.operands handleOnlyShape w).a] }
      else s).inLine := by
  refine outcome_lineE_noQueue (sh := handleOnlyShape) noQueue_handleOnlyShape h ?_
  rw [run_bind_ok (run_gets _ s), run_bind_ok (run_gets _ s), hr]
  simp only [run_change, hc]

end

/-- Settles O24, from what each of the four instructions does to a handle by the count and the state of its entry. -/
theorem handlesAreReadCountedAndSparked : Obligations.HandlesAreReadCountedAndSparked := by
  unfold Obligations.HandlesAreReadCountedAndSparked
  refine ⟨fun w s h => ⟨fun i x hr => ?_, exec_hstat_of_stale h⟩, fun w s h => ⟨fun hr mk hmk => ?_, fun i x hr => ?_⟩⟩
  · rw [exec_hstat_of_here h hr]
    cases x.state <;> rfl
  · simp only [List.mem_cons, List.not_mem_nil, or_false] at hmk
    rcases hmk with rfl | rfl | rfl
    · exact exec_spark_of_stale h hr
    · exact exec_drop_of_fault h (run_heldHandle_stale hr)
    · exact exec_hdup_of_fault h (run_heldHandle_stale hr)
  refine ⟨fun h0 mk hmk => ?unheld, exec_hdup_of_held h hr, exec_hdup_of_full h hr, fun h2 => ?shared,
    fun h1 hs => ?unfinished, fun h1 hs => ?finished,
    fun c hc => ⟨fun h1 hs => ?suspended, fun hs hl => ?spark, fun hn => ?noSpark⟩⟩
  case unheld =>
    simp only [List.mem_cons, List.not_mem_nil, or_false] at hmk
    rcases hmk with rfl | rfl
    · exact exec_drop_of_fault h (run_heldHandle_unheld hr h0)
    · exact exec_hdup_of_fault h (run_heldHandle_unheld hr h0)
  case shared => rw [exec_drop_of_held h hr (by omega), drop_of_shared hr (by omega)]
  case unfinished => rw [exec_drop_of_held h hr (by omega), drop_last_of_unfinished hr h1 hs]
  case finished => rw [exec_drop_of_held h hr (by omega), drop_last_of_finished hr h1 hs]
  case suspended => rw [exec_drop_of_held h hr (by omega), drop_last_of_suspended hc hr h1 hs]
  case spark => rw [exec_spark_of_here h hc hr, if_pos ⟨hs, hl⟩]
  case noSpark => rw [exec_spark_of_here h hc hr, if_neg fun hq => hn.elim (· hq.1) (Nat.not_le_of_lt hq.2)]

/-! ## TDONE -/

theorem noQueue_bareShape : bareShape.noQueue = true := rfl

/-- The state once a core's part of its dispatch's task is marked done (R141). -/
def State.marked (s : State) (n k : Nat) : State :=
  (s.onCore n fun c => { c with tdone := true }).onDisp k fun x => { x with
    cores := x.cores.map fun y => if y.cur = n then { y with tdone := true } else y }

/-- All cores have done their part once one has iff it is the last. -/
theorem all_tdone_marked (d : Dispatch) (n : Nat) :
    (d.cores.map fun y => if y.cur = n then { y with tdone := true } else y).all (·.tdone) = lastDone d n := by
  rw [List.all_map, lastDone]
  congr 1
  funext y
  by_cases h : y.cur = n <;> simp [h]

/-- Marking a core keeps what the dispatch's task names. -/
theorem taskIndex_marked (s : State) (n k : Nat) (d : Dispatch) : taskIndex (s.marked n k) d = taskIndex s d := by
  have hr : ∀ h, (s.marked n k).href d.ctx h = s.href d.ctx h := href_congr rfl rfl d.ctx
  unfold taskIndex
  simp only [hr]

section
variable {s : State} {n k : Nat} {d : Dispatch} (hd : s.dispOf n = some (k, d))
include hd

theorem markDone_of_tdone (h : (s.core n).tdone = true) : s.markDone n = s := by
  simp [State.markDone, hd, h]

theorem disp_marked : (s.marked n k).disp k = some { d with
    cores := d.cores.map fun y => if y.cur = n then { y with tdone := true } else y } := by
  have h0 : (s.onCore n fun c => { c with tdone := true }).disp k = some d := disp_of_dispOf (s := s) hd
  rw [State.marked, disp_onDisp_self, h0]
  rfl

/-- The first TDONE of a core marks it (R141). -/
theorem markDone_of_notLast (h : (s.core n).tdone = false) (hl : lastDone d n = false) :
    s.markDone n = s.marked n k := by
  have hm := disp_marked hd
  rw [← all_tdone_marked] at hl
  unfold State.marked at hm ⊢
  simp [State.markDone, hd, h, hm, hl]

/-- The last core's TDONE completes the task (R141, R126). -/
theorem markDone_of_last {i : Nat} (h : (s.core n).tdone = false) (hl : lastDone d n = true)
    (hi : taskIndex s d = some i) : s.markDone n = (s.marked n k).completeHandle d.ctx i := by
  have hm := disp_marked hd
  rw [← all_tdone_marked] at hl
  rw [← taskIndex_marked s n k d] at hi
  unfold State.marked at hm hi ⊢
  simp only [State.markDone, hd, h, hm, hl, hi]
  rfl

end

section
variable {s : State} {w : Norom} (h : s.issues bareShape w = true)
include h

theorem exec_tdone_of_noTask (ht : s.myTask = 0) :
    exec (.tdone w) s = .next (s.raise ⟨cIllegalOpcode, 0x96, none⟩) := by
  refine outcome_flt (run_lineE_error (sh := bareShape) noQueue_bareShape h ?_)
  rw [run_bind_ok (run_gets _ s), ht]
  exact run_bind_error (run_check_false ..)

theorem exec_tdone_of_undrained (ht : s.myTask ≠ 0) (hn : s.drained s.me = false) :
    exec (.tdone w) s = .next (s.enterWait .drain) := by
  refine outcome_wait (run_lineE_error (sh := bareShape) noQueue_bareShape h ?_)
  rw [run_bind_ok (run_gets _ s), decide_eq_true ht, run_bind_ok (run_check_true ..), run_bind_ok (run_gets _ s), hn]
  exact run_bind_error (run_await_false ..)

theorem exec_tdone_of_drained (ht : s.myTask ≠ 0) (hn : s.drained s.me = true) :
    exec (.tdone w) s = .next (s.markDone s.me).inLine := by
  refine outcome_lineE_noQueue (sh := bareShape) noQueue_bareShape h ?_
  rw [run_bind_ok (run_gets _ s), decide_eq_true ht, run_bind_ok (run_check_true ..), run_bind_ok (run_gets _ s), hn,
    run_bind_ok (run_await_true ..), run_change]

end

/-! ## TASK_DISPATCH -/

@[simp] theorem contexts_zeroVa (s : State) (ctx fuel va n : Nat) :
    (s.zeroVa ctx fuel va n).floor.contexts = s.floor.contexts := by
  induction fuel generalizing s va n with
  | zero => rfl
  | succ fuel ih =>
    unfold State.zeroVa
    split
    · rfl
    · simp only [ih]
      split <;> rfl

@[simp] theorem contexts_zeroOutputs (s : State) (ctx : Nat) (x : Handle) :
    (s.zeroOutputs ctx x).floor.contexts = s.floor.contexts := by
  unfold State.zeroOutputs
  exact List.foldlRecOn _ _ (motive := fun t : State => t.floor.contexts = s.floor.contexts) rfl
    fun t ht y _ => (contexts_zeroVa ..).trans ht

section
variable {s : State} {ctx i : Nat} {x : Handle} (hx : s.hget ctx i = some x)
include hx

/-- A claim makes the handle RUNNING and claimed (R126). -/
theorem hget_claimHandle : (s.claimHandle ctx i).hget ctx i = some { x with state := .running, claimed := true } := by
  have h1 : (s.onHandle ctx i fun y => { y with state := .running, claimed := true }).hget ctx i =
      some { x with state := .running, claimed := true } := by rw [hget_onHandle_self, hx]; rfl
  unfold State.claimHandle
  simp only [hx]
  split
  · exact h1
  · rw [hget_eq_bind] at h1 ⊢
    rw [ctxOf_onCtx_self, Option.bind_map]
    exact h1

/-- Only the first claim raises the task count (R126). -/
theorem tcount_claimHandle {c : Context} (hc : s.ctxOf ctx = some c) :
    ((s.claimHandle ctx i).ctxOf ctx).map (·.tcount) = some (if x.claimed then c.tcount else c.tcount + 1) := by
  unfold State.claimHandle
  simp only [hx]
  cases x.claimed <;> simp [hc]

/-- A placed READY handle is claimed, its outputs are zeroed, and its dispatch loads (R125, R126). -/
theorem exec_taskDispatch_of_ready {k : Nat} (ha : s.arg = .handle ctx i) (hp : s.placedFor ctx (s.hword ctx i) = some k)
    (hs : x.state = .ready) : exec .taskDispatch s =
      .next (((s.claimHandle ctx i).zeroOutputs ctx x).soon [.event .dispatchLoad (.disp k)]) := by
  show execTaskDispatch s = _
  simp only [execTaskDispatch, ha, hp, hx, hs, if_true]

/-! ## ARENA_ALLOCATION -/

/-- An allocation that is made, or whose room a running task may still give back, is only tried (R126). -/
theorem exec_arenaAllocation_of_tried {c : Context} {y : Handle} (ha : s.arg = .handle ctx i) (hc : s.ctxOf ctx = some c)
    (hy : (s.tryReady ctx i).hget ctx i = some y) (ht : y.state ≠ .demanded ∨ ¬noneRunning c) :
    exec .arenaAllocation s = .next (s.tryReady ctx i) := by
  show execArenaAllocation s = _
  simp only [execArenaAllocation, ha, hx, hc, hy]
  rw [if_neg]
  rintro ⟨-, -, hd, hn⟩
  exact ht.elim (· hd) (· hn)

/-- A waiting allocation without room fails with ARENA_FULL once no task runs, and an event reports it (R129, R351). -/
theorem exec_arenaAllocation_of_full {c : Context} {y : Handle} (ha : s.arg = .handle ctx i) (hc : s.ctxOf ctx = some c)
    (hs : x.state = .demanded) (hp : x.pending = 0) (hy : (s.tryReady ctx i).hget ctx i = some y)
    (hd : y.state = .demanded) (hn : noneRunning c = true) :
    exec .arenaAllocation s = .next ((s.failHandle ctx i cArenaFull).ctxEvent ⟨ctx, 1, cArenaFull, (whoFloor s).strand,
      (whoFloor s).place, (whoFloor s).pc, handleWord x.gen s.domain.index i, leBytes 8 (askedBytes s ctx x)⟩) := by
  show execArenaAllocation s = _
  simp only [execArenaAllocation, ha, hx, hc, hy]
  rw [if_pos ⟨hs, hp, hd, hn⟩]

end

/-! ## SPARK_TAKE -/

section
variable {s : State} {ctx : Nat} {c : Context} (ha : s.arg = .ctx ctx) (hc : s.ctxOf ctx = some c)
include ha hc

theorem exec_sparkTake_of_busy (hb : s.freeCoreCount = 0 ∨ s.taskWaits = true) : exec .sparkTake s = .next s := by
  show execSparkTake s = _
  simp only [execSparkTake, ha, hc, if_pos hb]

/-- The fizzled sparks before the oldest live one go with it (R138, log entry 78). -/
theorem exec_sparkTake_of_live {old rest : List Word} {h : Word} (hf : s.freeCoreCount ≠ 0) (hw : s.taskWaits = false)
    (hq : c.sparks = old ++ h :: rest) (ho : ∀ g ∈ old, ¬s.sparkLive ctx g) (hl : s.sparkLive ctx h = true) :
    exec .sparkTake s = .next ((s.onCtx ctx fun c => { c with sparks := rest }).demand ctx h 7 0) := by
  have hdrop : c.sparks.dropWhile (fun h => !s.sparkLive ctx h) = h :: rest := by
    rw [hq, List.dropWhile_append_of_pos fun g hg => by simpa using ho g hg]
    simp [hl]
  show execSparkTake s = _
  simp only [execSparkTake, ha, hc, if_neg (show ¬(s.freeCoreCount = 0 ∨ s.taskWaits = true) by simp [hf, hw]), hdrop]

end

/-- Settles O26, from what TDONE, the claim, the waiting allocation and the oldest live spark do in each case. -/
theorem tasksAreClaimedAndCompleted : Obligations.TasksAreClaimedAndCompleted := by
  unfold Obligations.TasksAreClaimedAndCompleted
  refine ⟨fun w s k d h hd => ?tdone, fun s ctx i k x ha hx hp hs => ?dispatch, fun s ctx i x c ha hx hc hs hp => ?arena,
    fun s ctx c ha hc => ?spark⟩
  case tdone =>
    simp only [Bool.not_eq_true]
    refine ⟨exec_tdone_of_noTask h, exec_tdone_of_undrained h, fun ht hn hm => ?_, fun ht hn hm => ⟨fun hl => ?_,
      fun i hl hi => ?_⟩⟩
    · rw [exec_tdone_of_drained h ht hn, markDone_of_tdone hd hm]
    · rw [exec_tdone_of_drained h ht hn, markDone_of_notLast hd hm hl]
      rfl
    · rw [exec_tdone_of_drained h ht hn, markDone_of_last hd hm hl hi]
      rfl
  case dispatch =>
    refine ⟨_, exec_taskDispatch_of_ready hx ha hp hs, ?_, fun c hc => ?_⟩
    · rw [hget_congr (contexts_zeroOutputs ..), hget_claimHandle hx]
    · rw [ctxOf_congr (contexts_zeroOutputs ..), tcount_claimHandle hx hc]
  case arena =>
    refine ⟨fun y => exec_arenaAllocation_of_tried hx ha hc, fun y hy hd hn => ⟨_, ?_, ?_, ?_, ?_,
      exec_arenaAllocation_of_full hx ha hc hs hp hy hd hn⟩⟩ <;> rfl
  case spark =>
    simp only [Bool.not_eq_true]
    refine ⟨exec_sparkTake_of_busy ha hc, fun hf hw old h rest hq ho hl => ?_⟩
    exact exec_sparkTake_of_live ha hc hf hw hq (by simpa using ho) hl

end Sys2Proof.Machine
end

section
/-!
PROOFS. What the instructions that make handles do: SUSP and HMAKE, and TASK with what it waits for
(spec/06_demand_engine.md R119, R129, R135, R136, R140).
-/
namespace Sys2Proof.Machine

open Sys2Proof

/-! ## Handle words -/

section
variable {g : BitVec 20} {home i : Nat}

/-- The three fields of a handle word lie side by side (R119). -/
theorem toNat_handleWord (hh : home < 256) (hi : i < 2 ^ 36) :
    (handleWord g home i).toNat = g.toNat * 2 ^ 44 + home * 2 ^ 36 + i := by
  have hg := g.isLt
  rw [handleWord, BitVec.toNat_ofNat, Nat.mod_eq_of_lt hh, Nat.mod_eq_of_lt hi]
  omega

theorem handleIndex_handleWord (hh : home < 256) (hi : i < 2 ^ 36) : handleIndex (handleWord g home i) = i := by
  rw [handleIndex, toNat_handleWord hh hi]
  omega

theorem handleHome_handleWord (hh : home < 256) (hi : i < 2 ^ 36) : handleHome (handleWord g home i) = home := by
  rw [handleHome, natBits, toNat_handleWord hh hi]
  omega

theorem handleGen_handleWord (hh : home < 256) (hi : i < 2 ^ 36) : handleGen (handleWord g home i) = g := by
  have hg := g.isLt
  apply BitVec.eq_of_toNat_eq
  rw [handleGen, natBits, toNat_handleWord hh hi, BitVec.toNat_ofNat]
  omega

end

/-! ## A new entry -/

/-- The k-th free number passes each number that is taken at most once. -/
theorem Tab.nthFree_le (live : List Nat) (k : Nat) : Tab.nthFree live k ≤ k + live.length := by
  unfold Tab.nthFree
  induction live generalizing k with
  | nil => exact Nat.le_refl k
  | cons u live ih =>
    rw [List.foldl_cons, List.length_cons]
    refine Nat.le_trans (ih _) ?_
    split <;> omega

/-- The entry that a context's table gives a new handle lies below the quota (R119). -/
theorem nthFree_lt_quota {n q : Nat} {used : List Nat} (h : used.length < q) :
    Tab.nthFree used (n % max 1 (q - used.length)) < q := by
  have hk : n % max 1 (q - used.length) < max 1 (q - used.length) := Nat.mod_lt _ (by omega)
  have := Tab.nthFree_le used (n % max 1 (q - used.length))
  omega

/-- A context with room for a handle is one below its quota, in a package whose index a handle word can hold. -/
theorem room_of_roomForHandle {s : State} {ctx : Nat} (h : s.roomForHandle ctx = true) :
    ∃ c, s.ctxOf ctx = some c ∧ c.handles.length < c.hquota ∧ c.hquota ≤ 2 ^ 24 ∧ s.domain.index < 256 := by
  unfold State.roomForHandle at h
  cases hc : s.ctxOf ctx with
  | none => simp [hc] at h
  | some c =>
    simp only [hc, Bool.and_eq_true, decide_eq_true_eq] at h
    obtain ⟨⟨hl, hq⟩, hd⟩ := h
    exact ⟨c, rfl, hl, hq, hd⟩

/-- A change of an entry leaves room for a handle as it is. -/
@[simp] theorem roomForHandle_onHandle (s : State) (ctx i : Nat) (f : Handle → Handle) :
    (s.onHandle ctx i f).roomForHandle ctx = s.roomForHandle ctx := by
  unfold State.roomForHandle
  rw [ctxOf_onHandle, domain_onHandle]
  cases s.ctxOf ctx with
  | none => rfl
  | some c => simp [Tab.modify]

/-- The word that a new handle gets names its entry (R119). -/
theorem href_newHandle {s : State} {ctx : Nat} {x : Handle} (hroom : s.roomForHandle ctx = true)
    (hx : x.state ≠ .empty) : (s.newHandle ctx x).1.href ctx (s.newHandle ctx x).2 =
      .here (handleIndex (s.newHandle ctx x).2) { x with gen := handleGen (s.newHandle ctx x).2 } := by
  obtain ⟨c, hc, hl, hq, hd⟩ := room_of_roomForHandle hroom
  have hi := nthFree_lt_quota (n := Config.freeHandleIndex s.draws) (used := c.handles.map (·.1)) (q := c.hquota)
    (by rwa [List.length_map])
  simp only [State.newHandle, hc]
  generalize Tab.nthFree _ _ = i at hi ⊢
  have hi : i < 2 ^ 36 := by omega
  have hc' : ({ s with draws := s.draws + 1 } : State).ctxOf ctx = some c := hc
  simp [State.href, handleHome_handleWord hd hi, handleIndex_handleWord hd hi, handleGen_handleWord hd hi, hc', hx]

/-! ## References of a new handle -/

section
variable (s : State) (ctx : Nat)

@[simp] theorem domain_referred (l : List Word) : (s.referred ctx l).domain = s.domain := by
  unfold State.referred
  refine List.foldlRecOn _ _ (motive := fun t : State => t.domain = s.domain) rfl fun t ht a _ => ?_
  split <;> exact ht

/-- References leave room for a handle as it is. -/
theorem roomForHandle_referred (l : List Word) :
    (s.referred ctx l).roomForHandle ctx = s.roomForHandle ctx := by
  unfold State.referred
  refine List.foldlRecOn _ _ (motive := fun t : State => t.roomForHandle ctx = s.roomForHandle ctx) rfl
    fun t ht a _ => ?_
  split
  · rwa [roomForHandle_onHandle]
  · exact ht

/-- Making a handle refers to each slot once more and gives it an entry (R126, R135). -/
theorem run_makeHandle (x : Handle) : makeHandle ctx x s =
    .ok (((s.referred ctx x.slots).newHandle ctx x).2, ((s.referred ctx x.slots).newHandle ctx x).1) := rfl

/-- A handle without slots only gets its entry. -/
theorem run_makeHandle_of_noSlots {x : Handle} (hx : x.slots = []) :
    makeHandle ctx x s = .ok ((s.newHandle ctx x).2, (s.newHandle ctx x).1) := by
  rw [run_makeHandle, hx]
  rfl

/-- A context below its quota passes the check of R129. -/
theorem run_quotaCheck (h : s.roomForHandle ctx = true) : quotaCheck ctx s = .ok ((), s) := by
  obtain ⟨c, hc, hl, -, -⟩ := room_of_roomForHandle h
  have : liveHandles c < c.hquota := Nat.lt_of_le_of_lt (List.length_filter_le ..) hl
  rw [quotaCheck, run_bind_ok (run_gets _ s)]
  simp only [hc, decide_eq_false (Nat.not_le_of_lt this), Bool.not_false, run_check_true]

end

/-! ## SUSP -/

/-- A check that passes for each element passes for the list. -/
theorem run_forAll {α : Type} {f : α → M Unit} {s : State} {l : List α} (h : ∀ a ∈ l, f a s = .ok ((), s)) :
    forAll f l s = .ok ((), s) := by
  induction l with
  | nil => rfl
  | cons a l ih =>
    rw [forAll, run_bind_ok (h a (by simp))]
    exact ih fun b hb => h b (by simp [hb])

/-- A slot that names a live entry of this package passes step 3 of R135. -/
theorem run_slotCheck {s : State} {ctx : Nat} {w : Norom} {a : Word} (h : s.liveSlot ctx a = true) :
    slotCheck ctx w a s = .ok ((), s) := by
  unfold State.liveSlot at h
  split at h
  next i x hr =>
    simp only [Bool.and_eq_true, decide_eq_true_eq] at h
    obtain ⟨h0, hc⟩ := h
    rw [slotCheck, run_bind_ok (run_heldHandle_held hr h0)]
    simp only [stateCheck, hc, ne_eq, not_false_eq_true, decide_true, if_true, run_pure]
  next => cases h

section
variable {s u : State} {w : Norom} {bs : List Byte} (h : s.issues handleShape w = true)
include h

/-- An instruction of D and A whose effect ends by giving D a handle. -/
theorem outcome_handleLine {body : Vals → M Unit} {t : State} {x : Word}
    (hb : body (s.operands handleShape w) s = putW w x t) :
    outcome (lineE handleShape w body) s = .next (t.put w.d (wide x)).inLine := by
  refine outcome_lineE_noQueue noQueue_handleShape h (hb.trans (run_putD (takes_of_noQueue fun id => ?_)))
  exact opnd_ne_queue (by decide) rfl (fieldsOk_of_issues h).1 id

/-- SUSP of a good card below the quota and the limit makes the handle, and demands it beyond the high-water mark (R129,
R135). -/
theorem exec_susp_of_good {c : Context} (hr : readCard (low (s.operands handleShape w).a) 128 s = .ok (bs, u))
    (hk : pureCardOk bs = true)
    (hs : ∀ a ∈ (suspHandle (low (s.operands handleShape w).a) bs).slots, u.liveSlot u.myCtx a = true)
    (hroom : u.roomForHandle u.myCtx = true) (hc : u.ctxOf u.myCtx = some c)
    (hl : u.unevaluated u.myCtx [suspHandle (low (s.operands handleShape w).a) bs] ≤ c.lh) :
    exec (.susp w) s = .next (
      let x := suspHandle (low (s.operands handleShape w).a) bs
      let r := (u.referred u.myCtx x.slots).newHandle u.myCtx x
      ((if c.hw < u.unevaluated u.myCtx [x] then r.1.demand u.myCtx r.2 r.1.myClass 0 else r.1).put w.d
        (wide r.2)).inLine) := by
  refine outcome_handleLine h ?_
  rw [run_bind_ok hr, if_pos hk]
  dsimp only
  rw [run_bind_ok (run_gets _ u),
    run_bind_ok (run_forAll fun a ha => run_slotCheck (hs a ha)), run_bind_ok (run_quotaCheck u _ hroom),
    run_bind_ok (run_gets _ u), run_bind_ok (run_gets _ u)]
  simp only [hc, decide_eq_true hl]
  rw [run_bind_ok (run_check_true ..), run_bind_ok (run_makeHandle ..)]
  split <;> rfl

/-! ## HMAKE -/

/-- HMAKE of a descriptor's tile makes a handle of it (R140). -/
theorem exec_hmake_of_good {tile : Tile} (hr : readCard (low (s.operands handleShape w).a) 16 s = .ok (bs, u))
    (ht : tileOf bs = some tile) (hb : tile.base < 2 ^ 57) (hroom : u.roomForHandle u.myCtx = true) :
    exec (.hmake w) s = .next (
      let r := u.newHandle u.myCtx (madeHandle tile (w.mod.getLsbD 0))
      (r.1.put w.d (wide r.2)).inLine) := by
  refine outcome_handleLine h ?_
  rw [run_bind_ok hr]
  simp only [ht, decide_eq_true hb]
  rw [run_bind_ok (run_check_true ..), run_bind_ok (run_gets _ u), run_bind_ok (run_quotaCheck u _ hroom),
    run_bind_ok (run_makeHandle_of_noSlots u _ rfl)]

end

/-! ## TASK -/

section
variable {s u v0 v1 v : State} {w : Norom} {bs fp : List Byte} (h : s.issues handleShape w = true)
  (hr : readCard (low (s.operands handleShape w).a) 128 s = .ok (bs, u)) (hk : cardOk bs = true)
  (hf : readCard (wordAt bs 0x68) 128 u = .ok (fp, v0))
  (he : forAll (entryCheck v0.myCtx w (rawEntries fp)) (rawEntries fp) v0 = .ok ((), v1))
  (hroom : v1.roomForHandle v0.myCtx = true)
  (hw : forAll (walkCheck v0.myCtx) (namedReads (rawEntries fp)) v1 = .ok ((), v))
include h hr hk hf he hroom hw

/-- A TASK whose checks pass waits while the dependence table is full (R136). -/
theorem exec_task_of_full (hd : Config.depEntries ≤ v.depUsed) :
    exec (.task w) s = .next (s.enterWait .depRoom) := by
  refine outcome_wait (run_lineE_error (sh := handleShape) noQueue_handleShape h ?_)
  rw [run_bind_ok hr, if_pos hk]
  dsimp only
  rw [run_bind_ok hf, run_bind_ok (run_gets _ v0),
    run_bind_ok he, run_bind_ok (run_quotaCheck v1 _ hroom), run_bind_ok hw, run_bind_ok (run_gets _ v),
    decide_eq_false (Nat.not_lt_of_le hd)]
  exact run_bind_error (run_await_false ..)

/-- A TASK whose checks pass, with room in the dependence table, makes its handle, becomes the producer of what it
writes and demands what it reads; a read that has failed fails it (R132, R133, R136). -/
theorem exec_task_of_room {foot : List FootEntry} {v' : State} (hd : v.depUsed < Config.depEntries)
    (hv : resolveEntries v0.myCtx (rawEntries fp) v = .ok (foot, v')) :
    exec (.task w) s = .next (
      let ctx := v0.myCtx
      let es := rawEntries fp
      let reads := namedReads es
      let told := State.askAway ctx reads.eraseDups v'
      let x := taskHandle (low (s.operands handleShape w).a) bs foot
        (overlapPreds v' ctx foot ++ reads.filterMap (namedPred v ctx)).eraseDups (told.1.openReads ctx told.2 reads)
      let r := told.1.newHandle ctx x
      let q := awaitReads ctx x.cls told.2 reads ((setProducer ctx r.2 es r.1).sweepVersions ctx)
      ((match q.2 with
        | some cause => q.1.failHandle ctx (handleIndex r.2) cause
        | none => q.1.tryReady ctx (handleIndex r.2)).put w.d (wide r.2)).inLine) := by
  refine outcome_handleLine h ?_
  rw [run_bind_ok hr, if_pos hk]
  dsimp only
  rw [run_bind_ok hf, run_bind_ok (run_gets _ v0),
    run_bind_ok he, run_bind_ok (run_quotaCheck v1 _ hroom), run_bind_ok hw, run_bind_ok (run_gets _ v),
    decide_eq_true hd, run_bind_ok (run_await_true ..), run_bind_ok (run_gets _ v), run_bind_ok hv,
    run_bind_ok (run_gets _ v')]
  have hask : ∀ l, asking v0.myCtx l v' = .ok ((State.askAway v0.myCtx l v').2, (State.askAway v0.myCtx l v').1) :=
    fun _ => rfl
  rw [run_bind_ok (hask _), run_bind_ok (run_gets ..), run_bind_ok (run_makeHandle_of_noSlots _ _ rfl),
    run_bind_ok (run_change ..)]
  generalize awaitReads _ _ _ _ _ = q
  obtain ⟨t, _ | cause⟩ := q <;> rfl

end

/-- Settles O23, from what each of the three instructions does, and from the word of a new handle, which names its
entry. -/
theorem suspHmakeAndTaskMakeHandles : Obligations.SuspHmakeAndTaskMakeHandles := by
  unfold Obligations.SuspHmakeAndTaskMakeHandles
  refine ⟨⟨fun w s u bs h hr hk hs hroom c hc hl => ?susp, fun w s u bs tile h hr ht hb hroom => ?hmake⟩,
    fun w s u v0 v1 v bs fp h hr hk hf he hroom hw => ⟨exec_task_of_full h hr hk hf he hroom hw,
      fun hd foot v' hv hroom' => ?task⟩⟩
  case susp =>
    refine ⟨exec_susp_of_good h hr hk hs hroom hc hl, href_newHandle ?_ nofun, rfl, rfl, rfl⟩
    rwa [roomForHandle_referred]
  case hmake =>
    have hcell : w.mod.getLsbD 0 = decide (w.mod.toNat % 2 = 1) := by
      simp [BitVec.getLsbD, Nat.testBit_zero]
    refine ⟨_, exec_hmake_of_good h hr ht hb hroom, _, href_newHandle hroom ?_, rfl, rfl, rfl, ?_, ?_⟩
    · cases w.mod.getLsbD 0 <;> exact nofun
    · rw [← hcell]; rfl
    · rw [← hcell]; rfl
  case task => exact ⟨exec_task_of_room h hr hk hf he hroom hw hd hv, href_newHandle hroom' nofun⟩

end Sys2Proof.Machine
end

section
/-!
PROOFS. What FORCE does with a handle of each state, and what the walk of R130 answers it (spec/06_demand_engine.md
R130, R133, R134, R137).
-/
namespace Sys2Proof.Machine

open Sys2Proof

/-! ## An instruction that may wait with what it has done -/

section
variable {s t : State} {sh : Shape} {w : Norom} {body : Vals → M (Option (BitVec 13 × Run))}
  (hq : sh.noQueue = true) (h : s.issues sh w = true)
include hq h

/-- An instruction without endpoints whose effect says where E goes on, goes on there. -/
theorem outcome_instrKeep_done {pc : BitVec 13} {run : Run}
    (hb : body (s.operands sh w) s = .ok (some (pc, run), t)) :
    outcome (instrKeep sh w body) s = .next (t.goesOn pc run) := by
  refine outcome_ok ?_
  rw [run_instrKeep h, popped_of_noQueue hq h, run_bind_ok hb]
  rfl

/-- An instruction without endpoints whose effect has entered a wait, waits. -/
theorem outcome_instrKeep_waits (hb : body (s.operands sh w) s = .ok (none, t)) :
    outcome (instrKeep sh w body) s = .next t := by
  refine outcome_ok ?_
  rw [run_instrKeep h, popped_of_noQueue hq h, run_bind_ok hb]
  rfl

/-- An instruction without endpoints whose effect faults, faults. -/
theorem outcome_instrKeep_faults {f : Flt} (hb : body (s.operands sh w) s = .error (.flt f)) :
    outcome (instrKeep sh w body) s = .next (s.raise f) := by
  refine outcome_flt ?_
  rw [run_instrKeep h, popped_of_noQueue hq h, run_bind_error hb]

end

/-! ## The parts of FORCE -/

/-- A FORCE that was not waiting keeps no entry to free at its end. -/
theorem afterForce_of_running {s : State} (hr : s.my.e.run = .running) (o : Host.Outcome State Fault Refusal) :
    afterForce s o = o := by
  unfold afterForce
  cases o <;> simp [hr]

/-- A FORCE that ends gives D its value, and E goes on in line. -/
theorem run_forceEnd {s : State} {w : Norom} (hd : fieldOk s fGd w.d = true) (x : Word) :
    forceEnd w x s = .ok (some ((s.put w.d (wide x)).my.e.pc + 1, .running), s.put w.d (wide x)) := by
  have hp : putW w x s = .ok ((), s.put w.d (wide x)) :=
    run_putD (takes_of_noQueue fun id => opnd_ne_queue (by decide) rfl hd id)
  rw [forceEnd, run_bind_ok hp]
  rfl

theorem run_evalFailed {α : Type} (cause : Byte) (s : State) :
    (evalFailed cause : M α) s = .error (.flt ⟨cEvalFailed, BitVec.ofNat 64 cause.toNat, none⟩) := by
  rw [BitVec.ofNat_toNat]
  rfl

theorem run_keepWaiting (s : State) (k : Wait) : keepWaiting k s = .ok (none, s.enterWait k) := rfl

/-- FORCE of a CELL looks at its current version when it begins (R133, R137). -/
theorem run_forceCell {s : State} {w : Norom} {ctx : Nat} {h : Word} {x : Handle} {v : Version} {rest : List Version}
    (hr : s.my.e.run = .running) (hv : x.versions = v :: rest) (h0 : v.cause = 0) :
    forceCell w ctx h x s = (match v.producer with
      | none => forceEnd w (BitVec.ofNat 64 v.tile.base) s
      | some p => match producerState s ctx p with
        | some none => forceEnd w (BitVec.ofNat 64 v.tile.base) s
        | some (some c) => evalFailed c s
        | none => keepWaiting (.version h v.tile.base p) s) := by
  rw [forceCell, run_bind_ok (run_gets _ s)]
  simp only [hr, hv, h0, ne_eq, not_true_eq_false, if_false]
  cases v.producer with
  | none => rfl
  | some p =>
    simp only [run_bind_ok (run_gets _ s)]
    rcases producerState s ctx p with _ | _ | c <;> rfl

/-- What a producer that is an entry here answers. -/
theorem producerState_of_here {s : State} {ctx j : Nat} {p : Word} {y : Handle} (hy : s.href ctx p = .here j y) :
    producerState s ctx p =
      if y.state = .value then some none else if y.state = .failed then some (some y.cause) else none := by
  rw [producerState, hy]

/-! ## The walk of R130 -/

/-- A handle whose evaluation has not ended. -/
def Handle.unfinished (x : Handle) : Prop :=
  x.state = .suspended ∨ x.state = .demanded ∨ x.state = .ready ∨ x.state = .running

theorem not_done_of_unfinished {x : Handle} (hs : x.unfinished) :
    ¬(x.state = .value ∨ x.state = .cell ∨ x.state = .failed) := by
  unfold Handle.unfinished at hs
  rcases hs with hs | hs | hs | hs <;> simp [hs]

/-- What a walk finds in another package is free: two draws give the fault and its information (log entry 11). -/
theorem run_walkOn (own : Word) (s : State) : walkOn own s =
    if Config.freeRemote s.draws % 3 = 0 ∧ own ≠ 0 then
      .error (.flt ⟨cSelfDependence, BitVec.ofNat 64 (Config.freeRemote (s.draws + 1)), none⟩)
    else if Config.freeRemote s.draws % 3 = 1 then
      .error (.flt ⟨cDemandDepth, BitVec.ofNat 64 (Config.freeRemote (s.draws + 1)), none⟩)
    else .ok ((), { s with draws := s.draws + 2 }) := by
  have hdraw (t : State) :
      draw Config.freeRemote t = .ok (Config.freeRemote t.draws, { t with draws := t.draws + 1 }) := rfl
  rw [walkOn, run_bind_ok (hdraw s), run_bind_ok (hdraw _)]
  have hlt := Nat.mod_lt (Config.freeRemote s.draws) (show 3 > 0 by decide)
  obtain hk | hk | hk : Config.freeRemote s.draws % 3 = 0 ∨ Config.freeRemote s.draws % 3 = 1 ∨
    Config.freeRemote s.draws % 3 = 2 := by omega
  · by_cases ho : own = 0
    · simp only [hk, ho]
      rfl
    · simp only [hk, ho, ne_eq, not_false_eq_true, and_self, if_true, if_false]
      rfl
  · simp only [hk]
    rfl
  · simp only [hk]
    rfl

section
variable {s : State} {ctx i : Nat} {h : Word} {x : Handle} (hx : s.href ctx h = .here i x) (hs : x.unfinished)
include hx hs

/-- The walk from an unfinished handle faults with what it finds here, and goes on where it leaves this package. -/
theorem run_walkCheck : walkCheck ctx h s =
    match s.demandWalk ctx h s.forcer (s.parentDepth ctx s.myTask) with
    | some (cause, info) => .error (.flt ⟨cause, info, none⟩)
    | none => if s.walkAway ctx (s.walkLayer ctx) 65 [h] then walkOn s.forcer s else .ok ((), s) := by
  rw [walkCheck, run_bind_ok (run_gets _ s), hx]
  simp only [if_neg (not_done_of_unfinished hs), run_bind_ok (run_gets _ s)]
  cases s.demandWalk ctx h s.forcer (s.parentDepth ctx s.myTask) with
  | some r => rfl
  | none =>
    simp only [run_bind_ok (run_gets _ s)]
    split <;> rfl

end

/-! ## FORCE -/

section
variable {s : State} {w : Norom} (h : s.issues handleShape w = true) (hr : s.my.e.run = .running)
include h hr

/-- FORCE of an invalid handle is HANDLE_STALE (R134). -/
theorem exec_force_of_stale (hx : s.href s.myCtx (low (s.operands handleShape w).a) = .stale) :
    exec (.force w) s = .next (s.raise ⟨cHandleStale, low (s.operands handleShape w).a, none⟩) := by
  refine (afterForce_of_running hr _).trans (outcome_instrKeep_faults (sh := handleShape) noQueue_handleShape h ?_)
  rw [run_bind_ok (run_gets _ s), run_bind_ok (run_gets _ s), hx]
  exact run_fault ..

/-- A task of another package that forces its own handle depends on itself (R130). -/
theorem exec_force_of_awaySelf (hx : s.href s.myCtx (low (s.operands handleShape w).a) = .away) (h0 : s.forcer ≠ 0)
    (ho : low (s.operands handleShape w).a = s.forcer) :
    exec (.force w) s = .next (s.raise ⟨cSelfDependence, low (s.operands handleShape w).a, none⟩) := by
  refine (afterForce_of_running hr _).trans (outcome_instrKeep_faults (sh := handleShape) noQueue_handleShape h ?_)
  rw [run_bind_ok (run_gets _ s), run_bind_ok (run_gets _ s), hx]
  simp only [forceAway, run_bind_ok (run_gets _ s)]
  rw [decide_eq_false fun hor => hor.elim h0 (· ho)]
  exact run_bind_error (run_check_false ..)

variable {i : Nat} {x : Handle} (hx : s.href s.myCtx (low (s.operands handleShape w).a) = .here i x)
include hx

/-- FORCE of a VALUE gives D the base of its tile (R137). -/
theorem exec_force_of_value (hs : x.state = .value) :
    exec (.force w) s = .next (s.put w.d (wide (BitVec.ofNat 64 x.tile.base))).inLine := by
  refine (afterForce_of_running hr _).trans (outcome_instrKeep_done (sh := handleShape) noQueue_handleShape h ?_)
  rw [run_bind_ok (run_gets _ s), run_bind_ok (run_gets _ s), hx]
  simp only [hs]
  exact run_forceEnd (fieldsOk_of_issues h).1 _

/-- FORCE of a FAILED handle is EVAL_FAILED with its cause (R134). -/
theorem exec_force_of_failed (hs : x.state = .failed) :
    exec (.force w) s = .next (s.raise ⟨cEvalFailed, BitVec.ofNat 64 x.cause.toNat, none⟩) := by
  refine (afterForce_of_running hr _).trans (outcome_instrKeep_faults (sh := handleShape) noQueue_handleShape h ?_)
  rw [run_bind_ok (run_gets _ s), run_bind_ok (run_gets _ s), hx]
  simp only [hs]
  exact run_evalFailed ..

section
variable (hs : x.state = .cell) {v : Version} {rest : List Version} (hv : x.versions = v :: rest) (h0 : v.cause = 0)
include hs hv h0

/-- FORCE of a CELL whose version is written gives D the base of that version (R133). -/
theorem exec_force_of_cell_written
    (hp : ∀ p, v.producer = some p → producerState s s.myCtx p = some none) :
    exec (.force w) s = .next (s.put w.d (wide (BitVec.ofNat 64 v.tile.base))).inLine := by
  refine (afterForce_of_running hr _).trans (outcome_instrKeep_done (sh := handleShape) noQueue_handleShape h ?_)
  rw [run_bind_ok (run_gets _ s), run_bind_ok (run_gets _ s), hx]
  simp only [hs]
  rw [run_forceCell hr hv h0]
  cases hq : v.producer with
  | none => exact run_forceEnd (fieldsOk_of_issues h).1 _
  | some p => simpa only [hp p hq] using run_forceEnd (fieldsOk_of_issues h).1 _

variable {p : Word} (hp : v.producer = some p)
include hp

/-- FORCE of a CELL whose version's producer has failed is EVAL_FAILED with the cause of the producer (R133). -/
theorem exec_force_of_cell_failed {c : Byte} (hc : producerState s s.myCtx p = some (some c)) :
    exec (.force w) s = .next (s.raise ⟨cEvalFailed, BitVec.ofNat 64 c.toNat, none⟩) := by
  refine (afterForce_of_running hr _).trans (outcome_instrKeep_faults (sh := handleShape) noQueue_handleShape h ?_)
  rw [run_bind_ok (run_gets _ s), run_bind_ok (run_gets _ s), hx]
  simp only [hs]
  rw [run_forceCell hr hv h0]
  simpa only [hp, hc] using run_evalFailed ..

/-- FORCE of a CELL whose version is still being written waits for its producer (R133). -/
theorem exec_force_of_cell_unwritten (hc : producerState s s.myCtx p = none) :
    exec (.force w) s =
      .next (s.enterWait (.version (low (s.operands handleShape w).a) v.tile.base p)) := by
  refine (afterForce_of_running hr _).trans (outcome_instrKeep_waits (sh := handleShape) noQueue_handleShape h ?_)
  rw [run_bind_ok (run_gets _ s), run_bind_ok (run_gets _ s), hx]
  simp only [hs]
  rw [run_forceCell hr hv h0]
  simp only [hp, hc, run_keepWaiting]

end

section
variable (hs : x.unfinished)
include hs

/-- FORCE of an unfinished handle faults as the walk does (R130). -/
theorem exec_force_of_walkFault {f : Flt}
    (hw : walkCheck s.myCtx (low (s.operands handleShape w).a) s = .error (.flt f)) :
    exec (.force w) s = .next (s.raise f) := by
  refine (afterForce_of_running hr _).trans (outcome_instrKeep_faults (sh := handleShape) noQueue_handleShape h ?_)
  rw [run_bind_ok (run_gets _ s), run_bind_ok (run_gets _ s), hx]
  rcases hs with hs | hs | hs | hs <;> simp only [hs] <;> exact run_bind_error hw

/-- FORCE of an unfinished handle that the walk passes demands it and waits for it (R137). -/
theorem exec_force_of_walked {t : State}
    (hw : walkCheck s.myCtx (low (s.operands handleShape w).a) s = .ok ((), t)) :
    exec (.force w) s = .next ((t.demand s.myCtx (low (s.operands handleShape w).a) t.myClass t.myTask).enterWait
      (.handle (low (s.operands handleShape w).a))) := by
  refine (afterForce_of_running hr _).trans (outcome_instrKeep_waits (sh := handleShape) noQueue_handleShape h ?_)
  rw [run_bind_ok (run_gets _ s), run_bind_ok (run_gets _ s), hx]
  rcases hs with hs | hs | hs | hs <;> simp only [hs] <;> rw [run_bind_ok hw] <;> rfl

end

end

/-- Settles O25, from what FORCE does with a handle of each state and from what the walk answers. -/
theorem forceAnswersOrWaits : Obligations.ForceAnswersOrWaits := by
  unfold Obligations.ForceAnswersOrWaits
  intro w s h hr
  refine ⟨exec_force_of_stale h hr, fun k d hd ha => ?own, exec_force_of_awaySelf h hr, fun i x hx =>
    ⟨exec_force_of_value h hr hx, exec_force_of_failed h hr hx, fun hs v rest hv h0 => ⟨fun hp => ?unproduced,
      fun p j y hp hy => ?produced⟩, fun hs => ⟨fun h0 => ?noParent, fun j y h0 hy => ?parent,
      fun cause info hd => ?found, fun hd => ?walked⟩⟩⟩
  case own => simp only [State.forcer, hd, ha, Bool.false_and]; rfl
  case unproduced => exact exec_force_of_cell_written h hr hx hs hv h0 (by simp [hp])
  case produced =>
    have hq := producerState_of_here hy
    refine ⟨fun hy => ?_, fun hy => ?_, fun hn hf => ?_⟩
    · refine exec_force_of_cell_written h hr hx hs hv h0 fun p' hp' => ?_
      obtain rfl : p = p' := Option.some.inj (hp.symm.trans hp')
      rw [hq, if_pos hy]
    · exact exec_force_of_cell_failed h hr hx hs hv h0 hp (by simp [hq, hy])
    · exact exec_force_of_cell_unwritten h hr hx hs hv h0 hp (by rw [hq, if_neg hn, if_neg hf])
  case noParent => rw [State.parentDepth, if_pos h0]
  case parent => rw [State.parentDepth, if_neg h0, hy]
  case found => exact exec_force_of_walkFault h hr hx hs (by rw [run_walkCheck hx hs, hd])
  case walked =>
    have hw := run_walkCheck hx hs
    rw [hd] at hw
    refine ⟨fun ha => ?here, fun ha => ?away⟩
    case here => exact exec_force_of_walked h hr hx hs (by simpa [ha] using hw)
    case away =>
      simp only [ha, if_true, run_walkOn] at hw
      split
      · exact exec_force_of_walkFault h hr hx hs (by rw [hw, if_pos ‹_›]; rfl)
      · split
        · exact exec_force_of_walkFault h hr hx hs (by rw [hw, if_neg ‹_›, if_pos ‹_›]; rfl)
        · exact exec_force_of_walked h hr hx hs (by rw [hw, if_neg ‹_›, if_neg ‹_›])

end Sys2Proof.Machine
end

section
/-!
PROOFS. What E leaves when it completes an instruction, what a run of vector registers holds once it is written, and
what a table holds once consecutive keys are replaced (spec/02_instruction_word.md R22, R23, R28).
-/
namespace Sys2Proof.Machine

open Sys2Proof

/-! ## A part of a core that a change keeps -/

section
variable {α : Type} (g : Core → α)

/-- A part of every core that a change of one core keeps. -/
theorem part_core_onCore {f : Core → Core} (hf : ∀ c, g (f c) = g c) (s : State) (n m : Nat) :
    g ((s.onCore n f).core m) = g (s.core m) := by
  by_cases hm : m = n
  · rw [hm, core_onCore_self, hf]
  · rw [core_onCore_other _ _ hm]

/-- A stop for pre-emption keeps every part of a core but its drain. -/
theorem part_core_pointStop (hg : ∀ c d, g { c with drain := d } = g c) (s : State) (n m : Nat) :
    g ((s.pointStop n).core m) = g (s.core m) := by
  obtain h | ⟨p, h⟩ := pointStop_cases s n
  · rw [h]
  · rw [h, part_core_onCore g fun c => hg c _]

/-- The strands that stop with E change the states of L and S and the queues alone (R51). -/
theorem part_settle (hl : ∀ c l, g { c with l := l } = g c) (hs : ∀ c x, g { c with s := x } = g c)
    (hq : ∀ c q, g { c with q := q } = g c) (c : Core) : g c.settle = g c := by
  unfold Core.settle
  split
  · extract_lets l' c1 q' c2 s'
    have h1 : g c1 = g c := by unfold c1; split <;> simp only [hl]
    have h2 : g c2 = g c1 := by unfold c2; split <;> simp only [hq]
    clear_value c1 c2
    split
    · split
      · rw [hs, h2, h1]
      · rw [h2, h1]
    · rw [h2, h1]
  · rfl

end

/-! ## Memory that a change keeps -/

theorem sameMemory.trans {s t u : State} (h1 : sameMemory s t) (h2 : sameMemory t u) : sameMemory s u :=
  fun b => (h2 b).trans (h1 b)

/-- A change that keeps physical memory, the umpires and the spaces of every core keeps memory. -/
theorem sameMemory_of_spaces {s t : State} (hm : t.mem = s.mem) (hc : t.courts = s.courts)
    (hp : ∀ n sp, spaceTab (t.core n) sp = spaceTab (s.core n) sp) : sameMemory s t := by
  intro b
  cases b with
  | mem a => simp only [State.byteOf, hm]
  | pool n sp off => simp only [State.byteOf, hp]
  | umpire n off => simp only [State.byteOf, State.court, hc]

theorem sameMemory_onMy (s : State) {f : Core → Core} (hf : ∀ c sp, spaceTab (f c) sp = spaceTab c sp) :
    sameMemory s (s.onMy f) :=
  sameMemory_of_spaces rfl rfl fun n sp => part_core_onCore (spaceTab · sp) (hf · sp) s _ n

/-! ## E goes on in line -/

/-- What the completion of an instruction does to its core, before the stop at a point of the side table (R331). -/
def State.coreInLine (s : State) (c : Core) : Core :=
  ({ c with
    e := c.e.done (s.listed s.me s.my.e.pc.toNat) (s.my.e.pc + 1) .running
    drain := c.drain.tick
    progress := s.time.toNat } : Core).settle

theorem inLine_eq (s : State) : s.inLine = (s.onMy s.coreInLine).pointStop s.me := rfl

@[simp] theorem cur_pointStop (s : State) (n : Nat) : (s.pointStop n).cur = s.cur := by
  obtain h | ⟨p, h⟩ := pointStop_cases s n <;> rw [h]
  rfl

@[simp] theorem me_inLine (s : State) : s.inLine.me = s.me := by
  rw [inLine_eq, State.me, cur_pointStop]
  rfl

/-- A part of the acting core once E goes on in line: what its completion makes of it. -/
theorem part_my_inLine {α : Type} (g : Core → α) (hg : ∀ c d, g { c with drain := d } = g c) (s : State) :
    g s.inLine.my = g (s.coreInLine s.my) := by
  rw [State.my, me_inLine, inLine_eq, part_core_pointStop g hg]
  exact congrArg g (my_onMy ..)

theorem e_inLine (s : State) :
    s.inLine.my.e = s.my.e.done (s.listed s.me s.my.e.pc.toNat) (s.my.e.pc + 1) .running :=
  (part_my_inLine (·.e) (fun _ _ => rfl) s).trans
    (part_settle (·.e) (fun _ _ => rfl) (fun _ _ => rfl) (fun _ _ => rfl) _)

theorem mx_inLine (s : State) : s.inLine.my.mx = s.my.mx :=
  (part_my_inLine (·.mx) (fun _ _ => rfl) s).trans
    (part_settle (·.mx) (fun _ _ => rfl) (fun _ _ => rfl) (fun _ _ => rfl) _)

@[simp] theorem pc_inLine (s : State) : s.inLine.my.e.pc = s.my.e.pc + 1 := by rw [e_inLine]; rfl

theorem sameRegisters_inLine (s : State) : sameRegisters s s.inLine := by
  unfold sameRegisters
  rw [e_inLine]
  exact ⟨fun _ => rfl, fun _ => rfl, rfl, rfl, rfl, rfl, rfl, rfl⟩

theorem sameMemory_inLine (s : State) : sameMemory s s.inLine := by
  rw [inLine_eq]
  have hdone : sameMemory s (s.onMy s.coreInLine) := sameMemory_onMy s fun c sp =>
    part_settle (spaceTab · sp) (fun _ _ => rfl) (fun _ _ => rfl) (fun _ _ => rfl) _
  refine hdone.trans ?_
  obtain h | ⟨p, h⟩ := pointStop_cases (s.onMy s.coreInLine) s.me <;> rw [h]
  · exact fun _ => rfl
  · exact sameMemory_onMy (s.onMy s.coreInLine) fun _ _ => rfl

/-! ## Runs of vector registers -/

/-- A run of registers without poison reads as its values, in order. -/
theorem run_readRun {s : State} {n k : Nat} (h : ∀ r < k, (Space.vregs, n + r) ∉ s.my.poison.granules) :
    readRun n k s = .ok ((List.range k).map fun r => s.my.e.rdV (n + r), s) := by
  induction k generalizing n with
  | zero => rfl
  | succ k ih =>
    have hrest : ∀ r < k, (Space.vregs, n + 1 + r) ∉ s.my.poison.granules := fun r hr => by
      rw [Nat.add_assoc, Nat.add_comm 1 r]
      exact h (r + 1) (by omega)
    have h0 : (Space.vregs, n) ∉ s.my.poison.granules := h 0 (Nat.zero_lt_succ k)
    rw [readRun, run_bind_ok (run_readV s h0), run_bind_ok (ih hrest), run_pure, List.range_succ_eq_map]
    simp [Function.comp_def, Nat.add_assoc, Nat.add_comm 1]

/-- From s to u the vector registers of the acting E from n on take the values xs; its other registers, the matrix
engine and memory stay as they are. -/
structure WritesRun (s u : State) (n : Nat) (xs : List V128) : Prop where
  written : ∀ (i : Nat) (hi : i < xs.length), u.my.e.rdV (n + i) = xs[i]
  kept : ∀ r, r < n ∨ n + xs.length ≤ r → u.my.e.rdV r = s.my.e.rdV r
  rest : { u.my.e with v := s.my.e.v } = s.my.e
  mx : u.my.mx = s.my.mx
  memory : sameMemory s u

/-- A change of the acting core by a write of one vector register. -/
def Core.wroteV (n : Nat) (x : V128) (c : Core) : Core :=
  let c1 := { c with e := c.e.wrV n x }
  if c.poison.granules = [] then c1
  else { c1 with poison := { c1.poison with granules := c1.poison.granules.filter (· ≠ (Space.vregs, n)) } }

theorem run_writeV (n : Nat) (x : V128) (s : State) : writeV n x s = .ok ((), s.onMy (Core.wroteV n x)) := rfl

@[simp] theorem e_wroteV (n : Nat) (x : V128) (c : Core) : (c.wroteV n x).e = c.e.wrV n x := by
  unfold Core.wroteV; dsimp only; split <;> rfl

@[simp] theorem mx_wroteV (n : Nat) (x : V128) (c : Core) : (c.wroteV n x).mx = c.mx := by
  unfold Core.wroteV; dsimp only; split <;> rfl

@[simp] theorem spaceTab_wroteV (n : Nat) (x : V128) (c : Core) (sp : Space) :
    spaceTab (c.wroteV n x) sp = spaceTab c sp := by
  unfold Core.wroteV; dsimp only; split <;> rfl

theorem run_writeRun (n : Nat) (xs : List V128) (s : State) :
    ∃ u, writeRun n xs s = .ok ((), u) ∧ WritesRun s u n xs := by
  induction xs generalizing n s with
  | nil => exact ⟨s, rfl, fun _ hi => absurd hi (Nat.not_lt_zero _), fun _ _ => rfl, rfl, rfl, fun _ => rfl⟩
  | cons x xs ih =>
    obtain ⟨u, hu, h⟩ := ih (n + 1) (s.onMy (Core.wroteV n x))
    have he : (s.onMy (Core.wroteV n x)).my.e = s.my.e.wrV n x := by rw [my_onMy, e_wroteV]
    refine ⟨u, by rw [writeRun, run_bind_ok (run_writeV ..), hu], ?_, ?_, ?_, ?_, ?_⟩
    · intro i hi
      cases i with
      | zero => rw [Nat.add_zero, h.kept n (by omega), he, EStrand.rdV_wrV_self]; rfl
      | succ i =>
        rw [show n + (i + 1) = n + 1 + i by omega, h.written i (by simpa using hi)]
        rfl
    · intro r hr
      rw [List.length_cons] at hr
      rw [h.kept r (by omega), he, EStrand.rdV_wrV_other _ (by omega)]
    · have hr := h.rest
      rw [he] at hr
      simpa [EStrand.wrV] using congrArg (fun e : EStrand => { e with v := s.my.e.v }) hr
    · rw [h.mx, my_onMy, mx_wroteV]
    · exact (sameMemory_onMy s fun c sp => spaceTab_wroteV n x c sp).trans h.memory

/-- The general registers and the index of E stay as they are. -/
theorem WritesRun.rd {s u : State} {n : Nat} {xs : List V128} (h : WritesRun s u n xs) (r : Nat) :
    u.my.e.rd r = s.my.e.rd r := by
  rw [← h.rest]; rfl

theorem WritesRun.pc {s u : State} {n : Nat} {xs : List V128} (h : WritesRun s u n xs) : u.my.e.pc = s.my.e.pc := by
  rw [← h.rest]

/-! ## Lanes of a register -/

theorem joinLanes_lt (w : Nat) (l : List Nat) : joinLanes w l < 2 ^ (w * l.length) := by
  induction l with
  | nil => simp [joinLanes]
  | cons c l ih =>
    have hc : c % 2 ^ w < 2 ^ w := Nat.mod_lt _ (Nat.two_pow_pos w)
    calc joinLanes w (c :: l) < 2 ^ w * (joinLanes w l + 1) := by rw [joinLanes, Nat.mul_add]; omega
      _ ≤ 2 ^ w * 2 ^ (w * l.length) := Nat.mul_le_mul_left _ ih
      _ = 2 ^ (w * (c :: l).length) := by rw [← Nat.pow_add, List.length_cons, Nat.mul_add, Nat.mul_one, Nat.add_comm]

/-- Lane i of the number that lanes make is the i-th of them; no lane fills the bits above. -/
theorem lane_joinLanes (w : Nat) (l : List Nat) (i : Nat) :
    joinLanes w l / 2 ^ (w * i) % 2 ^ w = (l[i]?).getD 0 % 2 ^ w := by
  induction l generalizing i with
  | nil => simp [joinLanes]
  | cons c l ih =>
    cases i with
    | zero => simp [joinLanes]
    | succ i =>
      have hdiv : joinLanes w (c :: l) / 2 ^ w = joinLanes w l := by
        rw [joinLanes, Nat.add_mul_div_left _ _ (Nat.two_pow_pos w), Nat.mod_div_self, Nat.zero_add]
      rw [Nat.mul_add, Nat.mul_one, Nat.add_comm (w * i), Nat.pow_add, ← Nat.div_div_eq_div_mul, hdiv, ih,
        List.getElem?_cons_succ]

section
variable {w : Nat} {l : List Nat} (h : w * l.length ≤ 128)
include h

theorem toNat_pack : (pack w l).toNat = joinLanes w l := by
  rw [pack, BitVec.toNat_ofNat]
  exact Nat.mod_eq_of_lt (Nat.lt_of_lt_of_le (joinLanes_lt w l) (Nat.pow_le_pow_right (by decide) h))

theorem lane_pack (i : Nat) : lane w (pack w l) i = (l[i]?).getD 0 % 2 ^ w := by
  rw [lane, toNat_pack h, lane_joinLanes]

end

/-! ## Replacing consecutive keys of a table -/

theorem Tab.get_eq_find {α : Type} (d : α) (t : Tab α) (k : Nat) : t.get d k = (t.find k).getD d := by
  induction t with
  | nil => rfl
  | cons p t ih =>
    simp only [Tab.get, Tab.find, ih]
    split <;> rfl

theorem Tab.find_append {α : Type} (a b : Tab α) (k : Nat) : Tab.find (a ++ b) k = (Tab.find a k).or (Tab.find b k) := by
  induction a with
  | nil => rfl
  | cons p a ih =>
    simp only [List.cons_append, Tab.find, ih]
    split <;> rfl

/-- A filter of keys keeps what it finds under a key that passes, and finds nothing under another. -/
theorem Tab.find_filter {α : Type} (p : Nat → Bool) (t : Tab α) (k : Nat) :
    Tab.find (t.filter fun x => p x.1) k = if p k then t.find k else none := by
  induction t with
  | nil => simp [Tab.find]
  | cons x t ih =>
    by_cases hx : p x.1 <;> by_cases hk : k = x.1 <;> simp_all [Tab.find]

section
variable {α : Type} [DecidableEq α] (d : α)

theorem Tab.find_run_of_lt {vs : List α} {lo k : Nat} (h : k < lo) : Tab.find (Tab.run d lo vs) k = none := by
  induction vs generalizing lo with
  | nil => rfl
  | cons v vs ih =>
    rw [Tab.run]
    split
    · exact ih (by omega)
    · rw [Tab.find, if_neg (by omega), ih (by omega)]

/-- A run holds its values from lo on, but for those that an unlisted key reads as. -/
theorem Tab.find_run (vs : List α) (lo i : Nat) : Tab.find (Tab.run d lo vs) (lo + i) = (vs[i]?).filter (· ≠ d) := by
  induction vs generalizing lo i with
  | nil => rfl
  | cons v vs ih =>
    cases i with
    | zero =>
      by_cases hv : v = d
      · simp [Tab.run, hv, Tab.find_run_of_lt d (Nat.lt_succ_self lo), Option.filter]
      · simp [Tab.run, hv, Tab.find, Option.filter]
    | succ i =>
      rw [show lo + (i + 1) = lo + 1 + i by omega, List.getElem?_cons_succ, ← ih, Tab.run]
      split
      · rfl
      · rw [Tab.find, if_neg (by omega)]

theorem Tab.get_splice_outside {t : Tab α} {lo k : Nat} {vs : List α} (h : k < lo ∨ lo + vs.length ≤ k) :
    (t.splice d lo vs).get d k = t.get d k := by
  simp only [Tab.get_eq_find, Tab.splice, Tab.find_append, Tab.find_filter (fun j => decide (j < lo)),
    Tab.find_filter (fun j => decide (lo + vs.length ≤ j))]
  obtain h | h := h
  · rw [if_pos (by simpa using h), if_neg (by simp; omega), Tab.find_run_of_lt d h]
    simp
  · obtain ⟨i, rfl⟩ : ∃ i, k = lo + i := ⟨k - lo, by omega⟩
    rw [if_neg (by simp), if_pos (by simpa using h), Tab.find_run, List.getElem?_eq_none (by omega)]
    rfl

theorem Tab.get_splice {t : Tab α} {lo i : Nat} {vs : List α} (h : i < vs.length) :
    (t.splice d lo vs).get d (lo + i) = vs[i] := by
  simp only [Tab.get_eq_find, Tab.splice, Tab.find_append, Tab.find_filter (fun j => decide (j < lo)),
    Tab.find_filter (fun j => decide (lo + vs.length ≤ j))]
  rw [if_neg (by simp), if_neg (by simp; omega), Tab.find_run, List.getElem?_eq_getElem h]
  by_cases hv : vs[i] = d <;> simp [Option.filter, hv]

end

end Sys2Proof.Machine
end

section
/-!
PROOFS. What the meeting of a gang comes to once every member is at its SCRUM (spec/09_matrix_engine.md R175, R176;
spec/20_faults_errors.md R344).
-/
namespace Sys2Proof.Machine

open Sys2Proof

/-! ## Pieces in order -/

/-- Pieces that each end and leave the state as it is, leave it together. -/
theorem run_allOf_same {l : List (M Unit)} {s : State} (h : ∀ m ∈ l, m s = .ok ((), s)) : allOf l s = .ok ((), s) := by
  induction l with
  | nil => rfl
  | cons m l ih =>
    rw [allOf, run_bind_ok (h m (by simp))]
    exact ih fun x hx => h x (by simp [hx])

/-! ## What the members' SCRUMs name -/

/-- The members name one word iff each names the leader's. -/
theorem words_agree_iff (s : State) (lead : Nat) (rest : List Nat) :
    (((lead :: rest).map fun n => meetingWord (s.core n)).all
      (· = (((lead :: rest).map fun n => meetingWord (s.core n)).head?).getD none)) = true ↔
    ∀ n ∈ lead :: rest, meetingWord (s.core n) = meetingWord (s.core lead) := by
  simp

section
variable {s : State} {lead : Nat} {rest : List Nat}

/-- Members that do not all name the leader's word differ (R176). -/
theorem gangMeets_of_differ (h : ∃ n ∈ lead :: rest, meetingWord (s.core n) ≠ meetingWord (s.core lead)) :
    gangMeets s (lead :: rest) = .differs := by
  have hw : ¬∀ n ∈ lead :: rest, meetingWord (s.core n) = meetingWord (s.core lead) := by simpa using h
  rw [← words_agree_iff, Bool.not_eq_true] at hw
  unfold gangMeets
  simp only [hw, Bool.not_false, if_true]

/-- Members that agree and carry no error stream the leader's rows, and every SCRUM leaves its queue (R176). -/
theorem gangMeets_of_agree (hw : ∀ n ∈ lead :: rest, meetingWord (s.core n) = meetingWord (s.core lead))
    (hc : ∀ n ∈ lead :: rest, memberCheck n s = .ok ((), s)) (hb : ∀ n ∈ lead :: rest, memberBad s n = false)
    {rows : List (List Byte)} {u v x : State} (hu : leaderRows lead s = .ok (rows, u))
    (hv : allOf ((lead :: rest).map (memberStream rows)) u = .ok ((), v))
    (hx : allOf ((lead :: rest).map popMx) v = .ok ((), x)) : gangMeets s (lead :: rest) = .streams x := by
  have hall : allOf ((lead :: rest).map memberCheck) s = .ok ((), s) :=
    run_allOf_same fun m hm => by
      obtain ⟨n, hn, rfl⟩ := List.mem_map.1 hm
      exact hc n hn
  have hbad : (lead :: rest).any (memberBad s) = false := by simpa using hb
  unfold gangMeets
  simp only [(words_agree_iff s lead rest).2 hw, Bool.not_true, Bool.false_eq_true, if_false, hall, hbad,
    run_bind_ok hu, run_bind_ok hv, hx]

end

/-! ## The meeting -/

section
variable {s : State} {n lvl k : Nat} {d : Dispatch} (ha : s.arg = .core n) (hl : scrumHead (s.core n) = some lvl)
  (hd : s.dispOf n = some (k, d))
  (hm : ∀ y ∈ gangOf d (s.core n).lvl lvl, y.retired = false ∧ scrumHead (s.core y.cur) = some lvl)
include hl hd hm

/-- With every member at its SCRUM the meeting is one of all of them (R176). -/
theorem meetingOf_of_all : meetingOf s n =
    ((gangOf d (s.core n).lvl lvl).map (·.cur), gangMeets s ((gangOf d (s.core n).lvl lvl).map (·.cur))) := by
  have hr : (gangOf d (s.core n).lvl lvl).any (·.retired) = false :=
    List.any_eq_false.2 fun y hy => by simp [(hm y hy).1]
  have hat : (gangOf d (s.core n).lvl lvl).all (atMeeting s lvl) = true :=
    List.all_eq_true.2 fun y hy => by simp [atMeeting, hm y hy]
  unfold meetingOf
  simp only [hl, hd, hr, hat, Bool.false_eq_true, if_false, if_true]

include ha in
theorem exec_scrumMeeting_of_all : exec .scrumMeeting s =
    .next ((gangMeets s ((gangOf d (s.core n).lvl lvl).map (·.cur))).ends s k d.ctx
      ((gangOf d (s.core n).lvl lvl).map (·.cur))) := by
  show execScrumMeeting s = _
  unfold execScrumMeeting
  simp only [ha, hd, meetingOf_of_all hl hd hm]

end

/-- Settles O31, from what the meeting of a whole gang comes to when its members differ and when they agree. -/
theorem gangsMeetAndStreamTogether : Obligations.GangsMeetAndStreamTogether := by
  unfold Obligations.GangsMeetAndStreamTogether
  intro s n lvl k d lead rest ha hl hd members hcur hm word fault
  have hexec := exec_scrumMeeting_of_all ha hl hd hm
  rw [show (gangOf d (s.core n).lvl lvl).map (·.cur) = lead :: rest from hcur] at hexec
  have hword : ∀ m, word m = meetingWord (s.core m) := fun m => ?word
  have hfault : fault = gangFault := funext fun t => funext fun m => ?fault
  have hmem : ∀ m, m ∈ lead :: rest ↔ ∃ y ∈ members, y.cur = m := fun m => by rw [← hcur, List.mem_map]
  simp only [hword, hfault]
  refine ⟨fun ⟨y, hy, hne⟩ => ?differ, fun hw hc rows u v x hu hv hx => ?agree⟩
  case differ =>
    rw [hexec, gangMeets_of_differ ⟨y.cur, (hmem _).2 ⟨y, hy, rfl⟩, hne⟩]
    rfl
  case agree =>
    have hall {p : Nat → Prop} (hp : ∀ y ∈ members, p y.cur) : ∀ m ∈ lead :: rest, p m := fun m hm => by
      obtain ⟨y, hy, rfl⟩ := (hmem m).1 hm
      exact hp y hy
    rw [hexec, gangMeets_of_agree (hall hw) (hall fun y hy => (hc y hy).1) (hall fun y hy => (hc y hy).2) hu hv hx]
    rfl
  case word =>
    unfold word meetingWord
    rcases (s.core m).mx.queue with _ | ⟨⟨_, op, _, _, _⟩, _⟩
    · rfl
    · cases op <;> rfl
  case fault =>
    unfold fault gangFault
    rcases (t.core m).mx.queue with _ | ⟨⟨_, op, _, _, _⟩, _⟩
    · rfl
    · cases op <;> rfl

end Sys2Proof.Machine
end

section
/-!
PROOFS. What ACCRD and ACCWR move between a tile row and 22 vector registers (spec/09_matrix_engine.md R179).
-/
namespace Sys2Proof.Machine

open Sys2Proof

/-! ## A tile row in registers -/

/-- The j-th register of a row: its elements from 3 j on, at most three. -/
def rowReg (xs : List Acc40) (j : Nat) : V128 := pack 40 (((xs.drop (3 * j)).take 3).map (·.toNat))

@[simp] theorem length_rowRegs (xs : List Acc40) : (rowRegs xs).length = 22 := by simp [rowRegs]

theorem getElem_rowRegs (xs : List Acc40) {j : Nat} (h : j < (rowRegs xs).length) : (rowRegs xs)[j] = rowReg xs j := by
  simp [rowRegs, rowReg]

/-- Three elements at most take 120 bits. -/
theorem width_three_le (xs : List Acc40) (j : Nat) : 40 * (((xs.drop (3 * j)).take 3).map (·.toNat)).length ≤ 120 := by
  simp only [List.length_map, List.length_take]
  omega

/-- Lane i of the j-th register of a row is element 3 j + i, and zero beyond the row (R179). -/
theorem lane_rowReg (xs : List Acc40) (j : Nat) {i : Nat} (hi : i < 3) :
    lane 40 (rowReg xs j) i = ((xs[3 * j + i]?).map (·.toNat)).getD 0 := by
  rw [rowReg, lane_pack (Nat.le_trans (width_three_le xs j) (by decide)), List.getElem?_map,
    List.getElem?_take_of_lt hi, List.getElem?_drop]
  cases xs[3 * j + i]? with
  | none => rfl
  | some x => exact Nat.mod_eq_of_lt x.isLt

/-- Bits [127:120] of the registers of a row are zero (R179). -/
theorem rowReg_div (xs : List Acc40) (j : Nat) : (rowReg xs j).toNat / 2 ^ 120 = 0 := by
  have hw := width_three_le xs j
  rw [rowReg, toNat_pack (Nat.le_trans hw (by decide))]
  exact Nat.div_eq_of_lt (Nat.lt_of_lt_of_le (joinLanes_lt ..) (Nat.pow_le_pow_right (by decide) hw))

theorem WritesRun.rdV_eq_rowReg {s u : State} {m : Nat} {xs : List Acc40} (h : WritesRun s u m (rowRegs xs)) {j : Nat}
    (hj : j < 22) : u.my.e.rdV (m + j) = rowReg xs j := by
  rw [h.written j (by simpa using hj), getElem_rowRegs]

/-! ## Registers in a tile row -/

/-- The lanes of registers side by side, three to a register. -/
theorem getElem?_flatMap_lanes {α : Type} (f : V128 → Nat → α) (rs : List V128) (i : Nat) :
    (rs.flatMap fun r => (List.range 3).map (f r))[i]? = (rs[i / 3]?).map fun r => f r (i % 3) := by
  induction rs generalizing i with
  | nil => rfl
  | cons r rs ih =>
    rw [List.flatMap_cons]
    by_cases hi : i < 3
    · rw [List.getElem?_append_left (by simpa using hi), Nat.div_eq_of_lt hi, Nat.mod_eq_of_lt hi]
      simp [hi]
    · obtain ⟨j, rfl⟩ : ∃ j, i = j + 3 := ⟨i - 3, by omega⟩
      rw [List.getElem?_append_right (by simp), List.length_map, List.length_range, Nat.add_sub_cancel, ih,
        Nat.add_div_right j (by decide), Nat.add_mod_right]
      rfl

theorem getElem?_regsRow (rs : List V128) {i : Nat} (hi : i < 64) :
    (regsRow rs)[i]? = (rs[i / 3]?).map fun r => BitVec.ofNat 40 (lane 40 r (i % 3)) := by
  rw [regsRow, List.getElem?_take_of_lt hi]
  exact getElem?_flatMap_lanes (fun r i => BitVec.ofNat 40 (lane 40 r i)) rs i

theorem length_flatMap_lanes {α : Type} (f : V128 → Nat → α) (rs : List V128) :
    (rs.flatMap fun r => (List.range 3).map (f r)).length = 3 * rs.length := by
  induction rs with
  | nil => rfl
  | cons r rs ih =>
    rw [List.flatMap_cons, List.length_append, ih, List.length_map, List.length_range, List.length_cons]
    omega

theorem length_regsRow {rs : List V128} (h : rs.length = 22) : (regsRow rs).length = 64 := by
  have hl := length_flatMap_lanes (fun r i => BitVec.ofNat 40 (lane 40 r i)) rs
  rw [regsRow, List.length_take, hl, h]
  rfl

/-! ## Marks of granules -/

section
variable (gs : List (Space × Nat)) (c : Core)

@[simp] theorem e_clearGranules : (clearGranules gs c).e = c.e := by unfold clearGranules; split <;> rfl

@[simp] theorem mx_clearGranules : (clearGranules gs c).mx = c.mx := by unfold clearGranules; split <;> rfl

@[simp] theorem spaceTab_clearGranules (sp : Space) : spaceTab (clearGranules gs c) sp = spaceTab c sp := by
  unfold clearGranules; split <;> rfl

end

/-! ## ACCRD and ACCWR -/

theorem modAcc_eq : modAcc = fun m => decide (m.toNat % 32 = 18) := by
  funext m
  revert m
  decide

theorem noQueue_accrdShape : accrdShape.noQueue = true := rfl
theorem noQueue_accwrShape : accwrShape.noQueue = true := rfl

theorem rowsInForce_eq (s : State) (t : Nat) : s.rowsInForce t = cfgRows s.my.mx.cfgI t := rfl

theorem run_orBadA {p : Prop} [Decidable p] (hp : p) (w : Norom) (s : State) :
    orBadA w (decide p) s = .ok ((), s) := by
  rw [orBadA, decide_eq_true hp]
  rfl

theorem run_tileRowsD {s : State} {t : Nat} (ht : s.rowsInForce t ≠ 0) (w : Norom) :
    tileRowsD w t s = .ok (s.rowsInForce t, s) := by
  rw [rowsInForce_eq] at ht ⊢
  rw [tileRowsD, run_bind_ok (run_gets _ s), if_neg ht]
  rfl

section
variable {s : State} {w : Norom} (h : s.issues accrdShape w = true)
  (hrow : (low (s.operands accrdShape w).b).toNat < s.rowsInForce (specialOf w.a))
include h hrow

/-- ACCRD waits until the engine is idle (R179). -/
theorem exec_accrd_of_busy (hq : s.my.mx.queue ≠ []) : exec (.accrd w) s = .next (s.enterWait .matrixIdle) := by
  show execAccrd w s = _
  unfold execAccrd
  rw [modAcc_eq]
  refine outcome_wait (run_lineE_error (sh := accrdShape) noQueue_accrdShape h ?_)
  rw [rowsInForce_eq, specialOf] at hrow
  dsimp only
  rw [run_bind_ok (run_gets _ s), run_bind_ok (run_orBadA (Nat.ne_zero_of_lt hrow) w s), if_pos hrow,
    run_bind_ok (run_gets _ s), decide_eq_false hq]
  exact run_bind_error (run_await_false ..)

/-- ACCRD writes the registers of the tile row to the run that D names (R179). -/
theorem exec_accrd_of_idle {m : Nat} (hd : opnd w.d = .v m) (hq : s.my.mx.queue = [])
    (hp : tilePoisoned s.my (specialOf w.a) (low (s.operands accrdShape w).b).toNat 1 = false) :
    ∃ u, exec (.accrd w) s = .next u.inLine ∧ WritesRun s u m (rowRegs (Tab.slice 0 s.my.mx.tiles
      (tileRow (specialOf w.a) (low (s.operands accrdShape w).b).toNat) 64)) := by
  obtain ⟨u, hu, hw⟩ := run_writeRun m (rowRegs (Tab.slice 0 s.my.mx.tiles
      (tileRow (specialOf w.a) (low (s.operands accrdShape w).b).toNat) 64)) s
  refine ⟨u, ?_, hw⟩
  show execAccrd w s = _
  unfold execAccrd
  rw [modAcc_eq]
  refine outcome_lineE_noQueue (sh := accrdShape) noQueue_accrdShape h ?_
  rw [rowsInForce_eq] at hrow
  have hv : vecNo w.d = m := by rw [vecNo, hd]
  unfold specialOf at hp hu hrow
  dsimp only
  rw [run_bind_ok (run_gets _ s), run_bind_ok (run_orBadA (Nat.ne_zero_of_lt hrow) w s), if_pos hrow,
    run_bind_ok (run_gets _ s), decide_eq_true hq, run_bind_ok (run_await_true ..),
    run_bind_ok (run_gets _ s), hp, Bool.not_false, run_bind_ok (run_check_true ..), run_bind_ok (run_gets _ s), hv]
  exact hu

end

/-- What ACCWR does to its core: a tile row takes the elements of registers, and its marks go (R179, R347). -/
def Core.wroteTileRow (t row : Nat) (rs : List V128) (c : Core) : Core :=
  clearGranules (rowGranules t row 1)
    { c with mx := { c.mx with tiles := c.mx.tiles.splice 0 (tileRow t row) (regsRow rs) } }

section
variable {s : State} {w : Norom} {m : Nat} (h : s.issues accwrShape w = true) (ha : opnd w.a = .v m)
  (hrow : (low (s.operands accwrShape w).b).toNat < s.rowsInForce (specialOf w.d)) (hm : m + 22 ≤ partVregs s.my.part)
include h ha hrow hm

/-- ACCWR waits until the engine is idle (R179). -/
theorem exec_accwr_of_busy (hq : s.my.mx.queue ≠ []) : exec (.accwr w) s = .next (s.enterWait .matrixIdle) := by
  show execAccwr w s = _
  unfold execAccwr
  rw [modAcc_eq]
  refine outcome_wait (run_lineE_error (sh := accwrShape) noQueue_accwrShape h ?_)
  have hv : vecNo w.a = m := by rw [vecNo, ha]
  rw [← hv] at hm
  unfold specialOf at hrow
  dsimp only
  rw [run_bind_ok (run_tileRowsD (Nat.ne_zero_of_lt hrow) w), run_bind_ok (run_gets _ s),
    run_bind_ok (run_orBadA hm w s), if_pos hrow, run_bind_ok (run_gets _ s),
    decide_eq_false hq]
  exact run_bind_error (run_await_false ..)

/-- ACCWR writes the elements of the run that A names to the tile row (R179). -/
theorem exec_accwr_of_idle (hq : s.my.mx.queue = []) (hp : ∀ r < 22, (Space.vregs, m + r) ∉ s.my.poison.granules) :
    exec (.accwr w) s = .next (s.onMy (Core.wroteTileRow (specialOf w.d) (low (s.operands accwrShape w).b).toNat
      ((List.range 22).map fun r => s.my.e.rdV (m + r)))).inLine := by
  show execAccwr w s = _
  unfold execAccwr
  rw [modAcc_eq]
  refine outcome_lineE_noQueue (sh := accwrShape) noQueue_accwrShape h ?_
  have hv : vecNo w.a = m := by rw [vecNo, ha]
  rw [← hv] at hm hp ⊢
  unfold specialOf at hrow ⊢
  dsimp only
  rw [run_bind_ok (run_tileRowsD (Nat.ne_zero_of_lt hrow) w), run_bind_ok (run_gets _ s),
    run_bind_ok (run_orBadA hm w s), if_pos hrow, run_bind_ok (run_gets _ s),
    decide_eq_true hq, run_bind_ok (run_await_true ..), run_bind_ok (run_readRun hp), run_change]
  rfl

end

/-! ## What a tile row holds afterwards -/

section
variable (s : State) (t row : Nat) (rs : List V128)

theorem e_my_wroteTileRow : (s.onMy (Core.wroteTileRow t row rs)).my.e = s.my.e := by
  rw [my_onMy, Core.wroteTileRow, e_clearGranules]

theorem tiles_my_wroteTileRow : (s.onMy (Core.wroteTileRow t row rs)).my.mx.tiles =
    s.my.mx.tiles.splice 0 (8192 * t + 64 * row) (regsRow rs) := by
  rw [my_onMy, Core.wroteTileRow, mx_clearGranules]
  rfl

theorem sameMemory_wroteTileRow : sameMemory s (s.onMy (Core.wroteTileRow t row rs)) :=
  sameMemory_onMy s fun c sp => by
    rw [Core.wroteTileRow, spaceTab_clearGranules]
    rfl

end

/-- An element that ACCWR writes is its lane of the registers (R179). -/
theorem toNat_get_splice_regsRow (tiles : Tab Acc40) (lo : Nat) {rs : List V128} (hr : rs.length = 22) {i : Nat}
    (hi : i < 64) : ((tiles.splice 0 lo (regsRow rs)).get 0 (lo + i)).toNat =
      lane 40 ((rs[i / 3]?).getD 0) (i % 3) := by
  have hl : i < (regsRow rs).length := by rw [length_regsRow hr]; exact hi
  have hj : i / 3 < rs.length := by omega
  have hx := getElem?_regsRow rs hi
  rw [List.getElem?_eq_getElem hl, List.getElem?_eq_getElem hj] at hx
  rw [Tab.get_splice 0 hl, Option.some.inj hx, List.getElem?_eq_getElem hj]
  exact Nat.mod_eq_of_lt (Nat.mod_lt _ (by decide))

/-- Settles O32, from the run of registers that ACCRD writes and the tile row that ACCWR replaces. -/
theorem accumulatorsMoveToAndFromRegisters : Obligations.AccumulatorsMoveToAndFromRegisters := by
  unfold Obligations.AccumulatorsMoveToAndFromRegisters
  refine ⟨fun w s m h hd => ?accrd, fun w s m h ha => ?accwr⟩
  case accrd =>
    intro t row hrow
    refine ⟨exec_accrd_of_busy h hrow, fun hq hp => ?_⟩
    obtain ⟨u, hu, hw⟩ := exec_accrd_of_idle h hrow hd hq hp
    obtain ⟨hg, hv, -⟩ := sameRegisters_inLine u
    have hreg {j : Nat} (hj : j < 22) := (hv (m + j)).trans (hw.rdV_eq_rowReg hj)
    refine ⟨u.inLine, hu, fun i hi => ?_, fun j hj => ?_, ?_, ?_, fun r hr => ?_, fun r => ?_, ?_, ?_, ?_⟩
    · rw [hreg (by omega), lane_rowReg _ _ (Nat.mod_lt i (by decide)), Nat.div_add_mod]
      simp [Tab.slice, hi, tileRow, t, row]
    · rw [hreg hj, rowReg_div]
    · rw [hreg (by decide), lane_rowReg _ _ (by decide)]
      simp [Tab.slice]
    · rw [hreg (by decide), lane_rowReg _ _ (by decide)]
      simp [Tab.slice]
    · rw [hv, hw.kept r (by rwa [length_rowRegs])]
    · rw [hg, hw.rd]
    · rw [mx_inLine, hw.mx]
    · rw [pc_inLine, hw.pc]
    · exact hw.memory.trans (sameMemory_inLine u)
  case accwr =>
    intro t row hrow hm
    refine ⟨exec_accwr_of_busy h ha hrow hm, fun hq hp => ?_⟩
    have hr : ((List.range 22).map fun r => s.my.e.rdV (m + r)).length = 22 := by simp
    refine ⟨_, exec_accwr_of_idle h ha hrow hm hq hp, fun i hi => ?_, fun i hi => ?_, ?_, ?_, ?_⟩
    · rw [mx_inLine, tiles_my_wroteTileRow, toNat_get_splice_regsRow _ _ hr hi]
      have hj : i / 3 < 22 := by omega
      simp [hj]
    · rw [mx_inLine, tiles_my_wroteTileRow]
      exact Tab.get_splice_outside 0 (by rw [length_regsRow hr]; exact hi)
    · have hs := sameRegisters_inLine (s.onMy (Core.wroteTileRow t row ((List.range 22).map fun r => s.my.e.rdV (m + r))))
      unfold sameRegisters at hs ⊢
      rwa [e_my_wroteTileRow] at hs
    · rw [pc_inLine, e_my_wroteTileRow]
    · exact sameMemory.trans (sameMemory_wroteTileRow s t row _) (sameMemory_inLine _)

end Sys2Proof.Machine
end
